-- ==== Sys2Proof/Word.lean ====
section
/-! DEFINITION. Words, bytes and sparse tables: the plainest data of the model (00 R4, R6). -/

namespace Sys2Proof

/-- A byte of any memory (00 R4). -/
abbrev Byte := BitVec 8

/-- A 64-bit register or dword. -/
abbrev Dword := BitVec 64

/-- A table of like things by number, sorted by key; a key that is not listed reads as the default. -/
abbrev Tab (α : Type) := List (Nat × α)

namespace Tab

/-- The entry of key `k`, or the default `d`. -/
def get {α : Type} (d : α) : Tab α → Nat → α
  | [], _ => d
  | (j, v) :: t, k => if j = k then v else get d t k

/-- Insert or replace the entry of key `k`, keeping the keys in rising order. -/
def ins {α : Type} : Tab α → Nat → α → Tab α
  | [], k, v => [(k, v)]
  | (j, u) :: t, k, v =>
    if j = k then (k, v) :: t
    else if k < j then (k, v) :: (j, u) :: t
    else (j, u) :: ins t k v

/-- Remove every entry of key `k`. -/
def del {α : Type} (t : Tab α) (k : Nat) : Tab α := t.filter (fun e => e.1 ≠ k)

/-- Write `v` at key `k`; writing the default removes the entry, so that equal tables are equal data. -/
def put {α : Type} [DecidableEq α] (d : α) (t : Tab α) (k : Nat) (v : α) : Tab α :=
  if v = d then t.del k else t.ins k v

/-- The entry of key `k`, when it is listed. -/
def find {α : Type} : Tab α → Nat → Option α
  | [], _ => none
  | (j, v) :: t, k => if j = k then some v else find t k

end Tab

end Sys2Proof
end

