-- ==== Sys2Proof/Syntax.lean ====
section
/-! DEFINITION. The instructions, host messages and device events of spec/opcode_table.json: one constructor a row. -/

namespace Sys2Proof

/-- The fields of a D word (07 R186): every D word has them all. -/
structure DArgs where
  delay : BitVec 4
  gc : BitVec 5
  ga : BitVec 3
  t0c : BitVec 5
  t0a : BitVec 2
  t1c : BitVec 5
  t1a : BitVec 2
  t2c : BitVec 5
  t2a : BitVec 2
  /-- source layout entry and parameter register -/
  se : BitVec 5
  sp : BitVec 3
  /-- destination layout entry and parameter register -/
  de : BitVec 5
  dp : BitVec 3
  /-- alias class and extension -/
  cls : BitVec 4
  ext : BitVec 3
  deriving DecidableEq, Repr

/-- The fields of a vector word below its column and op (07 R187). -/
structure VArgs where
  delay : BitVec 4
  ty : BitVec 4
  vd : BitVec 6
  va : BitVec 6
  vb : BitVec 6
  vc : BitVec 6
  mask : BitVec 4
  imm : BitVec 16
  deriving DecidableEq, Repr

/-- The fields of an MC or CT word below its column and op (07 R188). -/
structure MArgs where
  delay : BitVec 4
  gc : BitVec 5
  ga : BitVec 3
  t0c : BitVec 5
  t0a : BitVec 2
  t1c : BitVec 5
  t1a : BitVec 2
  t2c : BitVec 5
  t2a : BitVec 2
  opnd : BitVec 19
  deriving DecidableEq, Repr

/-- A host message past its type: tag, arg and payload (01 R31). -/
structure HostMsg where
  tag : BitVec 32
  arg : BitVec 64
  payload : List Byte
  deriving DecidableEq, Repr

/-- The sequencers that run segments (03 R86). -/
inductive Seq where
  | l | c | w
  deriving DecidableEq, Repr

/-- What a stream port receives (02 R51): the EtherType and the payload. -/
structure RxFrame where
  ethertype : BitVec 16
  payload : List Byte
  deriving DecidableEq, Repr

/-- The kinds of 1588 message (02 R57). -/
inductive PtpKind where
  | sync | followUp | delayReq | delayResp | pdelayReq | pdelayResp | pdelayRespFollowUp
  | announce | signaling | management
  deriving DecidableEq, Repr

/-- How the bytes of a peer package's copy are written (04 R130): `half`: only the low or the high four bits of one byte; the
tag of a tagged entry; `poison`: they come from poisoned words. -/
structure PeerHow where
  half : Option Bool
  tag : Option Byte
  poison : Bool
  deriving DecidableEq, Repr

/-- A link of 18 R374. -/
inductive LinkId where
  | mesh (row : BitVec 4)
  | dieToDie (row : BitVec 4)
  | fabric (port : BitVec 5)
  deriving DecidableEq, Repr

/-- A register of a core, as the debug port names it (01 R25). -/
inductive DebugReg where
  | x (n : BitVec 5) | q (n : BitVec 3) | b (n : BitVec 3) | k (n : BitVec 4)
  | p (unit : Seq) (n : BitVec 3) | v (n : BitVec 6) | m (n : BitVec 4) | lt (n : BitVec 5) | tk (n : BitVec 5)
  | csr (n : BitVec 5)
  deriving DecidableEq, Repr

/-- What the open debug port does (16 R343, 12 R314, 01 R36): a halted core's registers, its resume, single bytes of a slice
or of HBM, and the island's trace. -/
inductive DebugOp where
  | read (r : DebugReg)
  | write (r : DebugReg) (v : BitVec 4096)
  | resume
  | readSlice (offset : BitVec 21)
  | writeSlice (offset : BitVec 21) (v : Byte)
  | readHbm (stack : BitVec 3) (channel : BitVec 8) (row : BitVec 21) (byte : BitVec 8)
  | writeHbm (stack : BitVec 3) (channel : BitVec 8) (row : BitVec 21) (byte : BitVec 8) (v : Byte)
  | trace
  deriving DecidableEq, Repr

/-- A record that a lockstep partner sends (19 R399). -/
structure PairRecord where
  seq : Nat
  rank : Nat
  sequencer : Nat
  ordinal : Nat
  cycles : Nat
  signature : BitVec 32
  digest : BitVec 32
  deriving DecidableEq, Repr

/-- How a node is stopped (19 R385). -/
inductive StopKind where
  | checkpoint | kill | abort
  deriving DecidableEq, Repr

/-- The instructions, host messages and events: one constructor for each row of the opcode table.
A step that only names its place (a core, a quad, a region, a node) takes no argument: the place is `State.cur`,
as the core and unit of a word are. These constructors stand last, which the compiler's limit on tags asks for.
Register fields keep the width their format gives; `WellFormed` says which values the manual admits. -/
inductive Instr where
  -- host messages (01 R32)
  | launch (m : HostMsg)
  | queueCtlDrain (m : HostMsg)
  | queueCtlAbort (m : HostMsg)
  | nodeResume (m : HostMsg)
  | nodeAbort (m : HostMsg)
  | tokenAdd (m : HostMsg)
  | secLoad (m : HostMsg)
  | secGetid (m : HostMsg)
  | secQuote (m : HostMsg)
  | secExtend (m : HostMsg)
  | secKeyset (m : HostMsg)
  | secKeydel (m : HostMsg)
  | secChal (m : HostMsg)
  | secUnlock (m : HostMsg)
  | secSecure (m : HostMsg)
  | secRetire (m : HostMsg)
  | regRead (m : HostMsg)
  | regWrite (m : HostMsg)
  -- writes of device registers with a behaviour of their own
  | sourceCfgWrite (m : HostMsg)
  | regionBind (m : HostMsg)
  | regionUnbind (m : HostMsg)
  | ingestCfgWrite (m : HostMsg)
  | regionPolWrite (m : HostMsg)
  | xcfgEnable (m : HostMsg)
  | xcfgDisable (m : HostMsg)
  | queueCfgWrite (m : HostMsg)
  | partTokensWrite (m : HostMsg)
  | partIlvWrite (m : HostMsg)
  | partInv (m : HostMsg)
  | chanRetiredWrite (m : HostMsg)
  | jrnlCfgWrite (m : HostMsg)
  | jrnlSelWrite (m : HostMsg)
  | errInjWrite (m : HostMsg)
  | thermReasonWrite (m : HostMsg)
  | eccStatRead (m : HostMsg)
  -- dispatch (03, 19)
  -- inside a core and a quad
  /-- `estimate`: the package power estimate in 0.1 W -/
  | boostDecision (quad : BitVec 6) (estimate : Nat)
  /-- `currents`: measured band currents in mA, by 4 quad + band; `estimate`: the region's estimate, averaged over 1 µs,
  and `rails`: the power of the fixed rails, both in 0.1 W -/
  | powerSample (region : BitVec 5) (currents : Tab Nat) (estimate rails : Nat)
  | hardLimitExceeded (estimate : Nat)
  | hardLimitRecovery (estimate : Nat)
  | thermalCut (reason : BitVec 8) (sensor : BitVec 8)
  /-- `err`: phase error in ns; `ask`: the clock the loop asks for, in units of 10 kHz -/
  | sourceTick (region : BitVec 5) (err : Nat) (ask : Nat)
  /-- `frame`: the number of the source frame that begins -/
  | realignResume (region : BitVec 5) (frame : BitVec 64)
  | streamPacketReceive (port : BitVec 2) (f : RxFrame)
  /-- `port`: by its bit in TIME_CFG.ports; `offset`: the measured offset from the master in ns; `best`: what the default data-set comparison finds of this
  package on every enabled port -/
  | ptpMessageReceive (kind : PtpKind) (domain : BitVec 8) (port : BitVec 5) (offset : BitVec 32) (best : Bool)
  | hbmScrub (stack : BitVec 3) (channel : BitVec 8) (row : BitVec 21)
  | flitReplay (link : LinkId)
  | linkRetrain (link : LinkId)
  | linkRetrainFail (link : LinkId)
  | pairRecordCompare (remote : PairRecord)
  | debugPortAccess (core : BitVec 8) (op : DebugOp)
  -- S words (07 R189)
  | add (d a b : BitVec 5) | sub (d a b : BitVec 5) | mul (d a b : BitVec 5) | mulh (d a b : BitVec 5)
  | mulhn (d a b : BitVec 5) | div (d a b : BitVec 5) | divn (d a b : BitVec 5) | rem (d a b : BitVec 5)
  | remn (d a b : BitVec 5) | and (d a b : BitVec 5) | or (d a b : BitVec 5) | xor (d a b : BitVec 5)
  | andn (d a b : BitVec 5) | shl (d a b : BitVec 5) | shr (d a b : BitVec 5) | sar (d a b : BitVec 5)
  | min (d a b : BitVec 5) | max (d a b : BitVec 5)
  | clz (d a : BitVec 5) | popc (d a : BitVec 5)
  | sel (d a b : BitVec 5) (q : BitVec 3)
  | ceq (d a b : BitVec 5) | cne (d a b : BitVec 5) | clt (d a b : BitVec 5) | cle (d a b : BitVec 5)
  | cltn (d a b : BitVec 5) | clen (d a b : BitVec 5)
  | qand (d a b : BitVec 5) | qor (d a b : BitVec 5) | qnot (d a : BitVec 5)
  | kset (d a b : BitVec 5) | kpack (d a : BitVec 5) | kunpk (d a : BitVec 5)
  | kadd (d a b : BitVec 5) | ksub (d a b : BitVec 5) | kcmp (d a b : BitVec 5)
  | ksplit (d a b : BitVec 5) (q : BitVec 3) | kpfx (d a b : BitVec 5)
  | lds (d a b : BitVec 5) (c : BitVec 4) | ldsK (d a b : BitVec 5) (c : BitVec 4)
  | sts (d a b : BitVec 5) (c : BitVec 4) | stsK (d a b : BitVec 5) (c : BitVec 4)
  | ltset (d a : BitVec 5) (c : BitVec 4)
  | aadd (d a b : BitVec 5) (c : BitVec 4) | aaddK (d a b : BitVec 5) (c : BitVec 4)
  | amin (d a b : BitVec 5) (c : BitVec 4) | aminK (d a b : BitVec 5) (c : BitVec 4)
  | amax (d a b : BitVec 5) (c : BitVec 4) | amaxK (d a b : BitVec 5) (c : BitVec 4)
  | axch (d a b : BitVec 5) (c : BitVec 4) | axchK (d a b : BitVec 5) (c : BitVec 4)
  | acas (d a b : BitVec 5) (c : BitVec 4) | acasK (d a b : BitVec 5) (c : BitVec 4)
  | tadd (d a n : BitVec 5) | ttake (d a n : BitVec 5) | twait (d a n : BitVec 5)
  | tread (d a : BitVec 5)
  | gbar (tier : BitVec 5) | fnc (scope : BitVec 5)
  | seg (d a b : BitVec 5) | fmtq (a : BitVec 5) | qdep (d code : BitVec 5) | qflsh (d code : BitVec 5)
  | time (d : BitVec 5) | waitt (a : BitVec 5) | pwrq (d : BitVec 5)
  | lnch (d a : BitVec 5) (q : BitVec 3)

  | trap (n : BitVec 5) | csrr (d n : BitVec 5) | csrw (n a : BitVec 5) | brk (n : BitVec 5)
  | addi (d a : BitVec 5) (imm : BitVec 15) | andi (d a : BitVec 5) (imm : BitVec 15)
  | ori (d a : BitVec 5) (imm : BitVec 15) | xori (d a : BitVec 5) (imm : BitVec 15)
  | shli (d a : BitVec 5) (imm : BitVec 15) | shri (d a : BitVec 5) (imm : BitVec 15)
  | sari (d a : BitVec 5) (imm : BitVec 15) | ceqi (d a : BitVec 5) (imm : BitVec 15)
  | clti (d a : BitVec 5) (imm : BitVec 15) | cltni (d a : BitVec 5) (imm : BitVec 15)
  | liz (d : BitVec 5) (imm : BitVec 20) | lis (d : BitVec 5) (imm : BitVec 20)
  | lic (d : BitVec 5) (imm : BitVec 20)
  | pbr (bt : BitVec 3) (disp : BitVec 20) | pbrLo (bt : BitVec 3) (disp : BitVec 20)
  | pbrr (bt : BitVec 3) (a : BitVec 5) | pbrrLo (bt : BitVec 3) (a : BitVec 5)
  | br (bt q : BitVec 3) (inv : BitVec 1) | brl (bt q : BitVec 3) (inv : BitVec 1)
  | loop (bt q : BitVec 3) (inv : BitVec 1) (a : BitVec 5)
  -- D words (07 R192)
  | tld (w : DArgs) | tst (w : DArgs) | tldr (w : DArgs) | tstr (w : DArgs) | tgr (w : DArgs) | tbc (w : DArgs)
  | gth (w : DArgs) | sct (w : DArgs) | scta (w : DArgs) | rgth (w : DArgs) | fill (w : DArgs)
  | bcpy (w : DArgs) | bcan (w : DArgs) | bstat (w : DArgs) | ingt (w : DArgs) | egr (w : DArgs)
  | xwr (w : DArgs) | xrd (w : DArgs) | dnop (w : DArgs)
  -- vector words (07 R194)
  | vadd (w : VArgs) | vsub (w : VArgs) | vmin (w : VArgs) | vmax (w : VArgs) | vabs (w : VArgs) | vneg (w : VArgs)
  | vand (w : VArgs) | vor (w : VArgs) | vxor (w : VArgs) | vshl (w : VArgs) | vshr (w : VArgs) | vsar (w : VArgs)
  | vcmp (w : VArgs) | vsel (w : VArgs) | vclmp (w : VArgs) | vcvt (w : VArgs) | vwid (w : VArgs) | vnar (w : VArgs)
  | vmul (w : VArgs) | vfma (w : VArgs) | vfms (w : VArgs) | vfnma (w : VArgs) | vmulw (w : VArgs) | vdot (w : VArgs)
  | vmulh (w : VArgs) | vscl (w : VArgs) | vqnt (w : VArgs)
  | vperm (w : VArgs) | vshuf (w : VArgs) | vrot (w : VArgs) | vbc (w : VArgs) | vred (w : VArgs) | vscan (w : VArgs)
  | vsfn (w : VArgs) | vrng (w : VArgs) | vsiev (w : VArgs) | vsdrn (w : VArgs) | vcnt (w : VArgs) | vcmpr (w : VArgs)
  | vexpd (w : VArgs) | vidx (w : VArgs) | vksrt (w : VArgs)
  | vld (w : VArgs) | vst (w : VArgs) | vldg (w : VArgs) | vstg (w : VArgs) | vldb (w : VArgs)
  | oqp (w : VArgs) | oqg (w : VArgs) | vlendLend (w : VArgs) | vlendRet (w : VArgs)
  -- matrix and CT words (07 R194)
  | mlease (w : MArgs) | mrel (w : MArgs) | mshape (w : MArgs) | mldw (w : MArgs) | mswp (w : MArgs) | mmul (w : MArgs)
  | mzacc (w : MArgs) | mdrn (w : MArgs) | mocr (w : MArgs) | mchk (w : MArgs) | mbst (w : MArgs)
  | cnop (w : MArgs) | ctok (w : MArgs)
  -- events listed last in the table
  /-- bytes a peer package's copy writes at `offset` of `core`'s slice -/
  | peerCopyWrite (package : BitVec 13) (core : BitVec 8) (offset : BitVec 21) (bytes : List Byte) (how : PeerHow)
  | ptpMessageTransmit (kind : PtpKind) (port : BitVec 5)
  /-- the primary's number, queue and record of a forwarded lockstep launch -/
  | pairCopyReceive (primary : Nat) (queue : BitVec 6) (rec : List Byte)
  /-- `points`: where the primary names the stop (19 R401) -/
  | pairPreemptionReceive (primary : Nat) (kind : StopKind) (points : List (Nat × Nat))
  | regionQuadsWrite (m : HostMsg)
  | sourcePeriodWrite (m : HostMsg)
  | xperiodWrite (m : HostMsg)
  | partPtbrWrite (m : HostMsg)
  | timeCfgWrite (m : HostMsg)
  | portEgrWrite (m : HostMsg)
  | pairCfgWrite (m : HostMsg)
  -- steps without an argument of their own: each acts on the part that `State.cur` names
  | tokenAddApply | partTokenRefill | partInvComplete | dispatchDecision | launchCycle | sectionLoadFailure
  | deadlineExpiry | stopCycle | checkpointSaveEnd | resumeCycle | completionRecordWrite | teardownComplete
  | segmentStart | segmentRetire | dWordLand | matrixCommandDone | freezeWatchdog | latchedDelivery
  | leaseGrant | leaseRunEnd | boostExpiry | bandIdleGate | bandWakeComplete | powerPredicateClear
  | freezeDutyStep | clockStep | clockGlideEnd | trackingRelock | frameBoundary | sourceMissing
  | sourcePresent | frozenEntry | flimitExpiry | ingestHalfComplete | streamPortLinkLoss | egrDepart
  | xwrApply | xrdCompute | oqEntryArrive | oqCreditReturn | copyStart | copyComplete | copyFailure | bcanAck
  | walkComplete | translationFault | waittResume | streamPortLinkUp | secCommandFinish | packagePowerOn
  | pairLinkLoss | hostLinkRetrain | ncmt | ncmtEnd | eret | nop | hostLinkDown | packagePowerLoss
  deriving DecidableEq, Repr

end Sys2Proof
end

