-- ==== Sys2Proof/WellFormed.lean ====
section
/-! DEFINITION. Which terms of Syntax the manual admits (07 R195, the entries of 08 to 11, 16 R344 to R346). -/

namespace Sys2Proof

/-! ## Element types (05 R135, R136): code 0 to 14 -/

/-- i4, i8, i16, i32, n4, n8, n16, n32. -/
def tyInt (t : BitVec 4) : Bool := t.toNat < 8

/-- bf16, f16, f32. -/
def tyFlt (t : BitVec 4) : Bool := t.toNat = 10 || t.toNat = 11 || t.toNat = 12

/-- Every assigned code. -/
def tyAny (t : BitVec 4) : Bool := t.toNat < 15

/-- Element width in bits. -/
def tyWidth (t : BitVec 4) : Nat :=
  match t.toNat with
  | 0 | 4 => 4
  | 2 | 6 | 10 | 11 => 16
  | 3 | 7 | 12 => 32
  | _ => 8

/-- Elements of one vector register (10 R247). -/
def tyCount (t : BitVec 4) : Nat := 4096 / tyWidth t

/-! ## Field checks -/

/-- A predicate field names q0 to q7 (07 R178). -/
def isQ (f : BitVec 5) : Bool := f.toNat < 8

/-- A curve register field names k0 to k15 (08 R219). -/
def isK (f : BitVec 5) : Bool := f.toNat < 16

/-- A give or take of amount 0 has counter 0 (07 R186, R195). -/
def tokOk (c : BitVec 5) (zero : Bool) : Bool := !zero || c = 0

/-- Token fields of a D word. -/
def DArgs.tokensOk (w : DArgs) : Bool :=
  tokOk w.gc (w.ga = 0) && tokOk w.t0c (w.t0a = 0) && tokOk w.t1c (w.t1a = 0) && tokOk w.t2c (w.t2a = 0)

/-- Token fields of an MC or CT word. -/
def MArgs.tokensOk (w : MArgs) : Bool :=
  tokOk w.gc (w.ga = 0) && tokOk w.t0c (w.t0a = 0) && tokOk w.t1c (w.t1a = 0) && tokOk w.t2c (w.t2a = 0)

/-- A D word with two memory operands and no third operand (09 R226). -/
def DArgs.pairOk (w : DArgs) : Bool := w.tokensOk && w.ext = 0

/-- Bits [hi:lo] of a vector immediate. -/
def VArgs.immf (w : VArgs) (hi lo : Nat) : Nat := w.imm.toNat / 2 ^ lo % 2 ^ (hi + 1 - lo)

/-- Bits [hi:lo] of a matrix operand field. -/
def MArgs.opf (w : MArgs) (hi lo : Nat) : Nat := w.opnd.toNat / 2 ^ lo % 2 ^ (hi + 1 - lo)

/-- Source type of a conversion (10 R258). -/
def VArgs.src (w : VArgs) : BitVec 4 := BitVec.ofNat 4 (w.immf 3 0)

/-- The parameter register rule of conversions (10 R258): vb names p0 to p7 in stochastic or outlier mode, else 0. -/
def VArgs.convOk (w : VArgs) : Bool :=
  w.immf 15 9 = 0 && tyAny w.ty && tyAny w.src &&
    (if w.immf 5 4 = 2 || w.immf 7 7 = 1 then w.vb.toNat < 8 else w.vb = 0)

/-- A register group from `r` of `g` registers is aligned and inside v63 (10 R249). -/
def groupOk (r : BitVec 6) (g : Nat) : Bool := r.toNat % g = 0 && r.toNat + g ≤ 64

/-- A VL memory word names lt0 to lt31 and p0 to p7 (10 R252). -/
def VArgs.vlOk (w : VArgs) : Bool := w.va.toNat < 32 && w.vb.toNat < 8 && w.immf 11 0 = 0

/-- The tile or bank operand of MLDW, MMUL and MDRN (11 R284). -/
def MArgs.tileOk (w : MArgs) : Bool :=
  w.tokensOk && w.opf 6 0 = 0 && (w.opf 18 18 = 0 || (w.opf 17 15 = 0 && w.opf 12 10 = 0))

/-! ## The device register space (01 R38, R39) -/

/-- Which step of the table a register write belongs to. -/
inductive RegRow where
  | plain | sourceCfg | sourcePeriod | bind | regionQuads | ingestCfg | regionPol | xcfg | xperiod
  | timeCfg | thermReason | queueCfg | partTokens | pairCfg | partPtbr | partIlv | partInv | portEgr
  | chanRetired | eccStat | jrnlCfg | jrnlSel | errInj
  deriving DecidableEq, Repr

/-- The register at an offset of the device register space. -/
def regRow (off : Nat) : RegRow :=
  if 0x10000 ≤ off ∧ off < 0x10400 then
    match off % 0x20 with
    | 0 => .sourceCfg | 8 => .sourcePeriod | _ => .plain
  else if 0x20000 ≤ off ∧ off < 0x20800 then
    match off % 0x40 with
    | 0 => .bind | 0x10 => .regionQuads | 0x18 => .ingestCfg | 0x30 => .regionPol | _ => .plain
  else if 0x30000 ≤ off ∧ off < 0x31000 then
    match off % 0x40 with
    | 0 => .xcfg | 8 => .xperiod | _ => .plain
  else if 0x100000 ≤ off ∧ off < 0x140000 then .xperiod
  else if off = 0x50000 then .timeCfg
  else if off = 0x60300 then .thermReason
  else if 0x70000 ≤ off ∧ off < 0x70200 then .queueCfg
  else if 0x70200 ≤ off ∧ off < 0x70280 then .partTokens
  else if off = 0x70408 then .pairCfg
  else if 0x80000 ≤ off ∧ off < 0x80200 then
    match off % 0x20 with
    | 0 => .partPtbr | 8 => .partIlv | 0x10 => .partInv | _ => .plain
  else if 0x90000 ≤ off ∧ off < 0x90040 then .portEgr
  else if 0xB0000 ≤ off ∧ off < 0xB0100 then
    if off % 0x20 = 0x18 then .eccStat else .chanRetired
  else if off = 0xC0000 then .jrnlCfg
  else if off = 0xC0018 then .jrnlSel
  else if 0xD0000 ≤ off ∧ off < 0xD0400 then
    if off % 0x10 = 0 then .errInj else .plain
  else .plain

/-- A payload of 8 bytes as a number, little-endian (00 R4). -/
def leNat : List Byte → Nat
  | [] => 0
  | b :: t => b.toNat + 256 * leNat t

/-- The step that a REG_WRITE of value `v` at offset `off` is (spec/95). -/
def regWriteInstr (m : HostMsg) : Instr :=
  let v := leNat m.payload
  if m.payload.length = 8 ∧ m.arg.toNat % 8 = 0 ∧ m.arg.toNat < 0x140000 then
    match regRow m.arg.toNat with
    | .sourceCfg => .sourceCfgWrite m
    | .sourcePeriod => .sourcePeriodWrite m
    | .bind => if v / 2 ^ 14 % 2 = 1 then .regionBind m else .regionUnbind m
    | .regionQuads => .regionQuadsWrite m
    | .ingestCfg => .ingestCfgWrite m
    | .regionPol => .regionPolWrite m
    | .xcfg => if v / 2 ^ 31 % 2 = 1 then .xcfgEnable m else .xcfgDisable m
    | .xperiod => .xperiodWrite m
    | .timeCfg => .timeCfgWrite m
    | .thermReason => .thermReasonWrite m
    | .queueCfg => .queueCfgWrite m
    | .partTokens => .partTokensWrite m
    | .pairCfg => .pairCfgWrite m
    | .partPtbr => .partPtbrWrite m
    | .partIlv => .partIlvWrite m
    | .partInv => if v % 2 = 1 then .partInv m else .regWrite m
    | .portEgr => .portEgrWrite m
    | .chanRetired => .chanRetiredWrite m
    | .jrnlCfg => .jrnlCfgWrite m
    | .jrnlSel => .jrnlSelWrite m
    | .errInj => .errInjWrite m
    | .eccStat | .plain => .regWrite m
  else .regWrite m

/-- The step that a REG_READ is: ECC_STAT is cleared when read (18 R373). -/
def regReadInstr (m : HostMsg) : Instr :=
  if m.payload = [] ∧ m.arg.toNat % 8 = 0 ∧ regRow m.arg.toNat = .eccStat then .eccStatRead m else .regRead m

/-- The operation field of a QUEUE_CTL message (01 R32). -/
def queueOp (m : HostMsg) : Nat := m.arg.toNat / 256 % 4

/-! ## Well-formed terms -/

/-- A payload that the length field of a message header can count (01 R31). -/
def HostMsg.sized (m : HostMsg) : Bool := m.payload.length < 65536

/-- A SEC_CMD message of command code `c` (01 R32). -/
def HostMsg.secCode (m : HostMsg) (c : Nat) : Bool := m.sized && m.arg.toNat % 256 = c

/-- A term that some word, message or event of the manual stands for. Immediate bits of a vector word of which the word's
entry says nothing (those of VADD to VXOR, VABS, VNEG, VSEL, VCLMP, of the VMUL and VFMA families, of VMULW, VDOT, VSCL,
VPERM, VCMPR and VEXPD, and [11:0] of VLD, VST, VLDB, VLDG and VSTG) must be zero, as 07 R187 says of unused register
fields (the model's choice, log 59). -/
def Instr.wellFormed : Instr → Bool
  -- host messages: the term is the one its message belongs to
  | .queueCtlDrain m => m.sized && queueOp m ≠ 2
  | .queueCtlAbort m => m.sized && queueOp m = 2
  | .regRead m => m.sized && regReadInstr m = .regRead m
  | .eccStatRead m => m.sized && regReadInstr m = .eccStatRead m
  | .regWrite m => m.sized && regWriteInstr m = .regWrite m
  | .sourceCfgWrite m => m.sized && regWriteInstr m = .sourceCfgWrite m
  | .regionBind m => m.sized && regWriteInstr m = .regionBind m
  | .regionUnbind m => m.sized && regWriteInstr m = .regionUnbind m
  | .ingestCfgWrite m => m.sized && regWriteInstr m = .ingestCfgWrite m
  | .regionPolWrite m => m.sized && regWriteInstr m = .regionPolWrite m
  | .xcfgEnable m => m.sized && regWriteInstr m = .xcfgEnable m
  | .xcfgDisable m => m.sized && regWriteInstr m = .xcfgDisable m
  | .queueCfgWrite m => m.sized && regWriteInstr m = .queueCfgWrite m
  | .partTokensWrite m => m.sized && regWriteInstr m = .partTokensWrite m
  | .partIlvWrite m => m.sized && regWriteInstr m = .partIlvWrite m
  | .partInv m => m.sized && regWriteInstr m = .partInv m
  | .chanRetiredWrite m => m.sized && regWriteInstr m = .chanRetiredWrite m
  | .jrnlCfgWrite m => m.sized && regWriteInstr m = .jrnlCfgWrite m
  | .jrnlSelWrite m => m.sized && regWriteInstr m = .jrnlSelWrite m
  | .errInjWrite m => m.sized && regWriteInstr m = .errInjWrite m
  | .thermReasonWrite m => m.sized && regWriteInstr m = .thermReasonWrite m
  | .regionQuadsWrite m => m.sized && regWriteInstr m = .regionQuadsWrite m
  | .sourcePeriodWrite m => m.sized && regWriteInstr m = .sourcePeriodWrite m
  | .xperiodWrite m => m.sized && regWriteInstr m = .xperiodWrite m
  | .partPtbrWrite m => m.sized && regWriteInstr m = .partPtbrWrite m
  | .timeCfgWrite m => m.sized && regWriteInstr m = .timeCfgWrite m
  | .portEgrWrite m => m.sized && regWriteInstr m = .portEgrWrite m
  | .pairCfgWrite m => m.sized && regWriteInstr m = .pairCfgWrite m
  | .launch m | .nodeResume m | .nodeAbort m | .tokenAdd m => m.sized
  | .secLoad m => m.secCode 1
  | .secGetid m => m.secCode 2
  | .secQuote m => m.secCode 3
  | .secExtend m => m.secCode 4
  | .secKeyset m => m.secCode 5
  | .secKeydel m => m.secCode 6
  | .secChal m => m.secCode 7
  | .secUnlock m => m.secCode 8
  | .secSecure m => m.secCode 9
  | .secRetire m => m.secCode 10
  -- events: ranges the device has (01 R11, R27)
  | .hbmScrub _ c r => c.toNat < 160 && r.toNat < 1638400
  | .peerCopyWrite _ _ off bytes how => off.toNat + bytes.length ≤ 2 ^ 21 && (how.half.isNone || bytes.length = 1)
  | .thermalCut r _ => 1 ≤ r.toNat && r.toNat ≤ 4
  | .flitReplay l | .linkRetrain l | .linkRetrainFail l =>
    match l with
    | .mesh r | .dieToDie r => r.toNat < 10
    | .fabric p => p.toNat < 24
  | .tokenAddApply | .secCommandFinish | .partTokenRefill | .partInvComplete | .dispatchDecision
  | .launchCycle | .sectionLoadFailure | .deadlineExpiry | .stopCycle | .checkpointSaveEnd
  | .resumeCycle | .completionRecordWrite | .teardownComplete | .segmentStart | .segmentRetire
  | .dWordLand | .matrixCommandDone | .freezeWatchdog | .latchedDelivery | .leaseGrant | .leaseRunEnd
  | .boostDecision _ _ | .boostExpiry | .bandIdleGate | .bandWakeComplete | .powerSample _ _ _ _
  | .powerPredicateClear | .freezeDutyStep | .clockStep | .clockGlideEnd | .hardLimitExceeded _
  | .hardLimitRecovery _ | .packagePowerOn | .sourceTick _ _ _ | .trackingRelock | .frameBoundary
  | .realignResume _ _ | .sourceMissing | .sourcePresent | .frozenEntry | .flimitExpiry
  | .streamPacketReceive _ _ | .ingestHalfComplete | .ptpMessageReceive _ _ _ _ _ | .streamPortLinkLoss
  | .egrDepart | .xwrApply | .xrdCompute | .oqEntryArrive | .oqCreditReturn | .copyStart
  | .copyComplete | .copyFailure | .bcanAck | .walkComplete | .translationFault
  | .pairRecordCompare _ | .pairLinkLoss | .hostLinkRetrain | .debugPortAccess _ _ | .waittResume | .hostLinkDown
  | .streamPortLinkUp | .packagePowerLoss | .ptpMessageTransmit _ _ | .pairCopyReceive _ _ _
  | .pairPreemptionReceive _ _ _ => true
  -- S words
  | .add _ _ _ | .sub _ _ _ | .mul _ _ _ | .mulh _ _ _ | .mulhn _ _ _ | .div _ _ _ | .divn _ _ _ | .rem _ _ _
  | .remn _ _ _ | .and _ _ _ | .or _ _ _ | .xor _ _ _ | .andn _ _ _ | .shl _ _ _ | .shr _ _ _ | .sar _ _ _
  | .min _ _ _ | .max _ _ _ | .clz _ _ | .popc _ _ | .sel _ _ _ _ => true
  | .ceq d _ _ | .cne d _ _ | .clt d _ _ | .cle d _ _ | .cltn d _ _ | .clen d _ _ => isQ d
  | .qand d a b | .qor d a b => isQ d && isQ a && isQ b
  | .qnot d a => isQ d && isQ a
  | .kset d _ _ | .kpack d _ => isK d
  | .kunpk _ a => isK a
  | .kadd d a b | .ksub d a b => isK d && isK a && isK b
  | .kcmp d a b => isQ d && isK a && isK b
  | .ksplit _ a b _ | .kpfx _ a b => isK a && isK b
  | .lds _ _ _ _ | .sts _ _ _ _ | .ltset _ _ _ | .aadd _ _ _ _ | .amin _ _ _ _ | .amax _ _ _ _ | .axch _ _ _ _ => true
  | .ldsK _ a _ _ | .stsK _ a _ _ | .aaddK _ a _ _ | .aminK _ a _ _ | .amaxK _ a _ _ | .axchK _ a _ _ => isK a
  | .acas d _ _ _ => d.toNat % 2 = 0
  | .acasK d a _ _ => d.toNat % 2 = 0 && isK a
  | .tadd _ _ _ | .ttake _ _ _ | .twait _ _ _ | .tread _ _ => true
  | .gbar t => t.toNat < 5
  | .fnc s => s.toNat < 6
  | .seg d a _ => 1 ≤ d.toNat && d.toNat ≤ 3 && a.toNat ≤ 24
  | .fmtq _ => true
  | .qdep _ c => (1 ≤ c.toNat && c.toNat ≤ 4) || (8 ≤ c.toNat && c.toNat ≤ 19)
  | .qflsh _ c => 1 ≤ c.toNat && c.toNat ≤ 4
  | .time _ | .waitt _ => true
  | .pwrq d => 1 ≤ d.toNat && d.toNat ≤ 7
  | .lnch _ _ _ | .ncmt | .ncmtEnd | .trap _ | .csrr _ _ | .csrw _ _ | .eret | .brk _ | .nop => true
  | .addi _ _ _ | .andi _ _ _ | .ori _ _ _ | .xori _ _ _ => true
  | .shli _ _ i | .shri _ _ i | .sari _ _ i => i.toNat < 64
  | .ceqi d _ _ | .clti d _ _ | .cltni d _ _ => isQ d
  | .liz _ _ | .lis _ _ | .lic _ _ | .pbr _ _ | .pbrLo _ _ | .pbrr _ _ | .pbrrLo _ _ | .br _ _ _ | .brl _ _ _ => true
  | .loop _ _ _ a => a ≠ 0
  -- D words (09 R226)
  | .tld w | .tst w | .tldr w | .tstr w | .tgr w | .tbc w | .bcpy w => w.pairOk
  | .gth w | .sct w | .scta w | .rgth w => w.tokensOk
  | .fill w | .bstat w | .ingt w | .xrd w => w.pairOk && w.se = 0
  | .egr w | .xwr w => w.pairOk && w.de = 0
  | .bcan w => w.pairOk && w.se = 0 && w.de = 0 && w.dp = 0
  | .dnop w => w.pairOk && w.se = 0 && w.sp = 0 && w.de = 0 && w.dp = 0 && w.cls = 0
  -- VA
  | .vadd w | .vsub w | .vmin w | .vmax w => (tyInt w.ty || tyFlt w.ty) && w.vc = 0 && w.imm = 0
  | .vabs w | .vneg w => (tyInt w.ty || tyFlt w.ty) && w.vb = 0 && w.vc = 0 && w.imm = 0
  | .vand w | .vor w | .vxor w => tyAny w.ty && w.vc = 0 && w.imm = 0
  | .vshl w | .vshr w | .vsar w =>
    tyInt w.ty && w.vc = 0 && (if w.immf 15 15 = 0 then w.imm = 0 else w.immf 14 5 = 0 && w.vb = 0)
  | .vcmp w =>
    (tyInt w.ty || tyFlt w.ty) && w.vc = 0 && w.vd.toNat < 16 && w.immf 15 3 = 0 && w.immf 2 0 ≠ 7 &&
      (w.immf 2 0 ≠ 6 || tyFlt w.ty)
  | .vsel w => tyAny w.ty && w.vc.toNat < 16 && w.imm = 0
  | .vclmp w => (tyInt w.ty || tyFlt w.ty) && w.imm = 0
  | .vcvt w => w.convOk && w.immf 8 8 = 0 && w.vc = 0
  | .vwid w =>
    w.convOk && w.immf 8 8 = 0 && w.vc = 0 &&
      (tyWidth w.ty = 2 * tyWidth w.src && groupOk w.vd 2 || tyWidth w.ty = 4 * tyWidth w.src && groupOk w.vd 4)
  | .vnar w =>
    w.convOk && w.vc = 0 && (w.immf 8 8 = 0 || tyInt w.ty && tyInt w.src) &&
      (tyWidth w.src = 2 * tyWidth w.ty && groupOk w.va 2 || tyWidth w.src = 4 * tyWidth w.ty && groupOk w.va 4)
  -- VM
  | .vmul w => (tyInt w.ty || tyFlt w.ty) && w.vc = 0 && w.imm = 0
  | .vfma w | .vfms w | .vfnma w => (tyInt w.ty || tyFlt w.ty) && w.imm = 0
  | .vmulh w => tyInt w.ty && w.vc = 0 && w.imm = 0
  | .vmulw w =>
    (tyInt w.ty && tyWidth w.ty ≠ 32 || w.ty.toNat = 10 || w.ty.toNat = 11) && groupOk w.vd 2 && w.vc = 0 && w.imm = 0
  | .vdot w => [1, 2, 5, 6, 8, 9, 10, 11].contains w.ty.toNat && w.imm = 0
  | .vscl w => tyFlt w.ty && w.vc = 0 && w.imm = 0
  | .vqnt w => w.convOk && w.immf 8 8 = 0 && tyFlt w.src && [1, 8, 9, 13].contains w.ty.toNat
  -- VX
  | .vperm w => tyAny w.ty && (tyWidth w.ty = 16 || tyWidth w.ty = 32) && w.imm = 0
  | .vshuf w => tyAny w.ty && w.vc = 0 && w.immf 15 4 = 0 && w.immf 3 0 < 6 && (w.immf 3 0 < 4 || w.vb = 0)
  | .vrot w => tyAny w.ty && w.vb = 0 && w.vc = 0 && w.immf 15 10 = 0
  | .vbc w => tyAny w.ty && w.vb = 0 && w.vc = 0 && w.immf 15 10 = 0 && w.immf 9 0 < tyCount w.ty
  | .vred w | .vscan w =>
    tyAny w.ty && w.vb = 0 && w.vc = 0 && w.immf 15 3 = 0 && w.immf 2 0 < 6 &&
      (3 ≤ w.immf 2 0 || tyInt w.ty || tyFlt w.ty)
  | .vsfn w => tyFlt w.ty && w.vb = 0 && w.vc = 0 && w.immf 15 3 = 0 && w.immf 2 0 < 6
  | .vrng w =>
    w.va = 0 && w.vc = 0 && w.vb.toNat < 8 && w.immf 15 2 = 0 &&
      (match w.immf 1 0 with
       | 0 => tyInt w.ty
       | 1 => tyAny w.ty && w.vd.toNat < 16
       | 2 => w.ty = 12
       | _ => false)
  | .vsiev w =>
    tyAny w.ty && w.immf 15 7 = 0 &&
      (1 ≤ w.immf 3 2 || w.vb = 0) && (2 ≤ w.immf 3 2 || w.vc = 0) && (3 ≤ w.immf 3 2 || w.vd = 0)
  | .vsdrn w =>
    tyAny w.ty && w.immf 15 8 = 0 && w.va = 0 && w.vb = 0 && w.vc = 0 && w.mask = 0 && w.vd.toNat + 1 + w.immf 3 2 ≤ 63
  | .vcnt w => tyInt w.ty && w.vb = 0 && w.vc = 0 && w.immf 15 2 = 0 && w.immf 1 0 < 3
  | .vcmpr w | .vexpd w => tyAny w.ty && w.vb = 0 && w.vc.toNat < 16 && w.mask = 0 && w.imm = 0
  | .vidx w => tyInt w.ty && w.va = 0 && w.vb = 0 && w.vc = 0
  | .vksrt w =>
    w.ty = 7 && w.vc = 0 && w.immf 15 1 = 0 &&
      (if w.immf 0 0 = 0 then w.vd.toNat + 1 ≤ 63 else w.va.toNat % 2 = 0 && w.vd.toNat + 2 ≤ 63)
  -- VL
  | .vld w | .vst w | .vldb w => tyAny w.ty && w.vlOk && w.vc = 0
  | .vldg w | .vstg w => tyAny w.ty && w.vlOk && (tyWidth w.ty = 16 || tyWidth w.ty = 32)
  | .oqp w => w.ty = 0 && w.va = 0 && w.vb = 0 && w.vc = 0 && w.immf 15 2 = 0 && w.mask = 0
  | .oqg w => w.ty = 0 && w.va = 0 && w.vb = 0 && w.vc = 0 && w.immf 15 2 = 0
  | .vlendLend w =>
    w.ty = 0 && w.vd = 0 && w.va = 0 && w.vb = 0 && w.vc = 0 && w.mask = 0 && w.immf 15 3 = 0 && w.immf 2 2 = 0
  | .vlendRet w =>
    w.ty = 0 && w.vd = 0 && w.va = 0 && w.vb = 0 && w.vc = 0 && w.mask = 0 && w.immf 15 3 = 0 && w.immf 2 2 = 1
  -- MC and CT
  | .mlease w => w.tokensOk && w.opf 18 6 = 0 && w.opf 3 0 ≠ 0
  | .mrel w | .mswp w => w.tokensOk && w.opnd = 0
  | .mshape w => w.tokensOk && w.opf 18 12 = 0 && w.opf 3 0 ≠ 0
  | .mldw w | .mmul w | .mdrn w => w.tileOk
  | .mzacc w | .mocr w => w.tokensOk && w.opf 6 0 = 0 && w.opf 18 10 = 0
  | .mchk w => w.tokensOk && w.opf 6 0 = 0 && w.opf 18 13 = 0
  | .mbst w => w.tokensOk && w.opf 18 16 = 0 && w.opf 15 0 ≠ 0
  | .cnop w =>
    w.gc = 0 && w.ga = 0 && w.t0c = 0 && w.t0a = 0 && w.t1c = 0 && w.t1a = 0 && w.t2c = 0 && w.t2a = 0 && w.opnd = 0
  | .ctok w => w.tokensOk && w.ga ≠ 0 && w.opnd = 0

end Sys2Proof
end

