-- ==== Sys2Proof/Decode.lean ====
section
/-! DEFINITION. Decoding words and host messages, rejecting by name, and the encoder written from the same tables
(07 R184 to R195, 01 R31, R32). -/

namespace Sys2Proof

/-- Why a word or message is no instruction. -/
inductive Reject where
  /-- op, fn, column or mode not assigned (R195) -/
  | unassigned
  /-- a field marked zero is nonzero (00 R7) -/
  | zeroField
  /-- an operand, token, type or value its entry does not admit (R195) -/
  | illFormed
  /-- a host message whose type is not listed (01 R33, reason 0x20) -/
  | unknownType
  /-- bytes that hold no message header or less payload than the header says (01 R31) -/
  | truncated
  deriving DecidableEq, Repr

/-- `n` bits of `w` from bit `lo` up. -/
def fld {m : Nat} (w : BitVec m) (lo n : Nat) : BitVec n := w.extractLsb' lo n

/-- Keep a decoded term only when it is well formed. -/
def keepWf (i : Instr) : Except Reject Instr := if i.wellFormed then .ok i else .error .illFormed

/-- The term, when the fields that its row marks zero are zero. -/
def ifZero (z : Bool) (i : Instr) : Except Reject Instr := if z then keepWf i else .error .zeroField

/-! ## S words (R185, R189) -/

/-- The S instruction of a word. -/
def decodeS (w : BitVec 32) : Except Reject Instr :=
  let d := fld w 20 5
  let a := fld w 15 5
  let b := fld w 10 5
  let fn := fld w 5 5
  let q := fld w 2 3
  let z2 := fld w 0 2
  let cls := fld w 1 4
  let kf := fld w 0 1
  let imm15 := fld w 0 15
  let imm20 := fld w 0 20
  let bt := fld w 22 3
  let mode := fld w 20 2
  let sbq := fld w 19 3
  let inv := fld w 18 1
  let sba := fld w 13 5
  match (fld w 25 7).toNat with
  | 0x01 =>
    let z := q = 0 && z2 = 0
    match fn.toNat with
    | 0 => ifZero z (.add d a b)
    | 1 => ifZero z (.sub d a b)
    | 2 => ifZero z (.mul d a b)
    | 3 => ifZero z (.mulh d a b)
    | 4 => ifZero z (.mulhn d a b)
    | 5 => ifZero z (.div d a b)
    | 6 => ifZero z (.divn d a b)
    | 7 => ifZero z (.rem d a b)
    | 8 => ifZero z (.remn d a b)
    | 9 => ifZero z (.and d a b)
    | 10 => ifZero z (.or d a b)
    | 11 => ifZero z (.xor d a b)
    | 12 => ifZero z (.andn d a b)
    | 13 => ifZero z (.shl d a b)
    | 14 => ifZero z (.shr d a b)
    | 15 => ifZero z (.sar d a b)
    | 16 => ifZero z (.min d a b)
    | 17 => ifZero z (.max d a b)
    | 18 => ifZero (z && b = 0) (.clz d a)
    | 19 => ifZero (z && b = 0) (.popc d a)
    | 20 => ifZero (z2 = 0) (.sel d a b q)
    | _ => .error .unassigned
  | 0x02 =>
    let z := q = 0 && z2 = 0
    match fn.toNat with
    | 0 => ifZero z (.ceq d a b)
    | 1 => ifZero z (.cne d a b)
    | 2 => ifZero z (.clt d a b)
    | 3 => ifZero z (.cle d a b)
    | 4 => ifZero z (.cltn d a b)
    | 5 => ifZero z (.clen d a b)
    | 6 => ifZero z (.qand d a b)
    | 7 => ifZero z (.qor d a b)
    | 8 => ifZero (z && b = 0) (.qnot d a)
    | _ => .error .unassigned
  | 0x03 =>
    let z := q = 0 && z2 = 0
    match fn.toNat with
    | 0 => ifZero z (.kset d a b)
    | 1 => ifZero (z && b = 0) (.kpack d a)
    | 2 => ifZero (z && b = 0) (.kunpk d a)
    | 3 => ifZero z (.kadd d a b)
    | 4 => ifZero z (.ksub d a b)
    | 5 => ifZero z (.kcmp d a b)
    | 6 => ifZero (z2 = 0) (.ksplit d a b q)
    | 7 => ifZero z (.kpfx d a b)
    | _ => .error .unassigned
  | 0x04 =>
    match fn.toNat, kf.toNat with
    | 0, 0 => keepWf (.lds d a b cls)
    | 0, _ => keepWf (.ldsK d a b cls)
    | 1, 0 => keepWf (.sts d a b cls)
    | 1, _ => keepWf (.stsK d a b cls)
    | 3, 0 => keepWf (.aadd d a b cls)
    | 3, _ => keepWf (.aaddK d a b cls)
    | 4, 0 => keepWf (.amin d a b cls)
    | 4, _ => keepWf (.aminK d a b cls)
    | 5, 0 => keepWf (.amax d a b cls)
    | 5, _ => keepWf (.amaxK d a b cls)
    | 6, 0 => keepWf (.axch d a b cls)
    | 6, _ => keepWf (.axchK d a b cls)
    | 7, 0 => keepWf (.acas d a b cls)
    | 7, _ => keepWf (.acasK d a b cls)
    | 2, k => ifZero (b = 0 && k = 0) (.ltset d a cls)
    | _, _ => .error .unassigned
  | 0x05 =>
    let z := q = 0 && z2 = 0
    match fn.toNat with
    | 0 => ifZero z (.tadd d a b)
    | 1 => ifZero z (.ttake d a b)
    | 2 => ifZero z (.twait d a b)
    | 3 => ifZero (z && b = 0) (.tread d a)
    | 4 => ifZero (z && d = 0 && a = 0) (.gbar b)
    | 5 => ifZero (z && d = 0 && a = 0) (.fnc b)
    | _ => .error .unassigned
  | 0x06 =>
    let z := q = 0 && z2 = 0
    match fn.toNat with
    | 0 => ifZero z (.seg d a b)
    | 1 => ifZero (z && d = 0 && b = 0) (.fmtq a)
    | 2 => ifZero (z && a = 0) (.qdep d b)
    | 3 => ifZero (z && a = 0) (.qflsh d b)
    | _ => .error .unassigned
  | 0x07 =>
    match fn.toNat with
    | 0 => ifZero (q = 0 && z2 = 0 && a = 0 && b = 0) (.time d)
    | 1 => ifZero (q = 0 && z2 = 0 && d = 0 && b = 0) (.waitt a)
    | 2 => ifZero (q = 0 && z2 = 0 && a = 0 && b = 0) (.pwrq d)
    | 3 => ifZero (z2 = 0 && b = 0) (.lnch d a q)
    | 4 =>
      if b = 0 then ifZero (q = 0 && z2 = 0 && d = 0 && a = 0) .ncmt
      else if b = 1 then ifZero (q = 0 && z2 = 0 && d = 0 && a = 0) .ncmtEnd
      else .error .illFormed
    | _ => .error .unassigned
  | 0x08 =>
    let z := q = 0 && z2 = 0
    match fn.toNat with
    | 0 => ifZero (z && d = 0 && a = 0) (.trap b)
    | 1 => ifZero (z && a = 0) (.csrr d b)
    | 2 => ifZero (z && d = 0) (.csrw b a)
    | 3 => ifZero (z && d = 0 && a = 0 && b = 0) .eret
    | 4 => ifZero (z && d = 0 && a = 0) (.brk b)
    | 5 => ifZero (z && d = 0 && a = 0 && b = 0) .nop
    | _ => .error .unassigned
  | 16 => keepWf (.addi d a imm15)
  | 17 => keepWf (.andi d a imm15)
  | 18 => keepWf (.ori d a imm15)
  | 19 => keepWf (.xori d a imm15)
  | 20 => keepWf (.shli d a imm15)
  | 21 => keepWf (.shri d a imm15)
  | 22 => keepWf (.sari d a imm15)
  | 23 => keepWf (.ceqi d a imm15)
  | 24 => keepWf (.clti d a imm15)
  | 25 => keepWf (.cltni d a imm15)
  | 28 => keepWf (.liz d imm20)
  | 29 => keepWf (.lis d imm20)
  | 30 => keepWf (.lic d imm20)
  | 0x20 =>
    if mode = 0 then keepWf (.pbr bt imm20) else if mode = 1 then keepWf (.pbrLo bt imm20) else .error .unassigned
  | 0x21 =>
    if mode = 0 then ifZero (imm15 = 0) (.pbrr bt a)
    else if mode = 1 then ifZero (imm15 = 0) (.pbrrLo bt a) else .error .unassigned
  | 0x22 => ifZero (sba = 0 && fld w 0 13 = 0) (.br bt sbq inv)
  | 0x23 => ifZero (sba = 0 && fld w 0 13 = 0) (.brl bt sbq inv)
  | 0x24 => ifZero (fld w 0 13 = 0) (.loop bt sbq inv sba)
  | _ => .error .unassigned

/-! ## D words (R186, R192) -/

/-- The fields of a D word. -/
def dArgs (w : BitVec 64) : DArgs where
  delay := fld w 52 4
  gc := fld w 47 5
  ga := fld w 44 3
  t0c := fld w 39 5
  t0a := fld w 37 2
  t1c := fld w 32 5
  t1a := fld w 30 2
  t2c := fld w 25 5
  t2a := fld w 23 2
  se := fld w 18 5
  sp := fld w 15 3
  de := fld w 10 5
  dp := fld w 7 3
  cls := fld w 3 4
  ext := fld w 0 3

/-- The D instruction of a word, whichever of L and W runs it. -/
def decodeD (w : BitVec 64) : Except Reject Instr :=
  let a := dArgs w
  match (fld w 56 8).toNat with
  | 0x01 => keepWf (.tld a)
  | 0x02 => keepWf (.tst a)
  | 0x03 => keepWf (.tldr a)
  | 0x04 => keepWf (.tstr a)
  | 0x05 => keepWf (.tgr a)
  | 0x06 => keepWf (.tbc a)
  | 0x07 => keepWf (.gth a)
  | 0x08 => keepWf (.sct a)
  | 0x09 => keepWf (.scta a)
  | 0x0A => keepWf (.rgth a)
  | 0x0B => keepWf (.fill a)
  | 0x10 => keepWf (.bcpy a)
  | 0x11 => keepWf (.bcan a)
  | 0x12 => keepWf (.bstat a)
  | 0x18 => keepWf (.ingt a)
  | 0x19 => keepWf (.egr a)
  | 0x1A => keepWf (.xwr a)
  | 0x1B => keepWf (.xrd a)
  | 0x3F => keepWf (.dnop a)
  | _ => .error .unassigned

/-! ## Column words (R187, R188, R194) -/

/-- The fields of a vector word. -/
def vArgs (w : BitVec 64) : VArgs where
  delay := fld w 56 4
  ty := fld w 44 4
  vd := fld w 38 6
  va := fld w 32 6
  vb := fld w 26 6
  vc := fld w 20 6
  mask := fld w 16 4
  imm := fld w 0 16

/-- The fields of an MC or CT word. -/
def mArgs (w : BitVec 64) : MArgs where
  delay := fld w 56 4
  gc := fld w 43 5
  ga := fld w 40 3
  t0c := fld w 35 5
  t0a := fld w 33 2
  t1c := fld w 28 5
  t1a := fld w 26 2
  t2c := fld w 21 5
  t2a := fld w 19 2
  opnd := fld w 0 19

/-- The column instruction of a word of a C segment. -/
def decodeC (w : BitVec 64) : Except Reject Instr :=
  let v := vArgs w
  let m := mArgs w
  match (fld w 60 4).toNat, (fld w 48 8).toNat with
  | 0, 0x01 => keepWf (.vadd v)
  | 0, 0x02 => keepWf (.vsub v)
  | 0, 0x03 => keepWf (.vmin v)
  | 0, 0x04 => keepWf (.vmax v)
  | 0, 0x05 => keepWf (.vabs v)
  | 0, 0x06 => keepWf (.vneg v)
  | 0, 0x07 => keepWf (.vand v)
  | 0, 0x08 => keepWf (.vor v)
  | 0, 0x09 => keepWf (.vxor v)
  | 0, 0x0A => keepWf (.vshl v)
  | 0, 0x0B => keepWf (.vshr v)
  | 0, 0x0C => keepWf (.vsar v)
  | 0, 0x0D => keepWf (.vcmp v)
  | 0, 0x0E => keepWf (.vsel v)
  | 0, 0x0F => keepWf (.vclmp v)
  | 0, 0x10 => keepWf (.vcvt v)
  | 0, 0x11 => keepWf (.vwid v)
  | 0, 0x12 => keepWf (.vnar v)
  | 1, 0x01 => keepWf (.vmul v)
  | 1, 0x02 => keepWf (.vfma v)
  | 1, 0x03 => keepWf (.vfms v)
  | 1, 0x04 => keepWf (.vfnma v)
  | 1, 0x05 => keepWf (.vmulw v)
  | 1, 0x06 => keepWf (.vdot v)
  | 1, 0x07 => keepWf (.vmulh v)
  | 1, 0x08 => keepWf (.vscl v)
  | 1, 0x09 => keepWf (.vqnt v)
  | 2, 0x01 => keepWf (.vperm v)
  | 2, 0x02 => keepWf (.vshuf v)
  | 2, 0x03 => keepWf (.vrot v)
  | 2, 0x04 => keepWf (.vbc v)
  | 2, 0x05 => keepWf (.vred v)
  | 2, 0x06 => keepWf (.vscan v)
  | 2, 0x07 => keepWf (.vsfn v)
  | 2, 0x08 => keepWf (.vrng v)
  | 2, 0x09 => keepWf (.vsiev v)
  | 2, 0x0A => keepWf (.vsdrn v)
  | 2, 0x0B => keepWf (.vcnt v)
  | 2, 0x0C => keepWf (.vcmpr v)
  | 2, 0x0D => keepWf (.vexpd v)
  | 2, 0x0E => keepWf (.vidx v)
  | 2, 0x0F => keepWf (.vksrt v)
  | 3, 0x01 => keepWf (.vld v)
  | 3, 0x02 => keepWf (.vst v)
  | 3, 0x03 => keepWf (.vldg v)
  | 3, 0x04 => keepWf (.vstg v)
  | 3, 0x05 => keepWf (.vldb v)
  | 3, 0x06 => keepWf (.oqp v)
  | 3, 0x07 => keepWf (.oqg v)
  | 3, 0x08 => if fld w 2 1 = 0 then keepWf (.vlendLend v) else keepWf (.vlendRet v)
  | 4, 0x01 => keepWf (.mlease m)
  | 4, 0x02 => keepWf (.mrel m)
  | 4, 0x03 => keepWf (.mshape m)
  | 4, 0x04 => keepWf (.mldw m)
  | 4, 0x05 => keepWf (.mswp m)
  | 4, 0x06 => keepWf (.mmul m)
  | 4, 0x07 => keepWf (.mzacc m)
  | 4, 0x08 => keepWf (.mdrn m)
  | 4, 0x09 => keepWf (.mocr m)
  | 4, 0x0A => keepWf (.mchk m)
  | 4, 0x0B => keepWf (.mbst m)
  | 5, 0x00 => keepWf (.cnop m)
  | 5, 0x01 => keepWf (.ctok m)
  | _, _ => .error .unassigned

/-! ## Host messages (01 R31, R32) -/

/-- Little-endian bytes of a number. -/
def leBytes : Nat → Nat → List Byte
  | 0, _ => []
  | n + 1, v => BitVec.ofNat 8 v :: leBytes n (v / 256)

/-- The step a message of type `t` is. -/
def messageInstr (t : Nat) (m : HostMsg) : Except Reject Instr :=
  match t with
  | 0x0001 => .ok (.launch m)
  | 0x0002 => .ok (if queueOp m = 2 then .queueCtlAbort m else .queueCtlDrain m)
  | 0x0003 => .ok (.nodeResume m)
  | 0x0004 => .ok (.nodeAbort m)
  | 0x0005 => .ok (.tokenAdd m)
  | 0x0010 =>
    match m.arg.toNat % 256 with
    | 1 => .ok (.secLoad m)
    | 2 => .ok (.secGetid m)
    | 3 => .ok (.secQuote m)
    | 4 => .ok (.secExtend m)
    | 5 => .ok (.secKeyset m)
    | 6 => .ok (.secKeydel m)
    | 7 => .ok (.secChal m)
    | 8 => .ok (.secUnlock m)
    | 9 => .ok (.secSecure m)
    | 10 => .ok (.secRetire m)
    | _ => .error .illFormed
  | 0x0020 => .ok (regReadInstr m)
  | 0x0021 => .ok (regWriteInstr m)
  | _ => .error .unknownType

/-- A host message from its bytes: the 16-byte header and the payload it counts. -/
def parseMessage (bs : List Byte) : Except Reject (Nat × HostMsg) :=
  let len := leNat ((bs.drop 2).take 2)
  if bs.length < 16 ∨ bs.length ≠ 16 + len then .error .truncated
  else
    .ok (leNat (bs.take 2),
      { tag := BitVec.ofNat 32 (leNat ((bs.drop 4).take 4))
        arg := BitVec.ofNat 64 (leNat ((bs.drop 8).take 8))
        payload := bs.drop 16 })

/-- The instruction of a host message. -/
def decodeMessage (bs : List Byte) : Except Reject Instr :=
  match parseMessage bs with
  | .error e => .error e
  | .ok (t, m) => messageInstr t m

/-! ## The encoder -/

/-- What an instruction is written as. -/
inductive Code where
  | s (w : BitVec 32)
  | d (w : BitVec 64)
  | c (w : BitVec 64)
  | msg (bytes : List Byte)
  /-- an event: no word and no message stands for it -/
  | event
  deriving DecidableEq, Repr

/-- Format SR. -/
def encSR (op : BitVec 7) (d a b fn : BitVec 5) (q : BitVec 3) : Code := .s (op ++ d ++ a ++ b ++ fn ++ q ++ 0#2)

/-- Format SR of op 0x04, with the class and coordinate form. -/
def encSM (d a b fn : BitVec 5) (c : BitVec 4) (k : BitVec 1) : Code := .s (4#7 ++ d ++ a ++ b ++ fn ++ c ++ k)

/-- Format SI. -/
def encSI (op : BitVec 7) (d a : BitVec 5) (imm : BitVec 15) : Code := .s (op ++ d ++ a ++ imm)

/-- Format SL. -/
def encSL (op : BitVec 7) (d : BitVec 5) (imm : BitVec 20) : Code := .s (op ++ d ++ imm)

/-- Format SP. -/
def encSP (bt : BitVec 3) (mode : BitVec 2) (disp : BitVec 20) : Code := .s (0x20#7 ++ bt ++ mode ++ disp)

/-- Format SX. -/
def encSX (bt : BitVec 3) (mode : BitVec 2) (a : BitVec 5) : Code := .s (0x21#7 ++ bt ++ mode ++ a ++ 0#15)

/-- Format SB. -/
def encSB (op : BitVec 7) (bt q : BitVec 3) (inv : BitVec 1) (a : BitVec 5) : Code :=
  .s (op ++ bt ++ q ++ inv ++ a ++ 0#13)

/-- A D word. -/
def encD (op : BitVec 8) (w : DArgs) : Code :=
  .d (op ++ w.delay ++ w.gc ++ w.ga ++ w.t0c ++ w.t0a ++ w.t1c ++ w.t1a ++ w.t2c ++ w.t2a ++ w.se ++ w.sp ++ w.de ++
    w.dp ++ w.cls ++ w.ext)

/-- A vector word. -/
def encV (col : BitVec 4) (op : BitVec 8) (w : VArgs) : Code :=
  .c (col ++ w.delay ++ op ++ w.ty ++ w.vd ++ w.va ++ w.vb ++ w.vc ++ w.mask ++ w.imm)

/-- An MC or CT word. -/
def encM (col : BitVec 4) (op : BitVec 8) (w : MArgs) : Code :=
  .c (col ++ w.delay ++ op ++ w.gc ++ w.ga ++ w.t0c ++ w.t0a ++ w.t1c ++ w.t1a ++ w.t2c ++ w.t2a ++ w.opnd)

/-- A host message: header, then payload. -/
def encMsg (t : Nat) (m : HostMsg) : Code :=
  .msg (leBytes 2 t ++ leBytes 2 m.payload.length ++ leBytes 4 m.tag.toNat ++ leBytes 8 m.arg.toNat ++ m.payload)

/-- The word or message of an instruction. -/
def encode : Instr → Code
  | .add d a b => encSR 1 d a b 0 0
  | .sub d a b => encSR 1 d a b 1 0
  | .mul d a b => encSR 1 d a b 2 0
  | .mulh d a b => encSR 1 d a b 3 0
  | .mulhn d a b => encSR 1 d a b 4 0
  | .div d a b => encSR 1 d a b 5 0
  | .divn d a b => encSR 1 d a b 6 0
  | .rem d a b => encSR 1 d a b 7 0
  | .remn d a b => encSR 1 d a b 8 0
  | .and d a b => encSR 1 d a b 9 0
  | .or d a b => encSR 1 d a b 10 0
  | .xor d a b => encSR 1 d a b 11 0
  | .andn d a b => encSR 1 d a b 12 0
  | .shl d a b => encSR 1 d a b 13 0
  | .shr d a b => encSR 1 d a b 14 0
  | .sar d a b => encSR 1 d a b 15 0
  | .min d a b => encSR 1 d a b 16 0
  | .max d a b => encSR 1 d a b 17 0
  | .clz d a => encSR 1 d a 0 18 0
  | .popc d a => encSR 1 d a 0 19 0
  | .sel d a b q => encSR 1 d a b 20 q
  | .ceq d a b => encSR 2 d a b 0 0
  | .cne d a b => encSR 2 d a b 1 0
  | .clt d a b => encSR 2 d a b 2 0
  | .cle d a b => encSR 2 d a b 3 0
  | .cltn d a b => encSR 2 d a b 4 0
  | .clen d a b => encSR 2 d a b 5 0
  | .qand d a b => encSR 2 d a b 6 0
  | .qor d a b => encSR 2 d a b 7 0
  | .qnot d a => encSR 2 d a 0 8 0
  | .kset d a b => encSR 3 d a b 0 0
  | .kpack d a => encSR 3 d a 0 1 0
  | .kunpk d a => encSR 3 d a 0 2 0
  | .kadd d a b => encSR 3 d a b 3 0
  | .ksub d a b => encSR 3 d a b 4 0
  | .kcmp d a b => encSR 3 d a b 5 0
  | .kpfx d a b => encSR 3 d a b 7 0
  | .ksplit d a b q => encSR 3 d a b 6 q
  | .lds d a b c => encSM d a b 0 c 0
  | .ldsK d a b c => encSM d a b 0 c 1
  | .sts d a b c => encSM d a b 1 c 0
  | .stsK d a b c => encSM d a b 1 c 1
  | .aadd d a b c => encSM d a b 3 c 0
  | .aaddK d a b c => encSM d a b 3 c 1
  | .amin d a b c => encSM d a b 4 c 0
  | .aminK d a b c => encSM d a b 4 c 1
  | .amax d a b c => encSM d a b 5 c 0
  | .amaxK d a b c => encSM d a b 5 c 1
  | .axch d a b c => encSM d a b 6 c 0
  | .axchK d a b c => encSM d a b 6 c 1
  | .acas d a b c => encSM d a b 7 c 0
  | .acasK d a b c => encSM d a b 7 c 1
  | .ltset d a c => encSM d a 0 2 c 0
  | .tadd d a n => encSR 5 d a n 0 0
  | .ttake d a n => encSR 5 d a n 1 0
  | .twait d a n => encSR 5 d a n 2 0
  | .tread d a => encSR 5 d a 0 3 0
  | .gbar t => encSR 5 0 0 t 4 0
  | .fnc t => encSR 5 0 0 t 5 0
  | .seg d a b => encSR 6 d a b 0 0
  | .fmtq a => encSR 6 0 a 0 1 0
  | .qdep d c => encSR 6 d 0 c 2 0
  | .qflsh d c => encSR 6 d 0 c 3 0
  | .time d => encSR 7 d 0 0 0 0
  | .waitt a => encSR 7 0 a 0 1 0
  | .pwrq d => encSR 7 d 0 0 2 0
  | .lnch d a q => encSR 7 d a 0 3 q
  | .ncmt => encSR 7 0 0 0 4 0
  | .ncmtEnd => encSR 7 0 0 1 4 0
  | .trap n => encSR 8 0 0 n 0 0
  | .csrr d n => encSR 8 d 0 n 1 0
  | .csrw n a => encSR 8 0 a n 2 0
  | .eret => encSR 8 0 0 0 3 0
  | .brk n => encSR 8 0 0 n 4 0
  | .nop => encSR 8 0 0 0 5 0
  | .addi d a i => encSI 0x10 d a i
  | .andi d a i => encSI 0x11 d a i
  | .ori d a i => encSI 0x12 d a i
  | .xori d a i => encSI 0x13 d a i
  | .shli d a i => encSI 0x14 d a i
  | .shri d a i => encSI 0x15 d a i
  | .sari d a i => encSI 0x16 d a i
  | .ceqi d a i => encSI 0x17 d a i
  | .clti d a i => encSI 0x18 d a i
  | .cltni d a i => encSI 0x19 d a i
  | .liz d i => encSL 0x1C d i
  | .lis d i => encSL 0x1D d i
  | .lic d i => encSL 0x1E d i
  | .pbr bt i => encSP bt 0 i
  | .pbrLo bt i => encSP bt 1 i
  | .pbrr bt a => encSX bt 0 a
  | .pbrrLo bt a => encSX bt 1 a
  | .br bt q v => encSB 0x22 bt q v 0
  | .brl bt q v => encSB 0x23 bt q v 0
  | .loop bt q v a => encSB 0x24 bt q v a
  | .tld w => encD 0x01 w
  | .tst w => encD 0x02 w
  | .tldr w => encD 0x03 w
  | .tstr w => encD 0x04 w
  | .tgr w => encD 0x05 w
  | .tbc w => encD 0x06 w
  | .gth w => encD 0x07 w
  | .sct w => encD 0x08 w
  | .scta w => encD 0x09 w
  | .rgth w => encD 0x0A w
  | .fill w => encD 0x0B w
  | .bcpy w => encD 0x10 w
  | .bcan w => encD 0x11 w
  | .bstat w => encD 0x12 w
  | .ingt w => encD 0x18 w
  | .egr w => encD 0x19 w
  | .xwr w => encD 0x1A w
  | .xrd w => encD 0x1B w
  | .dnop w => encD 0x3F w
  | .vadd w => encV 0 0x01 w
  | .vsub w => encV 0 0x02 w
  | .vmin w => encV 0 0x03 w
  | .vmax w => encV 0 0x04 w
  | .vabs w => encV 0 0x05 w
  | .vneg w => encV 0 0x06 w
  | .vand w => encV 0 0x07 w
  | .vor w => encV 0 0x08 w
  | .vxor w => encV 0 0x09 w
  | .vshl w => encV 0 0x0A w
  | .vshr w => encV 0 0x0B w
  | .vsar w => encV 0 0x0C w
  | .vcmp w => encV 0 0x0D w
  | .vsel w => encV 0 0x0E w
  | .vclmp w => encV 0 0x0F w
  | .vcvt w => encV 0 0x10 w
  | .vwid w => encV 0 0x11 w
  | .vnar w => encV 0 0x12 w
  | .vmul w => encV 1 0x01 w
  | .vfma w => encV 1 0x02 w
  | .vfms w => encV 1 0x03 w
  | .vfnma w => encV 1 0x04 w
  | .vmulw w => encV 1 0x05 w
  | .vdot w => encV 1 0x06 w
  | .vmulh w => encV 1 0x07 w
  | .vscl w => encV 1 0x08 w
  | .vqnt w => encV 1 0x09 w
  | .vperm w => encV 2 0x01 w
  | .vshuf w => encV 2 0x02 w
  | .vrot w => encV 2 0x03 w
  | .vbc w => encV 2 0x04 w
  | .vred w => encV 2 0x05 w
  | .vscan w => encV 2 0x06 w
  | .vsfn w => encV 2 0x07 w
  | .vrng w => encV 2 0x08 w
  | .vsiev w => encV 2 0x09 w
  | .vsdrn w => encV 2 0x0A w
  | .vcnt w => encV 2 0x0B w
  | .vcmpr w => encV 2 0x0C w
  | .vexpd w => encV 2 0x0D w
  | .vidx w => encV 2 0x0E w
  | .vksrt w => encV 2 0x0F w
  | .vld w => encV 3 0x01 w
  | .vst w => encV 3 0x02 w
  | .vldg w => encV 3 0x03 w
  | .vstg w => encV 3 0x04 w
  | .vldb w => encV 3 0x05 w
  | .oqp w => encV 3 0x06 w
  | .oqg w => encV 3 0x07 w
  | .mlease w => encM 4 0x01 w
  | .mrel w => encM 4 0x02 w
  | .mshape w => encM 4 0x03 w
  | .mldw w => encM 4 0x04 w
  | .mswp w => encM 4 0x05 w
  | .mmul w => encM 4 0x06 w
  | .mzacc w => encM 4 0x07 w
  | .mdrn w => encM 4 0x08 w
  | .mocr w => encM 4 0x09 w
  | .mchk w => encM 4 0x0A w
  | .mbst w => encM 4 0x0B w
  | .vlendLend w => encV 3 0x08 w
  | .vlendRet w => encV 3 0x08 w
  | .cnop w => encM 5 0 w
  | .ctok w => encM 5 1 w
  | .launch m => encMsg 1 m
  | .queueCtlDrain m => encMsg 2 m
  | .queueCtlAbort m => encMsg 2 m
  | .nodeResume m => encMsg 3 m
  | .nodeAbort m => encMsg 4 m
  | .tokenAdd m => encMsg 5 m
  | .secLoad m => encMsg 0x10 m
  | .secGetid m => encMsg 0x10 m
  | .secQuote m => encMsg 0x10 m
  | .secExtend m => encMsg 0x10 m
  | .secKeyset m => encMsg 0x10 m
  | .secKeydel m => encMsg 0x10 m
  | .secChal m => encMsg 0x10 m
  | .secUnlock m => encMsg 0x10 m
  | .secSecure m => encMsg 0x10 m
  | .secRetire m => encMsg 0x10 m
  | .regRead m => encMsg 0x20 m
  | .eccStatRead m => encMsg 0x20 m
  | .regWrite m => encMsg 0x21 m
  | .sourceCfgWrite m => encMsg 0x21 m
  | .sourcePeriodWrite m => encMsg 0x21 m
  | .regionBind m => encMsg 0x21 m
  | .regionUnbind m => encMsg 0x21 m
  | .regionQuadsWrite m => encMsg 0x21 m
  | .ingestCfgWrite m => encMsg 0x21 m
  | .regionPolWrite m => encMsg 0x21 m
  | .xcfgEnable m => encMsg 0x21 m
  | .xcfgDisable m => encMsg 0x21 m
  | .xperiodWrite m => encMsg 0x21 m
  | .timeCfgWrite m => encMsg 0x21 m
  | .thermReasonWrite m => encMsg 0x21 m
  | .queueCfgWrite m => encMsg 0x21 m
  | .partTokensWrite m => encMsg 0x21 m
  | .pairCfgWrite m => encMsg 0x21 m
  | .partPtbrWrite m => encMsg 0x21 m
  | .partIlvWrite m => encMsg 0x21 m
  | .partInv m => encMsg 0x21 m
  | .portEgrWrite m => encMsg 0x21 m
  | .chanRetiredWrite m => encMsg 0x21 m
  | .jrnlCfgWrite m => encMsg 0x21 m
  | .jrnlSelWrite m => encMsg 0x21 m
  | .errInjWrite m => encMsg 0x21 m
  | .tokenAddApply | .partTokenRefill | .partInvComplete | .dispatchDecision | .launchCycle
  | .sectionLoadFailure | .deadlineExpiry | .stopCycle | .checkpointSaveEnd | .resumeCycle
  | .completionRecordWrite | .teardownComplete | .segmentStart | .segmentRetire | .dWordLand
  | .matrixCommandDone | .freezeWatchdog | .latchedDelivery | .leaseGrant | .leaseRunEnd | .boostExpiry
  | .bandIdleGate | .bandWakeComplete | .powerPredicateClear | .freezeDutyStep | .clockStep | .clockGlideEnd
  | .trackingRelock | .frameBoundary | .sourceMissing | .sourcePresent | .frozenEntry | .flimitExpiry
  | .ingestHalfComplete | .streamPortLinkLoss | .egrDepart | .xwrApply | .xrdCompute | .oqEntryArrive
  | .oqCreditReturn | .copyStart | .copyComplete | .copyFailure | .bcanAck | .walkComplete | .translationFault
  | .waittResume | .streamPortLinkUp | .secCommandFinish | .packagePowerOn | .pairLinkLoss | .hostLinkRetrain
  | .hostLinkDown | .packagePowerLoss | .boostDecision _ _ | .powerSample _ _ _ _ | .hardLimitExceeded _
  | .hardLimitRecovery _ | .thermalCut _ _ | .sourceTick _ _ _ | .realignResume _ _ | .streamPacketReceive _ _
  | .ptpMessageReceive _ _ _ _ _ | .hbmScrub _ _ _ | .flitReplay _ | .linkRetrain _ | .linkRetrainFail _
  | .pairRecordCompare _ | .debugPortAccess _ _ | .peerCopyWrite .. | .ptpMessageTransmit _ _
  | .pairCopyReceive _ _ _ | .pairPreemptionReceive _ _ _ => .event

/-- The instruction that a code stands for. -/
def decode : Code → Except Reject Instr
  | .s w => decodeS w
  | .d w => decodeD w
  | .c w => decodeC w
  | .msg b => decodeMessage b
  | .event => .error .unassigned

/-- Rejections dropped. -/
def okOnly : Except Reject Instr → Option Instr
  | .ok i => some i
  | .error _ => none

/-- The instruction read from a word numbered as the opcode table numbers it. A row of 32 bits is an S word. A row of
64 bits is a column word, or else a D word: the table numbers no row of 64 bits, and a bare number does not say which
sequencer fetches it (log 3). -/
def decodeTableWord (nbits w : Nat) : Option Instr :=
  if nbits ≤ 32 then okOnly (decodeS (BitVec.ofNat 32 w))
  else
    match decodeC (BitVec.ofNat 64 w) with
    | .ok i => some i
    | .error _ => okOnly (decodeD (BitVec.ofNat 64 w))

end Sys2Proof
end

