-- ==== Sys2Proof/Config.lean ====
section
/-! DEFINITION. What one implementation fixes and the manual leaves open: free values, without bodies. -/

namespace Sys2Proof.Config

/-! Free values of the manual's "undefined" (00 R8, 05 R90). Each takes the fresh counter of the state,
so that two of them need not agree. DESIGN CHOICE (log 2). -/

/-- A value the manual leaves undefined, at the width the destination asks for (log 2). -/
opaque freeBits : Nat → (w : Nat) → BitVec w

/-- Which of two racing values a byte shows (04 R126, 05 R90): counter, then the byte's address. DESIGN CHOICE (log 8). -/
opaque raceNew : Nat → Nat → Bool

/-- How many cycles a result takes, before its bound cuts it (00 R8, 08 R196). DESIGN CHOICE (log 5). -/
opaque sLatency : Nat → Nat

/-- The undefined byte of a cancelled copy's destination: written or not (04 R131). DESIGN CHOICE (log 8). -/
opaque copyByteWritten : Nat → Nat → Bool

/-- Which ordering code the device carries: the module RYT256-M or the bare package (00 R1, 01 R38). DESIGN CHOICE (log 11). -/
opaque isModule : Bool

/-- The node of a die on which its crossing unit stands (02 R53), the link of a mesh row that fails (18 R374), and the port
by which a copy reaches another package (04 R128). DESIGN CHOICE (log 60). -/
opaque crossingNode : Nat → BitVec 8
opaque meshLink : Nat → BitVec 8
opaque fabricPort : Nat → BitVec 8

/-- The hops of the fabric from one package to another, which the manual leaves to its topology (09 R239). DESIGN CHOICE (log 60). -/
opaque fabricHops : Nat → Nat → Nat

/-! Cryptographic functions, which the manual names by their standards (12 R306 to R316). DESIGN CHOICE (log 13). -/

/-- SHA3-512 of FIPS 202, 64 bytes as one word (log 13). -/
opaque sha3 : List Byte → BitVec 512

/-- Verification of HashML-DSA-87 with SHA3-512 and an empty context: public key, message, signature (R309, R314) (log 13). -/
opaque mlDsaVerify : List Byte → List Byte → List Byte → Bool

/-- KeyGen of ML-DSA-87 (FIPS 204) from a seed of 32 bytes: the public key of 2,592 bytes (R309, R311); and the signature
of 4,627 bytes of a body under the key pair of that seed (R312) (log 13). -/
opaque mlDsaPublic : BitVec 256 → BitVec 20736
opaque mlDsaSign : BitVec 256 → List Byte → BitVec 37016

/-- KeyGen of ML-KEM-1024 (FIPS 203) from 64 bytes: the public key of 1,568 bytes (R311). -/
opaque mlKemPublic : BitVec 512 → BitVec 12544

/-- The Shoroth certificate of this device (R308). -/
opaque certificate : List Byte

/-- Decapsulation under the ML-KEM pair of 64 bytes and AES key unwrap: ciphertext, wrapped key; none when the integrity
check fails (R313). -/
opaque unwrapKey : BitVec 512 → List Byte → List Byte → Option (BitVec 512)

/-- A fresh challenge of SEC_CHAL (R314). -/
opaque challenge : Nat → BitVec 256

/-- The ROM image, and the fuse image without the seed, by the two lifecycle bits (R310). -/
opaque romImage : List Byte
opaque fuseImage : Bool → Bool → List Byte

/-- AES-256-XTS of a 16-byte block of a granule: key pair, granule number, block of the granule, data (R313) (log 13). -/
opaque xtsEncrypt : BitVec 512 → Nat → Nat → BitVec 128 → BitVec 128
opaque xtsDecrypt : BitVec 512 → Nat → Nat → BitVec 128 → BitVec 128

/-- What the island's trace holds when the debug port reads it, which no rule gives (01 R36) (log 42). -/
opaque islandTrace : Nat → List Byte

/-- The fuses as this device left the fab (R306). DESIGN CHOICE (log 12). -/
opaque vendorKeyHash : BitVec 512
opaque debugAuthHash : BitVec 512
opaque identitySeed : BitVec 256
opaque minVersionIsland : BitVec 32
opaque minVersionDevice : BitVec 32

end Sys2Proof.Config
end

