-- ==== Sys2Proof/Machine/State.lean ====
section
/-! DEFINITION. The state of the machine as plain data, its faults and refusals, and the state after reset. -/

namespace Sys2Proof.Machine

/-- Why a step stops the model. Every fault of the manual is a next state; this one is not of the manual. -/
inductive Fault where
  /-- Raised by `step` when an agenda entry offered as a host message is none at all: fewer than 16 bytes, or a
  payload that its header's length does not cover. Safe: no hardware behaviour is claimed. -/
  | notAMessage
  deriving DecidableEq, Repr

/-- Why the model declines an instruction. -/
inductive Refusal where
  /-- Raised by an arm of `exec` that has no meaning yet. Safe: nothing is claimed of the instruction. -/
  | notModelled (mnemonic : String)
  deriving DecidableEq, Repr

/-! ## Exact numbers (05 R137): what arithmetic computes before it rounds -/

/-- A value before rounding: not a number, an infinity, or the exact value of (-1)^neg times man times 2^exp. -/
inductive Num where
  | nan
  | inf (neg : Bool)
  | fin (neg : Bool) (man : Nat) (exp : Int)
  deriving DecidableEq, Repr

/-- What a decoder finds in a code word that is not good (18 R367). -/
inductive Mark where
  | poisoned | uncorrectable
  /-- an error that the decoder corrects: reads deliver the word as it should be (18 R368) -/
  | correctable
  deriving DecidableEq, Repr

/-! ## One core (01 R25, 03) -/

/-- What issues words: S, L, the six columns of C, and W (03 R86, R89). -/
inductive Slot where
  | s | l | va | vm | vx | vl | mc | ct | w
  deriving DecidableEq, Repr

/-- A register that S tracks for pending results (08 R196). -/
inductive SReg where
  | x (n : Nat) | q (n : Nat) | b (n : Nat) | k (n : Nat)
  deriving DecidableEq, Repr

/-- A load of a branch target register (03 R99): the count of S words issued before it, and whether it started a fetch. -/
structure BLoad where
  index : Nat
  fetch : Bool
  deriving DecidableEq, Repr

/-- What S waits in after a first attempt (08 R199), with the operand values that attempt read. -/
inductive SWait where
  | time (t : Dword)
  | gbar (tier : Nat) (ordinal : Nat)
  /-- `mark`: the fresh counter at issue, by which earlier words are known -/
  | ncmt (ordinal : Nat) (last : Bool) (mark : Nat)
  | token (amount : Nat)
  | seg (off : Dword) (xs : List Dword)
  | fmtq (word : Dword)
  deriving DecidableEq, Repr

/-- The S sequencer. `x`, `b` and `k` list only registers that are not zero. -/
structure SUnit where
  x : Tab Dword := []
  /-- bit i is q_i; a read of q0 is true whatever bit 0 holds -/
  q : BitVec 8 := 1
  b : Tab (BitVec 32) := []
  k : Tab (BitVec 128) := []
  /-- byte offset of the next word in the S section -/
  pc : Nat := 0
  /-- S words issued since launch (16 R331) -/
  index : Nat := 0
  loads : Tab (Option BLoad) := []
  /-- cycles a taken branch or a handler entry still loses -/
  stall : Nat := 0
  /-- registers with a pending result and the region cycle from which it stands -/
  pend : List (SReg × Nat) := []
  wait : Option SWait := none
  deriving DecidableEq, Repr

/-- A SEG command in a command queue (08 R215): x[b], and x[a] to x[a + 7]. -/
structure Cmd where
  off : Dword
  xs : List Dword
  /-- the stores that happen before the SEG, and so before its segment (06 R163) -/
  past : List Nat := []
  deriving DecidableEq, Repr

/-- A word of a running segment that has not issued, with the issue offset of 03 R89. -/
structure Todo where
  offset : Nat
  /-- column code of bits [63:60] in C, 0 in L and W -/
  col : Nat
  word : BitVec 64
  /-- detected as R337 states: a column that is not assigned, or an offset lower than the word before -/
  bad : Bool
  deriving DecidableEq, Repr

/-- A segment that has started (03 R86 to R88). -/
structure Seg where
  ordinal : Nat
  cycles : BitVec 32
  signature : BitVec 32
  gc : BitVec 5
  ga : BitVec 3
  todo : List Todo
  /-- issue offset of the current unfrozen cycle; none in the cycle that makes the header takes -/
  clock : Option Nat := none
  count : Nat := 0
  crc : BitVec 32 := 0xFFFFFFFF#32
  /-- region cycle by which every result of an issued column word has landed -/
  landed : Nat := 0
  /-- XOR digest of granules staged by the segment's words (19 R399) -/
  digest : BitVec 32 := 0
  /-- by vector bank, the issue offset by which every vector word of the segment has written it (10 R278) -/
  bankDue : Tab Nat := []
  deriving DecidableEq, Repr

/-- L, C or W. -/
structure DUnit where
  p : Tab Dword := []
  cmdq : List Cmd := []
  /-- the p registers hold the values of the command at the head (03 R87, step 1) -/
  loaded : Bool := false
  seg : Option Seg := none
  /-- segments whose last word has issued -/
  retiring : List Seg := []
  ordinal : Nat := 0
  deriving DecidableEq, Repr

/-- An addition to a token counter that the end of the cycle makes (03 R92, 16 R340).
`order`: 0 S, 1 L, 2 to 7 the columns VA to CT, 8 W, 9 matrix, 10 copy. -/
structure TokAdd where
  counter : BitVec 5
  amount : Nat
  order : Nat
  index : BitVec 32
  position : BitVec 32
  /-- the stores that happen before the give (06 R163) -/
  past : List Nat := []
  deriving DecidableEq, Repr

/-- A D word that has issued and not landed (09 R227), with what it captured at issue. -/
structure Flight where
  id : Nat
  unit : Slot
  ordinal : Nat
  offset : Nat
  word : Instr
  src : BitVec 256
  dst : BitVec 256
  sc : Dword
  dc : Dword
  par : Dword
  frame : BitVec 64
  issued : Nat
  /-- elements already performed: before a translation fault stopped the access (18 R375), or before its landing -/
  done : Nat := 0
  /-- saved as a pending access (18 R376) -/
  blocked : Bool := false
  /-- the region cycle from which its worst-case latency counts, and that latency (R227) -/
  since : Nat := 0
  worst : Nat := 0
  /-- what it has read so far: a place, and twice the value, plus 1 where a bad word gave it (06 R174, 09 R242) -/
  got : List (Nat × Nat) := []
  /-- enabling count of the crossing at issue (02 R417) -/
  enab : Nat := 0
  /-- device time of the tick an XWR or XRD names, and what an XWR read; bits [95:64] of the coordinate of an S access -/
  stamp : Nat := 0
  data : List (BitVec 32) := []
  /-- its accesses are over, and its landing is still to come; of a BCAN, its request has reached the engine (R227, R240) -/
  applied : Bool := false
  deriving DecidableEq, Repr

/-- The state of a copy (04 R129, R131). -/
inductive CopySt where
  | queued | running | done | cancelled
  | failed (cls : BitVec 8)
  deriving DecidableEq, Repr

/-- A bulk copy (04 R128 to R131, 09 R238). -/
structure Copy where
  /-- the fresh number at issue: an engine takes its copies in this order -/
  id : Nat
  /-- the handle's count n, and the core field of the handle -/
  n : Nat
  home : BitVec 8
  st : CopySt
  gc : BitVec 5
  ga : BitVec 3
  src : BitVec 256
  dst : BitVec 256
  sc : Dword
  dc : Dword
  frame : BitVec 64
  cls : BitVec 4
  /-- a cancel has reached the engine and waits for its acknowledgement -/
  cancel : Bool := false
  /-- suspended by a checkpoint (19 R386) -/
  suspended : Bool := false
  /-- elements already moved, and whether they end within a granule of 256 bytes of the destination (19 R386) -/
  done : Nat := 0
  mid : Bool := false
  /-- the longest time from issue to give, and the device time by which that comes, in units of 2^-16 ns
  (09 R239) (log 1) -/
  span : Nat := 0
  due : Nat := 0
  deriving DecidableEq, Repr

/-- An entry of a sieve path (03 R101). -/
structure SieveEntry where
  index : BitVec 32
  elem : BitVec 32
  live : List (BitVec 32)
  deriving DecidableEq, Repr

/-- Appends a VSIEV has reserved (10 R271): they land at the end of region cycle `at`. -/
structure SieveAppend where
  path : Nat
  due : Nat
  entries : List SieveEntry
  deriving DecidableEq, Repr

/-- A register of the vector slot or a mask register, for landing windows (05 R90). -/
inductive VReg where
  | v (n : Nat) | m (n : Nat)
  deriving DecidableEq, Repr

/-- The landing window of a column word's result: its register, its bound as a region cycle, its segment (05 R90). -/
structure Window where
  reg : VReg
  bound : Nat
  ordinal : Nat
  deriving DecidableEq, Repr

/-- An access of a VL word: its class, slice offsets, bound as a region cycle, and segment (10 R252). -/
structure VlWord where
  cls : BitVec 4
  keys : List Nat
  bound : Nat
  ordinal : Nat
  deriving DecidableEq, Repr

/-- A bank that a VLEND moved (10 R278). -/
structure Lent where
  bank : Nat
  /-- issue offsets until the return takes effect, once VLEND ret has issued -/
  back : Option Nat := none
  deriving DecidableEq, Repr

/-- A word that is a late result, and what a LATE fault of it would record (03 R94, 16 R338). -/
structure LateWord where
  slot : Slot
  index : BitVec 32
  position : BitVec 32
  deriving DecidableEq, Repr

/-- What a fault or stop of a core records (16 R331), with FRAME_NO and SCHED_CY of its detection cycle;
a clock transition latches it (17 R360). -/
structure FaultRec where
  cls : BitVec 8
  engine : Nat
  column : Nat
  status : BitVec 32
  index : BitVec 32
  position : BitVec 32
  frame : BitVec 32
  sched : BitVec 32
  deriving DecidableEq, Repr

/-- The control registers of one core (07 R191), those that hold state of their own. -/
structure Csrs where
  flags : BitVec 7 := 0
  ashape : BitVec 64 := 0xFF0F#64
  oqbind : BitVec 32 := 0
  sieveCfg : BitVec 48 := 0x800#48
  schedCy : BitVec 64 := 0
  remain : BitVec 64 := 0
  trap0 : BitVec 64 := 0
  trap1 : BitVec 64 := 0
  trap2 : BitVec 64 := 0
  gwstat : BitVec 64 := 0
  rngSeed : BitVec 64 := 0
  rngStep : BitVec 32 := 0
  trapVec : BitVec 64 := 0
  trapPc : BitVec 64 := 0
  wdog : BitVec 25 := 4096#25
  watch : Tab (BitVec 64) := []
  deriving DecidableEq, Repr

/-- The memory fault log of a core (18 R372). -/
structure MfLog where
  address : BitVec 64 := 0
  syndrome : BitVec 32 := 0
  time : BitVec 64 := 0
  events : BitVec 32 := 0
  spread : BitVec 32 := 0
  deriving DecidableEq, Repr

/-- An entry of an operand queue, with the core and result queue it came from (04 R134). -/
structure OpEntry where
  source : BitVec 8
  lane : Nat
  data : BitVec 4096
  /-- the first region cycle in which it can be popped and counts: the one after its arrival (R95, R133) -/
  ready : Nat := 0
  /-- a bad code word among its bytes (18 R370) -/
  bad : Option Mark := none
  deriving DecidableEq, Repr

/-- The vector engine, sieve, queues and counters of one core. -/
structure CUnit where
  v : Tab (BitVec 4096) := []
  m : Tab (BitVec 1024) := []
  lt : Tab (BitVec 256) := []
  tk : Tab (BitVec 16) := []
  fmtq : List Dword := []
  /-- format words pushed in the current cycle (08 R217) -/
  fmtNew : List Dword := []
  resq : Tab (List (BitVec 4096)) := []
  opq : Tab (List OpEntry) := []
  /-- credits of result queue j that are used up (04 R134) -/
  used : Tab Nat := []
  sieve : Tab (List SieveEntry) := []
  appends : List SieveAppend := []
  lent : List Lent := []
  /-- results of column words that have not reached their bound: register, region cycle (05 R90) -/
  windows : List Window := []
  /-- VL accesses that have not reached their bound -/
  vlWords : List VlWord := []
  flights : List Flight := []
  /-- loads of S and VL that may still perform their reads: their results land in region cycle `stamp` (00 R8, 04 R126) -/
  again : List Flight := []
  copies : List Copy := []
  copyCount : Nat := 0
  mcIndex : Nat := 0
  deriving DecidableEq, Repr

/-- A register, the predicates, a counter, or the code store of a sequencer: what stands in code words of a core (18 R364). -/
inductive BadReg where
  | x (n : Nat) | q | k (n : Nat) | b (n : Nat) | v (n : Nat) | m (n : Nat) | tk (n : Nat)
  | p (unit n : Nat) | lt (n : Nat) | csr (n : Nat)
  | code (unit : Nat)
  deriving DecidableEq, Repr

/-- A code word of 128 bits that is uncorrectable: word `word` of a register or code store. A register of at most 128 bits has
one of its own, and the predicates share one (18 R364, R370) (log 58). -/
structure BadWord where
  reg : BadReg
  word : Nat := 0
  deriving DecidableEq, Repr

/-- One core. -/
structure Core where
  su : SUnit := {}
  l : DUnit := {}
  c : DUnit := {}
  w : DUnit := {}
  cu : CUnit := {}
  csr : Csrs := {}
  mflog : MfLog := {}
  /-- the node placed on the core, and its rank in it -/
  node : Option Nat := none
  rank : Nat := 0
  /-- S and the segments issue: false before a launch cycle and from a stop on -/
  run : Bool := false
  /-- S has completed ncmt.end -/
  ended : Bool := false
  /-- issue is held by the freeze line of a late result in the current cycle (03 R95) -/
  frozen : Bool := false
  late : List LateWord := []
  frozenCount : Nat := 0
  /-- issue is held by a latched event or a debug halt (17 R360, 16 R343) -/
  held : Bool := false
  halted : Bool := false
  /-- a stop's cycle fell in a clock transition, and holds the core until it ends (17 R360) -/
  stopHeld : Bool := false
  /-- the region cycle of the last fault it recorded, and that fault's place in the order of 16 R336 -/
  recorded : Option (Nat × Nat) := none
  latched : List FaultRec := []
  gbar : Tab Nat := []
  ncmt : Nat := 0
  /-- effects of the end of the current cycle: CSRW, LTSET, token additions, flags -/
  csrw : List (Nat × Dword) := []
  ltset : List (Nat × BitVec 256) := []
  adds : List TokAdd := []
  flags : BitVec 7 := 0
  /-- flags of column words by the region cycle in which their results land (05 R138) -/
  flagsDue : List (Nat × BitVec 7) := []
  /-- a QFLSH of the current cycle: queue code, destination register (08 R218) -/
  flush : Option (BitVec 5 × BitVec 5) := none
  bad : List BadWord := []
  deriving DecidableEq, Repr

/-- The code stores of a core as its launch loaded them (03 R83): the sections S, L, C and W as lists of bytes. -/
structure CodeStore where
  s : List Byte := []
  l : List Byte := []
  c : List Byte := []
  w : List Byte := []
  deriving DecidableEq, Repr

/-! ## One quad (11 R280, 03 R97, 02 R63) -/

/-- What MLDW recorded of a plane (11 R296). -/
structure PlaneRec where
  fmt : BitVec 4
  block : Bool
  cs : Bool
  nc : Nat
  deriving DecidableEq, Repr

/-- The active or the shadow plane of one band: `cells` by 256 k + n with k the position in the band. -/
structure Plane where
  info : Option PlaneRec := none
  cells : Tab (BitVec 16) := []
  /-- block scale bytes, 0x7F where none is listed; by 256 b + n with b the block in the band -/
  scales : Tab Byte := []
  eb : Tab Num := []
  /-- bad code words, of eight cells each (18 R364) -/
  bad : List (Nat × Mark) := []
  deriving DecidableEq, Repr

/-- A held lease (03 R97, R98). -/
structure Lease where
  core : BitVec 8
  bands : BitVec 4
  cls : Nat
  count : Nat
  start : Nat
  /-- its core has stopped: it is released when the last matrix command has left (19 R385) -/
  ending : Bool := false
  deriving DecidableEq, Repr

/-- A pending MLEASE. -/
structure LeaseReq where
  core : BitVec 8
  bands : BitVec 4
  cls : Nat
  gc : BitVec 5
  ga : BitVec 3
  index : BitVec 32
  position : BitVec 32
  /-- the segment that the grant is a landing of -/
  ordinal : Nat
  /-- region cycle of the worst-case grant (11 R303) -/
  due : Nat := 0
  deriving DecidableEq, Repr

/-- A band's power state (02 R63, R64). -/
structure Band where
  awake : Bool := false
  cls : Nat := 0
  /-- device time of the last matrix command or lease that named the band -/
  used : Nat := 0
  /-- device time at which a wake or class change under way ends, and its class -/
  waking : Option Nat := none
  next : Nat := 0
  deriving DecidableEq, Repr

/-- What a matrix command has of its issue: its operand fields, entry, coordinate, descriptor and format word, the shape of
its core, the frame, and the seed and step of stochastic rounding (11 R281 to R286). -/
structure MatCtx where
  w : MArgs
  ent : BitVec 256
  coord : Nat
  desc : Dword
  fmt : Dword
  shape : BitVec 64
  frame : BitVec 64
  seed : BitVec 64
  rstep : BitVec 32
  deriving DecidableEq, Repr

/-- A matrix command that has issued and not left the array (11 R288) (log 7). -/
structure MatCmd where
  id : Nat
  core : BitVec 8
  ordinal : Nat
  offset : Nat
  index : Nat
  gc : BitVec 5
  ga : BitVec 3
  issued : Nat
  word : Instr
  ctx : MatCtx
  /-- it has read its operands and changed the array, with so many list entries appended or applied -/
  done : Bool := false
  entries : Nat := 0
  /-- the slice offsets that its accesses touch (11 R289) -/
  keys : List Nat := []
  /-- elements of a lent bank that land with the command: bank, width, values; and the flags raised (11 R289, R291) -/
  bank : Option (Nat × Nat × List Nat) := none
  flags : BitVec 7 := 0
  /-- region cycle of the worst-case landing (11 R303), that from which its latency counts as far as commands that have left
  and VL words settle it (R288, R289), and the latency without its list entries -/
  due : Nat := 0
  start : Nat := 0
  lat : Nat := 0
  /-- an MBST: the duration asked for; its give waits for the decision -/
  boost : Option Nat := none
  /-- the resources of 11 R288 that it uses: a kind, and a band or row -/
  uses : List (Nat × Nat) := []
  /-- the lent bank that it names, and whether its return has taken effect (11 R287) -/
  lent : Option Nat := none
  gone : Bool := false
  /-- the stores that happen before its give (06 R163) -/
  past : List Nat := []
  deriving DecidableEq, Repr

/-- ERR_INJ of a quad (20 R408). -/
structure ErrInj where
  arm : Bool := false
  target : BitVec 2 := 0
  fired : BitVec 8 := 0
  row : BitVec 9 := 0
  column : BitVec 8 := 0
  bit : BitVec 5 := 0
  deriving DecidableEq, Repr

/-- A translation as a walk found it (04 R123): `size` is the log2 of the page. -/
structure Trans where
  part : BitVec 4
  page : Nat
  size : Nat
  pma : Nat
  read : Bool
  write : Bool
  deriving DecidableEq, Repr

/-- One quad. -/
structure Quad where
  active : Tab Plane := []
  shadow : Tab Plane := []
  acc : Tab (BitVec 32) := []
  /-- bad code words of the accumulator bank, of four accumulators each (18 R364) -/
  accBad : List (Nat × Mark) := []
  rc : Tab (BitVec 32) := []
  cc : Tab (BitVec 32) := []
  lease : Option Lease := none
  requests : List LeaseReq := []
  /-- the cores whose run passed to a waiter and which have issued no matrix command since (03 R98) -/
  passed : List (BitVec 8) := []
  bands : Tab Band := []
  /-- device time at which a held boost ends -/
  boost : Option Nat := none
  boostCore : BitVec 8 := 0
  /-- forfeited or suspended boost time still charged against the reserve until then (19 R388) -/
  charged : Nat := 0
  idle : BitVec 20 := 50000#20
  errInj : ErrInj := {}
  cmds : List MatCmd := []
  cache : List Trans := []
  walks : List Trans := []
  deriving DecidableEq, Repr

/-! ## Sources, regions, crossings and ports (02, 17) -/

/-- A source slot (02 R41, R42). -/
structure Source where
  cfg : BitVec 64 := 0
  period : BitVec 64 := 0
  /-- index of the latest tick, and its device time; none before the first -/
  index : Nat := 0
  tickAt : Option Nat := none
  /-- device time of the latest arrival (a pin's edge, a stream's sample) or of the write of SOURCE_CFG -/
  last : Option Nat := none
  /-- sample index and time stamp of the latest stream header, the stamp in fine units -/
  refIndex : Nat := 0
  refStamp : Nat := 0
  missing : Bool := false
  /-- device time since which the measure of R349 has held again, while the source is missing -/
  present : Option Nat := none
  /-- the time between the two latest ticks, per tick, in fine units -/
  measured : Nat := 0
  /-- the tick period that the recovery loop holds while the source is missing (R41), in fine units -/
  held : Nat := 0
  deriving DecidableEq, Repr

/-- The state of a bound region (17 R348). -/
inductive RegionSt where
  | unbound | locked | tracking | ceiling | holdover | frozen | relocking
  deriving DecidableEq, Repr

/-- One half of a frame slot array (02 R48 to R50). -/
structure Half where
  frame : BitVec 64 := 0
  filled : Nat := 0
  discarded : Nat := 0
  truncated : Nat := 0
  /-- samples of kind 4 received, by slot -/
  got : List Nat := []
  complete : Bool := true
  deriving DecidableEq, Repr

/-- Power of a region (02 R66 to R68). -/
structure RegionPower where
  predicate : Bool := false
  /-- device time since which the predicate has stood as it stands, and of the last sample that set it -/
  since : Nat := 0
  lastSet : Nat := 0
  /-- device time of the last change of duty or step -/
  changed : Nat := 0
  duty : Nat := 0
  step : Nat := 0
  /-- the step a glide under way goes to -/
  glide : Option Nat := none
  estimate : BitVec 32 := 0
  deriving DecidableEq, Repr

/-- The rate of a region's clock where it does not follow the edges of its source: cycle `cycle` began at device time `since`,
and the time from there per cycle lies between two quotients of fine units (log 55). -/
structure Pace where
  since : Nat := 0
  cycle : Nat := 0
  quick : Nat × Nat := (0, 0)
  slow : Nat × Nat := (0, 0)
  deriving DecidableEq, Repr

/-- One region (02 R43 to R46, 17 R348 to R355). -/
structure Region where
  bind : BitVec 64 := 0
  ctl : BitVec 64 := 0
  quads : BitVec 64 := 0
  ingestCfg : BitVec 64 := 0
  pwr : BitVec 32 := 0
  pol : BitVec 64 := 0
  /-- the policy in effect: REGION_POL at the last state change (17 R355) -/
  polNow : BitVec 64 := 0
  st : RegionSt := .unbound
  frameNo : BitVec 64 := 0
  frameCy : Nat := 0
  /-- region cycles since the bind -/
  cycles : Nat := 0
  gated : Bool := false
  /-- cores whose schedule counter the gate holds at the last cycle's value (02 R46, 21 R416) -/
  ahead : List Nat := []
  /-- the last cycle of the frame has run and the frame boundary is to come -/
  atEnd : Bool := false
  /-- the next frame boundary realigns (17 R353) -/
  realign : Bool := false
  /-- device time of the source's latest tick, when its phase error lay within the guard (02 R45) -/
  inGuard : Option Nat := none
  /-- consecutive ticks within the guard in TRACKING -/
  ticksIn : Nat := 0
  /-- frame, tick and device time of the ticks that the loop made while their edge or sample is still awaited (21 R414) -/
  awaited : List (Nat × Nat × Nat) := []
  pace : Pace := {}
  /-- frames begun in HOLDOVER since the source went missing -/
  holdFrames : Nat := 0
  gap : BitVec 24 := 0
  late : BitVec 16 := 0
  heldCount : BitVec 16 := 0
  /-- device time at which the region entered FROZEN -/
  frozenAt : Nat := 0
  /-- the frames that the last realignment skipped: those between (17 R351, R352) -/
  skipFrom : Nat := 0
  skipTo : Nat := 0
  /-- times of the ticks of the current and the previous frame: frame, tick, device time (09 R244) -/
  ticks : List (Nat × Nat × Nat) := []
  half0 : Half := {}
  half1 : Half := {}
  power : RegionPower := {}
  deriving DecidableEq, Repr

/-- An entry of a crossing's ring (02 R54). -/
structure RingEntry where
  sample : Int
  ts : Nat
  chans : List (BitVec 32)
  bad : Option Mark := none
  deriving DecidableEq, Repr

/-- One crossing (02 R53 to R55, 17 R358, R359). -/
structure Crossing where
  cfg : BitVec 64 := 0
  period : BitVec 64 := 0
  weights : Tab (BitVec 32) := []
  ring : Tab (Option RingEntry) := []
  enabled : Nat := 0
  last : Tab (BitVec 32) := []
  deriving DecidableEq, Repr

/-- An egress packet that waits for its cycle (09 R242). -/
structure EgrPacket where
  core : BitVec 8
  flight : Nat
  region : Nat
  stream : BitVec 16
  due : Nat
  issued : Nat
  frame : BitVec 64
  count : Nat
  size : Nat
  /-- the packet's bytes, once all are read -/
  bytes : Option (List Byte) := none
  deriving DecidableEq, Repr

/-- One stream port (02 R51, 09 R242, R243). -/
structure Port where
  egr0 : BitVec 64 := 0
  egr1 : BitVec 64 := 0
  queue : List EgrPacket := []
  discards : Nat := 0
  up : Bool := true
  other : Nat := 0
  deriving DecidableEq, Repr

/-! ## Queues, partitions, stacks, nodes and the journal (03, 04, 18, 19) -/

/-- A teardown under way (19 R396): its QUEUE_CTL's number, and the nodes without a final fate at acceptance. -/
structure Teardown where
  seq : Nat
  abort : Bool
  nodes : List Nat
  deriving DecidableEq, Repr

/-- A launch queue (03 R75). -/
structure LQueue where
  slack : BitVec 32 := 0
  part : BitVec 4 := 0
  capacity : BitVec 13 := 0
  isOpen : Bool := false
  teardown : Option Teardown := none
  deriving DecidableEq, Repr

/-- A partition (03 R77, 04 R122, 12 R313, 18 R380). -/
structure Part where
  refill : BitVec 32 := 0
  max : BitVec 16 := 0
  current : BitVec 16 := 0
  /-- device time from which the refill interval under way runs -/
  refilled : Nat := 0
  ptbr : BitVec 64 := 0
  ilv : BitVec 64 := 0
  busy : Bool := false
  /-- dword 0 of watchpoint w at 2 w, dword 1 at 2 w + 1 -/
  watch : Tab (BitVec 64) := []
  key : Option (BitVec 512) := none
  deriving DecidableEq, Repr

/-- A stack (18 R373, R378). -/
structure Stack where
  retired : BitVec 160 := 0
  corrected : BitVec 32 := 0
  uncorrectable : BitVec 16 := 0
  poisoned : BitVec 16 := 0
  deriving DecidableEq, Repr

/-- Fates of a command (19 R405). -/
inductive Fate where
  | queued | running | stopped | held | done | late | dropped | aborted | abandoned | failed | withdrawn
  deriving DecidableEq, Repr

/-- An entry of the accession journal (19 R404). -/
structure JEntry where
  kind : Nat
  queue : BitVec 6 := 0
  fate : Fate := .queued
  cls : BitVec 8 := 0
  origin : Nat := 0
  accepted : Nat := 0
  dispatched : Nat := 0
  ended : Nat := 0
  history : BitVec 64 := 0
  completion : BitVec 64 := 0
  trap0 : BitVec 64 := 0
  trap1 : BitVec 64 := 0
  trap2 : BitVec 64 := 0
  deadline : Nat := 0
  deriving DecidableEq, Repr

/-- Where a node stands. -/
inductive NodeSt where
  /-- in queue memory or the pool, or waiting to rerun -/
  | waiting
  /-- dispatched: loaded, waiting for its launch cycle -/
  | placed
  | running
  /-- a stop is decided and its stop cycle is to come -/
  | stopping (kind : StopKind)
  /-- stopped for a checkpoint: its words still land and its context is not yet saved -/
  | saving
  | checkpointed
  /-- chosen again: its context is restored before the resume cycle -/
  | resuming
  /-- stopped by a translation fault, its words still landing and its context not yet saved (18 R376) -/
  | holding
  | held
  /-- a final fate is decided and its completion record not yet written: the fate, and the class of a failure -/
  | ending (fate : Fate) (cls : BitVec 8)
  | ended (fate : Fate)
  deriving DecidableEq, Repr

/-- A slice as a checkpoint saves it (19 R386): bytes by offset, tags by line, marks of code words by offset. -/
structure SavedSlice where
  cells : List Host.Cell := []
  tags : Tab Byte := []
  marks : List (Nat × Mark) := []
  deriving DecidableEq, Repr

/-- A node (03 R71 to R106). -/
structure Node where
  /-- the 16 dwords of its launch record -/
  rcd : List Dword
  queue : BitVec 6
  part : BitVec 4
  parent : Option Nat := none
  st : NodeSt := .waiting
  /-- quads of its placement, ascending; empty before dispatch -/
  quads : List Nat := []
  deadline : Nat := 0
  /-- it lies in a launch queue's record slots / holds a pool entry / has used its reservation for a child -/
  inQueue : Bool := true
  pool : Bool := false
  spent : Bool := false
  /-- a code word of its record in queue memory is uncorrectable (18 R371) -/
  badRecord : Bool := false
  /-- it lies in its parent's reservation (03 R79) -/
  borrowed : Bool := false
  /-- a pre-emption of it is decided: drained victims are not reconsidered -/
  drained : Bool := false
  /-- it was killed and is not to be re-queued (19 R396, 12 R315) -/
  noRequeue : Bool := false
  dispatched : Nat := 0
  /-- device time of its latest dispatch decision (03 R83), and the region cycle in which it first starts (03 R105) -/
  placedAt : Nat := 0
  began : Option Nat := none
  rollbacks : Nat := 0
  stops : Nat := 0
  alone : Bool := false
  staged : List Host.Cell := []
  /-- bad code words of the stack buffer that hold its staged bytes (18 R364, R369) -/
  stagedBad : List (Nat × Mark) := []
  /-- ordinal of the latest released commit, and its device time -/
  commits : Nat := 0
  committed : Nat := 0
  /-- the region cycle of its run's first fault, and whether the journal entry holds that fault (16 R335) -/
  faultAt : Option (Nat × Bool) := none
  heldVa : BitVec 64 := 0
  /-- the saved context of a checkpoint: cores by rank, quads by position (19 R386) -/
  cores : List Core := []
  mats : List Quad := []
  slices : List SavedSlice := []
  /-- the run of quads it waits for, once it has waited (03 R85); its priority tokens spent so far (03 R73) -/
  want : List Nat := []
  paid : Nat := 0
  /-- where a pair stops it (19 R401), by 4 rank + sequencer: the S words, or the segments, that are still to issue from 0 -/
  points : Tab Nat := []
  /-- the stores that happen before its accesses, by its LNCH or the stop it resumes from; once it has released, those
  that its dependants' accesses come after (06 R163) -/
  past : List Nat := []
  deriving DecidableEq, Repr

/-! ## Security island (12) and pair link (19 R397 to R402) -/

/-- A security command that the island holds (12 R308). -/
structure SecCmd where
  seq : Nat
  ticket : Nat
  code : Nat
  data : List Byte
  deriving DecidableEq, Repr

/-- The security island. -/
structure Island where
  burned0 : Bool := false
  burned1 : Bool := false
  unlocked : Bool := false
  unlocks : Nat := 0
  slots : Tab (BitVec 512) := []
  /-- boot steps of R310 that have ended -/
  boot : Nat := 0
  version1 : BitVec 32 := 0
  version2 : BitVec 32 := 0
  cmds : List SecCmd := []
  tickets : Nat := 0
  challenge : Option (BitVec 256) := none
  /-- scope of the open debug port -/
  scope : Option (BitVec 32) := none
  seedErased : Bool := false
  deriving DecidableEq, Repr

/-- The pair link (19 R397 to R402). -/
structure Pair where
  cfg : BitVec 3 := 0
  up : Bool := true
  /-- this side's records that wait for the partner's -/
  waiting : List PairRecord := []
  deriving DecidableEq, Repr

/-- The lowest level of power and thermal control (02 R65, 17 R361, R362). -/
structure Power where
  boostMax : BitVec 16 := 1000#16
  soft : BitVec 32 := 20500#32
  reserve : BitVec 32 := 1500#32
  hard : BitVec 32 := 22500#32
  exceeded : Bool := false
  /-- device time since which the package estimate has stayed below the soft limit -/
  below : Nat := 0
  estimate : BitVec 32 := 0
  reason : BitVec 8 := 0
  sensor : BitVec 8 := 0
  count : BitVec 16 := 0
  thermTime : BitVec 64 := 0
  deriving DecidableEq, Repr

/-! ## What happens next: the model's own agenda -/

/-- What leaves the package or reaches the host, in order (01 R33, R35; 02 R52, R57; 04 R128). -/
inductive Out where
  | reply (tag : BitVec 32) (result : Nat) (payload : List Byte)
  | signal (code : Nat) (payload : List Byte)
  | packet (port : Nat) (frame : List Byte)
  | ptp (kind : PtpKind) (port : Nat) (twoStep : Bool)
  /-- a message that the package only passes on, with what it adds to the correction field, in fine units (02 R57) -/
  | ptpForward (kind : PtpKind) (domain : BitVec 8) (port correction : Nat)
  /-- `half`: of one byte, only the low or the high four bits; `poison`: the words written are poisoned (18 R369) -/
  | peerWrite (package : BitVec 13) (core : BitVec 8) (offset : Nat) (bytes : List Byte) (half : Option Bool) (tag : Option Byte)
      (poison : Bool)
  | pairRecord (rcd : PairRecord)
  | pairLaunch (seq : Nat) (queue : BitVec 6) (rcd : List Byte)
  | pairPreempt (seq : Nat) (kind : StopKind) (points : List (Nat × Nat))
  /-- a value that the debug port reads -/
  | debug (core : BitVec 8) (v : BitVec 4096)
  /-- what the debug port reads of the island's trace (01 R36) -/
  | trace (bytes : List Byte)
  deriving DecidableEq, Repr

/-- The core and unit whose word issues, or the number of the part an event happens to (log 1). -/
structure Cursor where
  core : BitVec 8 := 0
  slot : Slot := .s
  n : Nat := 0
  deriving DecidableEq, Repr

/-- A stored code word whose decoding has changed by itself (18 R364, R367) (log 58). -/
inductive Flaw where
  | memory (key : Nat) (m : Mark)
  | staged (node key : Nat) (m : Mark)
  | core (core : BitVec 8) (w : BadWord)
  | operand (core : BitVec 8) (queue place : Nat) (m : Mark)
  | accumulators (quad word : Nat) (m : Mark)
  | plane (quad band : Nat) (shadow : Bool) (word : Nat) (m : Mark)
  | ring (crossing place : Nat) (m : Mark)
  /-- the launch record of a node in queue memory (18 R371) -/
  | record (node : Nat)
  deriving DecidableEq, Repr

/-- What the outside world, time and the clocks do next (log 1). -/
inductive Move where
  /-- device time runs on, in units of 2^-16 ns -/
  | time (dt : Nat)
  /-- an event of the opcode table at a place -/
  | event (at_ : Cursor) (i : Instr)
  /-- the bytes of one host message arrive -/
  | host (bytes : List Byte)
  /-- one unit of one core has its turn in the current region cycle -/
  | slot (core : BitVec 8) (slot : Slot)
  /-- one region cycle; then the parts of it -/
  | cycle (region : BitVec 5)
  | thaw (region : BitVec 5)
  | late (region : BitVec 5)
  | land (region : BitVec 5)
  | endCycle (region : BitVec 5)
  | close (region : BitVec 5)
  /-- an access of a word or copy of the core inside its bound: of its first `k` elements, or of element `k` (log 6) -/
  | part (core : BitVec 8) (id k : Nat)
  | flaw (f : Flaw)
  /-- a lockstep partner tells of a fault that it alone has met: the node by the primary's number, the class, whether an
  issued access met it, and the rank, sequencer and ordinal of the word (19 R398, R400) (log 53) -/
  | partner (primary : Nat) (cls : BitVec 8) (issued : Bool) (rank sequencer ordinal : Nat)
  deriving DecidableEq, Repr

/-- Accesses that a store happens before (06 R163): those a sequencer of a core makes in class `cls` or 0. Class 16 is
what a word of S without a class knows; class 17 + i is the S word of index i alone, which follows a TWAIT (log 9). -/
structure Seen where
  core : Nat
  seq : Nat
  cls : Nat
  deriving DecidableEq, Repr

/-- A store that some observer may still miss, or that tells a reader what happened before it (06 R163 to R170). The list
of them holds those of one byte in their home order (log 9). -/
structure Recent where
  /-- the number of the store and of the aligned block it lies in: seen whole or not at all (R162) -/
  no : Nat
  core : BitVec 8
  slot : Slot
  cls : BitVec 4
  key : Nat
  /-- what the byte held before it in home order; none for what the memory outside the staged view holds -/
  old : Option Byte
  val : Byte
  /-- the node in whose staged view it lies (03 R103) -/
  stage : Option Nat := none
  /-- it is visible to every observer from that cycle of the region on -/
  region : Nat
  until_ : Nat
  /-- the segment of a word of the C sequencer -/
  ordinal : Nat := 0
  /-- the stores that happen before it -/
  past : List Nat := []
  /-- the accesses that it happens before -/
  seen : List Seen := []
  /-- a core of the writer's quad has read it through the quad window (R165) -/
  window : Bool := false
  /-- written by an atomic, which no other store comes between (R173) -/
  atom : Bool := false
  deriving DecidableEq, Repr

/-- A line whose tag another observer may not see yet (04 R116, R165): the slice and line, the tag it replaced, until
when, and the stores that happen before the one that set it (log 20). -/
structure TagNews where
  core : BitVec 8
  slot : Slot
  target : Nat
  line : Nat
  old : Byte
  region : Nat
  until_ : Nat
  past : List Nat := []
  deriving DecidableEq, Repr

/-- Units of a token counter that a give put there: `ahead` older units lie before its `amount`, and the stores `past`
happen before the word that takes one of them (06 R163). -/
structure Given where
  core : Nat
  counter : BitVec 5
  ahead : Nat
  amount : Nat
  past : List Nat
  deriving DecidableEq, Repr

/-- An entry on an operand chain, or a credit on its way back (04 R133, R134). -/
structure Chain where
  source : BitVec 8
  lane : Nat
  target : BitVec 8
  queue : Nat
  data : BitVec 4096
  /-- the region cycle in which it entered its lane -/
  sent : Nat
  due : Nat
  deriving DecidableEq, Repr

/-- A credit on its way back to a result queue. -/
structure Credit where
  source : BitVec 8
  lane : Nat
  due : Nat
  deriving DecidableEq, Repr

/-- A TOKEN_ADD that waits for the end of a cycle (01 R34). -/
structure HostAdd where
  node : Nat
  rank : Nat
  counter : BitVec 5
  amount : Nat
  payload : List Byte
  deriving DecidableEq, Repr

/-- Every byte the package reaches (04 R108) and its marks. -/
structure Memory where
  /-- bytes by key (`Machine/Ops.lean` says which key a place has): keys rising, no zero byte listed -/
  cells : List Host.Cell := []
  /-- sequence tags by 4096 core + line (04 R116) -/
  tags : Tab Byte := []
  /-- marks of code words by the key of their first byte -/
  marks : List (Nat × Mark) := []
  /-- the tenant key each HBM granule was written under and its granule number then, by granule key (12 R313) -/
  keys : List (Nat × (BitVec 512 × Nat)) := []
  /-- stores not yet seen by every observer -/
  recent : List Recent := []
  tagNews : List TagNews := []
  given : List Given := []
  /-- number of the next store -/
  stores : Nat := 0
  /-- the partition that last used each slice (03 R83) -/
  lastPart : Tab (Option (BitVec 4)) := []
  deriving DecidableEq, Repr

/-- The host's side: link, journal and host additions under way (01 R31 to R35, 19 R403 to R406). -/
structure HostSide where
  up : Bool := true
  outbox : List Out := []
  refusals : Nat := 0
  jrnlCfg : BitVec 32 := 65536#32
  head : Nat := 1
  sel : BitVec 64 := 0
  journal : Tab (Option JEntry) := []
  /-- the 16 dwords of JRNL_DATA; none listed read zero -/
  data : List Dword := []
  adds : List HostAdd := []
  deriving DecidableEq, Repr

/-- Device time and the 1588 unit (02 R57, R58). -/
structure Clock where
  /-- device time in units of 2^-16 ns -/
  now : Nat := 0
  cfg : BitVec 64 := 0
  offset : BitVec 32 := 0
  locked : Bool := false
  /-- by port, as TIME_CFG numbers them: the unit is master there (R57) -/
  masters : BitVec 28 := 0
  /-- sync intervals in a row whose offset was within 10 ns (R58) -/
  settled : Nat := 0
  discarded : Nat := 0
  /-- the unit has locked since power-on: device time is disciplined (R57) -/
  disciplined : Bool := false
  /-- by die: the first period of 32 ns whose decision the dispatcher has not made (03 R81) -/
  decided0 : Nat := 0
  decided1 : Nat := 0
  deriving DecidableEq, Repr

/-- The machine. -/
structure State where
  clock : Clock := {}
  agenda : List Move := []
  cur : Cursor := {}
  freeCtr : Nat := 0
  powered : Bool := true
  packageNo : BitVec 13 := 0
  mem : Memory := {}
  host : HostSide := {}
  power : Power := {}
  island : Island := {}
  pair : Pair := {}
  rollCfg : BitVec 8 := 3
  cores : Tab Core := []
  code : Tab CodeStore := []
  quads : Tab Quad := []
  regions : Tab Region := []
  sources : Tab Source := []
  crossings : Tab Crossing := []
  ports : Tab Port := []
  queues : Tab LQueue := []
  parts : Tab Part := []
  hbm : Tab Stack := []
  nodes : Tab (Option Node) := []
  /-- quads held for a newcomer, with its number (03 R85) -/
  holds : Tab (Option Nat) := []
  chains : List Chain := []
  credits : List Credit := []
  /-- links that are down (18 R374) -/
  down : List LinkId := []
  deriving DecidableEq, Repr

/-- What one step of the machine answers. -/
abbrev Out1 := Host.Outcome State Fault Refusal

/-- The machine right after power-on (01 R39, 03 R84; log 10 names the values the manual does not give). -/
def State.reset : State := {}

end Sys2Proof.Machine
end

