-- ==== Sys2Proof/Machine/Flags.lean ====
section
/-! DEFINITION. The sticky flags of 05 R138 and the whisk of 05 R142. -/

namespace Sys2Proof.Machine

/-- A set of the seven flags of R138, by bit. -/
abbrev Flags := BitVec 7

def flInvalid : Flags := 1
def flDivzero : Flags := 2
def flOverflow : Flags := 4
def flUnderflow : Flags := 8
def flInexact : Flags := 16
def flSaturated : Flags := 32
def flOutlier : Flags := 64

/-- The flag when the condition holds. -/
def flagIf (c : Bool) (f : Flags) : Flags := if c then f else 0

/-- The OR of the flags of several elements (R138, R152). -/
def orFlags : List Flags → Flags
  | [] => 0
  | f :: t => f ||| orFlags t

/-- WHISK(seed, step, index) of R142. -/
def whisk (seed : BitVec 64) (step : BitVec 32) (index : Nat) : BitVec 64 :=
  let z := seed + BitVec.ofNat 64 index * 0x9E3779B97F4A7C15#64 + step.setWidth 64 * 0xD1B54A32D192ED03#64
  let z := (z ^^^ (z >>> 30)) * 0xBF58476D1CE4E5B9#64
  let z := (z ^^^ (z >>> 27)) * 0x94D049BB133111EB#64
  z ^^^ (z >>> 31)

/-- Bits [63:32] of a whisk, which stochastic rounding and dropout compare (R140, R143). -/
def whiskHigh (seed : BitVec 64) (step : BitVec 32) (index : Nat) : Nat := (whisk seed step index).toNat / 2 ^ 32

end Sys2Proof.Machine
end

