-- ==== Sys2Proof/Machine/Numbers.lean ====
section
/-! DEFINITION. Exact arithmetic and the one rounding of 05 R135 to R145: formats, sums, products, comparisons. -/

namespace Sys2Proof.Machine

/-! ## Formats (R135, R136) -/

/-- A binary floating format: mantissa bits, bias, the largest finite magnitude, infinity if any, canonical NaN,
and the place of the sign. -/
structure Fmt where
  mb : Nat
  bias : Nat
  top : Nat
  inf : Option Nat
  nan : Nat
  sign : Nat
  deriving DecidableEq, Repr

def fmtF32 : Fmt := ⟨23, 127, 0x7F7FFFFF, some 0x7F800000, 0x7FC00000, 31⟩
def fmtF16 : Fmt := ⟨10, 15, 0x7BFF, some 0x7C00, 0x7E00, 15⟩
def fmtBf16 : Fmt := ⟨7, 127, 0x7F7F, some 0x7F80, 0x7FC0, 15⟩
def fmtE5m2 : Fmt := ⟨2, 15, 0x7B, some 0x7C, 0x7E, 7⟩
def fmtE4m3 : Fmt := ⟨3, 7, 0x7E, none, 0x7F, 7⟩

/-- The binary format of a type code; f32 for a code that is none. -/
def fmtOf (t : Nat) : Fmt :=
  match t with
  | 8 => fmtE4m3
  | 9 => fmtE5m2
  | 10 => fmtBf16
  | 11 => fmtF16
  | _ => fmtF32

/-- The value of bits `b` in a binary format. -/
def Fmt.num (f : Fmt) (b : Nat) : Num :=
  let neg := b / 2 ^ f.sign % 2 = 1
  let mag := b % 2 ^ f.sign
  if f.top < mag then
    if f.inf = some mag then .inf neg else .nan
  else
    let e := mag / 2 ^ f.mb
    if e = 0 then .fin neg mag (1 - (f.bias : Int) - f.mb)
    else .fin neg (mag % 2 ^ f.mb + 2 ^ f.mb) ((e : Int) - f.bias - f.mb)

/-- The table T of lg6 (R144), over 2048. -/
def lgTable (f : Nat) : Nat :=
  match f with
  | 0 => 2048
  | 1 => 2435
  | 2 => 2896
  | _ => 3444

/-- The value of an exponent code sum `e` = 4E + f of lg6 (R144, R145). -/
def lgNum (neg : Bool) (e : Int) : Num := .fin neg (lgTable (e % 4).toNat) (e / 4 - 11)

/-- The value of an lg6 element; the invalid marker counts as a NaN (R144). -/
def lg6Num (b : Nat) : Num :=
  let s := b / 32 % 2
  let e := b % 32
  if e = 0 then (if s = 0 then .fin false 0 0 else .nan) else lgNum (s = 1) ((e : Int) - 16)

/-- The value of an e8m0 element (R147). -/
def e8m0Num (b : Nat) : Num := if b % 256 = 255 then .nan else .fin false 1 ((b % 256 : Nat) - 127 : Int)

/-- Width of an element of a type code, in bits (R135, R136). -/
def widthOf (t : Nat) : Nat :=
  match t with
  | 0 | 4 => 4
  | 2 | 6 | 10 | 11 => 16
  | 3 | 7 | 12 => 32
  | _ => 8

/-- INT, signed INT, and FLT of 10 R246. -/
def isInt (t : Nat) : Bool := t < 8
def isSigned (t : Nat) : Bool := t < 4
def isFlt (t : Nat) : Bool := t = 10 || t = 11 || t = 12

/-- EXTS(v, n) of 00 R9. -/
def exts (v n : Nat) : Int := if v % 2 ^ n < 2 ^ (n - 1) then (v % 2 ^ n : Nat) else (v % 2 ^ n : Nat) - (2 ^ n : Nat)

/-- An integer element as the integer it stands for (R136). -/
def intOf (t : Nat) (b : Nat) : Int := if isSigned t then exts b (widthOf t) else (b % 2 ^ widthOf t : Nat)

/-- An integer as a number; its zero is +0. -/
def Num.ofInt (i : Int) : Num := .fin (i < 0) i.natAbs 0

/-- The value of an element of any type code. -/
def numOf (t : Nat) (b : Nat) : Num :=
  if isInt t then .ofInt (intOf t b)
  else if t = 13 then lg6Num b
  else if t = 14 then e8m0Num b
  else (fmtOf t).num b

/-- The canonical NaN of a type (R135). -/
def nanOf (t : Nat) : Nat := if t = 13 then 0x20 else if t = 14 then 0xFF else (fmtOf t).nan

/-! ## Exact operations -/

def Num.isNan : Num → Bool
  | .nan => true
  | _ => false

def Num.isInf : Num → Bool
  | .inf _ => true
  | _ => false

def Num.isNeg : Num → Bool
  | .nan => false
  | .inf n => n
  | .fin n _ _ => n

def Num.isZero : Num → Bool
  | .fin _ 0 _ => true
  | _ => false

def Num.neg : Num → Num
  | .nan => .nan
  | .inf n => .inf (!n)
  | .fin n m e => .fin (!n) m e

def Num.abs : Num → Num
  | .nan => .nan
  | .inf _ => .inf false
  | .fin _ m e => .fin false m e

/-- x times 2^k. -/
def Num.scale (x : Num) (k : Int) : Num :=
  match x with
  | .fin n m e => .fin n m (e + k)
  | y => y

/-- The signed integer mantissa of a finite number at a lower exponent `q`. -/
def manAt (neg : Bool) (m : Nat) (e q : Int) : Int :=
  let v : Int := (m <<< (e - q).toNat : Nat)
  if neg then -v else v

/-- The exact sum; true when it is an invalid operation (R137). A zero sum of operands of opposite sign is +0. -/
def Num.add (a b : Num) : Num × Bool :=
  match a, b with
  | .nan, _ => (.nan, false)
  | _, .nan => (.nan, false)
  | .inf x, .inf y => if x = y then (.inf x, false) else (.nan, true)
  | .inf x, _ => (.inf x, false)
  | _, .inf y => (.inf y, false)
  | .fin x m e, .fin y n f =>
    let q := min e f
    let s := manAt x m e q + manAt y n f q
    if s = 0 then (.fin (x && y && m = 0 && n = 0) 0 q, false) else (.fin (s < 0) s.natAbs q, false)

/-- The exact product; true when an infinity meets a zero (R137). -/
def Num.mul (a b : Num) : Num × Bool :=
  match a, b with
  | .nan, _ => (.nan, false)
  | _, .nan => (.nan, false)
  | .inf x, .inf y => (.inf (x != y), false)
  | .inf x, .fin y n _ => if n = 0 then (.nan, true) else (.inf (x != y), false)
  | .fin x m _, .inf y => if m = 0 then (.nan, true) else (.inf (x != y), false)
  | .fin x m e, .fin y n f => (.fin (x != y) (m * n) (e + f), false)

/-- Order of numbers that are not NaN: a < b. -/
def Num.lt (a b : Num) : Bool :=
  match a, b with
  | .nan, _ => false
  | _, .nan => false
  | .inf x, .inf y => x && !y
  | .inf x, _ => x
  | _, .inf y => !y
  | .fin x m e, .fin y n f => let q := min e f; manAt x m e q < manAt y n f q

/-- Equality of values; -0 equals +0 and a NaN equals nothing. -/
def Num.eqv (a b : Num) : Bool :=
  match a, b with
  | .nan, _ => false
  | _, .nan => false
  | .inf x, .inf y => x = y
  | .inf _, _ => false
  | _, .inf _ => false
  | .fin x m e, .fin y n f => let q := min e f; manAt x m e q = manAt y n f q

/-- The exact sum of a list of terms, with a flag for infinities of opposite sign (R137, R159):
-0 when every term is -0, else an exact zero is +0. -/
def sumNums : List Num → Num × Bool
  | l =>
    let pos := l.any (fun x => x == .inf false)
    let negi := l.any (fun x => x == .inf true)
    if pos && negi then (.nan, true)
    else if l.any Num.isNan then (.nan, false)
    else if pos then (.inf false, false)
    else if negi then (.inf true, false)
    else
      let r := l.foldl (fun (acc : Num) x => (acc.add x).1) (match l with | [] => .fin false 0 0 | x :: _ => .fin x.isNeg 0 0)
      (r, false)

/-! ## Rounding (R137 to R140) -/

/-- Rounding modes by code: 0 RNE, 1 RTZ, 2 stochastic, 3 RDN (R139). -/
abbrev Mode := Nat

/-- man / 2^sh rounded by the mode, and whether that differs. `h` is the whisk's high half (R140). -/
def roundMan (mode : Mode) (neg : Bool) (h : Nat) (man sh : Nat) : Nat × Bool :=
  let q := man >>> sh
  let r := man % 2 ^ sh
  let up : Bool :=
    match mode with
    | 1 => false
    | 2 => h < (2 ^ 32 * r) >>> sh
    | 3 => neg && r ≠ 0
    | _ => 2 ^ sh < 2 * r || (2 * r = 2 ^ sh && q % 2 = 1)
  (if up then q + 1 else q, r ≠ 0)

/-- floor(log2 n) for n > 0. -/
def log2 (n : Nat) : Nat := n.log2

/-- The magnitude bits of man × 2^exp in a format with an unbounded exponent range above, whether it was rounded,
and whether the exact value lies below the smallest normal. -/
def Fmt.roundMag (f : Fmt) (mode : Mode) (neg : Bool) (h : Nat) (man : Nat) (exp : Int) : Nat × Bool × Bool :=
  if man = 0 then (0, false, false)
  else
    let emin : Int := 1 - f.bias
    let e := exp + log2 man
    let q := max e emin - f.mb
    let (m, inex) := if q ≤ exp then (man <<< (exp - q).toNat, false) else roundMan mode neg h man (q - exp).toNat
    (((q + f.mb - emin).toNat) * 2 ^ f.mb + m, inex, e < emin)

/-- Sign and magnitude put together. -/
def Fmt.pack (f : Fmt) (neg : Bool) (mag : Nat) : Nat := if neg then mag + 2 ^ f.sign else mag

/-- One rounding of an exact value into a binary format (R137, R148): bits and flags. -/
def Fmt.round (f : Fmt) (mode : Mode) (h : Nat) (sat : Bool) (x : Num) : Nat × Flags :=
  match x with
  | .nan => (f.nan, 0)
  | .inf neg =>
    match f.inf with
    | some i => (f.pack neg i, 0)
    | none => if sat then (f.pack neg f.top, flSaturated) else (f.nan, flInvalid)
  | .fin neg man exp =>
    let (mag, inex, tiny) := f.roundMag mode neg h man exp
    if f.top < mag then
      if sat then (f.pack neg f.top, flSaturated ||| flInexact)
      else
        match f.inf with
        | none => (f.nan, flOverflow ||| flInexact)
        | some i =>
          let toTop := mode = 1 || (mode = 3 && !neg)
          (f.pack neg (if toTop then f.top else i), flOverflow ||| flInexact)
    else (f.pack neg mag, flagIf inex flInexact ||| flagIf (inex && tiny) flUnderflow)

/-- RNE(x, t) for a floating type code (R9, R137). -/
def rne (t : Nat) (x : Num) : Nat × Flags := (fmtOf t).round 0 0 false x

/-- RNE of an operation that may be invalid. -/
def rneOp (t : Nat) (r : Num × Bool) : Nat × Flags :=
  let (b, f) := rne t r.1
  (b, f ||| flagIf r.2 flInvalid)

/-! ## Element operations -/

/-- An integer reduced to the width of a type. -/
def wrapTo (t : Nat) (i : Int) : Nat := (i % (2 ^ widthOf t : Nat)).toNat

/-- a + b and a - b at a type (R253). -/
def elemAdd (t a b : Nat) : Nat × Flags :=
  if isInt t then (wrapTo t (intOf t a + intOf t b), 0) else rneOp t ((numOf t a).add (numOf t b))

def elemSub (t a b : Nat) : Nat × Flags :=
  if isInt t then (wrapTo t (intOf t a - intOf t b), 0) else rneOp t ((numOf t a).add (numOf t b).neg)

/-- The greater and the lesser of two elements (R118): NaN if either is NaN; max(-0, +0) = +0, min(-0, +0) = -0. -/
def elemMax (t a b : Nat) : Nat :=
  if isInt t then (if intOf t a < intOf t b then b else a)
  else
    let x := numOf t a
    let y := numOf t b
    if x.isNan || y.isNan then nanOf t
    else if x.lt y then b else if y.lt x then a else if x.isNeg then b else a

def elemMin (t a b : Nat) : Nat :=
  if isInt t then (if intOf t b < intOf t a then b else a)
  else
    let x := numOf t a
    let y := numOf t b
    if x.isNan || y.isNan then nanOf t
    else if x.lt y then a else if y.lt x then b else if x.isNeg then a else b

/-- The combine operations of R118, by code: 0 add, 1 max, 2 min, 3 and, 4 or, 5 xor. -/
def combine (t op a b : Nat) : Nat × Flags :=
  match op with
  | 0 => elemAdd t a b
  | 1 => (elemMax t a b, 0)
  | 2 => (elemMin t a b, 0)
  | 3 => (a &&& b, 0)
  | 4 => (a ||| b, 0)
  | _ => (a ^^^ b, 0)

/-- The identities of 04 R119 at any type (R154). -/
def identityOf (t op : Nat) : Nat :=
  let w := widthOf t
  match op with
  | 0 => if isInt t then 0 else (fmtOf t).pack true 0
  | 1 => if isSigned t then 2 ^ (w - 1) else if isInt t then 0 else (fmtOf t).pack true ((fmtOf t).inf.getD (fmtOf t).top)
  | 2 =>
    if isSigned t then 2 ^ (w - 1) - 1 else if isInt t then 2 ^ w - 1 else (fmtOf t).inf.getD (fmtOf t).top
  | 3 => 2 ^ w - 1
  | _ => 0

/-- One level of a complete binary tree. -/
def treeLevel (op : Nat → Nat → Nat × Flags) : List Nat → List Nat × Flags
  | a :: b :: t =>
    let (x, f) := op a b
    let (r, g) := treeLevel op t
    (x :: r, f ||| g)
  | [a] => ([a], 0)
  | [] => ([], 0)

/-- The complete binary tree of R118 and R154 over at most 2^fuel values. -/
def treeOf (op : Nat → Nat → Nat × Flags) : Nat → List Nat → Nat × Flags
  | 0, l => (l.headD 0, 0)
  | n + 1, l =>
    match l with
    | [] => (0, 0)
    | [a] => (a, 0)
    | l =>
      let (r, f) := treeLevel op l
      let (x, g) := treeOf op n r
      (x, f ||| g)

end Sys2Proof.Machine
end

