-- ==== Sys2Proof/Machine/Bits.lean ====
section
/-! DEFINITION. Fields, bytes and element images: the packing of 00 R4 and 05 R136. -/

namespace Sys2Proof.Machine

/-- Bits [hi:lo] of a number. -/
def bitsOf (v hi lo : Nat) : Nat := v / 2 ^ lo % 2 ^ (hi + 1 - lo)

/-- Bit `i` of a number. -/
def bitOf (v i : Nat) : Bool := v / 2 ^ i % 2 = 1

/-- Bits [hi:lo] of a vector of bits, as a number. -/
def fieldOf {n : Nat} (v : BitVec n) (hi lo : Nat) : Nat := bitsOf v.toNat hi lo

/-- Bits [hi:lo] of `v` replaced by `f`. -/
def setField {n : Nat} (v : BitVec n) (hi lo f : Nat) : BitVec n :=
  BitVec.ofNat n (v.toNat - fieldOf v hi lo * 2 ^ lo + f % 2 ^ (hi + 1 - lo) * 2 ^ lo)

/-- A truth value as a number. -/
def b2n (b : Bool) : Nat := if b then 1 else 0

/-- A number saturated at n bits. -/
def satNat (n v : Nat) : BitVec n := BitVec.ofNat n (min v (2 ^ n - 1))

/-- `n` little-endian bytes of a bit vector's number. -/
def bytesOf {w : Nat} (n : Nat) (v : BitVec w) : List Byte := leBytes n v.toNat

/-- Dword `i` of a little-endian list of bytes. -/
def dwordAt (bs : List Byte) (i : Nat) : Dword := BitVec.ofNat 64 (leNat ((bs.drop (8 * i)).take 8))

/-- Element `i` of width `w` of a register image. -/
def elemAt {n : Nat} (v : BitVec n) (w i : Nat) : Nat := (v.toNat >>> (w * i)) % 2 ^ w

/-- Elements packed into an image, element 0 lowest. -/
def packElems (w : Nat) : List Nat → Nat
  | [] => 0
  | e :: t => e % 2 ^ w + 2 ^ w * packElems w t

/-- All `n` elements of width `w` of an image. -/
def elemsOf {m : Nat} (v : BitVec m) (w n : Nat) : List Nat := (List.range n).map (elemAt v w)

/-- Bits packed into a number, bit 0 first. -/
def packBits : List Bool → Nat
  | [] => 0
  | b :: t => b2n b + 2 * packBits t

/-- Is n a power of two? -/
def isPow2 (n : Nat) : Bool := n ≠ 0 && n = 2 ^ n.log2

/-- Round n up to a multiple of k. -/
def alignUp (n k : Nat) : Nat := (n + k - 1) / k * k

/-- ceil(n / k). -/
def ceilDiv (n k : Nat) : Nat := (n + k - 1) / k

/-- Insert keeping the order `le`. -/
def insertBy {α : Type} (le : α → α → Bool) (a : α) : List α → List α
  | [] => [a]
  | b :: t => if le a b then a :: b :: t else b :: insertBy le a t

/-- A stable ascending sort, by insertion from the right. -/
def sortBy {α : Type} (le : α → α → Bool) : List α → List α
  | [] => []
  | a :: t => insertBy le a (sortBy le t)

/-- Change the first entry that satisfies `p`. -/
def modifyFirst {α : Type} (p : α → Bool) (f : α → α) : List α → List α
  | [] => []
  | a :: t => if p a then f a :: t else a :: modifyFirst p f t

/-- Remove the first entry that satisfies `p`. -/
def removeFirst {α : Type} (p : α → Bool) : List α → List α
  | [] => []
  | a :: t => if p a then t else a :: removeFirst p t

/-- CRC-32C over bytes, reflected, without the final inversion (03 R88). -/
def crcByte (crc : BitVec 32) (b : Byte) : BitVec 32 :=
  let step (c : BitVec 32) : BitVec 32 := if c.getLsbD 0 then (c >>> 1) ^^^ 0x82F63B78#32 else c >>> 1
  step (step (step (step (step (step (step (step (crc ^^^ b.setWidth 32))))))))

def crcBytes (crc : BitVec 32) (bs : List Byte) : BitVec 32 := bs.foldl crcByte crc

/-- CRC-32C of a list of bytes. -/
def crc32c (bs : List Byte) : BitVec 32 := ~~~ (crcBytes 0xFFFFFFFF#32 bs)

end Sys2Proof.Machine
end

