-- ==== Sys2Proof/Machine/Codes.lean ====
section
/-! DEFINITION. The two error codes (18 R364 to R367): check bits, syndromes, and the class a decoder gives a word. No
program reads check bits; `Memory.marks` holds the class of each word that is neither good nor corrected. -/

namespace Sys2Proof.Machine

/-- Product of two polynomials over GF(2), the second below degree 16. -/
def clMul (a b : Nat) : Nat :=
  (List.range 16).foldl (fun r i => if b.testBit i then r ^^^ (a <<< i) else r) 0

/-- Remainder of a polynomial over GF(2) by one of degree `d`, from degree `d + n - 1` down. -/
def clRem (g d : Nat) : Nat → Nat → Nat
  | 0, v => v
  | n + 1, v => clRem g d n (if v.testBit (d + n) then v ^^^ (g <<< n) else v)

/-- The field polynomial x^8 + x^4 + x^3 + x^2 + 1 (R365). -/
def fieldPoly : Nat := 0x11D

/-- Product in GF(2^8). -/
def gfMul (a b : Nat) : Nat := clRem fieldPoly 8 8 (clMul a b)

/-- α^n. -/
def gfPow : Nat → Nat
  | 0 => 1
  | n + 1 => gfMul 2 (gfPow n)

/-! ## The SRAM code (R366) -/

/-- The minimal polynomial of α^3 over GF(2): x^8 + x^6 + x^5 + x^4 + x^2 + x + 1. -/
def cubePoly : Nat := 0x177

/-- The generator: the product of the minimal polynomials of α and α^3. -/
def sramGen : Nat := clMul fieldPoly cubePoly

/-- Check bits of 128 data bits. -/
def sramCheck (d : BitVec 128) : BitVec 16 := BitVec.ofNat 16 (clRem sramGen 16 128 (d.toNat <<< 16))

/-- The syndrome of a word as read: its check bits against those of its data (log 57). -/
def sramSyndrome (d : BitVec 128) (c : BitVec 16) : BitVec 16 := sramCheck d ^^^ c

/-- Syndrome of the error in the one bit of degree `k`. -/
def sramBit (k : Nat) : BitVec 16 := if k < 16 then 1#16 <<< k else sramCheck (1#128 <<< (k - 16))

/-- The poison mask (R367). -/
def sramMask : BitVec 16 := 0xB4C5

/-! ## The granule code (R365) -/

/-- The generator's coefficients of x^3, x^2, x and 1; the product of x - α^0 to x - α^3. -/
def granuleGen : List Nat :=
  ((List.range 4).foldl (fun (p : List Nat) i =>
    List.zipWith (fun a b => a ^^^ b) (p ++ [0]) (0 :: p.map (gfMul (gfPow i)))) [1]).drop 1

/-- One step of the division: the four coefficients of the remainder, highest first, and the next data byte. -/
def granuleStep (r : List Nat) (b : Nat) : List Nat :=
  let f := r.headD 0 ^^^ b
  List.zipWith (fun a g => a ^^^ gfMul f g) (r.drop 1 ++ [0]) granuleGen

/-- Check bytes 0 to 3 of 32 data bytes, byte j in bits 8 j + 7 to 8 j. -/
def granuleCheck (d : List Byte) : BitVec 32 :=
  BitVec.ofNat 32 (((d.map BitVec.toNat).foldl granuleStep [0, 0, 0, 0]).foldr (fun b acc => b + 256 * acc) 0)

/-- The syndrome of a word as read. -/
def granuleSyndrome (d : List Byte) (c : BitVec 32) : BitVec 32 := granuleCheck d ^^^ c

/-- Syndrome of the error `e` in code byte `i`: data bytes 0 to 31, then the check bytes. -/
def granuleByte (i e : Nat) : BitVec 32 :=
  if i < 32 then granuleCheck (List.replicate i 0 ++ [BitVec.ofNat 8 e] ++ List.replicate (31 - i) 0)
  else BitVec.ofNat 32 (e <<< (8 * (i - 32)))

/-- The poison mask (R367). -/
def granuleMask : BitVec 32 := 0x6D2BE719

/-! ## What a decoder makes of a word (R367) -/

/-- The class of a code word. -/
inductive WordClass where
  | good | corrected | poisoned | uncorrectable
  deriving DecidableEq, Repr

/-- The class by syndrome, in the order of R367. -/
def classOf {w : Nat} (mask : BitVec w) (fixable : BitVec w → Bool) (s : BitVec w) : WordClass :=
  if s = 0 then .good
  else if fixable s then .corrected
  else if s = mask || fixable (s ^^^ mask) then .poisoned
  else .uncorrectable

/-- The syndrome of an error in one bit. -/
def sramFixable (s : BitVec 16) : Bool := (List.range 144).any (fun k => sramBit k = s)

/-- The syndrome of an error in one byte. -/
def granuleFixable (s : BitVec 32) : Bool :=
  (List.range 36).any (fun i => (List.range 255).any (fun e => granuleByte i (e + 1) = s))

def sramClass (d : BitVec 128) (c : BitVec 16) : WordClass := classOf sramMask sramFixable (sramSyndrome d c)
def granuleClass (d : List Byte) (c : BitVec 32) : WordClass := classOf granuleMask granuleFixable (granuleSyndrome d c)

/-- The mark that a class leaves on a word of the model's memory. -/
def WordClass.mark : WordClass → Option Mark
  | .good | .corrected => none
  | .poisoned => some .poisoned
  | .uncorrectable => some .uncorrectable

end Sys2Proof.Machine
end

