-- ==== Sys2Proof/Machine/Convert.lean ====
section
/-! DEFINITION. CONVERT(x, type, mode) with the fates of 05 R146 to R150. -/

namespace Sys2Proof.Machine

/-- What one conversion gives: the bits, the flags, and the f32 value of an outlier (R150). -/
structure Conv where
  bits : Nat
  flags : Flags := 0
  outlier : Option Nat := none
  deriving DecidableEq, Repr

/-- Conversion to lg6 without outlier mode (R146): -/
def toLg6 (sat : Bool) (x : Num) : Nat × Flags :=
  match x with
  | .nan => (0x20, 0)
  | .inf neg => if sat then (31 + (if neg then 32 else 0), flSaturated) else (0x20, flInvalid)
  | .fin neg man exp =>
    if man = 0 then (0, 0)
    else
      -- an i32 or n32 source first rounds RNE to f32; every other source is an f32 value already
      let l := log2 man
      let m0 := if l ≤ 23 then man <<< (23 - l) else (roundMan 0 neg 0 man (l - 23)).1
      let big := m0 = 2 ^ 24
      let m := if big then 0 else m0 - 2 ^ 23
      let e0 : Int := exp + l + (if big then 1 else 0)
      let f : Nat :=
        if m ≤ 792576 then 0 else if m < 2529280 then 1 else if m ≤ 4595712 then 2 else if m < 7053312 then 3 else 4
      let e := 4 * e0 + f + 16
      let sign := if neg then 32 else 0
      if 31 < e then (if sat then (31 + sign, flSaturated ||| flInexact) else (0x20, flOverflow ||| flInexact))
      else if e < 1 then (0, flUnderflow ||| flInexact)
      else (e.toNat + sign, flagIf (!(lgNum neg (e - 16)).eqv x) flInexact)

/-- Conversion to e8m0 (R147). A negative power of two loses its sign without inexact, which R147 names for a mantissa only:
the model's choice (log 59). -/
def toE8m0 (x : Num) : Nat × Flags :=
  match x with
  | .nan => (0xFF, 0)
  | .inf _ => (0xFF, flInvalid)
  | .fin _ man exp =>
    if man = 0 then (0, flUnderflow)
    else
      let l := log2 man
      let e : Int := exp + l + 127
      if 254 < e then (0xFE, flSaturated ||| flInexact)
      else if e < 0 then (0, flUnderflow ||| flInexact)
      else (e.toNat, flagIf (man ≠ 2 ^ l) flInexact)

/-- The integer a finite value rounds to by the mode, and whether that differs (R139, R149). -/
def roundInt (mode : Mode) (h : Nat) (neg : Bool) (man : Nat) (exp : Int) : Int × Bool :=
  let (m, inex) := if 0 ≤ exp then (man <<< exp.toNat, false) else roundMan mode neg h man (-exp).toNat
  (if neg then -(m : Int) else m, inex)

/-- The least and greatest values of an integer type. -/
def intLo (t : Nat) : Int := if isSigned t then -(2 ^ (widthOf t - 1) : Nat) else 0
def intHi (t : Nat) : Int := if isSigned t then (2 ^ (widthOf t - 1) : Nat) - 1 else (2 ^ widthOf t : Nat) - 1

/-- Conversion to an integer type, which always clamps (R149). -/
def toInt (t : Nat) (mode : Mode) (h : Nat) (x : Num) : Nat × Flags :=
  match x with
  | .nan => (0, flInvalid)
  | .inf neg => (wrapTo t (if neg then intLo t else intHi t), flInvalid ||| flSaturated)
  | .fin neg man exp =>
    let (i, inex) := roundInt mode h neg man exp
    if i < intLo t then (wrapTo t (intLo t), flSaturated ||| flInexact)
    else if intHi t < i then (wrapTo t (intHi t), flSaturated ||| flInexact)
    else (wrapTo t i, flagIf inex flInexact)

/-- Conversion of an exact value without outlier mode (R146 to R149). -/
def convertPlain (t : Nat) (mode : Mode) (sat : Bool) (h : Nat) (x : Num) : Nat × Flags :=
  if isInt t then toInt t mode h x
  else if t = 13 then toLg6 sat x
  else if t = 14 then toE8m0 x
  else (fmtOf t).round mode h (sat && t ≠ 12) x

/-- A value is an outlier of a target: an infinity, or one that would overflow it under R139 (R150). -/
def isOutlier (t : Nat) (mode : Mode) (h : Nat) (x : Num) : Bool :=
  match x with
  | .nan => false
  | .inf _ => true
  | .fin neg man exp =>
    if isInt t then
      let (i, _) := roundInt mode h neg man exp
      i < intLo t || intHi t < i
    else if t = 13 then (toLg6 false x).2 &&& flOverflow ≠ 0
    else if t = 14 then (toE8m0 x).2 &&& flSaturated ≠ 0
    else
      let f := fmtOf t
      f.top < (f.roundMag mode neg h man exp).1

/-- CONVERT(x, t, mode) with the saturate and outlier fields. -/
def convert (t : Nat) (mode : Mode) (sat outl : Bool) (h : Nat) (x : Num) : Conv :=
  if outl && isOutlier t mode h x then { bits := 0, flags := flOutlier, outlier := some (rne 12 x).1 }
  else
    let (b, f) := convertPlain t mode sat h x
    { bits := b, flags := f }

/-- An element copied between equal types (10 R259): a NaN of a floating type becomes canonical, lg6 loses bits [7:6]. -/
def sameType (t b : Nat) : Nat :=
  if t = 13 then b % 64
  else if isFlt t || t = 8 || t = 9 then (if ((fmtOf t).num b).isNan then (fmtOf t).nan else b)
  else b

end Sys2Proof.Machine
end

