-- ==== Sys2Proof/Machine/Ops.lean ====
section
/-! DEFINITION. Named operations over the state: its parts, where things lie, memory by bytes, registers,
the effects a cycle's end makes, taking a fault and returning from the handler. -/

namespace Sys2Proof.Machine

/-! ## The parts of the state -/

namespace State

def coreAt (s : State) (c : Nat) : Core := s.cores.get {} c
def setCore (s : State) (c : Nat) (v : Core) : State := { s with cores := s.cores.ins c v }
def modCore (s : State) (c : Nat) (f : Core → Core) : State := s.setCore c (f (s.coreAt c))

def quadAt (s : State) (q : Nat) : Quad := s.quads.get {} q
def setQuad (s : State) (q : Nat) (v : Quad) : State := { s with quads := s.quads.ins q v }
def modQuad (s : State) (q : Nat) (f : Quad → Quad) : State := s.setQuad q (f (s.quadAt q))

def regionAt (s : State) (r : Nat) : Region := s.regions.get {} r
def setRegion (s : State) (r : Nat) (v : Region) : State := { s with regions := s.regions.ins r v }
def modRegion (s : State) (r : Nat) (f : Region → Region) : State := s.setRegion r (f (s.regionAt r))

def sourceAt (s : State) (i : Nat) : Source := s.sources.get {} i
def modSource (s : State) (i : Nat) (f : Source → Source) : State :=
  { s with sources := s.sources.ins i (f (s.sourceAt i)) }

def crossingAt (s : State) (i : Nat) : Crossing := s.crossings.get {} i
def modCrossing (s : State) (i : Nat) (f : Crossing → Crossing) : State :=
  { s with crossings := s.crossings.ins i (f (s.crossingAt i)) }

def portAt (s : State) (i : Nat) : Port := s.ports.get {} i
def modPort (s : State) (i : Nat) (f : Port → Port) : State := { s with ports := s.ports.ins i (f (s.portAt i)) }

def queueAt (s : State) (i : Nat) : LQueue := s.queues.get {} i
def modQueue (s : State) (i : Nat) (f : LQueue → LQueue) : State :=
  { s with queues := s.queues.ins i (f (s.queueAt i)) }

def partAt (s : State) (i : Nat) : Part := s.parts.get {} i
def modPart (s : State) (i : Nat) (f : Part → Part) : State := { s with parts := s.parts.ins i (f (s.partAt i)) }

def stackAt (s : State) (i : Nat) : Stack := s.hbm.get {} i
def modStack (s : State) (i : Nat) (f : Stack → Stack) : State :=
  { s with hbm := s.hbm.ins i (f (s.stackAt i)) }

def nodeAt (s : State) (n : Nat) : Option Node := s.nodes.get none n
def setNode (s : State) (n : Nat) (v : Node) : State := { s with nodes := s.nodes.ins n (some v) }
def modNode (s : State) (n : Nat) (f : Node → Node) : State :=
  match s.nodeAt n with
  | some v => s.setNode n (f v)
  | none => s

def entryAt (s : State) (n : Nat) : Option JEntry := s.host.journal.get none n
def setEntry (s : State) (n : Nat) (e : JEntry) : State :=
  { s with host := { s.host with journal := s.host.journal.ins n (some e) } }
def modEntry (s : State) (n : Nat) (f : JEntry → JEntry) : State :=
  match s.entryAt n with
  | some e => s.setEntry n (f e)
  | none => s

/-- Device time in ns (02 R57). -/
def now (s : State) : Nat := s.clock.now / 2 ^ 16

/-- The next fresh number for a free value (log 2). -/
def fresh (s : State) : State := { s with freeCtr := s.freeCtr + 1 }

/-- The dispatchers, base dies, HBM, links and the 1588 unit run from step 3 of the boot on (12 R310). -/
def started (s : State) : Bool := 3 ≤ s.island.boot

/-- A message, packet or record leaves the package. -/
def emit (s : State) (o : Out) : State := { s with host := { s.host with outbox := s.host.outbox ++ [o] } }

/-- A signal to the host; discarded while the link is down (01 R35, 19 R406). -/
def signal (s : State) (code : Nat) (payload : List Byte) : State :=
  if s.host.up then s.emit (.signal code payload) else s

end State

/-! ## Positions (01 R13) -/

def dieOf (core : Nat) : Nat := core / 128
def stripOf (core : Nat) : Nat := core % 128 / 16
def columnOf (core : Nat) : Nat := core % 16
def quadOf (core : Nat) : Nat := core / 4
def stackOf (core : Nat) : Nat := 4 * dieOf core + stripOf core / 2

/-- The members of a tier's group, in ascending core id: tier 0 core, 1 quad, 2 stack, 3 die, 4 package (00 R3, 06 R166). -/
def groupCores (tier group : Nat) : List Nat :=
  match tier with
  | 0 => [group]
  | 1 => (List.range 4).map (fun i => 4 * group + i)
  | 2 => (List.range 32).map (fun i => 128 * (group / 4) + 32 * (group % 4) + i)
  | 3 => (List.range 128).map (fun i => 128 * group + i)
  | _ => List.range 256

/-- The group of a tier that a core belongs to. -/
def groupOf (tier core : Nat) : Nat :=
  match tier with
  | 0 => core
  | 1 => quadOf core
  | 2 => stackOf core
  | 3 => dieOf core
  | _ => 0

namespace State

/-- A region is bound (02 R45). -/
def bound (s : State) (r : Nat) : Bool := (s.regionAt r).st ≠ .unbound

/-- The bound region of a quad, among regions 0 to n - 1; 0 when there is none. -/
def regionOfQuad (s : State) (q : Nat) : Nat → Nat
  | 0 => 0
  | n + 1 => if s.bound n && (s.regionAt n).quads.getLsbD q then n else s.regionOfQuad q n

/-- The region of a core. -/
def regionOf (s : State) (core : Nat) : Nat := s.regionOfQuad (quadOf core) 32

/-- The current cycle of a core's region. -/
def cycleOf (s : State) (core : Nat) : Nat := (s.regionAt (s.regionOf core)).cycles

/-- The last 4d cycles of every whole block of 64, and the share of a last block, are injected freeze cycles (02 R67). -/
def injected (s : State) (r : Nat) : Bool :=
  let g := s.regionAt r
  let d := g.power.duty
  let n := fieldOf g.bind 63 32
  let block := g.frameCy / 64
  let len := if (block + 1) * 64 ≤ n then 64 else n % 64
  d ≠ 0 && len - 4 * d * len / 64 ≤ g.frameCy % 64

/-- The cores of a region, ascending. -/
def regionCores (s : State) (r : Nat) : List Nat :=
  (List.range 256).filter (fun c => (s.regionAt r).quads.getLsbD (quadOf c))

/-- The node that runs on a core. -/
def nodeOn (s : State) (core : Nat) : Option (Nat × Node) :=
  match (s.coreAt core).node with
  | none => none
  | some n =>
    match s.nodeAt n with
    | some v => some (n, v)
    | none => none

/-- The cores of a node's placement, ascending: rank r is element r (03 R84). -/
def nodeCores (v : Node) : List Nat := v.quads.flatMap (fun q => (List.range 4).map (fun i => 4 * q + i))

/-- A core lies in the placement of the node on another (04 R117). -/
def inPlacement (s : State) (core target : Nat) : Bool :=
  match s.nodeOn core with
  | some (_, v) => (nodeCores v).contains target
  | none => core = target

/-- The partition that a core's node runs in (04 R122). -/
def partOf (s : State) (core : Nat) : Nat :=
  match s.nodeOn core with
  | some (_, v) => v.part.toNat
  | none => 0

/-- Dword `i` of a node's launch record (03 R71). -/
def rcd (v : Node) (i : Nat) : Nat := (v.rcd.getD i 0).toNat

/-- The freeze domain of a node: 0 core, 1 quad, 2 region (03 R73). -/
def fdom (v : Node) : Nat := bitsOf (rcd v 8) 1 0

def irrevocable (v : Node) : Bool := bitOf (rcd v 8) 2
def lockstep (v : Node) : Bool := bitOf (rcd v 8) 4
def restartable (v : Node) : Bool := bitOf (rcd v 8) 5
def checkpointable (v : Node) : Bool := bitOf (rcd v 8) 6
def drainable (v : Node) : Bool := bitOf (rcd v 8) 7

/-- The cores of the freeze domain of a core's node (03 R95). -/
def domainOf (s : State) (core : Nat) : List Nat :=
  match s.nodeOn core with
  | none => [core]
  | some (_, v) =>
    match fdom v with
    | 0 => [core]
    | 1 => groupCores 1 (quadOf core)
    | _ => s.regionCores (s.regionOf core)

/-- The debug port is open with scope bit 0 (12 R307, R314) (log 42). -/
def debugOpen (s : State) : Bool :=
  if s.island.unlocked then (match s.island.scope with | some sc => sc.getLsbD 0 | none => false)
  else !s.island.burned0 && !s.island.burned1

end State

/-! ## Memory, by keys

Every byte the package reaches has one key: slices first, then HBM by home, then host memory by bus address. -/

/-- Bytes of a slice (04 R114). -/
def sliceBytes : Nat := 2 ^ 21

/-- The key of a byte of a core's slice. -/
def sliceKey (core off : Nat) : Nat := core * 2 ^ 21 + off

/-- Where HBM keys begin. -/
def hbmBase : Nat := 2 ^ 29

/-- Granule rows of one pseudo-channel (01 R27, 04 R122). -/
def chanRows : Nat := 1638400

/-- The key of a byte of a granule at its home (04 R127). -/
def hbmKey (stack channel row byte : Nat) : Nat := hbmBase + ((stack * 160 + channel) * chanRows + row) * 256 + byte

/-- Where host memory keys begin. -/
def hostBase : Nat := 2 ^ 40

/-- The key of a byte at a host bus address. -/
def hostKey (a : Nat) : Nat := hostBase + a

/-- The stack of an HBM key. -/
def stackOfKey (k : Nat) : Nat := (k - hbmBase) / (160 * chanRows * 256)

/-! ## The interleave map (04 R127, 18 R378) -/

/-- Bit s of the stacks field: the interleave set in ascending order. -/
def ilvStacks (ilv : BitVec 64) : List Nat := (List.range 8).filter (fun i => ilv.getLsbD (56 + i))
def ilvBase (ilv : BitVec 64) : Nat := fieldOf ilv 52 32
def ilvCount (ilv : BitVec 64) : Nat := fieldOf ilv 20 0

namespace State

/-- A pseudo-channel is not retired. -/
def usable (s : State) (stack c : Nat) : Bool := !(s.stackAt stack).retired.getLsbD c

/-- Channels that every stack of a set has (R378). -/
def fullChannels (s : State) (stk : List Nat) : List Nat :=
  (List.range 160).filter (fun c => stk.all (fun k => s.usable k c))

/-- Usable channels that not every stack of the set has, by channel, then by stack (R378). -/
def tailChannels (s : State) (stk : List Nat) : List (Nat × Nat) :=
  (List.range 160).flatMap (fun c =>
    if stk.all (fun k => s.usable k c) then [] else (stk.filter (fun k => s.usable k c)).map (fun k => (k, c)))

/-- The home key of a partition memory address; none outside the partition (R127, R378). -/
def homeOf (s : State) (part pma : Nat) : Option Nat :=
  let ilv := (s.partAt part).ilv
  let stk := ilvStacks ilv
  let ns := stk.length
  let rbase := ilvBase ilv
  let rcount := ilvCount ilv
  let g := pma / 256
  if stk.all (fun k => (s.stackAt k).retired = 0) then
    let nc := 160 * ns
    if rcount * nc ≤ g then none
    else
      let j := g % nc
      some (hbmKey (stk.getD (j % ns) 0) (j / ns) (rbase + g / nc) (pma % 256))
  else
    let full := s.fullChannels stk
    let nm := ns * full.length
    let tail := s.tailChannels stk
    let nt := tail.length
    if rcount * (nm + nt) ≤ g then none
    else if g < rcount * nm then
      let j := g % nm
      some (hbmKey (stk.getD (j % ns) 0) (full.getD (j / ns) 0) (rbase + g / nm) (pma % 256))
    else
      let h := g - rcount * nm
      let (k, c) := tail.getD (h % nt) (0, 0)
      some (hbmKey k c (rbase + h / nt) (pma % 256))

/-- The partition memory address whose home is an HBM key, the map of R127 and R378 read backwards (18 R372). -/
def pmaOf (s : State) (part key : Nat) : Nat :=
  let ilv := (s.partAt part).ilv
  let stk := ilvStacks ilv
  let ns := stk.length
  let i := key - hbmBase
  let row := i / 256 % chanRows - ilvBase ilv
  let chan := i / 256 / chanRows % 160
  let at_ := stk.idxOf (stackOfKey key)
  let full := if stk.all (fun k => (s.stackAt k).retired = 0) then List.range 160 else s.fullChannels stk
  let g :=
    if full.contains chan then row * (ns * full.length) + full.idxOf chan * ns + at_
    else
      let tail := s.tailChannels stk
      ilvCount ilv * (ns * full.length) + row * tail.length + tail.idxOf (stackOfKey key, chan)
  g * 256 + i % 256

end State

/-- The first byte of the code word that holds a key (18 R364). -/
def codeWord (k : Nat) : Nat := if k < hbmBase then k / 16 * 16 else k / 32 * 32

/-- Bytes of the code word that holds a key. -/
def codeWordSize (k : Nat) : Nat := if k < hbmBase then 16 else 32

/-- The byte listed at a key; a byte that is not listed reads zero (log 4). -/
def getCell : List Host.Cell → Nat → Byte
  | [], _ => 0
  | (a, b) :: t, k => if a = k then b else if k < a then 0 else getCell t k

/-- The list with byte `v` at key `k`, in canonical form. -/
def putCell : List Host.Cell → Nat → Byte → List Host.Cell
  | [], k, v => if v = 0 then [] else [(k, v)]
  | (a, b) :: t, k, v =>
    if a = k then (if v = 0 then t else (k, v) :: t)
    else if k < a then (if v = 0 then (a, b) :: t else (k, v) :: (a, b) :: t)
    else (a, b) :: putCell t k v

/-- Every listed key is above `lo` and they rise, and no byte listed is zero. -/
def cellsAbove : Option Nat → List Host.Cell → Bool
  | _, [] => true
  | lo, (a, b) :: t => (match lo with | none => true | some l => l < a) && b ≠ 0 && cellsAbove (some a) t

/-- The canonical form of memory (log 4). -/
abbrev Memory.wf (m : Memory) : Bool := cellsAbove none m.cells

namespace Memory

def byte (m : Memory) (k : Nat) : Byte := getCell m.cells k

/-- What decoding the code word that holds a key finds, when it is not good. -/
def flaw (m : Memory) (k : Nat) : Option Mark := Tab.find m.marks (codeWord k)

/-- The mark of a code word that is poisoned or uncorrectable. -/
def mark (m : Memory) (k : Nat) : Option Mark := (m.flaw k).filter (fun x => x ≠ .correctable)

/-- Mark the code word of a key. -/
def setMark (m : Memory) (k : Nat) (x : Mark) : Memory := { m with marks := Tab.ins m.marks (codeWord k) x }

/-- All the bytes of a code word are among the keys written. -/
def covers (ws : List (Nat × Byte)) (word : Nat) : Bool :=
  (List.range (codeWordSize word)).all (fun i => ws.any (fun w => w.1 = word + i))

/-- A code word's mark after a write of bytes: one wholly covered is good, one written in part that was bad is poisoned
(18 R369). -/
def remark (ws : List (Nat × Byte)) (e : Nat × Mark) : Option (Nat × Mark) :=
  if covers ws e.1 then none
  else if e.2 = .uncorrectable && ws.any (fun w => e.1 ≤ w.1 && w.1 < e.1 + codeWordSize e.1) then some (e.1, .poisoned)
  else some e

/-- Bytes written as one access. -/
def write (m : Memory) (ws : List (Nat × Byte)) : Memory :=
  { m with
    cells := ws.foldl (fun c w => putCell c w.1 w.2) m.cells
    marks := if m.marks = [] then [] else m.marks.filterMap (remark ws) }

def tag (m : Memory) (core line : Nat) : Byte := m.tags.get 0 (core * 4096 + line)
def setTag (m : Memory) (core line : Nat) (t : Byte) : Memory := { m with tags := m.tags.put 0 (core * 4096 + line) t }

/-- Clearing a slice sets its bytes and tags to zero (03 R83, 04 R116). -/
def clearSlice (m : Memory) (core : Nat) : Memory :=
  let out (k : Nat) : Bool := k < core * 2 ^ 21 || (core + 1) * 2 ^ 21 ≤ k
  { m with
    cells := m.cells.filter (fun e => out e.1)
    marks := m.marks.filter (fun e => out e.1)
    tags := m.tags.filter (fun e => e.1 < core * 4096 || (core + 1) * 4096 ≤ e.1)
    recent := m.recent.filter (fun r => out r.key)
    tagNews := m.tagNews.filter (fun t => t.target ≠ core) }

end Memory

/-- The sequencer a unit belongs to: VL and MC words are C's (04 R126, 11 R289). -/
def seqOf : Slot → Nat
  | .s => 0
  | .l => 1
  | .w => 3
  | _ => 2

/-- The ordinal of the C sequencer's current segment. -/
def Core.segNow (c : Core) : Nat := match c.c.seg with | some g => g.ordinal | none => c.c.ordinal

/-- Who makes an access: the core, the unit, the alias class, 1 more than the number of a copy whose engine makes it,
and the index of the S word that makes it. -/
structure Who where
  core : Nat
  unit : Slot
  cls : BitVec 4
  copy : Nat := 0
  word : Option Nat := none
  deriving DecidableEq, Repr

/-! ## The order of accesses (06)

A store leaves the byte it replaced, and the stores that happen before it, in `Memory.recent` until every observer sees
it. What a read may return follows R164; which of the values it returns is a free choice (log 8, 9). -/

/-- Whose accesses program order relates: a sequencer, or one copy. -/
def Who.seq (who : Who) : Nat := if who.copy = 0 then seqOf who.unit else 3 + who.copy

/-- What an access makes later accesses of its own sequencer and class know. -/
def Who.mark (who : Who) : Seen := { core := who.core, seq := who.seq, cls := who.cls.toNat }

/-- The class of a word of S that makes no access. -/
def noClass : Nat := 16

/-- The word of S after a TWAIT, by its index. -/
def nextWord (index : Nat) : Nat := 17 + index

/-- The unit of a store that is seen whole or not at all: a byte of a copy, else an aligned block of 64 bytes of a slice or
a granule of 256 bytes elsewhere (R162). -/
def Who.block (who : Who) (key : Nat) : Nat :=
  if who.copy ≠ 0 then key else if key < hbmBase then key / 64 else key / 256

/-- A store happens before an access: it is known to an access of the same sequencer, when the two share a class or
either has class 0, or to the word itself (R163). -/
def Recent.before (r : Recent) (who : Who) : Bool :=
  r.seen.any (fun x => x.core = who.core && x.seq = who.seq &&
    (x.cls = who.cls.toNat || x.cls = 0 || (who.cls = 0 && x.cls < noClass) || (who.word.map nextWord) = some x.cls))

/-- The accesses that `xs` names come after a store. -/
def Recent.tell (r : Recent) (xs : List Seen) : Recent := { r with seen := r.seen ++ xs.filter (fun x => !r.seen.contains x) }

/-- The die that holds the home of a byte of the package (01 R14, 04 R127). -/
def homeDie (key : Nat) : Nat := if key < hbmBase then dieOf (key / 2 ^ 21) else stackOfKey key / 4

/-- A store to a place of the other die than the writer's (R170). -/
def Recent.crosses (r : Recent) : Bool := r.stage.isNone && r.key < hostBase && homeDie r.key ≠ dieOf r.core.toNat

namespace Memory

/-- The stores numbered `ids` happen before the accesses `xs`. -/
def tell (m : Memory) (ids : List Nat) (xs : List Seen) : Memory :=
  if ids = [] || m.recent = [] then m
  else { m with recent := m.recent.map (fun r => if ids.contains r.no then r.tell xs else r) }

/-- The stores that some accesses of a sequencer come after: those that `p` picks among what it knows. -/
def known (m : Memory) (core seq : Nat) (p : Nat → Bool) : List Nat :=
  (m.recent.filter (fun r => r.seen.any (fun x => x.core = core && x.seq = seq && p x.cls))).map (fun r => r.no)

/-- Bytes that every observer sees at once. -/
def put (m : Memory) (ws : List (Nat × Byte)) : Memory :=
  { m.write ws with
    recent := if m.recent = [] then [] else m.recent.filter (fun r => !(r.stage.isNone && ws.any (fun w => w.1 = r.key))) }

end Memory

namespace State

def modMem (s : State) (f : Memory → Memory) : State := { s with mem := f s.mem }

/-- Bytes that every observer sees at once, written after the stores `ids`: a read that returns one happens after those
(06 R163). -/
def putAfter (s : State) (ids : List Nat) (ws : List (Nat × Byte)) : State :=
  let ids := ids.filter (fun n => s.mem.recent.any (fun r => r.no = n))
  let x (w : Nat × Byte) : Recent :=
    { no := s.mem.stores * 2 ^ 72, core := 0, slot := .s, cls := 0, key := w.1, old := some (s.mem.byte w.1), val := w.2, region := 0, until_ := 0, past := ids }
  s.modMem (fun m =>
    let m := m.put ws
    if ids = [] then m else { m with recent := m.recent ++ ws.map x, stores := m.stores + 1 })

/-- A store is not yet visible to every observer (R165). -/
def isOpen (s : State) (r : Recent) : Bool := (s.regionAt r.region).cycles < r.until_

/-- Cycles for which a read that no edge of R163 orders after a store may still return an older byte once the store has
reached its home: the reads of 13 R318, 15 R326 and 20 R411 that may return old bytes come that soon after it (log 9). -/
def raceCycles : Nat := 64

/-- A read that no edge orders after a store may miss it: until it is visible to all, and for a while after. -/
def mayMiss (s : State) (r : Recent) : Bool := r.until_ ≠ 0 && (s.regionAt r.region).cycles < r.until_ + raceCycles

/-- The recent stores of a byte, in home order. -/
def chain (s : State) (stage : Option Nat) (key : Nat) : List Recent :=
  s.mem.recent.filter (fun r => r.key = key && r.stage = stage)

/-- An access may return nothing that happens before a store: that store happens before it, or lies in its quad's window. -/
def binds (who : Who) (r : Recent) : Bool := r.before who || (r.window && who.copy = 0 && r.core.toNat / 4 = who.core / 4)

/-- The stores of a byte that an access may return: none that one after it in home order has replaced at its home, and
none that happens before one which binds the access (R164, R169). -/
def readable (s : State) (who : Who) : List Recent → List Recent
  | [] => []
  | r :: t =>
    if t.any (fun q => !s.mayMiss q || (binds who q && q.past.contains r.no)) then s.readable who t else r :: s.readable who t

/-- The store of a byte that an access returns, by a free choice of what R164 allows; none for the value before them. The
choice is one per store and so the same at all its bytes: a store is seen whole or not at all (R162). -/
def pick (s : State) (who : Who) (l : List Recent) : Option Recent :=
  let allowed := (s.readable who l).reverse
  match allowed.find? (fun r => Config.raceNew s.freeCtr r.no) with
  | some r => some r
  | none => allowed.find? (fun r => !s.mayMiss r || binds who r)

/-- The store that an access returns for a byte outside every staged view. -/
def picked (s : State) (who : Who) (key : Nat) : Option Recent := s.pick who (s.chain none key)

/-- A byte as an access sees it (R164). -/
def readAs (s : State) (who : Who) (key : Nat) : Byte :=
  match s.picked who key with
  | some r => r.val
  | none =>
    match s.chain none key with
    | [] => s.mem.byte key
    | r :: _ => r.old.getD (s.mem.byte key)

/-- An access has its place in the order: what happens before it is known to later ones of its class (R163). -/
def passOn (s : State) (who : Who) : State :=
  if s.mem.recent = [] then s else s.modMem (fun m => { m with recent := m.recent.map (fun r => if r.before who then r.tell [who.mark] else r) })

/-- A read has returned a store: the store, and all that happens before it, happen before later accesses of the reader. A
slice shows a byte to every observer once it shows it to one, and so does a home, which an atomic reads and a reader of
another quad than the writer's (R163, R165, R173). The other die's writes that happen before it and lie on the reader's die
have been applied there (R170). -/
def saw (s : State) (who : Who) (home : Bool) (r : Recent) : State :=
  let near := !home && !r.atom && who.copy = 0 && hbmBase ≤ r.key && r.core.toNat / 4 = who.core / 4
  s.modMem (fun m => { m with recent := m.recent.map (fun q =>
    if q.no = r.no then { q.tell [who.mark] with window := q.window || near, until_ := if near then q.until_ else 0 }
    else if r.past.contains q.no then
      { q.tell [who.mark] with until_ := if q.crosses && homeDie q.key = dieOf who.core then 0 else q.until_ }
    else q) })

/-- The stores that happen before an access. -/
def knownBy (s : State) (who : Who) : List Nat := (s.mem.recent.filter (fun r => r.before who)).map (fun r => r.no)

/-- The stores of `free` that have at every byte only stores of `free` after them in home order, in `fuel` rounds. -/
def lastOf (l : List Recent) : Nat → List Nat → List Nat
  | 0, free => free
  | fuel + 1, free =>
    let lost : List Recent → List Nat := fun l => l.tails.filterMap (fun t =>
      match t with
      | [] => none
      | r :: t => if free.contains r.no && t.any (fun q => q.key = r.key && q.stage = r.stage && !free.contains q.no) then some r.no else none)
    let out := lost l
    if out = [] then free else lastOf l fuel (free.filter (fun n => !out.contains n))

/-- The stores, by number, that may take their place at the home after a store of an access: open, not ordered before the
access, not an atomic's, and chosen freely, each for all its bytes (R162, R169, R173). -/
def behind (s : State) (who : Who) : List Nat :=
  let free := (s.mem.recent.filter (fun r => s.isOpen r && !r.window && !r.atom && !r.before who && Config.raceNew s.freeCtr (r.no + 1))).map
    (fun r => r.no)
  if free = [] then [] else lastOf s.mem.recent free.length free

/-- The latest stores of a byte in home order, as far as they lie in `free`. -/
def after_ (free : List Nat) (l : List Recent) : List Recent := l.reverse.takeWhile (fun r => free.contains r.no)

/-- The list of stores, in reverse, with one more: it takes its place before the latest of its byte that lie in `free`. -/
def insertHome (free : List Nat) (x : Recent) : List Recent → List Recent
  | [] => [x]
  | q :: t =>
    if q.key = x.key && q.stage = x.stage then
      if !free.contains q.no then x :: q :: t
      else if (t.find? (fun p => p.key = x.key && p.stage = x.stage)).any (fun p => free.contains p.no) then q :: insertHome free x t
      else { q with old := some x.val } :: { x with old := q.old } :: t
    else q :: insertHome free x t

/-- Bytes stored by an access: each joins its byte's home order, before the stores `free` where those are the latest, and
is visible to every observer after `bound` cycles of the writer's region. `cell` is what a byte holds before, in the staged
view of node `stage` or outside every view. The answer names the bytes that are now the latest in home order. -/
def store (s : State) (who : Who) (free : List Nat) (ws : List (Nat × Byte)) (bound : Nat) (atom : Bool) (stage : Option Nat)
    (cell : Nat → Option Byte) : Memory × List (Nat × Byte) :=
  if bound = 0 && s.mem.recent = [] then (s.mem, ws)
  else
    let region := s.regionOf who.core
    let x (w : Nat × Byte) : Recent :=
      { no := s.mem.stores * 2 ^ 72 + who.block w.1 * 2, core := BitVec.ofNat 8 who.core, slot := who.unit, cls := who.cls, key := w.1
        old := cell w.1, val := w.2, stage := stage, region := region, until_ := if bound = 0 then 0 else (s.regionAt region).cycles + bound
        ordinal := (s.coreAt who.core).segNow, past := s.knownBy who
        seen := [who.mark], atom := atom }
    let late (w : Nat × Byte) : Bool := free ≠ [] && after_ free (s.chain stage w.1) ≠ []
    ({ s.mem with
        recent := ws.foldl (fun l w => if late w then (insertHome free (x w) l.reverse).reverse else l ++ [x w]) s.mem.recent
        stores := s.mem.stores + 1 },
      ws.filter (fun w => !late w))

/-- Bytes stored outside every staged view (R165, R169). -/
def writeAs (s : State) (who : Who) (free : List Nat) (ws : List (Nat × Byte)) (bound : Nat) (atom : Bool) : State :=
  let r := s.store who free ws bound atom none (fun k => some (s.mem.byte k))
  { s with mem := r.1.write r.2 }

/-- The stores in a node's staged view are gone with it (19 R389). -/
def dropStaged (s : State) (n : Nat) : State :=
  if s.mem.recent = [] then s else s.modMem (fun m => { m with recent := m.recent.filter (fun r => r.stage ≠ some n) })

/-- The alias class of a load that may still perform its read. -/
def loadClass : Instr → BitVec 4
  | .lds _ _ _ c | .ldsK _ _ _ c => c
  | .vld w | .vldb w | .vldg w => w.imm.extractLsb' 12 4
  | _ => 0

/-- An access, or a fence as one of class 0, that comes after the earlier loads of its sequencer and class: those have
performed their reads (R163). -/
def endAgain (s : State) (who : Who) : State :=
  if (s.coreAt who.core).cu.again = [] then s
  else s.modCore who.core (fun c => { c with cu := { c.cu with again := c.cu.again.filter (fun f =>
    !(seqOf f.unit = who.seq && (who.cls = 0 || loadClass f.word = 0 || loadClass f.word = who.cls))) } })

/-- A line's tag as an access sees it: inside the bound of a store that sets it, old or new by a free choice (log 8, 20). -/
def tagAs (s : State) (who : Who) (core line : Nat) : Byte :=
  match s.mem.tagNews.find? (fun t => t.target = core && t.line = line && (s.regionAt t.region).cycles < t.until_ &&
      !(t.core.toNat = who.core && seqOf t.slot = seqOf who.unit)) with
  | none => s.mem.tag core line
  | some t => if Config.raceNew s.freeCtr (4096 * core + line) then s.mem.tag core line else t.old

/-- The places that a fence's scope covers, by a byte's key: codes 0 core to 5 system (R166). -/
def scopeCovers (scope core key : Nat) : Bool :=
  if key < hbmBase then (groupCores scope (groupOf scope core)).contains (key / 2 ^ 21)
  else
    match scope with
    | 0 | 1 => false
    | 2 => key < hostBase && stackOfKey key = stackOf core
    | 3 => key < hostBase && stackOfKey key / 4 = dieOf core
    | 4 => key < hostBase
    | _ => true

/-- A fence of S: every access of S before it, of any class or none, comes before every one after it, and the stores that
happen before it are visible to all observers where its scope covers them (R163, R167). A store to a place that a scope
covers has reached its home when the scope's observers see it. -/
def fence (s : State) (core scope : Nat) : State :=
  let s := s.endAgain { core := core, unit := .s, cls := 0 }
  if s.mem.recent = [] then s
  else s.modMem (fun m => { m with recent := m.recent.map (fun r =>
    if r.seen.any (fun x => x.core = core && x.seq = 0) then
      { r.tell [{ core := core, seq := 0, cls := 0 }] with until_ := if scopeCovers scope core r.key then 0 else r.until_ }
    else r) })

/-- What happens before a word of S of class 0, such as SEG and LNCH (R163). -/
def beforeS (s : State) (core : Nat) : List Nat :=
  s.mem.known core 0 (fun c => c < noClass || c = nextWord (s.coreAt core).su.index)

/-- What every sequencer and engine of a core knows: what a stop of it orders (R163). -/
def beforeStop (s : State) (core : Nat) : List Nat :=
  (s.mem.recent.filter (fun r => r.seen.any (fun x => x.core = core))).map (fun r => r.no)

/-- A core starts or resumes a run: nothing that an earlier run of it knew is known, and the stores `ids` happen before
every access of it (R163). -/
def startsWith (s : State) (core : Nat) (ids : List Nat) : State :=
  if s.mem.recent = [] && s.mem.given = [] then s
  else s.modMem (fun m => { m with
    recent := m.recent.map (fun r =>
      ({ r with seen := r.seen.filter (fun x => x.core ≠ core) } : Recent).tell
        (if ids.contains r.no then [0, 1, 2, 3].map (fun q => ({ core := core, seq := q, cls := 0 } : Seen)) else []))
    given := m.given.filter (fun g => g.core ≠ core) })

/-- The stores of which units of a counter tell, among the oldest `n` (R163). -/
def givenBy (s : State) (core : Nat) (counter : BitVec 5) (n : Nat) : List Nat :=
  (s.mem.given.filter (fun g => g.core = core && g.counter = counter && g.ahead < n)).flatMap (fun g => g.past)

/-- A take of `n` units subtracts the oldest: the gives of those happen before the accesses `xs` (R163) (log 9). -/
def takeGiven (s : State) (core : Nat) (counter : BitVec 5) (n : Nat) (xs : List Seen) : State :=
  if s.mem.given = [] || n = 0 then s
  else s.modMem (fun m => { m.tell (s.givenBy core counter n) xs with
    given := m.given.filterMap (fun g =>
      if g.core = core && g.counter = counter then
        if n ≤ g.ahead then some { g with ahead := g.ahead - n }
        else if n < g.ahead + g.amount then some { g with ahead := 0, amount := g.ahead + g.amount - n } else none
      else some g) })

/-- A give that tells of stores is added behind `ahead` units. -/
def noteGiven (s : State) (core : Nat) (counter : BitVec 5) (ahead amount : Nat) (past : List Nat) : State :=
  if past = [] then s
  else s.modMem (fun m => { m with given := m.given ++ [{ core := core, counter := counter, ahead := ahead, amount := amount, past := past }] })

/-- The stores still to be kept of a list: one goes when a later one of its byte, visible to all, has replaced it at the
home, or when `gone` holds of it. -/
def keepRecent (s : State) (gone : Recent → Bool) : List Recent → List Recent
  | [] => []
  | r :: t =>
    if t.any (fun q => q.key = r.key && q.stage = r.stage && !s.mayMiss q) || gone r then s.keepRecent gone t
    else r :: s.keepRecent gone t

/-- A store that has crossed to its home on the other die and is visible there has been applied after the writes that happen
before it, of the same die and to the same (R170). -/
def applied (s : State) (l : List Recent) : List Recent :=
  let done := l.filter (fun r => r.crosses && !s.isOpen r)
  if done = [] then l
  else l.map (fun q => if q.crosses && s.isOpen q && done.any (fun r => homeDie r.key = homeDie q.key && r.past.contains q.no)
    then { q with until_ := 0 } else q)

/-- The stores of the access numbered `no` are visible to every observer from cycle `cyc` of their region on (R173). -/
def visibleBy (s : State) (no cyc : Nat) : State :=
  if s.mem.recent = [] then s
  else s.modMem (fun m => { m with recent := m.recent.map (fun r => if r.no / 2 ^ 72 = no then { r with until_ := min r.until_ cyc } else r) })

/-- Stores leave the list once they are visible to all, what happened before them has left it, and no open store of the
byte remains. -/
def expire (s : State) : State :=
  if s.mem.recent = [] && s.mem.tagNews = [] && s.mem.given = [] then s
  else
    s.modMem (fun m =>
      let m := { m with recent := s.applied m.recent }
      let nos := m.recent.map (fun r => r.no)
      let gone (r : Recent) : Bool :=
        !s.mayMiss r && !r.past.any nos.contains && !m.recent.any (fun q => q.key = r.key && q.stage = r.stage && s.mayMiss q)
      let recent := s.keepRecent gone m.recent
      let left := recent.map (fun r => r.no)
      { m with
        recent := recent
        tagNews := m.tagNews.filter (fun t => (s.regionAt t.region).cycles < t.until_ || t.past.any left.contains)
        given := (m.given.map (fun g => { g with past := g.past.filter left.contains })).filter (fun g => g.past ≠ []) })

/-- A 16-byte block of a granule, stored under one key and granule number, as another reads it: the ciphertext of the one
decrypted under the other, or the raw ciphertext (12 R313). -/
def recrypt (was cur : Option (BitVec 512 × Nat)) (block : Nat) (x : BitVec 128) : BitVec 128 :=
  if was = cur then x
  else
    let raw := match was with | none => x | some (k, n) => Config.xtsEncrypt k n block x
    match cur with | none => raw | some (k, n) => Config.xtsDecrypt k n block raw

/-- The key of a partition and the granule number of an HBM key in it (12 R313). -/
def keyOf (s : State) (part key : Nat) : Option (BitVec 512 × Nat) := (s.partAt part).key.map (fun k => (k, s.pmaOf part key / 256))

/-- A byte of a block under a change of key: `f` gives the bytes as they were written. -/
def cryptByte (was cur : Option (BitVec 512 × Nat)) (key : Nat) (f : Nat → Byte) : Byte :=
  if was = cur then f key
  else
    let x : BitVec 128 := BitVec.ofNat 128 (leNat ((List.range 16).map (fun i => f (key / 16 * 16 + i))))
    (recrypt was cur (key % 256 / 16) x).extractLsb' (8 * (key % 16)) 8

/-- A byte of HBM as partition `part` reads it: a granule written under another key, or for another granule number, reads as
the wrong decryption (12 R313). `f` gives the bytes as they were written. -/
def hbmByte (s : State) (part key : Nat) (f : Nat → Byte) : Byte :=
  if s.mem.keys = [] && (s.partAt part).key.isNone then f key
  else cryptByte (Tab.find s.mem.keys (key / 256)) (s.keyOf part key) key f

/-- What HBM itself holds of a byte: ciphertext under a tenant key (12 R313). -/
def rawByte (s : State) (key : Nat) : Byte := cryptByte (Tab.find s.mem.keys (key / 256)) none key s.mem.byte

/-- A granule as it is stored under a key, its bytes decrypted and encrypted again (12 R313). -/
def rekey (s : State) (g : Nat) (cur : Option (BitVec 512 × Nat)) : State :=
  let was := Tab.find s.mem.keys g
  if was = cur then s
  else
    let ws := (List.range 256).map (fun i => (256 * g + i, cryptByte was cur (256 * g + i) s.mem.byte))
    s.modMem (fun m =>
      { m with
        cells := ws.foldl (fun c w => putCell c w.1 w.2) m.cells
        keys := match cur with | some v => Tab.ins m.keys g v | none => m.keys.filter (fun e => e.1 ≠ g) })

/-- Granules about to be written by a partition whose key is not the one they were written under are read, decrypted
and encrypted again (12 R313). -/
def retune (s : State) (part : Nat) (keys : List Nat) : State :=
  if s.mem.keys = [] && (s.partAt part).key.isNone then s
  else keys.foldl (fun s k => s.rekey (k / 256) (s.keyOf part k)) s

/-- Distinct 256-byte granules among keys (03 R103). -/
def granules (keys : List Nat) : List Nat := keys.foldl (fun acc k => if acc.contains (k / 256) then acc else (k / 256) :: acc) []

/-- Staging use of a node in 4 KiB units (03 R103). -/
def stagingUse (v : Node) : Nat := ceilDiv ((granules (v.staged.map (fun c => c.1))).length * 256) 4096

/-- The node whose staged view a core's accesses of global and host memory go through (03 R103). -/
def view (s : State) (core : Nat) : Option (Nat × Node) :=
  match s.nodeOn core with
  | some (n, v) => if irrevocable v then none else some (n, v)
  | none => none

/-- A byte of global or host memory as a core's node sees it: its own staged writes first (03 R103). -/
def globalByte (s : State) (who : Who) (key : Nat) : Byte :=
  let base : Byte := if key < hostBase then s.hbmByte (s.partOf who.core) key (s.readAs who) else s.readAs who key
  match s.view who.core with
  | none => base
  | some (n, v) =>
    let l := s.chain (some n) key
    match s.pick who l with
    | some r => r.val
    | none =>
      match l with
      | [] => (Tab.find v.staged key).getD base
      | r :: _ => r.old.getD base

/-- A byte where an atomic finds it: at its home in home order, before the stores `free` (06 R173). -/
def homeByte (s : State) (who : Who) (free : List Nat) (key : Nat) : Byte :=
  let at_ (l : List Recent) (cell : Byte) : Byte := match (after_ free l).getLast? with | some r => r.old.getD cell | none => cell
  let cell (k : Nat) : Byte := at_ (s.chain none k) (s.mem.byte k)
  let base : Byte := if hbmBase ≤ key && key < hostBase then s.hbmByte (s.partOf who.core) key cell else cell key
  match (if key < hbmBase then none else s.view who.core) with
  | none => base
  | some (n, v) =>
    match after_ free (s.chain (some n) key) with
    | [] => (Tab.find v.staged key).getD base
    | l => ((l.getLast?).bind (fun r => r.old)).getD base

/-- The recent store that an access returns for a byte, if it returns one: an atomic's is the last at the home. -/
def source (s : State) (who : Who) (free : Option (List Nat)) (key : Nat) : Option Recent :=
  let one (l : List Recent) : Option Recent :=
    match free with
    | none => s.pick who l
    | some f => (l.take (l.length - (after_ f l).length)).getLast?
  match (if key < hbmBase then none else s.view who.core) with
  | none => one (s.chain none key)
  | some (n, v) =>
    let l := s.chain (some n) key
    match one l with
    | some r => some r
    | none => if (match l with | [] => (Tab.find v.staged key).isSome | r :: _ => r.old.isSome) then none else one (s.chain none key)

/-- Bytes have been read, those of `homes` by an atomic: each read is ordered after the store it returned (06 R163). -/
def observe (s : State) (who : Who) (free : List Nat) (keys homes : List Nat) : State :=
  if s.mem.recent = [] then s
  else
    let t := (keys.filterMap (s.source who none)).foldl (fun (t : State) r => t.saw who false r) s
    ((homes.filterMap (s.source who (some free))).foldl (fun (t : State) r => t.saw who true r) t).passOn who

/-- The first byte of the stack buffer's code word that holds a staged byte (18 R364). -/
def bufferWord (k : Nat) : Nat := k / 16 * 16

/-- The node whose stack buffer holds a byte that a core accesses (03 R103). -/
def stager (s : State) (core key : Nat) : Option Node :=
  match s.view core with
  | some (_, v) => if (Tab.find v.staged key).isSome then some v else none
  | none => none

/-- The bad word an access reads: of the node's stack buffer where its byte is staged, else of a slice or HBM. -/
def markAt (s : State) (core key : Nat) : Option Mark :=
  match s.stager core key with
  | some v => (Tab.find v.stagedBad (bufferWord key)).filter (fun x => x ≠ .correctable)
  | none => s.mem.mark key

/-- Each code word of some bytes, once. -/
def wordsOf (ks : List Nat) : List Nat := (ks.map codeWord).foldl (fun acc k => if acc.contains k then acc else k :: acc) []

/-- The code words of some HBM bytes, each once. -/
def hbmWords (ks : List Nat) : List Nat := wordsOf (ks.filter (fun k => hbmBase ≤ k && k < hostBase))

/-- The stack that counts a word: its own in HBM, that of its core in a slice (log 58). -/
def wordStack (k : Nat) : Nat := if k < hbmBase then stackOf (k / 2 ^ 21) else stackOfKey k

/-- Words counted by their stacks. -/
def countWords (s : State) (ws : List Nat) (f : Stack → Stack) : State := ws.foldl (fun s k => s.modStack (wordStack k) f) s

/-- One more word corrected. -/
def countCorrected (s : State) (ws : List Nat) : State :=
  s.countWords ws (fun v => { v with corrected := satNat 32 (v.corrected.toNat + 1) })

/-- What reads find in the words of slices and HBM: a correctable one is written back corrected and counted, and an
uncorrectable one of HBM is counted, by their stack (18 R368, R373) (log 58). -/
def countFound (s : State) (core : Nat) (ks : List Nat) : State :=
  if s.mem.marks = [] then s
  else
    let ks := ks.filter (fun k => (s.stager core k).isNone)
    let fixed := wordsOf (ks.filter (fun k => s.mem.flaw k = some .correctable))
    let lost := hbmWords (ks.filter (fun k => s.mem.flaw k = some .uncorrectable))
    ((s.modMem (fun m => { m with marks := m.marks.filter (fun e => !fixed.contains e.1) })).countCorrected fixed).countWords lost
      (fun v => { v with uncorrectable := satNat 16 (v.uncorrectable.toNat + 1) })

/-- Poisoned words written to HBM: marked, and counted by their stacks (18 R369, R373) (log 58). -/
def poisonWords (s : State) (ks : List Nat) : State :=
  (s.modMem (fun m => ks.foldl (fun (m : Memory) k => m.setMark k .poisoned) m)).countWords (hbmWords ks)
    (fun v => { v with poisoned := satNat 16 (v.poisoned.toNat + 1) })

/-- The marks of a node's stack buffer words after a write of staged bytes, those of `bad` poisoned (18 R369). -/
def bufferMarks (l : List (Nat × Mark)) (ws : List (Nat × Byte)) (bad : List Nat) : List (Nat × Mark) :=
  let kept := l.filterMap (fun e =>
    if (List.range 16).all (fun i => ws.any (fun w => w.1 = e.1 + i)) then none
    else if e.2 = .uncorrectable && ws.any (fun w => bufferWord w.1 = e.1) then some (e.1, .poisoned) else some e)
  bad.foldl (fun t k => Tab.ins t (bufferWord k) .poisoned) kept

/-- Bytes written to global or host memory: staged, or through for an irrevocable node; words that were poisoned
where they came from are poisoned where they go (18 R369). A node that is no longer running stages nothing (19 R389).
They are visible to every observer of R165 after `bound` cycles; the node's release is still to come. -/
def globalWrite (s : State) (who : Who) (free : List Nat) (ws : List (Nat × Byte)) (bad : List Nat) (bound : Nat) (atom : Bool) : State :=
  match s.nodeOn who.core with
  | none => s
  | some (n, v) =>
    if irrevocable v then
      ((s.retune v.part.toNat (ws.map (fun w => w.1))).writeAs who free ws bound atom).poisonWords bad
    else
      match v.st, (nodeCores v).contains who.core with
      | .running, true | .stopping _, true | .saving, true | .resuming, true | .holding, true | .placed, true =>
        let r := s.store who free ws bound atom (some n) (fun k => Tab.find v.staged k)
        ({ s with mem := r.1 }).setNode n { v with
          staged := r.2.foldl (fun (t : List Host.Cell) (w : Nat × Byte) => Tab.ins t w.1 w.2) v.staged
          stagedBad := bufferMarks v.stagedBad ws bad }
      | _, _ => s

end State

/-! ## Registers -/

namespace Core

/-- The code words of a register that are written whole are good; bit i of `kept` tells that word i is not (18 R369)
(log 58). -/
def good (c : Core) (r : BadReg) (kept : Nat := 0) : Core :=
  if c.bad = [] then c else { c with bad := c.bad.filter (fun b => b.reg ≠ r || kept.testBit b.word) }

/-- x[n]; x0 reads zero (07 R179). -/
def x (c : Core) (n : BitVec 5) : Dword := if n = 0 then 0 else c.su.x.get 0 n.toNat

/-- x[n] := v; a write to x0 is discarded. -/
def setX (c : Core) (n : BitVec 5) (v : Dword) : Core :=
  if n = 0 then c else ({ c with su := { c.su with x := c.su.x.put 0 n.toNat v } }).good (.x n.toNat)

/-- q[n]; q0 reads true (07 R179). -/
def q (c : Core) (n : BitVec 3) : Bool := n = 0 || c.su.q.getLsbD n.toNat

/-- q[n] := v; a write to q0 is discarded. -/
def setQ (c : Core) (n : BitVec 3) (v : Bool) : Core :=
  if n = 0 then c
  else { c with su := { c.su with q := (c.su.q &&& ~~~ (1#8 <<< n.toNat)) ||| (if v then 1#8 <<< n.toNat else 0) } }

def b (c : Core) (n : Nat) : BitVec 32 := c.su.b.get 0 n
def setB (c : Core) (n : Nat) (v : BitVec 32) : Core :=
  ({ c with su := { c.su with b := c.su.b.put 0 n v } }).good (.b n)

def k (c : Core) (n : Nat) : BitVec 128 := c.su.k.get 0 n
def setK (c : Core) (n : Nat) (v : BitVec 128) : Core :=
  ({ c with su := { c.su with k := c.su.k.put 0 n v } }).good (.k n)

def tk (c : Core) (n : BitVec 5) : Nat := (c.cu.tk.get 0 n.toNat).toNat
/-- tk[n] := v, from the value that it had: a bad counter stays bad (18 R369). -/
def setTk (c : Core) (n : BitVec 5) (v : Nat) : Core :=
  { c with cu := { c.cu with tk := c.cu.tk.put 0 n.toNat (BitVec.ofNat 16 v) } }

def lt (c : Core) (n : Nat) : BitVec 256 := c.cu.lt.get 0 n
def v (c : Core) (n : Nat) : BitVec 4096 := c.cu.v.get 0 n
def setV (c : Core) (n : Nat) (x : BitVec 4096) (kept : Nat := 0) : Core :=
  ({ c with cu := { c.cu with v := c.cu.v.put 0 n x } }).good (.v n) kept
def m (c : Core) (n : Nat) : BitVec 1024 := c.cu.m.get 0 n
def setM (c : Core) (n : Nat) (x : BitVec 1024) (kept : Nat := 0) : Core :=
  ({ c with cu := { c.cu with m := c.cu.m.put 0 n x } }).good (.m n) kept

/-- The unit of a data sequencer or of C. -/
def unit (c : Core) (seq : Nat) : DUnit :=
  match seq with
  | 1 => c.l
  | 3 => c.w
  | _ => c.c

def setUnit (c : Core) (seq : Nat) (u : DUnit) : Core :=
  match seq with
  | 1 => { c with l := u }
  | 3 => { c with w := u }
  | _ => { c with c := u }

def modUnit (c : Core) (seq : Nat) (f : DUnit → DUnit) : Core := c.setUnit seq (f (c.unit seq))

/-- S runs the trap handler (16 R331). -/
def inHandler (c : Core) : Bool := c.csr.trap0.getLsbD 52

/-- Flags that land in the current cycle (05 R138). -/
def raiseFlags (c : Core) (f : Flags) : Core := { c with flags := c.flags ||| f }

/-- An addition that the end of the cycle makes (03 R92). -/
def addToken (c : Core) (a : TokAdd) : Core := if a.amount = 0 then c else { c with adds := c.adds ++ [a] }

end Core

namespace State

/-- FRAME_NO of a core's region (02 R46). -/
def frameNo (s : State) (core : Nat) : BitVec 64 := (s.regionAt (s.regionOf core)).frameNo

/-! ## Taking a fault (16 R331 to R335) -/

/-- The place of a fault in the order of R336: S, L, the columns of C, W, matrix and copy. -/
def recOrder (f : FaultRec) : Nat :=
  match f.engine with
  | 0 => 0
  | 1 => 1
  | 2 => 2 + f.column
  | 4 => 6
  | 3 => 20
  | _ => 21

/-- Another fault that the core has recorded in the same cycle comes first in the order of R336. -/
def outranked (s : State) (core : Nat) (f : FaultRec) : Bool :=
  match (s.coreAt core).recorded with
  | some (cyc, o) => cyc = s.cycleOf core && o ≤ recOrder f
  | none => false

/-- The three trap record registers, written by a fault or stop that the core records (R331); of several in one cycle the
record names the first in the order of R336. -/
def trapRecord (s : State) (core : Nat) (f : FaultRec) (handler : Bool) : State :=
  if s.outranked core f then s
  else s.modCore core (fun c => { c with
    recorded := some (s.cycleOf core, recOrder f)
    csr := { c.csr with
      trap0 := f.cls ++ BitVec.ofNat 3 f.engine ++ BitVec.ofNat 1 (b2n handler) ++ BitVec.ofNat 4 f.column ++
        BitVec.ofNat 8 core ++ 0#8 ++ f.status
      trap1 := f.index ++ f.position
      trap2 := f.frame ++ f.sched } })

/-- The memory fault log, written with the trap record (18 R372). -/
def logMemory (s : State) (core : Nat) (address : Nat) (syndrome : BitVec 32) : State :=
  s.modCore core (fun c => { c with mflog := { c.mflog with
    address := BitVec.ofNat 64 address, syndrome := syndrome, time := BitVec.ofNat 64 s.now
    events := satNat 32 (c.mflog.events.toNat + 1) } })

/-- A fault of a unit, as its detection cycle records it: S at its next word, L, C and W at the issue offset. -/
def faultRec (s : State) (core : Nat) (unit : Slot) (cls : Nat) (status : BitVec 32) : FaultRec :=
  let c := s.coreAt core
  let ord : BitVec 32 × BitVec 32 :=
    match unit with
    | .s => (BitVec.ofNat 32 c.su.index, BitVec.ofNat 32 c.su.pc)
    | u =>
      match (c.unit (seqOf u)).seg with
      | none => (BitVec.ofNat 32 (c.unit (seqOf u)).ordinal, 0xFFFFFFFF#32)
      | some g => (if u = .mc then BitVec.ofNat 32 c.cu.mcIndex else BitVec.ofNat 32 g.ordinal, BitVec.ofNat 32 (g.clock.getD 0))
  let engine := match unit with | .s => 0 | .l => 1 | .w => 3 | .mc => 4 | _ => 2
  let column := match unit with | .va => 0 | .vm => 1 | .vx => 2 | .vl => 3 | .mc => 4 | .ct => 5 | _ => 0
  { cls := BitVec.ofNat 8 cls, engine := engine, column := column, status := status, index := ord.1, position := ord.2
    frame := (s.frameNo core).setWidth 32, sched := c.csr.schedCy.setWidth 32 }

/-- A core's copies cancelled as BCAN does (04 R131, 18 R377): a queued copy at once, with its give; a running one
at its acknowledgement. -/
def cancelCopies (s : State) (core : Nat) : State :=
  s.modCore core (fun c =>
    let c := c.cu.copies.foldl (fun (c : Core) y =>
      match y.st with
      | .queued => c.addToken
          { counter := y.gc, amount := y.ga.toNat, order := 10,
            index := BitVec.ofNat 32 (y.home.toNat * 2 ^ 24 + y.n % 2 ^ 24), position := 0 }
      | _ => c) c
    { c with cu := { c.cu with copies := c.cu.copies.map (fun y =>
        match y.st with
        | .queued => { y with st := .cancelled }
        | .running => { y with cancel := true }
        | _ => y) } })

/-- A stopped core no longer asks for its quad's lease, and its boost ends. A lease that it holds is released once the last
of its matrix commands has left the array and the bank (16 R335, 19 R385, R388). -/
def dropLease (s : State) (core : Nat) : State :=
  s.modQuad (quadOf core) (fun q => { q with
    lease := match q.lease with
      | some l => if l.core.toNat = core then (if q.cmds.any (fun m => m.core = l.core) then some { l with ending := true } else none) else some l
      | none => none
    requests := q.requests.filter (fun r => r.core.toNat ≠ core)
    passed := q.passed.filter (fun c => c.toNat ≠ core)
    boost := if q.boostCore.toNat = core then none else q.boost })

/-- TOKEN_LOST (01 R35). -/
def tokenLost (s : State) (a : HostAdd) : State := s.signal 6 (leBytes 8 a.node ++ a.payload)

/-- The additions that a node's stop finds not yet made are discarded (01 R34). -/
def loseAdds (s : State) (n : Nat) : State :=
  if s.host.adds = [] then s
  else
    (s.host.adds.filter (fun a => a.node = n)).foldl tokenLost
      { s with host := { s.host with adds := s.host.adds.filter (fun a => a.node ≠ n) } }

/-- Every core of a node stops all issue (16 R335, 19 R385): its late conditions and what it holds back end with it. The
freeze and hold of the cycle stay to its end: they tell which words would have issued in it (`State.tieTurn`) (log 46). -/
def haltNode (s : State) (n : Nat) (v : Node) : State :=
  ((nodeCores v).foldl (fun s c =>
    s.modCore c (fun k => if k.node = some n then
      { k with run := false, late := [], frozenCount := 0, halted := false, stopHeld := false, latched := [] }
      else k)) s).loseAdds n

/-- A node holds its quads: from its dispatch until it is saved, returned to the ready set or ended. -/
def holdsQuads (v : Node) : Bool :=
  match v.st with
  | .waiting | .checkpointed | .held | .ended _ => false
  | _ => true

/-- The history dword of a node (03 R105, 19 R402). -/
def historyOf (v : Node) : BitVec 64 :=
  BitVec.ofNat 64 (min v.rollbacks 65535 + min v.stops 65535 * 2 ^ 16 + b2n v.alone * 2 ^ 32)

/-- The journal entry takes a node's history (19 R404). -/
def noteHistory (s : State) (n : Nat) : State :=
  match s.nodeAt n with
  | some v => s.modEntry n (fun e => { e with history := historyOf v })
  | none => s

/-- The fate byte of the journal entry and, for the first fault, its class and trap record (19 R404). -/
def setFate (s : State) (n : Nat) (f : Fate) : State := s.modEntry n (fun e => { e with fate := f })

/-- Undispatched children of a node are withdrawn; one that lay in the parent's reservation gives it back (19 R392, 03 R79). -/
def withdrawChildren (s : State) (n : Nat) : State :=
  s.nodes.foldl (fun s e =>
    match s.nodeAt e.1 with
    | some v =>
      if v.parent = some n && v.st = .waiting && v.dispatched = 0 then
        let s := (s.setNode e.1 { v with st := .ended .withdrawn, pool := false }).modEntry e.1
          (fun j => { j with fate := .withdrawn, ended := s.now })
        if v.borrowed then s.modNode n (fun w => { w with pool := true, spent := false }) else s
      else s
    | none => s) s

/-- The number under which the pair link names a node: the primary's (19 R398). -/
def pairSeq (s : State) (n : Nat) : Nat :=
  match s.entryAt n with
  | some e => if e.kind = 7 then e.origin else n
  | none => n

/-- Records of a lockstep node that still wait for the partner's are gone with its run (19 R399). -/
def dropRecords (s : State) (n : Nat) (v : Node) : State :=
  if lockstep v then
    { s with pair := { s.pair with waiting := s.pair.waiting.filter (fun r => r.seq ≠ s.pairSeq n) } }
  else s

/-- A node leaves its quads for good: stopped, its copies cancelled, its staged writes discarded, its leases released;
its completion record is written next (16 R335, 19 R384). -/
def endNode (s : State) (n : Nat) (v : Node) (fate : Fate) (cls : BitVec 8) : State :=
  let cs := (nodeCores v).filter (fun c => (s.coreAt c).node = some n)
  let s := s.haltNode n v
  let s := cs.foldl (fun s c => (s.cancelCopies c).dropLease c) s
  ((s.dropRecords n v).dropStaged n).modNode n (fun w => { w with
    st := .ending fate cls, quads := if holdsQuads v then v.quads else [], staged := [], stagedBad := [], cores := [],
    mats := [], slices := [], points := [] })

/-- The trap record of a core becomes the first fault of its node's journal entry (16 R335). -/
def journalFault (s : State) (n core : Nat) (cls : BitVec 8) : State :=
  let r := (s.coreAt core).csr
  let first := match s.entryAt n with | some e => e.cls = 0 | none => false
  (s.modEntry n (fun e => if e.cls = 0 then { e with cls := cls, trap0 := r.trap0, trap1 := r.trap1, trap2 := r.trap2 } else e)).modNode n
    (fun w => { w with faultAt := some (s.cycleOf core, first) })

/-- A node fails with a class (16 R335) (log 46). -/
def failNode (s : State) (n core : Nat) (cls : BitVec 8) : State :=
  match s.nodeAt n with
  | none => s
  | some v =>
    match v.st with
    | .ending _ _ | .ended _ => s
    | _ => (s.journalFault n core cls).endNode n v .failed cls

/-- A NODE_RESUME of a node that returns to the ready set has been carried out (19 R405). -/
def settleResumes (s : State) (n : Nat) : State :=
  { s with host := { s.host with journal := s.host.journal.map (fun e =>
      match e.2 with
      | some j => if j.kind = 5 && j.origin = n && j.fate = .queued then (e.1, some { j with fate := .done, ended := s.now }) else e
      | none => e) } }

/-- A node returns to the ready set from its start (19 R389): stopped, copies cancelled, staged writes discarded,
undispatched children withdrawn, its reservation kept. A node that is being aborted ends ABORTED instead (19 R396). -/
def requeue (s : State) (n : Nat) (v : Node) : State :=
  if v.noRequeue then (s.withdrawChildren n).endNode n v .aborted 0
  else
    let cs := (nodeCores v).filter (fun c => (s.coreAt c).node = some n)
    let s := s.haltNode n v
    let s := cs.foldl (fun s c => (s.cancelCopies c).dropLease c) s
    (((((s.dropRecords n v).dropStaged n).withdrawChildren n).modNode n (fun w => { w with
        st := .waiting, staged := [], stagedBad := [], drained := false, commits := 0,
        cores := [], mats := [], slices := [], points := [] })).setFate n .stopped).settleResumes n

/-- A rollback (19 R390, R391): the run is discarded and counted, or the node fails when it is irrevocable or has
reached ROLL_CFG. -/
def rollback (s : State) (n core : Nat) (cls : BitVec 8) : State :=
  match s.nodeAt n with
  | none => s
  | some v =>
    match v.st with
    | .ending _ _ | .ended _ | .waiting => s
    | _ =>
      if irrevocable v || s.rollCfg.toNat < v.rollbacks + 1 then s.failNode n core cls
      else (((s.journalFault n core cls).requeue n v).modNode n (fun w => { w with rollbacks := v.rollbacks + 1 })).noteHistory n

/-- The classes that enter the S handler (16 R334): TRAP, BREAK, ILLEGAL, OPERAND, ACCESS, TAG, TOKEN_OVF. -/
def handled (cls : BitVec 8) : Bool := [0x11, 0x12, 0x01, 0x02, 0x0B, 0x04, 0x08].contains cls.toNat

/-- TAKING AN EXCEPTION in S (16 R334): TRAPPC takes the next word for TRAP and BREAK and the faulting word otherwise,
the trap record is written with handler = 1, and S continues at TRAPVEC 4 cycles later. A TADD whose addition fails has not
issued (R328, R340). -/
def enterHandler (s : State) (core : Nat) (f : FaultRec) : State :=
  let resume := if f.cls = 0x11 || f.cls = 0x12 then f.position.toNat + 4 else f.position.toNat
  (s.trapRecord core f true).modCore core (fun c => { c with
    csr := { c.csr with trapPc := BitVec.ofNat 64 (resume % 2 ^ 32) &&& 0xFFFFFFFC#64 }
    su := { c.su with pc := fieldOf c.csr.trapVec 31 2 * 4, stall := 3, wait := none
                      index := if f.cls = 0x08 then f.index.toNat else c.su.index } })

/-- RETURNING FROM THE HANDLER (16 R334, 08 R225): the handler bit is cleared and S continues at TRAPPC after 4 cycles. -/
def leaveHandler (s : State) (core : Nat) : State :=
  s.modCore core (fun c => { c with
    csr := { c.csr with trap0 := c.csr.trap0 &&& ~~~ (1#64 <<< 52) }
    su := { c.su with pc := fieldOf c.csr.trapPc 31 2 * 4, stall := 3, index := c.su.index + 1, wait := none } })

/-- A fault of a core no longer changes its node's fate: the node is being killed or aborted, has ended, or runs
elsewhere (19 R419, R389). -/
def pastFaults (s : State) (core : Nat) : Bool :=
  match s.nodeOn core with
  | none => false
  | some (_, v) =>
    !(nodeCores v).contains core ||
      (match v.st with
       | .waiting | .ending _ _ | .ended _ | .held | .checkpointed => true
       | _ => false)

/-- A core records its own fault also when another core of its node has stopped the node in the same cycle; among such
faults the journal entry and the completion record name that of the lowest core, as its record names the first in the order
of R336 (16 R331, R335) (log 44). -/
def tieFault (s : State) (core : Nat) (f : FaultRec) : State :=
  match s.nodeOn core with
  | none => s
  | some (n, v) =>
    match v.faultAt with
    | none => s
    | some (cyc, first) =>
      if cyc ≠ s.cycleOf core || !(nodeCores v).contains core then s
      else
        let s := s.trapRecord core f (s.coreAt core).inHandler
        let r := (s.coreAt core).csr
        let lower := match s.entryAt n with
          | some e => first && (core < fieldOf e.trap0 47 40 || (core = fieldOf e.trap0 47 40 && e.trap0 ≠ r.trap0))
          | none => false
        if !lower then s
        else
          (s.modEntry n (fun e => { e with cls := f.cls, trap0 := r.trap0, trap1 := r.trap1, trap2 := r.trap2 })).modNode n (fun w =>
            { w with st := match w.st with | .ending .failed _ => .ending .failed f.cls | x => x })

/-- A lockstep partner has not met the same fault at the same word: a free choice for every fault but POISON, MCHECK and
PAIR, which roll both sides back as they are (19 R400). -/
def partnerDiffers (s : State) (core : Nat) (f : FaultRec) : Bool :=
  match s.nodeOn core with
  | some (_, v) => lockstep v && !v.alone && !([0x0E, 0x0F, 0x13].contains f.cls.toNat) && Config.raceNew s.freeCtr core
  | none => false

/-- A divergence of a lockstep pair: PAIR is recorded, and the node is rolled back (19 R400). -/
def diverge (s : State) (core : Nat) (f : FaultRec) : State :=
  let c := s.coreAt core
  -- a matrix word is one of the C sequencer, a copy one of W
  let seq := if f.engine = 4 then 2 else min f.engine 3
  let ordinal := if 4 ≤ f.engine then (match (c.unit seq).seg with | some g => g.ordinal | none => (c.unit seq).ordinal) else f.index.toNat
  let status := c.rank % 256 * 2 ^ 24 + seq * 2 ^ 16 + ordinal % 2 ^ 16
  let s := s.trapRecord core { f with cls := 0x13, status := BitVec.ofNat 32 status } c.inHandler
  match c.node with
  | some n => (s.rollback n core 0x13).fresh
  | none => s

/-- The cores of a core's freeze domain hold their issue (16 R343, 17 R360). -/
def holdDomain (s : State) (core : Nat) : State := (s.domainOf core).foldl (fun s d => s.modCore d (fun k => { k with held := true })) s

/-- A fault delivered: to the S handler, as a debug halt, as a rollback or as a failure (16 R334, R335, R342, R343, 18 R371) (log 46). -/
def deliver (s : State) (core : Nat) (f : FaultRec) : State :=
  let c := s.coreAt core
  let enabled := c.csr.trapVec.getLsbD 0
  if s.pastFaults core then s.tieFault core f
  else if s.partnerDiffers core f then s.diverge core f
  else if f.engine = 0 && handled f.cls && enabled && !c.inHandler then s.enterHandler core f
  else if f.cls = 0x12 && !enabled && s.debugOpen then
    -- the core halts, its freeze domain is held before the data words of the cycle (`State.holdNow`), and S continues after
    -- the BRK when it is resumed (R343)
    (s.trapRecord core f c.inHandler).modCore core (fun k => { k with halted := true, held := true, su := { k.su with pc := k.su.pc + 4 } })
  else
    let s := s.trapRecord core f c.inHandler
    match c.node with
    | none => s.modCore core (fun k => { k with run := false })
    | some n =>
      if [0x0D, 0x0E, 0x0F, 0x13].contains f.cls.toNat then s.rollback n core f.cls else s.failNode n core f.cls

/-- The region's clock glides or is gated (17 R360). -/
def transition (s : State) (core : Nat) : Bool :=
  let r := s.regionAt (s.regionOf core)
  r.gated || r.power.glide.isSome

/-- A core holds the issue of its freeze domain: a latched event, a debug halt, or a stop that waits for the end of a
transition (16 R343, 17 R360). -/
def holds_ (c : Core) : Bool := c.latched ≠ [] || c.halted || c.stopHeld || (c.run && c.cu.flights.any (fun f => f.blocked))

/-- The holds of a region's cores as its latched events, halts and waiting stops now give them. -/
def refreshHolds (s : State) (r : Nat) : State :=
  let cores := s.regionCores r
  let by_ := cores.filter (fun c => holds_ (s.coreAt c))
  let ds := by_.map s.domainOf
  cores.foldl (fun s c => s.modCore c (fun k => { k with held := ds.any (fun d => d.contains c) })) s

/-- What holds a core of a region holds its freeze domain: from the data words of the cycle on in which it came, since S words
are decided before it, and in every later cycle (16 R343, 17 R360). -/
def holdNow (s : State) (r : Nat) : State :=
  if (s.regionCores r).any (fun c => holds_ (s.coreAt c)) then s.refreshHolds r else s

/-- A fault detected in the current cycle: latched during a clock transition, else delivered (17 R360). POISON, MCHECK
and SOURCE are never latched. A latched fault holds its freeze domain at once while the clock is gated; in a glide S stops
at its own fault, and the domain holds from the data words of the cycle on (`State.holdNow`). -/
def raise (s : State) (core : Nat) (f : FaultRec) : State :=
  if s.transition core && !([0x0E, 0x0F, 0x10].contains f.cls.toNat) then
    (if (s.regionAt (s.regionOf core)).gated then s.holdDomain core else s).modCore core (fun k =>
      { k with latched := k.latched ++ [f], held := k.held || f.engine = 0 })
  else s.deliver core f

/-- A fault of a unit's word (R328): the word does not issue. -/
def faultAt (s : State) (core : Nat) (unit : Slot) (cls : Nat) (status : Nat) : State :=
  s.raise core (s.faultRec core unit cls (BitVec.ofNat 32 status))

/-- OPERAND with a reason of R332. -/
def operandFault (s : State) (core : Nat) (unit : Slot) (reason : Nat) : State :=
  s.faultAt core unit 0x02 (reason * 2 ^ 24)

/-- A machine check (18 R371): POISON or MCHECK by the mark, TRAPREC1 zero, the unit and location in the status word;
the syndrome of a poisoned word is its mask, that of an uncorrectable one is free (log 57). -/
def machineCheck (s : State) (core : Nat) (unit : Slot) (mk : Mark) (store loc key : Nat) : State :=
  let wide := store = 1 || store = 4
  let syn : BitVec 32 := match mk with
    | .poisoned => if wide then granuleMask else sramMask.setWidth 32
    | _ => if wide then Config.freeBits s.freeCtr 32 else (Config.freeBits s.freeCtr 16).setWidth 32
  let f := s.faultRec core unit (match mk with | .poisoned => 0x0E | _ => 0x0F)
    (BitVec.ofNat 4 store ++ BitVec.ofNat 12 loc ++ syn.setWidth 16)
  -- a check of a run that is already discarded is recorded nowhere (19 R419), but beside the fault that ended it (16 R335)
  let lost := s.pastFaults core && (match s.nodeOn core with | some (_, v) => v.faultAt.map (fun x => x.1) ≠ some (s.cycleOf core) | none => true)
  (if lost then s else s.logMemory core key syn).raise core { f with index := 0, position := 0 }

/-- Unit and location of a memory key as a core reads it, and what MFLOG holds as its address (R371, R372). -/
def unitOfKey (s : State) (core key : Nat) : Nat × Nat × Nat :=
  if key < hbmBase then (0, key % 2 ^ 21 / 64 % 32, key % 2 ^ 21)
  else if (s.stager core key).isSome then (2, stackOfKey key, s.pmaOf (s.partOf core) key)
  else (1, (key - hbmBase) / 256 / chanRows, s.pmaOf (s.partOf core) key)

/-- A machine check for consuming the word at a memory key, once its read is counted. -/
def consumeCounted (s : State) (core : Nat) (unit : Slot) (key : Nat) (mk : Mark) : State :=
  let (u, loc, addr) := s.unitOfKey core key
  s.machineCheck core unit mk u loc addr

/-- A machine check for consuming the word at a memory key. -/
def consumeBad (s : State) (core : Nat) (unit : Slot) (key : Nat) (mk : Mark) : State :=
  (s.countFound core [key]).consumeCounted core unit key mk

/-- The freeze line of a core's domain is asserted by a late result of the unit's word (03 R94, R95). A late S word stops
its own S at once; the rest of the domain stops before the data words of the cycle (`State.lateCheck`). -/
def freeze (s : State) (core : Nat) (unit : Slot) : State :=
  let f := s.faultRec core unit 0x05 0
  let ds := if unit = .s then [core] else s.domainOf core
  let s := ds.foldl (fun s d => s.modCore d (fun k => { k with frozen := true })) s
  s.modCore core (fun k => { k with late := k.late ++ [{ slot := unit, index := f.index, position := f.position }] })

end State
end Sys2Proof.Machine
end

