-- ==== Sys2Proof/Machine/Scalar.lean ====
section
/-! DEFINITION. S words on registers: arithmetic, immediates, constants, compares and predicates (08 R196 to R203). -/

namespace Sys2Proof.Machine

/-! ## How S issues (R196) -/

/-- A register of the word has a result still pending. -/
def Core.busy (c : Core) (regs : List SReg) : Bool := c.su.pend.any (fun p => regs.contains p.1)

/-- The bad register word that a list of registers would consume (18 R370). -/
def Core.badReg (c : Core) (regs : List SReg) : Option Nat :=
  c.bad.findSome? (fun b =>
    match b.reg with
    | .x n => if regs.contains (.x n) then some n else none
    | .q => regs.findSome? (fun r => match r with | .q n => if n = 0 then none else some n | _ => none)
    | .k n => if regs.contains (.k n) then some n else none
    | .b n => if regs.contains (.b n) then some n else none
    | _ => none)

/-- A word's registers are free of pending results, and those it reads of bad words. -/
def Core.ready (c : Core) (reads writes : List SReg) : Bool := !c.busy (reads ++ writes) && (c.badReg reads).isNone

namespace State

/-- The core whose word issues. -/
def here (s : State) : Nat := s.cur.core.toNat

/-- That core. -/
def me (s : State) : Core := s.coreAt s.here

/-- An S word that reads and writes the given registers: it stalls while one is pending, consumes no bad word, and
otherwise has its effect. -/
def scalar (s : State) (reads writes : List SReg) (effect : State) : Out1 :=
  if s.me.busy (reads ++ writes) then .next s
  else
    match s.me.badReg reads with
    | some n => .next (s.machineCheck s.here .s .uncorrectable 5 n 0)
    | none => .next effect

/-- S moves past the word: the next word's offset and the count of words issued. -/
def past (s : State) (f : Core → Core) : State :=
  s.modCore s.here (fun c =>
    let c := f c
    { c with su := { c.su with pc := c.su.pc + 4, index := c.su.index + 1, wait := none } })

/-- Registers whose result may land as late as `worst` cycles after issue (00 R8): a later word of S waits for it.
The latency is a free choice inside the bound (log 5). -/
def later (s : State) (regs : List SReg) (worst : Nat) : State :=
  let n := Config.sLatency s.freeCtr % worst + 1
  let live := regs.filter (fun r => r ≠ .x 0 && r ≠ .q 0)
  if n ≤ 1 then s.fresh
  else
    (s.modCore s.here (fun c => { c with su := { c.su with
      pend := c.su.pend ++ live.map (fun r => (r, s.cycleOf s.here + n)) } })).fresh

/-- x[d] := v by a word that reads the given registers and takes one cycle. -/
def setsX (s : State) (reads : List SReg) (d : BitVec 5) (v : Dword) : Out1 :=
  s.scalar reads [.x d.toNat] (s.past (fun c => c.setX d v))

/-- x[d] := v by a word whose result takes up to `worst` cycles. -/
def setsXLater (s : State) (reads : List SReg) (d : BitVec 5) (v : Dword) (worst : Nat) : Out1 :=
  s.scalar reads [.x d.toNat] ((s.past (fun c => c.setX d v)).later [.x d.toNat] worst)

/-- q[d] := v by a word that takes one cycle. -/
def setsQ (s : State) (reads : List SReg) (d : BitVec 5) (v : Bool) : Out1 :=
  s.scalar reads [.q d.toNat] (s.past (fun c => c.setQ (d.setWidth 3) v))

end State

/-- A predicate's number in a 5-bit field. -/
def Core.qf (c : Core) (n : BitVec 5) : Bool := c.q (n.setWidth 3)

/-- The two x registers of a word. -/
def xs2 (a b : BitVec 5) : List SReg := [.x a.toNat, .x b.toNat]

/-! ## Integer arithmetic (R200) -/

def aluMulh (a b : Dword) : Dword := BitVec.ofInt 64 (a.toInt * b.toInt / 2 ^ 64)
def aluMulhn (a b : Dword) : Dword := BitVec.ofNat 64 (a.toNat * b.toNat / 2 ^ 64)
def aluDiv (a b : Dword) : Dword := if b = 0 then BitVec.allOnes 64 else BitVec.ofInt 64 (a.toInt.tdiv b.toInt)
def aluDivn (a b : Dword) : Dword := if b = 0 then BitVec.allOnes 64 else BitVec.ofNat 64 (a.toNat / b.toNat)
def aluRem (a b : Dword) : Dword := if b = 0 then a else BitVec.ofInt 64 (a.toInt - b.toInt * a.toInt.tdiv b.toInt)
def aluRemn (a b : Dword) : Dword := if b = 0 then a else BitVec.ofNat 64 (a.toNat % b.toNat)
def aluShl (a b : Dword) : Dword := a <<< (b.toNat % 64)
def aluShr (a b : Dword) : Dword := a >>> (b.toNat % 64)
def aluSar (a b : Dword) : Dword := a.sshiftRight (b.toNat % 64)
def aluMin (a b : Dword) : Dword := if b.toInt < a.toInt then b else a
def aluMax (a b : Dword) : Dword := if a.toInt < b.toInt then b else a

/-- Leading zero bits of a number at a width. -/
def clzNat (w n : Nat) : Nat := if n = 0 then w else w - 1 - n.log2

/-- Trailing zero bits of a number at a width; the width for 0. -/
def ctzNat : Nat → Nat → Nat
  | 0, _ => 0
  | w + 1, n => if n % 2 = 1 then 0 else 1 + ctzNat w (n / 2)

/-- One bits among the low `w` of a number. -/
def popNat : Nat → Nat → Nat
  | 0, _ => 0
  | w + 1, n => n % 2 + popNat w (n / 2)

def execAdd (d a b : BitVec 5) (s : State) : Out1 := s.setsX (xs2 a b) d (s.me.x a + s.me.x b)
def execSub (d a b : BitVec 5) (s : State) : Out1 := s.setsX (xs2 a b) d (s.me.x a - s.me.x b)
def execMul (d a b : BitVec 5) (s : State) : Out1 := s.setsXLater (xs2 a b) d (s.me.x a * s.me.x b) 3
def execMulh (d a b : BitVec 5) (s : State) : Out1 := s.setsXLater (xs2 a b) d (aluMulh (s.me.x a) (s.me.x b)) 4
def execMulhn (d a b : BitVec 5) (s : State) : Out1 := s.setsXLater (xs2 a b) d (aluMulhn (s.me.x a) (s.me.x b)) 4
def execDiv (d a b : BitVec 5) (s : State) : Out1 := s.setsXLater (xs2 a b) d (aluDiv (s.me.x a) (s.me.x b)) 66
def execDivn (d a b : BitVec 5) (s : State) : Out1 := s.setsXLater (xs2 a b) d (aluDivn (s.me.x a) (s.me.x b)) 66
def execRem (d a b : BitVec 5) (s : State) : Out1 := s.setsXLater (xs2 a b) d (aluRem (s.me.x a) (s.me.x b)) 66
def execRemn (d a b : BitVec 5) (s : State) : Out1 := s.setsXLater (xs2 a b) d (aluRemn (s.me.x a) (s.me.x b)) 66
def execAnd (d a b : BitVec 5) (s : State) : Out1 := s.setsX (xs2 a b) d (s.me.x a &&& s.me.x b)
def execOr (d a b : BitVec 5) (s : State) : Out1 := s.setsX (xs2 a b) d (s.me.x a ||| s.me.x b)
def execXor (d a b : BitVec 5) (s : State) : Out1 := s.setsX (xs2 a b) d (s.me.x a ^^^ s.me.x b)
def execAndn (d a b : BitVec 5) (s : State) : Out1 := s.setsX (xs2 a b) d (s.me.x a &&& ~~~ (s.me.x b))
def execShl (d a b : BitVec 5) (s : State) : Out1 := s.setsX (xs2 a b) d (aluShl (s.me.x a) (s.me.x b))
def execShr (d a b : BitVec 5) (s : State) : Out1 := s.setsX (xs2 a b) d (aluShr (s.me.x a) (s.me.x b))
def execSar (d a b : BitVec 5) (s : State) : Out1 := s.setsX (xs2 a b) d (aluSar (s.me.x a) (s.me.x b))
def execMin (d a b : BitVec 5) (s : State) : Out1 := s.setsX (xs2 a b) d (aluMin (s.me.x a) (s.me.x b))
def execMax (d a b : BitVec 5) (s : State) : Out1 := s.setsX (xs2 a b) d (aluMax (s.me.x a) (s.me.x b))
def execClz (d a : BitVec 5) (s : State) : Out1 :=
  s.setsX [.x a.toNat] d (BitVec.ofNat 64 (clzNat 64 (s.me.x a).toNat))
def execPopc (d a : BitVec 5) (s : State) : Out1 :=
  s.setsX [.x a.toNat] d (BitVec.ofNat 64 (popNat 64 (s.me.x a).toNat))
def execSel (d a b : BitVec 5) (q : BitVec 3) (s : State) : Out1 :=
  s.setsX (xs2 a b ++ [.q q.toNat]) d (if s.me.q q then s.me.x a else s.me.x b)

/-! ## Immediates and constants (R201, R202) -/

/-- EXTS(imm15, 15). -/
def simm (i : BitVec 15) : Dword := i.signExtend 64

def execAddi (d a : BitVec 5) (imm : BitVec 15) (s : State) : Out1 := s.setsX [.x a.toNat] d (s.me.x a + simm imm)
def execAndi (d a : BitVec 5) (imm : BitVec 15) (s : State) : Out1 := s.setsX [.x a.toNat] d (s.me.x a &&& simm imm)
def execOri (d a : BitVec 5) (imm : BitVec 15) (s : State) : Out1 := s.setsX [.x a.toNat] d (s.me.x a ||| simm imm)
def execXori (d a : BitVec 5) (imm : BitVec 15) (s : State) : Out1 := s.setsX [.x a.toNat] d (s.me.x a ^^^ simm imm)
def execShli (d a : BitVec 5) (imm : BitVec 15) (s : State) : Out1 := s.setsX [.x a.toNat] d (s.me.x a <<< imm.toNat)
def execShri (d a : BitVec 5) (imm : BitVec 15) (s : State) : Out1 := s.setsX [.x a.toNat] d (s.me.x a >>> imm.toNat)
def execSari (d a : BitVec 5) (imm : BitVec 15) (s : State) : Out1 :=
  s.setsX [.x a.toNat] d ((s.me.x a).sshiftRight imm.toNat)
def execCeqi (d a : BitVec 5) (imm : BitVec 15) (s : State) : Out1 := s.setsQ [.x a.toNat] d (s.me.x a = simm imm)
def execClti (d a : BitVec 5) (imm : BitVec 15) (s : State) : Out1 :=
  s.setsQ [.x a.toNat] d ((s.me.x a).toInt < imm.toInt)
def execCltni (d a : BitVec 5) (imm : BitVec 15) (s : State) : Out1 :=
  s.setsQ [.x a.toNat] d ((s.me.x a).toNat < (simm imm).toNat)
def execLiz (d : BitVec 5) (imm : BitVec 20) (s : State) : Out1 := s.setsX [] d (imm.setWidth 64)
def execLis (d : BitVec 5) (imm : BitVec 20) (s : State) : Out1 := s.setsX [] d (imm.signExtend 64)
def execLic (d : BitVec 5) (imm : BitVec 20) (s : State) : Out1 :=
  s.setsX [.x d.toNat] d ((s.me.x d <<< 20) ||| imm.setWidth 64)

/-! ## Compares and predicates (R203) -/

def execCeq (d a b : BitVec 5) (s : State) : Out1 := s.setsQ (xs2 a b) d (s.me.x a = s.me.x b)
def execCne (d a b : BitVec 5) (s : State) : Out1 := s.setsQ (xs2 a b) d (s.me.x a ≠ s.me.x b)
def execClt (d a b : BitVec 5) (s : State) : Out1 := s.setsQ (xs2 a b) d ((s.me.x a).toInt < (s.me.x b).toInt)
def execCle (d a b : BitVec 5) (s : State) : Out1 := s.setsQ (xs2 a b) d ((s.me.x a).toInt ≤ (s.me.x b).toInt)
def execCltn (d a b : BitVec 5) (s : State) : Out1 := s.setsQ (xs2 a b) d ((s.me.x a).toNat < (s.me.x b).toNat)
def execClen (d a b : BitVec 5) (s : State) : Out1 := s.setsQ (xs2 a b) d ((s.me.x a).toNat ≤ (s.me.x b).toNat)
def execQand (d a b : BitVec 5) (s : State) : Out1 := s.setsQ [.q a.toNat, .q b.toNat] d (s.me.qf a && s.me.qf b)
def execQor (d a b : BitVec 5) (s : State) : Out1 := s.setsQ [.q a.toNat, .q b.toNat] d (s.me.qf a || s.me.qf b)
def execQnot (d a : BitVec 5) (s : State) : Out1 := s.setsQ [.q a.toNat] d (!s.me.qf a)

end Sys2Proof.Machine
end

