-- ==== Sys2Proof/Machine/Control.lean ====
section
/-! DEFINITION. Branches of S through branch target registers (03 R99, 08 R204 to R206). -/

namespace Sys2Proof.Machine

/-- b[bt] := v, with whether the load started a fetch of the target (R99, R206). -/
def Core.loadB (c : Core) (bt : Nat) (v : BitVec 32) (fetch : Bool) : Core :=
  let c := c.setB bt v
  { c with su := { c.su with loads := c.su.loads.ins bt (some { index := c.su.index, fetch := fetch }) } }

/-- The cycles that a taken branch through b[bt] loses (R99). -/
def Core.lost (c : Core) (bt : Nat) : Nat :=
  match c.su.loads.get none bt with
  | some l => if l.fetch then 4 - (c.su.index - l.index) else 4
  | none => 4

/-- b[bt] := target of PBR (R204). -/
def pbrTarget (pc : Nat) (disp : BitVec 20) : BitVec 32 := BitVec.ofInt 32 (pc + 4 * disp.toInt)

namespace State

/-- PBR and PBRR: load a branch target register. -/
def loadsB (s : State) (reads : List SReg) (bt : BitVec 3) (v : BitVec 32) (fetch : Bool) : Out1 :=
  s.scalar reads [.b bt.toNat] (s.past (fun c => c.loadB bt.toNat v fetch))

/-- A taken branch to b[bt] with its other effects: OPERAND when the target is misaligned or outside the section, in
which case the branch does not issue (R205). -/
def takesBranch (s : State) (bt : Nat) (f : Core → Core) : State :=
  let t := (s.me.b bt).toNat
  let size := (s.code.get {} s.here).s.length
  if t % 4 ≠ 0 || size ≤ t then s.operandFault s.here .s 8
  else
    let lost := s.me.lost bt
    s.modCore s.here (fun c =>
      let c := f c
      { c with su := { c.su with pc := t, index := c.su.index + 1, stall := lost, wait := none } })

/-- The condition of an SB word (R204). -/
def branchCond (s : State) (q : BitVec 3) (inv : BitVec 1) : Bool := s.me.q q != (inv = 1)

end State

def execPbr (bt : BitVec 3) (disp : BitVec 20) (s : State) : Out1 := s.loadsB [] bt (pbrTarget s.me.su.pc disp) true
def execPbrLo (bt : BitVec 3) (disp : BitVec 20) (s : State) : Out1 := s.loadsB [] bt (pbrTarget s.me.su.pc disp) false
def execPbrr (bt : BitVec 3) (a : BitVec 5) (s : State) : Out1 :=
  s.loadsB [.x a.toNat] bt ((s.me.x a).setWidth 32) true
def execPbrrLo (bt : BitVec 3) (a : BitVec 5) (s : State) : Out1 :=
  s.loadsB [.x a.toNat] bt ((s.me.x a).setWidth 32) false

def execBr (bt q : BitVec 3) (inv : BitVec 1) (s : State) : Out1 :=
  s.scalar [.b bt.toNat, .q q.toNat] [] (if s.branchCond q inv then s.takesBranch bt.toNat id else s.past id)

def execBrl (bt q : BitVec 3) (inv : BitVec 1) (s : State) : Out1 :=
  s.scalar [.b bt.toNat, .q q.toNat] [.b 7]
    (if s.branchCond q inv then
      s.takesBranch bt.toNat (fun c => c.loadB 7 (BitVec.ofNat 32 (c.su.pc + 4)) true)
    else s.past id)

def execLoop (bt q : BitVec 3) (inv : BitVec 1) (a : BitVec 5) (s : State) : Out1 :=
  let v := s.me.x a - 1
  s.scalar [.b bt.toNat, .q q.toNat, .x a.toNat] [.x a.toNat]
    (if v ≠ 0 && s.branchCond q inv then s.takesBranch bt.toNat (fun c => c.setX a v) else s.past (fun c => c.setX a v))

end Sys2Proof.Machine
end

