-- ==== Sys2Proof/Machine/Operands.lean ====
section
/-! DEFINITION. Layout entries, coordinates and the addresses they give (04 R108 to R116), and descriptors. -/

namespace Sys2Proof.Machine

/-- A layout entry, field by field (R109, R110). -/
structure Ent where
  space : Nat
  ty : Nat
  curve : Bool
  t0 : Nat
  t1 : Nat
  perm : Bool
  pmul : Nat
  tagged : Bool
  tsrc : Bool
  tag : Nat
  e0 : Nat
  e1 : Nat
  e2 : Nat
  e3 : Nat
  s1 : Nat
  s2 : Nat
  s3 : Nat
  base : Nat
  deriving DecidableEq, Repr

/-- The entry that 32 bytes hold; dword i is bits [64i + 63 : 64i]. -/
def entOf (v : BitVec 256) : Ent :=
  { space := fieldOf v 255 253, ty := fieldOf v 252 249, curve := v.getLsbD 248
    t1 := 2 ^ fieldOf v 247 244, t0 := 2 ^ fieldOf v 243 240
    perm := v.getLsbD 239, pmul := fieldOf v 238 236, tagged := v.getLsbD 233, tsrc := v.getLsbD 232
    tag := fieldOf v 231 224, s3 := fieldOf v 223 192
    s2 := fieldOf v 191 160, s1 := fieldOf v 159 128
    e3 := fieldOf v 127 112, e2 := fieldOf v 111 96, e1 := fieldOf v 95 80, e0 := fieldOf v 79 64
    base := fieldOf v 63 0 }

namespace Ent

/-- Element width in bits. -/
def esize (e : Ent) : Nat := widthOf e.ty

/-- Cell size in bytes of a curve entry. -/
def cell (e : Ent) : Nat := e.s1

/-- Cell limit of a curve entry (R113). -/
def limit (e : Ent) : Nat := e.s3 * 2 ^ 32 + e.s2

/-- The byte offset, virtual address or bus address that the base holds (R110). -/
def start (e : Ent) : Nat :=
  match e.space with
  | 3 => bitsOf e.base 47 0
  | 4 => e.base
  | _ => bitsOf e.base 20 0

/-- Space 1: the peer bit, package and core; space 2: tier, group and op (R110). -/
def peer (e : Ent) : Bool := e.space = 1 && bitOf e.base 63
def package (e : Ent) : Nat := bitsOf e.base 62 50
def target (e : Ent) : Nat := bitsOf e.base 49 42
def tier (e : Ent) : Nat := bitsOf e.base 63 60
def group (e : Ent) : Nat := bitsOf e.base 59 54
def op (e : Ent) : Nat := bitsOf e.base 53 51

/-- Where the space ends: an element with a byte at or beyond it raises ACCESS (R111). -/
def bound (e : Ent) : Nat :=
  match e.space with
  | 3 => 2 ^ 48
  | 4 => 2 ^ 64
  | _ => 2 ^ 21

/-- The zero fields of the base dword, by space (R110). -/
def baseOk (e : Ent) : Bool :=
  match e.space with
  | 0 => bitsOf e.base 63 21 = 0
  | 1 => bitsOf e.base 41 21 = 0 && (e.peer || bitsOf e.base 62 50 = 0)
  | 2 =>
    bitsOf e.base 50 21 = 0 && 1 ≤ e.tier && e.tier ≤ 4 && e.op < 6 &&
      e.group < (match e.tier with | 1 => 64 | 2 => 8 | 3 => 2 | _ => 1) && [12, 10, 3, 7].contains e.ty
  | 3 => bitsOf e.base 63 48 = 0
  | _ => true

/-- A valid entry (R109, R110); `v` are its 32 bytes (log 22). -/
def ok (e : Ent) (v : BitVec 256) : Bool :=
  e.e0 ≠ 0 && e.e1 ≠ 0 && e.e2 ≠ 0 && e.e3 ≠ 0 && e.space < 5 && e.ty < 15 && fieldOf v 235 234 = 0 &&
    fieldOf v 247 244 ≤ 12 && fieldOf v 243 240 ≤ 12 && e.baseOk &&
    (if e.curve then e.cell ≠ 0 && e.cell * 8 % e.esize = 0
     else e.t0 * e.t1 * e.esize ≤ 65536 * 8 && (e.esize ≠ 4 || e.t0 % 2 = 0))

/-- An entry that an LTSET has loaded. At launch every entry is zero (03 R84), which R109 calls invalid: a word that names
one raises OPERAND, reason 2 (16 R332). DEDUCED (log 22). -/
def loaded (e : Ent) : Bool := e.e0 ≠ 0

/-- The bank permutation of a byte offset of a slice (R114). -/
def permute (e : Ent) (off : Nat) : Nat :=
  if e.perm && e.space < 3 then
    off / 512 * 512 + (off % 512 / 64 ^^^ (off / 512 % 4096 * e.pmul % 8)) * 64 + off % 64
  else off

/-- The expected tag (R116); `frame` is FRAME_NO in the issue cycle. -/
def expect (e : Ent) (frame : BitVec 64) : Byte :=
  if e.tsrc then frame.setWidth 8 + BitVec.ofNat 8 e.tag else BitVec.ofNat 8 e.tag

end Ent

/-- One element an entry and a coordinate name: its address, its low-nibble flag for 4-bit types, and whether it is outside. -/
structure Elem where
  addr : Nat
  high : Bool
  outside : Bool
  deriving DecidableEq, Repr

/-- Element (c0, c1, c2, c3) of a dense entry, with an exact, possibly negative c0 (R111, 10 R276). -/
def denseElem (e : Ent) (c0 : Int) (c1 c2 c3 : Nat) : Elem :=
  if c0 < 0 then { addr := e.start, high := false, outside := true }
  else
    let i := c0.toNat + c1 * e.s1 + c2 * e.s2 + c3 * e.s3
    let bit := i * e.esize
    { addr := e.start + bit / 8, high := bit % 8 ≠ 0
      outside := e.e0 ≤ c0.toNat || e.e1 ≤ c1 || e.e2 ≤ c2 || e.e3 ≤ c3 }

/-- The fields of a dense coordinate (R111). -/
def coordOf (c : Nat) : Nat × Nat × Nat × Nat := (bitsOf c 15 0, bitsOf c 31 16, bitsOf c 47 32, bitsOf c 63 48)

/-- The elements (c0 + a, c1 + b), a < n0, b < n1, in the order of R111. -/
def denseTile (e : Ent) (c n0 n1 : Nat) : List Elem :=
  let (c0, c1, c2, c3) := coordOf c
  (List.range n1).flatMap (fun b => (List.range n0).map (fun a => denseElem e (c0 + a : Nat) (c1 + b) c2 c3))

/-- The elements of the cell of a code (R113). -/
def curveCell (e : Ent) (code : Nat) : List Elem :=
  let n := e.cell * 8 / e.esize
  (List.range n).map (fun i =>
    let bit := i * e.esize
    { addr := e.start + code * e.cell + bit / 8, high := bit % 8 ≠ 0, outside := e.limit ≤ code })

/-- The elements of the tile or cell that an entry and a coordinate name. -/
def tileOf (e : Ent) (c : Nat) : List Elem := if e.curve then curveCell e c else denseTile e c e.t0 e.t1

/-- The elements of one row: a < t0 at b = 0, or the cell (09 R234, 08 R207). -/
def rowOf (e : Ent) (c : Nat) : List Elem := if e.curve then curveCell e c else denseTile e c e.t0 1

/-- The bytes an element touches, by offset after the permutation. -/
def elemBytes (e : Ent) (x : Elem) : List Nat :=
  if e.esize = 4 then [e.permute x.addr] else (List.range (e.esize / 8)).map (fun i => e.permute (x.addr + i))

/-- The element's last byte lies at or beyond the end of its space (R111). -/
def Elem.past (e : Ent) (x : Elem) : Bool := !x.outside && e.bound ≤ x.addr + (e.esize - 1) / 8

/-- The address of the first element that raises ACCESS. -/
def firstPast (e : Ent) (l : List Elem) : Option Nat := (l.find? (Elem.past e)).map (fun x => x.addr)

/-- The 512-byte lines that a list of elements touches, each once, in order of first touch. -/
def linesOf (e : Ent) (l : List Elem) : List Nat :=
  l.foldl (fun acc x =>
    if x.outside then acc
    else (elemBytes e x).foldl (fun acc o => if acc.contains (o / 512) then acc else acc ++ [o / 512]) acc) []

/-- How a tag check comes out (R116). -/
inductive TagCheck where
  | ok | pending
  | newer (line : Nat) (found : Byte)
  deriving DecidableEq, Repr

/-- The first line that does not match decides: TAG when one is newer, else a late result when one is pending. -/
def checkTags (tag : Nat → Byte) (x : Byte) (lines : List Nat) : TagCheck :=
  match lines.find? (fun l => 128 ≤ (x - tag l).toNat) with
  | some l => .newer l (tag l)
  | none => if lines.all (fun l => tag l = x) then .ok else .pending

/-- The tag check of a read through an entry: slices only (09 R228). -/
def Ent.checkRead (e : Ent) (tag : Nat → Byte) (frame : BitVec 64) (l : List Elem) : TagCheck :=
  if e.tagged && e.space < 3 then checkTags tag (e.expect frame) (linesOf e l) else .ok

/-- The slice that a space 0 or 1 entry names, for a word of `core`. -/
def Ent.sliceOf (e : Ent) (core : Nat) : Nat := if e.space = 1 then e.target else core

end Sys2Proof.Machine
end

