-- ==== Sys2Proof/Machine/Access.lean ====
section
/-! DEFINITION. Translation (04 R122 to R127, 18 R375 to R378), and accesses to elements of any space as one word makes
them: bytes read, bytes to write, poison carried, watchpoints touched (18 R369, R379 to R381). -/

namespace Sys2Proof.Machine

/-! ## Walks (04 R123, R124) -/

namespace State

/-- A table entry as it stands at its home. -/
def readPte (s : State) (part pma : Nat) : Option Nat :=
  match s.homeOf part pma with
  | none => none
  | some k => some (leNat ((List.range 8).map (fun i => s.hbmByte part (k + i) s.mem.byte)))

end State

/-- A translation or permission fault, or a staging overrun (18 R375, 19 R393). -/
structure XFault where
  cls : BitVec 8
  status : BitVec 32
  va : Nat
  overrun : Bool := false
  deriving DecidableEq, Repr

/-- TRANSLATE with a reason at a level. -/
def xTranslate (reason level : Nat) (wr : Bool) (va : Nat) : XFault :=
  { cls := 0x0A, status := BitVec.ofNat 32 (reason * 2 ^ 28 + level * 2 ^ 26 + b2n wr * 2 ^ 25), va := va }

/-- ACCESS at a virtual address. -/
def xAccess (va : Nat) : XFault := { cls := 0x0B, status := BitVec.ofNat 32 va, va := va }

/-- Least VA bit that a level indexes, and the count of its bits (R123). -/
def levelBits (l : Nat) : Nat × Nat :=
  match l with
  | 0 => (39, 9)
  | 1 => (30, 9)
  | 2 => (21, 9)
  | _ => (16, 5)

namespace State

/-- One walk from the table at `table` of level 4 - fuel: the translation, or the reason and level of its failure. -/
def walk (s : State) (part va : Nat) : Nat → Nat → Except (Nat × Nat) Trans
  | 0, _ => .error (1, 3)
  | fuel + 1, table =>
    let level := 3 - fuel
    let (lo, n) := levelBits level
    match s.readPte part (table + 8 * (va / 2 ^ lo % 2 ^ n)) with
    | none => .error (4, level)
    | some e =>
      let addr := bitsOf e 47 8 * 256
      if !bitOf e 0 then .error (1, level)
      else if (bitOf e 1 && level = 0) || (!bitOf e 1 && level = 3) then .error (2, level)
      else if bitsOf e 63 48 ≠ 0 || bitsOf e 7 4 ≠ 0 then .error (3, level)
      else if bitOf e 1 then
        if addr % 2 ^ lo ≠ 0 then .error (3, level)
        else .ok { part := BitVec.ofNat 4 part, page := va / 2 ^ lo, size := lo, pma := addr, read := bitOf e 2, write := bitOf e 3 }
      else if addr % (if level = 2 then 256 else 4096) ≠ 0 then .error (3, level)
      else s.walk part va fuel addr

/-- The table entries that a walk reads, by the keys of their first bytes. -/
def walkKeys (s : State) (part va : Nat) : Nat → Nat → List Nat
  | 0, _ => []
  | fuel + 1, table =>
    let level := 3 - fuel
    let at_ := table + 8 * (va / 2 ^ (levelBits level).1 % 2 ^ (levelBits level).2)
    match s.homeOf part at_, s.readPte part at_ with
    | some k, some e => k :: (if bitOf e 0 && !bitOf e 1 then s.walkKeys part va fuel (bitsOf e 47 8 * 256) else [])
    | _, _ => []

/-- A walk has read its table entries: the words found corrected or uncorrectable are counted (18 R368, R373). -/
def walked (s : State) (part va : Nat) : State :=
  if s.mem.marks = [] then s else s.countFound 256 (s.walkKeys part va 4 (fieldOf (s.partAt part).ptbr 47 12 * 4096))

/-- A cached translation of the quad, or one whose walk is under way, for a partition's address (R124). -/
def cached (s : State) (quad part va : Nat) : Option Trans :=
  let q := s.quadAt quad
  (q.cache ++ q.walks).find? (fun t => t.part.toNat = part && t.page = va / 2 ^ t.size)

/-- The partition memory address and home key of a virtual address, for a quad's access (R122 to R125). A miss leaves
its walk under way; one that ends in a translation fault, by R127 too, is not cached (18 R375). -/
def translate (s : State) (quad part : Nat) (wr : Bool) (va : Nat) : State × Except XFault (Nat × Nat) :=
  let p := s.partAt part
  if !p.ptbr.getLsbD 0 then (s, .error (xTranslate 5 0 wr va))
  else
    let found : Except XFault (Trans × Bool) :=
      match s.cached quad part va with
      | some t => .ok (t, false)
      | none =>
        match s.walk part va 4 (fieldOf p.ptbr 47 12 * 4096) with
        | .error (r, l) => .error (xTranslate r l wr va)
        | .ok t => .ok (t, true)
    match found with
    | .error f => (s.walked part va, .error f)
    | .ok (t, walked) =>
      let s := if walked then s.walked part va else s
      let pma := t.pma + va % 2 ^ t.size
      match s.homeOf part pma with
      | none => (s, .error (xTranslate 4 ((39 - t.size) / 9 + (if t.size = 16 then 1 else 0)) wr va))
      | some k =>
        let s := if walked then s.modQuad quad (fun q => { q with walks := q.walks ++ [t] }) else s
        if (wr && !t.write) || (!wr && !t.read) then (s, .error (xAccess va)) else (s, .ok (pma, k))

end State

/-! ## One word's accesses -/

/-- A byte that an access touched: its key, its partition memory address when it lies in HBM, and the direction. -/
structure Touch where
  key : Nat
  pma : Nat
  write : Bool
  /-- read by an atomic, at the home (06 R173) -/
  home : Bool := false
  deriving DecidableEq, Repr

/-- What one word has read and is to write: the bytes to write (latest first), poisoned destinations, bytes touched,
and the granules it would hold staged. -/
structure Acc where
  s : State
  ws : List (Nat × Byte) := []
  bad : List Nat := []
  touches : List Touch := []
  grans : List Nat := []
  /-- a read of a byte that the word itself writes sees it old or new: nothing orders the two (R111, log 8) -/
  race : Bool := false
  /-- the word is an atomic at what it reads now: it reads at the home (06 R173) -/
  atHome : Bool := false
  /-- an atomic's writes, and its place among stores that are still to reach their homes (06 R173) -/
  atom : Bool := false
  free : List Nat := []

/-- The longest walk that a miss waits for, in region cycles at the fastest clock: 4.8 µs × (1 + 4,096 div 32) (04 R124). -/
def walkCycles : Nat := 1238400

namespace Acc

/-- The start of a word's accesses. -/
def start (s : State) (core : Nat) : Acc :=
  { s := s, grans := match s.nodeOn core with
      | some (_, v) => State.granules (v.staged.map (fun c => c.1))
      | none => [] }

/-- The staging budget of a core's node: none when it is irrevocable (03 R103, R71). -/
def budget (s : State) (core : Nat) : Option Nat :=
  match s.nodeOn core with
  | some (_, v) => if State.irrevocable v then none else some (State.rcd v 12 % 2 ^ 32)
  | none => none

/-- A granule that a write would stage is counted; one past the staging budget fails as R393 states. -/
def stage (a : Acc) (who : Who) (wr : Bool) (o k : Nat) (ks : List Nat) : Acc × Except XFault (List Nat) :=
  if wr && !a.grans.contains (k / 256) then
    match budget a.s who.core with
    | some n =>
      let g := k / 256 :: a.grans
      if n < ceilDiv (g.length * 256) 4096 then (a, .error { xAccess o with overrun := true })
      else ({ a with grans := g }, .ok (ks ++ [k]))
    | none => (a, .ok (ks ++ [k]))
  else (a, .ok (ks ++ [k]))

/-- The keys of an element's bytes. -/
def keys (a : Acc) (who : Who) (e : Ent) (x : Elem) (wr : Bool) : Acc × Except XFault (List Nat) :=
  let offs := elemBytes e x
  match e.space with
  | 3 =>
    let part := a.s.partOf who.core
    let quad := quadOf who.core
    offs.foldl (fun (st : Acc × Except XFault (List Nat)) o =>
      match st with
      | (a, .error f) => (a, .error f)
      | (a, .ok ks) =>
        match a.s.translate quad part wr o with
        | (s, .error f) => ({ a with s := s }, .error f)
        | (s, .ok (pma, k)) =>
          ({ a with s := s, touches := { key := k, pma := pma, write := wr, home := a.atHome } :: a.touches }).stage who wr o k ks) (a, .ok [])
  | 4 =>
    offs.foldl (fun (st : Acc × Except XFault (List Nat)) o =>
      match st with
      | (a, .error f) => (a, .error f)
      | (a, .ok ks) => a.stage who wr o (hostKey o) ks) (a, .ok [])
  | _ =>
    let c := e.sliceOf who.core
    let ks := offs.map (sliceKey c)
    ({ a with touches := ks.map (fun k => { key := k, pma := 0, write := wr, home := a.atHome }) ++ a.touches }, .ok ks)

/-- A byte as the word sees it: its own writes first. -/
def byte (a : Acc) (who : Who) (k : Nat) : Byte :=
  match Tab.find a.ws k with
  | some b => b
  | none => if a.atHome then a.s.homeByte who a.free k else if k < hbmBase then a.s.readAs who k else a.s.globalByte who k

/-- A byte as a read of the word sees it. -/
def seen (a : Acc) (who : Who) (k : Nat) : Byte :=
  if a.race && (Tab.find a.ws k).isSome && !Config.raceNew a.s.freeCtr (k / 64) then { a with ws := [] }.byte who k
  else a.byte who k

/-- The bits of an element from its bytes. -/
def elemOf (e : Ent) (x : Elem) (bs : List Byte) : Nat :=
  let v := leNat bs
  if e.esize = 4 then (if x.high then v / 16 % 16 else v % 16) else v

/-- Read an element: its bits, and whether one of its words is poisoned or uncorrectable. An outside element is zero. -/
def read (a : Acc) (who : Who) (e : Ent) (x : Elem) : Acc × Except XFault (Nat × Option (Nat × Mark)) :=
  if x.outside then (a, .ok (0, none))
  else
    match a.keys who e x false with
    | (a, .error f) => (a, .error f)
    | (a, .ok ks) =>
      let bad := ks.findSome? (fun k => (a.s.markAt who.core k).map (fun m => (k, m)))
      (a, .ok (elemOf e x (ks.map (a.seen who)), bad))

/-- Set an element to be written; one outside is skipped. A poisoned value poisons its destination words. -/
def write (a : Acc) (who : Who) (e : Ent) (x : Elem) (v : Nat) (bad : Bool) : Acc × Except XFault Unit :=
  if x.outside then (a, .ok ())
  else
    match a.keys who e x true with
    | (a, .error f) => (a, .error f)
    | (a, .ok ks) =>
      let bs : List Byte :=
        if e.esize = 4 then
          ks.map (fun k =>
            let old := (a.byte who k).toNat
            BitVec.ofNat 8 (if x.high then old % 16 + v % 16 * 16 else old / 16 * 16 + v % 16))
        else leBytes (e.esize / 8) v
      ({ a with ws := (ks.zip bs).reverse ++ a.ws, bad := if bad then ks ++ a.bad else a.bad }, .ok ())

end Acc

/-- Where an access comes from, for a watchpoint's status word (18 R381): writer class and id. -/
def writerClass : Slot → Nat
  | .s => 0
  | .l => 1
  | .w => 3
  | .mc => 4
  | _ => 2

/-- A watchpoint's fields (18 R379): enabled, and its kind takes the direction. -/
def watchOn (v : Nat) (wr : Bool) : Bool :=
  let kind := bitsOf v 62 61
  let ls := bitsOf v 55 51
  bitOf v 63 && (kind = 3 || (wr && kind = 1) || (!wr && kind = 2)) && 6 ≤ ls && ls ≤ 21

/-- The watched range holds an address; address bits below the size are ignored. -/
def watchHolds (v base addr : Nat) : Bool :=
  let ls := bitsOf v 55 51
  base / 2 ^ ls = addr / 2 ^ ls

namespace State

/-- Count an event in a core's memory fault log (18 R381). -/
def countEvent (s : State) (core : Nat) : State :=
  s.modCore core (fun c => { c with mflog := { c.mflog with events := satNat 32 (c.mflog.events.toNat + 1) } })

/-- WATCH raised at a core (18 R381): its node stops. -/
def watchFault (s : State) (core : Nat) (cls id index : Nat) (glob wr : Bool) (addr : Nat) : State :=
  let status := cls * 2 ^ 29 + id * 2 ^ 16 + b2n glob * 2 ^ 15 + index * 2 ^ 8 + b2n (!wr) * 2 ^ 7 + b2n wr * 2 ^ 6
  (s.logMemory core addr 0).faultAt core .s 0x0C status

/-- The watchpoints of a slice checked against one access: each that is hit counts once, or stops the watching core's
node (18 R379, R381). -/
def watchSlice (s : State) (cls id : Nat) (wr : Bool) (keys : List Nat) : State :=
  keys.foldl (fun acc k =>
    let core := k / 2 ^ 21
    (acc.1.coreAt core).csr.watch.foldl (fun (acc : State × List (Nat × Nat)) w =>
      let v := w.2.toNat
      if acc.2.contains (core, w.1) then acc
      else if watchOn v wr && watchHolds v (bitsOf v 20 0) (k % 2 ^ 21) then
        (if bitOf v 60 then acc.1.watchFault core cls id w.1 false wr (k % 2 ^ 21) else acc.1.countEvent core,
          (core, w.1) :: acc.2)
      else acc) acc) (s, ([] : List (Nat × Nat))) |>.1

/-- The lowest core of a partition's lowest running node (18 R381). -/
def lowestCore (s : State) (part : Nat) : Option Nat :=
  s.nodes.findSome? (fun e =>
    match e.2 with
    | some v => if v.part.toNat = part && v.st = .running then (nodeCores v).head? else none
    | none => none)

/-- The global watchpoints of a partition checked at the home (18 R380, R381). `stopper`: the core whose node a stop
stops, none for a writer that is not of this package. -/
def watchGlobal (s : State) (part cls id : Nat) (stopper : Option Nat) (wr : Bool) (pmas : List Nat) : State :=
  let w := (s.partAt part).watch
  if w = [] then s
  else
    (List.range 16).foldl (fun s i =>
      let base := (w.get 0 (2 * i)).toNat
      let v := (w.get 0 (2 * i + 1)).toNat
      if watchOn v wr then
        match pmas.find? (watchHolds v base) with
        | none => s
        | some a =>
          let s := match s.lowestCore part with
            | some c => if bitOf v 60 && stopper.isSome then s else s.countEvent c
            | none => s
          if bitOf v 60 then
            match stopper with
            | some c => s.watchFault c cls id i true wr a
            | none => s
          else s
      else s) s

/-- The quad window serves a read of a global byte: it returns a store of the quad's own that may still be on its way to its
home (06 R165, 18 R380). -/
def fromWindow (s : State) (who : Who) (key : Nat) : Bool :=
  hbmBase ≤ key && who.copy = 0 &&
    (match s.source who none key with
     | some r => !r.atom && r.core.toNat / 4 = who.core / 4 && s.isOpen r
     | none => false)

/-- Every watchpoint that a word's accesses touch. -/
def watchAll (s : State) (cls id : Nat) (core : Nat) (ts : List Touch) : State :=
  let go (s : State) (wr : Bool) : State :=
    let t := ts.filter (fun t => t.write = wr)
    let s := s.watchSlice cls id wr ((t.filter (fun t => t.key < hbmBase)).map (fun t => t.key))
    s.watchGlobal (s.partOf core) cls id (some core) wr ((t.filter (fun t => hbmBase ≤ t.key)).map (fun t => t.pma))
  go (go s false) true

end State

namespace Acc

/-- The word's reads and writes take effect: bad words found are counted, the reads have their place in the order, slices
change by their bytes and global memory staged or through, poison is carried and counted (18 R369, R372), then the
watchpoints. Every observer sees the bytes after `bound` cycles at the latest (06 R165) (log 58). -/
def commitAs (a : Acc) (who : Who) (bound : Nat) (cls id : Nat) : State :=
  let ws := a.ws.reverse
  let loc := ws.filter (fun w => w.1 < hbmBase)
  let glob := ws.filter (fun w => hbmBase ≤ w.1)
  let reads := a.touches.filter (fun t => !t.write)
  let s := (a.s.endAgain who).countFound who.core (reads.map (fun t => t.key))
  let free := if a.atom then a.free else s.behind who
  let near := reads.filter (fun t => s.fromWindow who t.key)
  let s := s.observe who free ((reads.filter (fun t => !t.home)).map (fun t => t.key)) ((reads.filter (fun t => t.home)).map (fun t => t.key))
  let s := if loc = [] then s else s.writeAs who free loc bound a.atom
  let bl := a.bad.filter (fun k => k < hbmBase)
  let s := if bl = [] then s else s.modMem (fun m => bl.foldl (fun m k => m.setMark k .poisoned) m)
  let s := if glob = [] then s else s.globalWrite who free glob (a.bad.filter (fun k => hbmBase ≤ k)) bound a.atom
  let s := if a.bad = [] then s else s.modCore who.core (fun c =>
    { c with mflog := { c.mflog with spread := satNat 32 (c.mflog.spread.toNat +
        ((a.bad.map codeWord).foldl (fun acc k => if acc.contains k then acc else k :: acc) []).length) } })
  (s.watchAll cls id who.core (a.touches.filter (fun t => t.write || !near.contains t))).fresh

/-- The writes of a core's own word. -/
def commit (a : Acc) (who : Who) (bound : Nat) : State := a.commitAs who bound (writerClass who.unit) who.core

end Acc

namespace State

/-- Tags set by a write through a tagged entry on every line it touched (04 R116). -/
def setTags (s : State) (core : Nat) (x : Byte) (lines : List Nat) : State :=
  s.modMem (fun m => lines.foldl (fun m l => m.setTag core l x) m)

/-- Tags set by a store, and what happens before it (06 R163); other observers may see the old ones until `n` cycles later. -/
def setTagsAs (s : State) (who : Who) (target : Nat) (x : Byte) (lines : List Nat) (n : Nat) : State :=
  let region := s.regionOf who.core
  let past := s.knownBy who
  let news : List TagNews := (lines.filter (fun i => s.mem.tag target i ≠ x)).map (fun i =>
    { core := BitVec.ofNat 8 who.core, slot := who.unit, target := target, line := i, old := s.mem.tag target i
      region := region, until_ := (s.regionAt region).cycles + n, past := past })
  (s.setTags target x lines).modMem (fun m => if n = 0 && past = [] then m else { m with tagNews := m.tagNews ++ news })

/-- The tags that a store of elements through an entry sets. -/
def tagWrite (s : State) (who : Who) (e : Ent) (frame : BitVec 64) (l : List Elem) (n : Nat) : State :=
  if e.tagged && e.space < 3 then s.setTagsAs who (e.sliceOf who.core) (e.expect frame) (linesOf e l) n else s

/-- A tagged read that proceeds happens after the store that set its line's tag, and after every access before that
store; the slice then shows the tag to every observer (06 R163, R165) (log 20). -/
def sawTags (s : State) (who : Who) (e : Ent) (core : Nat) (frame : BitVec 64) (l : List Elem) : State :=
  if e.tagged && e.space < 3 && s.mem.tagNews ≠ [] then
    let lines := linesOf e l
    let here (t : TagNews) : Bool := t.target = core && lines.contains t.line && s.mem.tag core t.line = e.expect frame
    s.modMem (fun m => { m.tell ((m.tagNews.filter here).flatMap (fun t => t.past)) [who.mark] with
      tagNews := m.tagNews.map (fun t => if here t then { t with until_ := 0 } else t) })
  else s

/-- A load that performs its read again leaves the list of those that may. -/
def dropAgain (s : State) (core id : Nat) : State :=
  s.modCore core (fun c => { c with cu := { c.cu with again := c.cu.again.filter (fun f => f.id ≠ id) } })

/-- A load has performed its read again: the read has its place in the order (log 6). -/
def reread (a : Acc) (who : Who) : State := (a.s.observe who [] ((a.touches.filter (fun t => !t.write)).map (fun t => t.key)) []).fresh

/-- A word that is no load has read bytes of its own slice: what it finds is counted, the read has its place in the order,
and the slice's watchpoints see it. -/
def readLocal (s : State) (who : Who) (keys : List Nat) : State :=
  ((((s.endAgain who).countFound who.core keys).observe who [] keys []).watchSlice (writerClass who.unit) who.core false keys).fresh

end State
end Sys2Proof.Machine
end

