-- ==== Sys2Proof/Machine/Curve.lean ====
section
/-! DEFINITION. Curve registers and their instructions (04 R112, 08 R219 to R221). -/

namespace Sys2Proof.Machine

/-! ## The fields of a k register (R112) -/

def kDims (k : BitVec 128) : Nat := fieldOf k 127 125 + 1
def kWidth (k : BitVec 128) : Nat := fieldOf k 124 120
def kCode (k : BitVec 128) : Nat := fieldOf k 95 0

/-- A k register from its header fields, overflow bits and code. -/
def kMake (dims w ovf code : Nat) : BitVec 128 :=
  BitVec.ofNat 3 (dims - 1) ++ BitVec.ofNat 5 w ++ BitVec.ofNat 8 ovf ++ 0#16 ++ BitVec.ofNat 96 code

/-- A valid header (R219). -/
def kOk (k : BitVec 128) : Bool := kWidth k ≠ 0 && kDims k * kWidth k ≤ 96

/-- Two operands with one valid header. -/
def kSame (a b : BitVec 128) : Bool := kOk a && kDims a = kDims b && kWidth a = kWidth b

/-- Axis `i` of a code: bit j of the axis is code bit j × dims + i. -/
def axisOf (dims w code i : Nat) : Nat := packBits ((List.range w).map (fun j => bitOf code (j * dims + i)))

/-- The code of a list of axes. -/
def interleave (dims w : Nat) (axes : List Nat) : Nat :=
  packBits ((List.range (dims * w)).map (fun t => bitOf (axes.getD (t % dims) 0) (t / dims)))

/-- The axes of a k register. -/
def kAxes (k : BitVec 128) : List Nat := (List.range (kDims k)).map (axisOf (kDims k) (kWidth k) (kCode k))

/-- Overflow bits, bit i for axis i. -/
def ovfBits (l : List Bool) : Nat := packBits l

namespace State

/-- An S word that faults with OPERAND when a check fails (R219). -/
def curve (s : State) (reads writes : List SReg) (reason : Nat) (ok : Bool) (effect : State) : Out1 :=
  s.scalar reads writes (if ok then effect else s.operandFault s.here .s reason)

end State

/-- The k register that a 5-bit field names. -/
def Core.kf (c : Core) (n : BitVec 5) : BitVec 128 := c.k n.toNat

def execKset (d a b : BitVec 5) (s : State) : Out1 :=
  let h := (s.me.x a).toNat
  let v := (s.me.x b).toNat
  let dims := bitsOf h 2 0 + 1
  let w := bitsOf h 7 3
  s.curve (xs2 a b) [.k d.toNat] 10 (h < 256 && w ≠ 0 && dims * w ≤ 96 && v < 2 ^ (dims * w))
    (s.past (fun c => c.setK d.toNat (kMake dims w 0 v)))

/-- Axis i as KPACK and KUNPK hold it: half i mod 2 of register base + i div 2 (R220). -/
def packedAxis (c : Core) (base i : Nat) : Nat :=
  (c.x (BitVec.ofNat 5 (base + i / 2))).toNat / 2 ^ (32 * (i % 2)) % 2 ^ 32

/-- The x registers from `base` that hold the axes of `dims` dimensions. -/
def axisRegs (base dims : Nat) : List SReg := (List.range ((dims + 1) / 2)).map (fun i => .x (base + i))

def execKpack (d a : BitVec 5) (s : State) : Out1 :=
  let k := s.me.kf d
  let dims := kDims k
  let w := kWidth k
  let axes := (List.range dims).map (packedAxis s.me a.toNat)
  s.curve (axisRegs a.toNat dims ++ [.k d.toNat]) [.k d.toNat] 10 (kOk k && a.toNat + (dims + 1) / 2 ≤ 32)
    ((s.past (fun c => c.setK d.toNat
      (kMake dims w (ovfBits (axes.map (fun v => 2 ^ w ≤ v))) (interleave dims w (axes.map (fun v => v % 2 ^ w)))))).later
        [.k d.toNat] 2)

def execKunpk (d a : BitVec 5) (s : State) : Out1 :=
  let k := s.me.kf a
  let dims := kDims k
  let axes := kAxes k
  let h := (dims + 1) / 2
  s.curve [.k a.toNat] (axisRegs d.toNat dims) 10 (kOk k && d.toNat + h ≤ 32)
    ((s.past (fun c => (List.range h).foldl (fun c i =>
      c.setX (BitVec.ofNat 5 (d.toNat + i)) (BitVec.ofNat 64 (axes.getD (2 * i) 0 + axes.getD (2 * i + 1) 0 * 2 ^ 32))) c)).later
        (axisRegs d.toNat dims) 2)

/-- KADD and KSUB: axis by axis, wrapping, with the overflow bits (R219). -/
def kArith (a b : BitVec 128) (f : Int → Int → Int) : BitVec 128 :=
  let w := kWidth a
  let top : Int := ((2 ^ w : Nat) : Int)
  let sums : List Int := (List.zip (kAxes a) (kAxes b)).map (fun p => f (p.1 : Int) (p.2 : Int))
  kMake (kDims a) w (ovfBits (sums.map (fun v => v < 0 || top ≤ v)))
    (interleave (kDims a) w (sums.map (fun v => (v % top).toNat)))

/-- The k registers of a word. -/
def ks2 (a b : BitVec 5) : List SReg := [.k a.toNat, .k b.toNat]

def execKadd (d a b : BitVec 5) (s : State) : Out1 :=
  s.curve (ks2 a b) [.k d.toNat] 10 (kSame (s.me.kf a) (s.me.kf b))
    (s.past (fun c => c.setK d.toNat (kArith (s.me.kf a) (s.me.kf b) (fun x y => x + y))))

def execKsub (d a b : BitVec 5) (s : State) : Out1 :=
  s.curve (ks2 a b) [.k d.toNat] 10 (kSame (s.me.kf a) (s.me.kf b))
    (s.past (fun c => c.setK d.toNat (kArith (s.me.kf a) (s.me.kf b) (fun x y => x - y))))

def execKcmp (d a b : BitVec 5) (s : State) : Out1 :=
  s.curve (ks2 a b) [.q d.toNat] 10 (kSame (s.me.kf a) (s.me.kf b))
    (s.past (fun c => c.setQ (d.setWidth 3) (kCode (s.me.kf a) < kCode (s.me.kf b))))

/-- The greatest L up to `w` whose leading L levels agree (R219 KPFX). -/
def prefixLen (dims w a b : Nat) : Nat → Nat
  | 0 => 0
  | l + 1 => if a / 2 ^ (dims * (w - (l + 1))) % 2 ^ (dims * (l + 1)) = b / 2 ^ (dims * (w - (l + 1))) % 2 ^ (dims * (l + 1))
      then l + 1 else prefixLen dims w a b l

def execKpfx (d a b : BitVec 5) (s : State) : Out1 :=
  let x := s.me.kf a
  let y := s.me.kf b
  s.curve (ks2 a b) [.x d.toNat] 10 (kSame x y)
    ((s.past (fun c => c.setX d
      (BitVec.ofNat 64 (prefixLen (kDims x) (kWidth x) (kCode x) (kCode y) (kWidth x))))).later [.x d.toNat] 2)

/-! ## KSPLIT (R221) -/

/-- Maximal runs of the codes below 2^(dims × n) whose axes' low n bits lie in a box, offset by `base`: the box is cut
level by level, as the code order does. -/
def boxRuns (dims : Nat) : Nat → Nat → List (Nat × Nat) → List (Nat × Nat)
  | n, base, box =>
    if box.any (fun p => p.2 < p.1) then []
    else if box.all (fun p => p.1 = 0 && p.2 = 2 ^ n - 1) then [(base, base + 2 ^ (dims * n) - 1)]
    else
      match n with
      | 0 => [(base, base)]
      | m + 1 =>
        (List.range (2 ^ dims)).flatMap (fun child =>
          let sub := box.zipIdx.map (fun e =>
            let half := 2 ^ m
            if bitOf child e.2 then (e.1.1 - half, if e.1.2 < half then 0 else e.1.2 - half, decide (half ≤ e.1.2))
            else (e.1.1, min e.1.2 (half - 1), decide (e.1.1 < half)))
          if sub.all (fun t => t.2.2) then boxRuns dims m (base + child * 2 ^ (dims * m)) (sub.map (fun t => (t.1, t.2.1)))
          else [])

/-- Adjacent runs joined: maximal runs. -/
def joinRuns : List (Nat × Nat) → List (Nat × Nat)
  | [] => []
  | a :: t =>
    match joinRuns t with
    | [] => [a]
    | b :: u => if b.1 = a.2 + 1 then (a.1, b.2) :: u else a :: b :: u

/-- The smallest gap between neighbours. -/
def leastGap : List (Nat × Nat) → Option Nat
  | a :: b :: t =>
    let g := b.1 - a.2 - 1
    match leastGap (b :: t) with
    | some h => some (min g h)
    | none => some g
  | _ => none

/-- The first pair at gap `g` merged. -/
def mergeAt (g : Nat) : List (Nat × Nat) → List (Nat × Nat)
  | a :: b :: t => if b.1 - a.2 - 1 = g then (a.1, b.2) :: t else a :: mergeAt g (b :: t)
  | l => l

/-- Merge until at most `m` runs remain. -/
def mergeRuns (m : Nat) : Nat → List (Nat × Nat) → List (Nat × Nat)
  | 0, l => l
  | fuel + 1, l =>
    if l.length ≤ m then l
    else
      match leastGap l with
      | some g => mergeRuns m fuel (mergeAt g l)
      | none => l

def execKsplit (d a b : BitVec 5) (q : BitVec 3) (s : State) : Out1 :=
  let x := s.me.kf a
  let y := s.me.kf b
  let v := (s.me.x d).toNat
  let off := bitsOf v 20 0
  let most := bitsOf v 47 32
  let dims := kDims x
  let runs := joinRuns (boxRuns dims (kWidth x) 0 (List.zip (kAxes x) (kAxes y)))
  let kept := mergeRuns most runs.length runs
  let who : Who := { core := s.here, unit := .s, cls := 0, word := some s.me.su.index }
  let worst := 48 + 3 * runs.length + 2 * most
  s.scalar (ks2 a b ++ [.x d.toNat]) [.x d.toNat, .q q.toNat]
    (if bitsOf v 31 21 ≠ 0 || bitsOf v 63 48 ≠ 0 || off % 16 ≠ 0 || most = 0 || 4096 < most then s.operandFault s.here .s 5
     else if !kSame x y || 64 < dims * kWidth x then s.operandFault s.here .s 10
     else if sliceBytes < off + 16 * kept.length then s.faultAt s.here .s 0x0B (if off + 16 * kept.length ≤ sliceBytes then off else max off sliceBytes)
     else
       let bytes := kept.flatMap (fun r => leBytes 8 r.1 ++ leBytes 8 r.2)
       let ws := bytes.zipIdx.map (fun e => (sliceKey s.here (off + e.2), e.1))
       let a : Acc := { Acc.start s s.here with
         ws := ws.reverse, touches := ws.map (fun w => { key := w.1, pma := 0, write := true }) }
       ((a.commit who worst).past (fun c => (c.setX d (BitVec.ofNat 64 kept.length)).setQ q (runs.length ≤ most))).later
         [.x d.toNat, .q q.toNat] worst)

end Sys2Proof.Machine
end

