-- ==== Sys2Proof/Machine/Issue.lean ====
section
/-! DEFINITION. How a word of a segment issues: its takes, and its segment's offset, count and signature
(03 R88, R89, R91, R92, R94; 16 R329). -/

namespace Sys2Proof.Machine

/-- Sequencers C, L and W by the column codes and 0 of `Todo`. -/
def todoCol : Slot → Nat
  | .vm => 1
  | .vx => 2
  | .vl => 3
  | .mc => 4
  | .ct => 5
  | _ => 0

/-- Bits [63:32] of a word, for status words (16 R332). -/
def wordHigh (i : Instr) : Nat :=
  match encode i with
  | .d w | .c w => w.toNat / 2 ^ 32
  | _ => 0

/-- Takes: counters with amounts; amount 0 is none. -/
abbrev Takes := List (BitVec 5 × Nat)

end Sys2Proof.Machine

namespace Sys2Proof

def DArgs.takes (w : DArgs) : Machine.Takes := [(w.t0c, w.t0a.toNat), (w.t1c, w.t1a.toNat), (w.t2c, w.t2a.toNat)]
def MArgs.takes (w : MArgs) : Machine.Takes := [(w.t0c, w.t0a.toNat), (w.t1c, w.t1a.toNat), (w.t2c, w.t2a.toNat)]

end Sys2Proof

namespace Sys2Proof.Machine

namespace Core

/-- Each named counter holds the sum of the word's amounts on it (R91). -/
def takesMet (c : Core) (ts : Takes) : Bool :=
  ts.all (fun t => ((ts.filter (fun u => u.1 = t.1)).map (fun u => u.2)).sum ≤ c.tk t.1)

/-- All of the takes are subtracted. -/
def makeTakes (c : Core) (ts : Takes) : Core := ts.foldl (fun c t => if t.2 = 0 then c else c.setTk t.1 (c.tk t.1 - t.2)) c

end Core

namespace State

/-- The slot whose word issues, its sequencer's unit, and its segment's ordinal and issue offset. -/
def slotHere (s : State) : Slot := s.cur.slot
def unitHere (s : State) : DUnit := s.me.unit (seqOf s.slotHere)
def ordinalHere (s : State) : Nat := match s.unitHere.seg with | some g => g.ordinal | none => s.unitHere.ordinal
def offsetHere (s : State) : Nat := match s.unitHere.seg with | some g => g.clock.getD 0 | none => 0

/-- The word of a data or compute slot that is due at the current issue offset (03 R89). -/
def dueTodo (s : State) (core : Nat) (slot : Slot) : Option Todo :=
  match ((s.coreAt core).unit (seqOf slot)).seg with
  | none => none
  | some g =>
    match g.clock with
    | none => none
    | some o => g.todo.find? (fun t => t.offset = o && !t.bad && t.col = todoCol slot)

/-- What a due word decodes to: the instruction, or none for an unassigned encoding. -/
def decodeTodo (slot : Slot) (w : BitVec 64) : Option Instr :=
  match slot with
  | .l | .w => okOnly (decodeD w)
  | _ => okOnly (decodeC w)

/-- p[n] of the sequencer whose word issues. -/
def pHere (s : State) (n : BitVec 3) : Dword := s.unitHere.p.get 0 n.toNat

/-- A segment past the word of a column at its offset: count, signature, and the cycle by which its results stand. -/
def segPast (g : Seg) (slot : Slot) (landed : Nat) : Seg :=
  let o := g.clock.getD 0
  let here (t : Todo) : Bool := t.offset = o && !t.bad && t.col = todoCol slot
  match g.todo.find? here with
  | none => g
  | some t =>
    { g with
      todo := removeFirst here g.todo
      count := o + 1
      crc := crcBytes g.crc (leBytes 4 o ++ leBytes 8 t.word.toNat)
      landed := max g.landed landed }

/-- The unit past its word; a segment whose last word has issued waits to retire (R88). -/
def unitPast (u : DUnit) (slot : Slot) (landed : Nat) : DUnit :=
  match u.seg with
  | none => u
  | some g =>
    let g := segPast g slot landed
    if g.todo = [] then { u with seg := none, retiring := u.retiring ++ [g] } else { u with seg := some g }

/-- The latency of a word's results, a free choice inside its bound (00 R8, log 5). -/
def latency (s : State) (worst : Nat) : Nat := if worst = 0 then 0 else Config.sLatency s.freeCtr % worst + 1

/-- The gives that takes subtract happen before the word that makes them: before accesses of class `cls` of its sequencer,
or all of them for class 0, which stands for the words that carry no class (06 R163). -/
def takesTell (s : State) (ts : Takes) (cls : Nat) : State :=
  if s.mem.given = [] then s
  else ts.foldl (fun (s : State) t => s.takeGiven s.here t.1 t.2 [{ core := s.here, seq := seqOf s.slotHere, cls := cls }]) s

/-- The stores that happen before a word by its takes: those that the units it subtracts tell of (06 R163). -/
def takenBy (s : State) (ts : Takes) : List Nat :=
  if s.mem.given = [] then []
  else ts.flatMap (fun t => s.givenBy s.here t.1 ((ts.filter (fun u => u.1 = t.1)).map (fun u => u.2)).sum)

/-- A word issues: its takes are made and its segment moves on. `worst` bounds its register results. -/
def issues (s : State) (ts : Takes) (worst : Nat) (f : Core → Core) (cls : Nat := 0) : State :=
  let landed := s.cycleOf s.here + s.latency worst
  (s.takesTell ts cls).modCore s.here (fun c =>
    let c := f (c.makeTakes ts)
    c.modUnit (seqOf s.slotHere) (fun u => unitPast u s.slotHere landed))

/-- The number of a register by which a machine check names it (18 R371). -/
def badNumber : BadReg → Nat
  | .q => 0
  | .x n | .k n | .b n | .v n | .m n | .tk n | .lt n | .csr n => n
  | .p _ n => n
  | .code u => u

/-- p[n] of the sequencer whose word issues, as a register whose code word may be bad. -/
def pWord (s : State) (n : Nat) : BadReg := .p (seqOf s.slotHere) n

/-- The effect of a word that reads registers: a machine check where the code word of one is bad (18 R370). -/
def consuming (s : State) (regs : List BadReg) (effect : State) : State :=
  match s.me.bad.find? (fun b => regs.contains b.reg) with
  | some b => s.machineCheck s.here s.slotHere .uncorrectable 5 (badNumber b.reg) 0
  | none => effect

/-- The counters that takes subtract from, as registers that they read. -/
def takeRegs (ts : Takes) : List BadReg := (ts.filter (fun t => t.2 ≠ 0)).map (fun t => .tk t.1.toNat)

/-- A word of a segment: it faults with a class and status, meets a late result, or has its effect (R329). A bad counter that it
takes from is consumed (18 R370). -/
def tryWord (s : State) (ts : Takes) (check : Except (Nat × Nat) Bool) (effect : State) : Out1 :=
  match check with
  | .error (c, st) => .next (s.faultAt s.here s.slotHere c st)
  | .ok late =>
    .next (if late then s.freeze s.here s.slotHere
      else s.consuming (takeRegs ts) (if s.me.takesMet ts then effect else s.freeze s.here s.slotHere))

/-- OPERAND with a reason, and ACCESS at an address, as results of a check. -/
def bad (reason : Nat) : Except (Nat × Nat) Bool := .error (2, reason * 2 ^ 24)
def badAddr (a : Nat) : Except (Nat × Nat) Bool := .error (0x0B, a % 2 ^ 32)

/-- The first of several checks that fails; late when any is late (log 22). -/
def checks : List (Except (Nat × Nat) Bool) → Except (Nat × Nat) Bool
  | [] => .ok false
  | .error e :: _ => .error e
  | .ok b :: t => match checks t with | .ok c => .ok (b || c) | .error e => .error e

/-- A condition that must hold. -/
def need (c : Bool) (e : Except (Nat × Nat) Bool) : Except (Nat × Nat) Bool := if c then .ok false else e

/-- The tag check of a read as a check. -/
def tagCheck (x : Byte) (r : TagCheck) : Except (Nat × Nat) Bool :=
  match r with
  | .ok => .ok false
  | .pending => .ok true
  | .newer l t => .error (4, x.toNat * 2 ^ 24 + t.toNat * 2 ^ 16 + l)

/-- ACCESS for the first element beyond its space. -/
def inSpace (e : Ent) (l : List Elem) : Except (Nat × Nat) Bool :=
  match firstPast e l with
  | some a => badAddr a
  | none => .ok false

end State
end Sys2Proof.Machine
end

