-- ==== Sys2Proof/Machine/Data.lean ====
section
/-! DEFINITION. D words of L and W at their issue: what is checked and captured (09 R226 to R245). Their accesses take
place at their landing (`Machine/Land.lean`). -/

namespace Sys2Proof.Machine

/-- The D-word arguments of an instruction. -/
def dArgs : Instr → Option DArgs
  | .tld w | .tst w | .tldr w | .tstr w | .tgr w | .tbc w | .gth w | .sct w | .scta w | .rgth w | .fill w | .bcpy w
  | .bcan w | .bstat w | .ingt w | .egr w | .xwr w | .xrd w | .dnop w => some w
  | _ => none

/-- Ingest configuration of a region (02 R48): core, base offset, slot bytes, count, enable; and a half's size. -/
structure Ingest where
  core : Nat
  base : Nat
  slot : Nat
  count : Nat
  on : Bool
  deriving DecidableEq, Repr

def ingestOf (v : BitVec 64) : Ingest :=
  { core := fieldOf v 63 56, base := fieldOf v 55 44 * 512, slot := fieldOf v 43 32, count := fieldOf v 31 16, on := v.getLsbD 0 }

def Ingest.hsize (g : Ingest) : Nat := alignUp (g.count * g.slot + 64) 512

/-- Byte offset in the slice of half `h` of the array. -/
def Ingest.half (g : Ingest) (h : Nat) : Nat := g.base + h * g.hsize

/-- Fields of XCFG (02 R53). -/
structure XCfg where
  lag : Nat
  on : Bool
  policy : Nat
  phases : Nat
  taps : Nat
  chans : Nat
  consumer : Nat
  producer : Nat
  deriving DecidableEq, Repr

def xcfgOf (v : BitVec 64) : XCfg :=
  { lag := fieldOf v 63 32, on := v.getLsbD 31, policy := fieldOf v 30 29, phases := 2 ^ fieldOf v 28 26,
    taps := fieldOf v 25 22 + 1, chans := fieldOf v 21 17 + 1, consumer := fieldOf v 16 12, producer := fieldOf v 11 7 }

/-- Frame FRAME_NO + EXTS(delta, 8) (R241, R244). -/
def frameDelta (frame : BitVec 64) (delta : Nat) : BitVec 64 := frame + BitVec.ofInt 64 (exts delta 8)

namespace State

/-- The entries of a D word. -/
def srcEnt (s : State) (w : DArgs) : Ent := entOf (s.me.lt w.se.toNat)
def dstEnt (s : State) (w : DArgs) : Ent := entOf (s.me.lt w.de.toNat)
def srcCoord (s : State) (w : DArgs) : Nat := (s.pHere w.sp).toNat
def dstCoord (s : State) (w : DArgs) : Nat := (s.pHere w.dp).toNat

/-- What a D word captures at its issue (R227). -/
def flightOf (s : State) (i : Instr) (w : DArgs) : Flight :=
  { id := s.freeCtr, unit := s.slotHere, ordinal := s.ordinalHere, offset := s.offsetHere, word := i
    src := s.me.lt w.se.toNat, dst := s.me.lt w.de.toNat, sc := s.pHere w.sp, dc := s.pHere w.dp, par := s.pHere w.ext
    frame := s.frameNo s.here, issued := s.cycleOf s.here, since := s.cycleOf s.here }

/-- The give of a D word that is complete as it issues, and that of a copy (R91, 16 R340). -/
def giveD (s : State) (w : DArgs) : TokAdd :=
  { counter := w.gc, amount := w.ga.toNat, order := if s.slotHere = .l then 1 else 8,
    index := BitVec.ofNat 32 s.ordinalHere, position := BitVec.ofNat 32 s.offsetHere }
def giveCopy (y : Copy) : TokAdd :=
  { counter := y.gc, amount := y.ga.toNat, order := 10,
    index := BitVec.ofNat 32 (y.home.toNat * 2 ^ 24 + y.n % 2 ^ 24), position := 0 }

end State

/-! ## Descriptors and rows (R233 to R235) -/

/-- Descriptor fields: entries, list offset, and the op of SCTA or cmax of RGTH. -/
def gthN (d : Dword) : Nat := fieldOf d 44 32
def gthOff (d : Dword) : Nat := fieldOf d 20 0
def gthOp (d : Dword) : Nat := fieldOf d 50 48
def rgthMax (d : Dword) : Nat := fieldOf d 63 45

/-- A valid descriptor of GTH, SCT or SCTA (R233). -/
def gthOk (d : Dword) (acc : Bool) : Bool :=
  fieldOf d 63 51 = 0 && fieldOf d 47 45 = 0 && fieldOf d 31 21 = 0 && 1 ≤ gthN d && gthN d ≤ 4096 && gthOff d % 8 = 0 &&
    (if acc then gthOp d < 6 else gthOp d = 0)

/-- A valid descriptor of RGTH (R235). -/
def rgthOk (d : Dword) : Bool := rgthMax d ≠ 0 && gthN d ≤ 4096 && fieldOf d 31 21 = 0 && gthOff d % 16 = 0

/-- Bits of one row of a far entry, or its cell. -/
def rowBits (e : Ent) : Nat := if e.curve then e.cell * 8 else e.t0 * e.esize

/-- Row j of the near side (R234). -/
def nearRow (e : Ent) (coord j : Nat) : List Elem :=
  let (c0, c1, c2, c3) := coordOf coord
  (List.range e.t0).map (fun a => denseElem e (c0 + a : Nat) (c1 + j) c2 c3)

namespace State

/-- The index of entry j of a list of `size`-byte entries, as it stands at issue. -/
def listEntry (s : State) (w : DArgs) (off : Nat) : Nat :=
  leNat ((List.range 8).map (fun i => s.readAs { core := s.here, unit := s.slotHere, cls := w.cls } (sliceKey s.here (off + i))))

/-- The far rows that a list of coordinates names at issue (R233, R234). -/
def farRows (s : State) (w : DArgs) (far : Ent) : List Elem :=
  let d := s.pHere w.ext
  (List.range (gthN d)).flatMap (fun j => rowOf far (s.listEntry w (gthOff d + 8 * j)))

/-- The codes that a range list names, in order, at most `cmax` (R235). -/
def rangeCodes (s : State) (w : DArgs) (off : Nat) : List Nat → Nat → List Nat
  | [], _ => []
  | r :: t, cmax =>
    let first := s.listEntry w (off + 16 * r)
    let last := s.listEntry w (off + 16 * r + 8)
    let n := if last < first then 0 else min (last + 1 - first) cmax
    (List.range n).map (fun i => first + i) ++ s.rangeCodes w off t (cmax - n)

/-- The source elements that a D word reads through its entry, as known at issue. -/
def readsD (s : State) (i : Instr) (w : DArgs) : List Elem :=
  let e := s.srcEnt w
  let d := s.pHere w.ext
  match i with
  | .tld _ | .tst _ | .tldr _ | .tstr _ | .tbc _ | .tgr _ | .egr _ => tileOf e (s.srcCoord w)
  | .xwr _ => rowOf e (s.srcCoord w)
  | .gth _ => s.farRows w e
  | .rgth _ => (s.rangeCodes w (gthOff d) (List.range (gthN d)) (rgthMax d)).flatMap (rowOf e)
  | .sct _ | .scta _ => (List.range (gthN d)).flatMap (nearRow e (s.srcCoord w))
  | _ => []

/-- The tags that a D word's source has passed (04 R116, R120). -/
def sawD (s : State) (w : DArgs) (e : Ent) (l : List Elem) : State :=
  let frame := s.frameNo s.here
  let who : Who := { core := s.here, unit := s.slotHere, cls := w.cls }
  if e.space = 2 then
    ((groupCores e.tier e.group).filter (s.inPlacement s.here)).foldl (fun t m => t.sawTags who e m frame l) s
  else s.sawTags who e (e.sliceOf s.here) frame l

/-- Bytes of the tile or cell of an entry. -/
def tileBytes (e : Ent) : Nat := if e.curve then e.cell else e.t0 * e.t1 * e.esize / 8

/-- Worst-case latencies of tile moves, group words and gathers, in region cycles (R230, R232, R236). -/
def moveWorst (space bytes : Nat) : Nat := if space = 3 then 2800 + 20 * ceilDiv bytes 256 else 12 + 2 * ceilDiv bytes 512
def groupWorst (tier bytes : Nat) : Nat :=
  (match tier with | 1 => 120 | 2 => 1000 | 3 => 1800 | _ => 2600) + 4 * ceilDiv bytes 128
def gatherWorst (far : Ent) (n : Nat) (acc : Bool) : Nat :=
  if far.space = 3 then 2800 + (if acc then 40 else 24) * n else 16 + (if acc then 4 else 2) * n * ceilDiv (rowBits far) 512

/-- The worst-case latency of a D word, a walk apart (R230 to R244). -/
def worstD (s : State) (i : Instr) (w : DArgs) : Nat :=
  let a := s.srcEnt w
  let b := s.dstEnt w
  let d := s.pHere w.ext
  match i with
  | .tld _ => moveWorst a.space (tileBytes b)
  | .tst _ | .fill _ => moveWorst b.space (tileBytes b)
  | .tldr _ | .tstr _ => 2800 + 2 * ceilDiv (tileBytes b) 128
  | .tgr _ => groupWorst a.tier (tileBytes b)
  | .tbc _ => groupWorst b.tier (tileBytes a)
  | .gth _ => gatherWorst a (gthN d) false
  | .sct _ => gatherWorst b (gthN d) false
  | .scta _ => gatherWorst b (gthN d) true
  | .rgth _ => gatherWorst a (s.rangeCodes w (gthOff d) (List.range (gthN d)) (rgthMax d)).length false
  | .ingt _ =>
    moveWorst 0 (fieldOf (s.pHere w.sp) 31 16 * (ingestOf (s.regionAt (s.regionOf s.here)).ingestCfg).slot)
  | .bcan _ => 6000
  | .bstat _ => 60
  | .egr _ => 64
  | .xwr _ => 1600
  | .xrd _ => 1800
  | _ => 0

/-- Some element lies on a page that the quad's interface has no translation of (04 R124). -/
def missing3 (s : State) (e : Ent) (l : List Elem) : Bool :=
  e.space = 3 && l.any (fun x => !x.outside && (s.cached (quadOf s.here) (s.partOf s.here) x.addr).isNone)

/-- A D word waits for a walk (04 R125). -/
def walksD (s : State) (i : Instr) (w : DArgs) : Bool :=
  match i with
  | .tst _ | .fill _ => s.missing3 (s.dstEnt w) (tileOf (s.dstEnt w) (s.dstCoord w))
  | .sct _ | .scta _ => s.missing3 (s.dstEnt w) (s.farRows w (s.dstEnt w))
  | _ => s.missing3 (s.srcEnt w) (s.readsD i w)

/-- A D word that has issued is in flight until it lands. -/
def launchD (s : State) (w : DArgs) (f : Flight) : State :=
  let l := if s.mem.tagNews = [] then [] else s.readsD f.word w
  let f := { f with worst := s.worstD f.word w + (if s.walksD f.word w then walkCycles else 0) }
  ((s.sawD w (entOf f.src) l).issues w.takes 0 (fun c => { c with cu := { c.cu with flights := c.cu.flights ++ [f] } }) w.cls.toNat).fresh

/-- The registers that a D word reads (R226). -/
def regsD (s : State) (i : Instr) (w : DArgs) : List BadReg :=
  let p (n : BitVec 3) : BadReg := s.pWord n.toNat
  let src : List BadReg := [.lt w.se.toNat, p w.sp]
  let dst : List BadReg := [.lt w.de.toNat, p w.dp]
  match i with
  | .gth _ | .sct _ | .scta _ | .rgth _ => p w.ext :: src ++ dst
  | .fill _ | .bstat _ | .ingt _ | .xrd _ => p w.sp :: dst
  | .egr _ | .xwr _ => p w.dp :: src
  | .bcan _ => [p w.sp]
  | .dnop _ => []
  | _ => src ++ dst

/-- A D word of the sequencers it runs in (07 R193), checked and put in flight. -/
def dWord (s : State) (i : Instr) (w : DArgs) (runs : List Nat) (check : Except (Nat × Nat) Bool) (effect : State) : Out1 :=
  if !runs.contains (seqOf s.slotHere) then .next (s.faultAt s.here s.slotHere 0x03 (wordHigh i))
  else s.tryWord w.takes check (s.consuming (s.regsD i w) effect)

/-- Two entries move the same tile: equal shape and element size (R228) (log 17). -/
def sameShape (a b : Ent) : Bool :=
  a.esize = b.esize && a.curve = b.curve && (if a.curve then a.cell = b.cell else a.t0 = b.t0 && a.t1 = b.t1)

/-- ACCESS for a remote entry whose core lies outside the placement (04 R117). -/
def remoteOk (s : State) (e : Ent) (l : List Elem) : Except (Nat × Nat) Bool :=
  need (e.space ≠ 1 || s.inPlacement s.here e.target) (badAddr ((l.head?.map (fun x => x.addr)).getD 0))

/-- The tag check of a source in a slice. -/
def srcTags (s : State) (e : Ent) (l : List Elem) : Except (Nat × Nat) Bool :=
  tagCheck (e.expect (s.frameNo s.here))
    (e.checkRead (s.tagAs { core := s.here, unit := s.slotHere, cls := 0 } (e.sliceOf s.here)) (s.frameNo s.here) l)

/-- The checks of a tile move between the given spaces (log 17). -/
def moveCheck (s : State) (w : DArgs) (dsts srcs : List Nat) (extra : Except (Nat × Nat) Bool) : Except (Nat × Nat) Bool :=
  let a := s.srcEnt w
  let b := s.dstEnt w
  let la := tileOf a (s.srcCoord w)
  let lb := tileOf b (s.dstCoord w)
  checks [need (a.loaded && b.loaded) (bad 2), need (dsts.contains b.space && srcs.contains a.space && !a.peer && !b.peer) (bad 1), extra,
    need (sameShape a b) (bad 2), s.remoteOk a la, s.remoteOk b lb, inSpace a la, inSpace b lb,
    if a.space = 2 then .ok false else s.srcTags a la]

end State

def execTld (w : DArgs) (s : State) : Out1 :=
  s.dWord (.tld w) w [1, 3] (s.moveCheck w [0] [0, 3] (.ok false)) (s.launchD w (s.flightOf (.tld w) w))
def execTst (w : DArgs) (s : State) : Out1 :=
  s.dWord (.tst w) w [1, 3] (s.moveCheck w [0, 3] [0] (.ok false)) (s.launchD w (s.flightOf (.tst w) w))
def execTldr (w : DArgs) (s : State) : Out1 :=
  s.dWord (.tldr w) w [1, 3] (s.moveCheck w [0] [1] (.ok false)) (s.launchD w (s.flightOf (.tldr w) w))
def execTstr (w : DArgs) (s : State) : Out1 :=
  s.dWord (.tstr w) w [1, 3] (s.moveCheck w [1] [0] (.ok false)) (s.launchD w (s.flightOf (.tstr w) w))

namespace State

/-- The members of a window's group that are present, and all of them (04 R118, R119). -/
def members (e : Ent) : List Nat := groupCores e.tier e.group

/-- The first present member whose tag check fails, with its result; or whether one is pending (04 R120). -/
def groupTags (s : State) (e : Ent) (l : List Elem) : Except (Nat × Byte × Nat) Bool :=
  if !e.tagged then .ok false
  else
    ((members e).filter (s.inPlacement s.here)).foldl (fun (acc : Except (Nat × Byte × Nat) Bool) m =>
      match acc with
      | .error x => .error x
      | .ok p =>
        match checkTags (s.tagAs { core := s.here, unit := s.slotHere, cls := 0 } m) (e.expect (s.frameNo s.here)) (linesOf e l) with
        | .ok => .ok p
        | .pending => .ok true
        | .newer line t => .error (m, t, line)) (.ok false)

end State

/-- TGR: a member's newer tag raises TAG at the issuing core, whether or not the word's takes are met, and MFLOG names the
member (16 R329, 18 R382). -/
def execTgr (w : DArgs) (s : State) : Out1 :=
  let e := s.srcEnt w
  let l := tileOf e (s.srcCoord w)
  let extra := State.need (e.ty = (s.dstEnt w).ty) (State.bad 3)
  let go (s : State) (c : Except (Nat × Nat) Bool) : Out1 := s.dWord (.tgr w) w [1] c (s.launchD w (s.flightOf (.tgr w) w))
  match s.moveCheck w [0] [2] extra, s.groupTags e l with
  | .error x, _ => go s (.error x)
  | .ok _, .ok p => go s (.ok p)
  | .ok _, .error (m, t, line) =>
    go (if s.slotHere = .l then s.logMemory s.here m 0 else s)
      (.error (4, (e.expect (s.frameNo s.here)).toNat * 2 ^ 24 + t.toNat * 2 ^ 16 + line))

def execTbc (w : DArgs) (s : State) : Out1 :=
  s.dWord (.tbc w) w [1, 3] (s.moveCheck w [2] [0] (State.need ([12, 10, 3, 7].contains (s.dstEnt w).ty) (State.bad 3)))
    (s.launchD w (s.flightOf (.tbc w) w))

/-! ## Gathers and scatters (R233 to R236) -/

namespace State

/-- A flight whose accesses later words of its sequencer follow. -/
def orders (f : Flight) : Bool :=
  match f.word with
  | .bcan _ | .egr _ => false
  | .xwr _ => f.data = []
  | _ => true

/-- The class of a flight's accesses. -/
def flightClass (f : Flight) : BitVec 4 := match dArgs f.word with | some w => w.cls | none => loadClass f.word

/-- No earlier word of the sequencer may still write the word's list: it then holds what the word reads, but for what other
sequencers write meanwhile (R227, R233). -/
def listKnown (s : State) (w : DArgs) : Bool :=
  !s.me.cu.flights.any (fun g => seqOf g.unit = seqOf s.slotHere && orders g && (flightClass g = w.cls || flightClass g = 0 || w.cls = 0))

/-- The checks of a gather or scatter: `near` and `far`, the near coordinate, a list of `cnt` entries of `size` bytes, and
`fars` the far rows where the list is known at issue. The addresses and tags of far rows that are not known then are
checked as the rows are moved (16 R328, R329) (log 23). `read` says that the near rows, and `readFar` that the far rows, are
read. -/
def gatherCheck (s : State) (near far : Ent) (coord : Nat) (desc : Dword) (okDesc : Bool) (size rows : Nat) (fits : Bool)
    (types : Bool) (read readFar : Bool) (fars : List Elem) : Except (Nat × Nat) Bool :=
  let l := (List.range rows).flatMap (nearRow near coord)
  checks [need (near.loaded && far.loaded) (bad 2), need okDesc (bad 5), need (near.space = 0 && (far.space = 0 || far.space = 3)) (bad 1),
    need (!near.curve && near.t0 * near.esize = rowBits far && fits) (bad 2), need types (bad 3),
    need (gthOff desc + size * gthN desc ≤ sliceBytes) (badAddr (max (gthOff desc) sliceBytes)),
    inSpace far fars, inSpace near l, if readFar then s.srcTags far fars else .ok false, if read then s.srcTags near l else .ok false]

/-- A gather or scatter put in flight: a `stamp` of 1 says that its far rows were checked at issue. -/
def launchRows (s : State) (i : Instr) (w : DArgs) : State :=
  s.launchD w { s.flightOf i w with stamp := b2n (s.listKnown w) }

/-- The far rows to be checked at issue. -/
def knownRows (s : State) (w : DArgs) (l : List Elem) : List Elem := if s.listKnown w then l else []

end State

def execGth (w : DArgs) (s : State) : Out1 :=
  let d := s.pHere w.ext
  s.dWord (.gth w) w [1, 3]
    (s.gatherCheck (s.dstEnt w) (s.srcEnt w) (s.dstCoord w) d (gthOk d false) 8 (gthN d) true true false true
      (s.knownRows w (s.farRows w (s.srcEnt w))))
    (s.launchRows (.gth w) w)
def execSct (w : DArgs) (s : State) : Out1 :=
  let d := s.pHere w.ext
  s.dWord (.sct w) w [1, 3]
    (s.gatherCheck (s.srcEnt w) (s.dstEnt w) (s.srcCoord w) d (gthOk d false) 8 (gthN d) true true true false
      (s.knownRows w (s.farRows w (s.dstEnt w))))
    (s.launchRows (.sct w) w)
def execScta (w : DArgs) (s : State) : Out1 :=
  let d := s.pHere w.ext
  s.dWord (.scta w) w [1, 3]
    (s.gatherCheck (s.srcEnt w) (s.dstEnt w) (s.srcCoord w) d (gthOk d true) 8 (gthN d) true
      ([12, 10, 3, 7].contains (s.dstEnt w).ty) true true (s.knownRows w (s.farRows w (s.dstEnt w))))
    (s.launchRows (.scta w) w)

/-- RGTH; with no range it moves nothing and gives at once (R235). -/
def execRgth (w : DArgs) (s : State) : Out1 :=
  let d := s.pHere w.ext
  let codes := s.rangeCodes w (gthOff d) (List.range (gthN d)) (rgthMax d)
  let known := if s.listKnown w then codes else []
  s.dWord (.rgth w) w [1, 3]
    (s.gatherCheck (s.dstEnt w) (s.srcEnt w) (s.dstCoord w) d (rgthOk d) 16 known.length (s.srcEnt w).curve true false true
      (known.flatMap (rowOf (s.srcEnt w))))
    (if gthN d = 0 then
      s.issues w.takes 0 (fun c => c.addToken (s.giveD w))
     else s.launchRows (.rgth w) w)

def execFill (w : DArgs) (s : State) : Out1 :=
  let e := s.dstEnt w
  s.dWord (.fill w) w [1, 3]
    (State.checks [State.need e.loaded (State.bad 2), State.need (e.space = 0 || e.space = 3) (State.bad 1), State.inSpace e (tileOf e (s.dstCoord w))])
    (s.launchD w { s.flightOf (.fill w) w with par := s.pHere w.sp })

/-! ## Copies (R238 to R240) -/

/-- A copy box with no element: the source coordinate lies at or past an extent. -/
def emptyBox (e : Ent) (c : Nat) : Bool :=
  let (c0, c1, c2, c3) := coordOf c
  e.e0 ≤ c0 || e.e1 ≤ c1 || e.e2 ≤ c2 || e.e3 ≤ c3

namespace State

/-- Bytes of a copy's box that its destination holds (R238). -/
def boxBytes (y : Copy) : Nat :=
  let a := entOf y.src
  let b := entOf y.dst
  let (c0, c1, c2, c3) := coordOf y.sc.toNat
  let (d0, d1, d2, d3) := coordOf y.dc.toNat
  min (a.e0 - c0) (b.e0 - d0) * min (a.e1 - c1) (b.e1 - d1) * min (a.e2 - c2) (b.e2 - d2) * min (a.e3 - c3) (b.e3 - d3) * a.esize / 8

/-- Bytes that a copy has still to write: of what it has done, a byte each, or half of one (R239). -/
def copyBytes (y : Copy) : Nat := boxBytes y - (if (entOf y.src).esize = 4 then y.done / 2 else y.done)

/-- The fabric's hops on the way to the package that an entry names (R239) (log 60). -/
def hopsTo (s : State) (e : Ent) : Nat :=
  if e.peer && e.package ≠ s.packageNo.toNat then Config.fabricHops s.packageNo.toNat e.package else 0

/-- The longest time from a BCPY's issue to its give, in units of 2^-16 ns: with `ahead` bytes of earlier copies of its
engine (R239). -/
def copySpan (s : State) (y : Copy) (ahead : Nat) : Nat :=
  let a := entOf y.src
  let b := entOf y.dst
  let n := ahead + boxBytes y
  (if a.peer || b.peer then 10000 + 1000 * (s.hopsTo a + s.hopsTo b) + ceilDiv (4 * n) 7
   else if a.space = 4 || b.space = 4 then 10000 + ceilDiv n 4
   else 3000 + ceilDiv n 400) * 65536

/-- Bytes that the copies of a quad's engine have still to write. -/
def copiesAhead (s : State) (q : Nat) : Nat :=
  ((groupCores 1 q).map (fun c => (((s.coreAt c).cu.copies.filter (fun y => y.st = .queued || y.st = .running)).map copyBytes).sum)).sum

/-- Who makes a copy's accesses. -/
def copyWho (core : Nat) (y : Copy) : Who := { core := core, unit := .w, cls := y.cls, copy := y.id + 1 }

/-- Copies of a core that are not over. -/
def copiesOpen (s : State) (core : Nat) : Nat :=
  ((s.coreAt core).cu.copies.filter (fun y => y.st = .queued || y.st = .running)).length

/-- Handles of the last 1,024 BCPYs (04 R129). -/
def keepCopies (l : List Copy) (count : Nat) : List Copy := l.filter (fun y => count < y.n + 1024 + 1 || y.st = .queued || y.st = .running)

end State

/-- BCPY: the copy is handed to the quad's engine; an empty box is complete at once. What happens before the BCPY, through its
takes too, happens before the copy's accesses (06 R163). -/
def execBcpy (w : DArgs) (s : State) : Out1 :=
  let a := s.srcEnt w
  let b := s.dstEnt w
  let n := s.me.cu.copyCount
  let core := BitVec.ofNat 8 s.here
  let empty := emptyBox a (s.srcCoord w)
  let base : Copy :=
    { id := s.freeCtr, n := n, home := core, st := if empty then .done else .queued, gc := w.gc, ga := w.ga, src := s.me.lt w.se.toNat,
      dst := s.me.lt w.de.toNat, sc := s.pHere w.sp, dc := s.pHere w.dp, frame := s.frameNo s.here, cls := w.cls }
  let walk := if s.missing3 a (tileOf a (s.srcCoord w)) || b.space = 3 then 619200 * 65536 else 0
  let span := s.copySpan base (s.copiesAhead (quadOf s.here)) + walk
  let y := { base with span := span, due := s.clock.now + span }
  let before := s.knownBy { core := s.here, unit := s.slotHere, cls := w.cls } ++ s.takenBy w.takes
  s.dWord (.bcpy w) w [1, 3]
    (State.checks [State.need (a.loaded && b.loaded) (State.bad 2), State.need (a.space ≠ 2 && b.space ≠ 2) (State.bad 1),
      State.need (!a.curve && !b.curve && a.esize = b.esize) (State.bad 2),
      State.need (s.copiesOpen s.here < 1024) (State.bad 9)])
    (((s.modMem (fun m => m.tell before [(State.copyWho s.here y).mark])).issues w.takes 0 (fun c =>
      let c := { c with cu := { c.cu with copies := State.keepCopies (c.cu.copies ++ [y]) (n + 1), copyCount := n + 1 } }
      if empty then c.addToken (State.giveCopy y) else c) w.cls.toNat).fresh)

/-- BCAN: its request travels to the engine, which acknowledges it (event `bcanAck`). -/
def execBcan (w : DArgs) (s : State) : Out1 :=
  let h := s.pHere w.sp
  s.dWord (.bcan w) w [1, 3] (State.need (fieldOf h 63 32 = 0) (State.bad 5))
    (s.launchD w { s.flightOf (.bcan w) w with par := h })

/-- The element that the destination coordinate of BSTAT, INGT or XRD names. Of one outside the extents the rules give only the
address: it is written all the same (R240, R241, R244; the model's choice, log 59). -/
def statElem (e : Ent) (c : Nat) : Elem := ((rowOf e c).head?).getD { addr := e.start, high := false, outside := false }

def execBstat (w : DArgs) (s : State) : Out1 :=
  let e := s.dstEnt w
  let h := s.pHere w.sp
  let addr := (statElem e (s.dstCoord w)).addr
  s.dWord (.bstat w) w [1, 3]
    (State.checks [State.need e.loaded (State.bad 2), State.need (fieldOf h 63 32 = 0) (State.bad 5), State.need (e.space = 0) (State.bad 1),
      State.need (addr % 8 = 0 && addr + 8 ≤ sliceBytes) (State.badAddr addr)])
    (s.launchD w { s.flightOf (.bstat w) w with par := h })

/-! ## Ingest, egress, crossings (R241 to R244) -/

def execIngt (w : DArgs) (s : State) : Out1 :=
  let e := s.dstEnt w
  let p := s.pHere w.sp
  let g := ingestOf (s.regionAt (s.regionOf s.here)).ingestCfg
  let n := fieldOf p 31 16
  let k := fieldOf p 15 0
  let f := frameDelta (s.frameNo s.here) (fieldOf p 39 32)
  let off := g.half (f.toNat % 2) + k * g.slot
  let len := n * g.slot
  let lines := (List.range (ceilDiv (off % 512 + len) 512)).map (fun i => off / 512 + i)
  let dst := (statElem e (s.dstCoord w)).addr
  s.dWord (.ingt w) w [1]
    (State.checks [State.need e.loaded (State.bad 2), State.need (fieldOf p 63 40 = 0 && 1 ≤ n && n ≤ 4096) (State.bad 5),
      State.need (e.space = 0) (State.bad 1), State.need (!e.curve) (State.bad 2),
      State.need (g.on && g.core = s.here && k + n ≤ g.count) (State.bad 7),
      State.need (dst + len ≤ sliceBytes) (State.badAddr (max dst sliceBytes)),
      State.tagCheck (f.setWidth 8) (checkTags (s.tagAs { core := s.here, unit := s.slotHere, cls := 0 } s.here) (f.setWidth 8) lines)])
    (s.launchD w { s.flightOf (.ingt w) w with par := p })

/-- The first region cycle, at least 64 after the present one, whose FRAME_CY is `due` (R242). -/
def egressDue (cycle frameCy n due : Nat) : Nat :=
  let at64 := (frameCy + 64) % n
  cycle + 64 + (due + n - at64) % n

/-- EGR: the packet waits at its port; at a full queue it is discarded and counted, with its give (R242). A curve entry, whose t0
and t1 04 R113 ignores, sends one item of the cell's bytes (the model's choice, log 59). -/
def execEgr (w : DArgs) (s : State) : Out1 :=
  let e := s.srcEnt w
  let p := s.pHere w.dp
  let l := tileOf e (s.srcCoord w)
  let r := s.regionOf s.here
  let g := s.regionAt r
  let n := fieldOf g.bind 63 32
  let port := fieldOf p 63 62
  let due := fieldOf p 31 0
  let bytes := if e.curve then e.cell else e.t0 * e.t1 * e.esize / 8
  let f := { s.flightOf (.egr w) w with par := p }
  let k : EgrPacket :=
    { core := BitVec.ofNat 8 s.here, flight := f.id, region := r, stream := BitVec.ofNat 16 (fieldOf p 61 46)
      due := (egressDue g.cycles g.frameCy n due), issued := g.cycles, frame := g.frameNo
      count := if e.curve then 1 else e.t1, size := if e.curve then e.cell else e.t0 * e.esize / 8 }
  s.dWord (.egr w) w [3]
    (State.checks [State.need e.loaded (State.bad 2), State.need (e.space = 0) (State.bad 1), State.need (fieldOf p 45 32 = 0 && bytes ≤ 8192 && due < n) (State.bad 5),
      State.inSpace e l, s.srcTags e l])
    (if 64 ≤ (s.portAt port).queue.length then
      (s.modPort port (fun q => { q with discards := q.discards + 1 })).issues w.takes 0 (fun c => c.addToken (s.giveD w))
     else (s.modPort port (fun q => { q with queue := q.queue ++ [k] })).launchD w f)

/-- The fields of p[X] of XWR and XRD (R244). -/
def xFieldsOk (p : Dword) : Bool := fieldOf p 63 40 = 0 && fieldOf p 31 28 = 0 && fieldOf p 15 6 = 0

namespace State

/-- The crossing that a word in flight names. -/
def flightCrossing (f : Flight) : Nat := fieldOf f.par 5 0

/-- The sample index that an XWR or XRD names: f × D + k (R54). -/
def flightSample (s : State) (core : Nat) (f : Flight) : Nat :=
  let d := fieldOf (s.regionAt (s.regionOf core)).bind 31 20 + 1
  (frameDelta f.frame (fieldOf f.par 39 32)).toNat * d + fieldOf f.par 27 16

/-- The ticks of the frame that are aligned with cycle `c`: tick k with cycle floor(k × N / D) (02 R45). -/
def ticksAtCycle (n d c : Nat) : List Nat :=
  let first := ceilDiv (c * d) n
  (List.range (min (ceilDiv ((c + 1) * d) n) d - first)).map (fun i => first + i)

/-- A tick of a region recorded with its device time, beside those of the frame before and of the one before that: an early
edge opens a frame in the records before the region begins it (09 R244). -/
def noteTick (g : Region) (now frame k : Nat) : Region :=
  { g with ticks := (g.ticks.filter (fun t => frame ≤ t.1 + 2 && !(t.1 = frame && t.2.1 = k))) ++ [(frame, k, now)] }

/-- Device time of tick k of frame f, when the region has recorded it (R244). -/
def tickTime (s : State) (r : Nat) (f k : Nat) : Option Nat :=
  ((s.regionAt r).ticks.find? (fun t => t.1 = f && t.2.1 = k)).map (fun t => t.2.2)

/-- The device time of the tick that an XWR or XRD names, one of the current or the previous frame that has come; none when
the word's configuration check fails. -/
def crossingTick (s : State) (p : Dword) (producer : Bool) : Option Nat :=
  let x := xcfgOf (s.crossingAt (fieldOf p 5 0)).cfg
  let r := s.regionOf s.here
  let now := s.frameNo s.here
  let f := frameDelta now (fieldOf p 39 32)
  let d := fieldOf (s.regionAt r).bind 31 20 + 1
  if (f = now || f + 1 = now) && xFieldsOk p && x.on && (if producer then x.producer else x.consumer) = r && fieldOf p 27 16 < d then
    s.tickTime r f.toNat (fieldOf p 27 16)
  else none

end State

/-- XWR: its C values are read after it issues, at the event that reads a D word's tile, and its write travels to the unit. A
curve entry's cell of fewer elements than C is taken as it is, and the channels it lacks read zero (R244; the model's choice,
log 59). -/
def execXwr (w : DArgs) (s : State) : Out1 :=
  let e := s.srcEnt w
  let p := s.pHere w.dp
  let x := xcfgOf (s.crossingAt (fieldOf p 5 0)).cfg
  let l := (rowOf e (s.srcCoord w)).take x.chans
  let t := s.crossingTick p true
  s.dWord (.xwr w) w [3]
    (State.checks [State.need e.loaded (State.bad 2), State.need (e.space = 0) (State.bad 1), State.need (e.ty = 12 && (e.curve || x.chans ≤ e.t0)) (State.bad 3),
      State.need t.isSome (State.bad 7), State.inSpace e l, s.srcTags e l])
    (s.launchD w { s.flightOf (.xwr w) w with
      par := p, dc := BitVec.ofNat 64 x.chans, enab := (s.crossingAt (fieldOf p 5 0)).enabled, stamp := t.getD 0 })

def execXrd (w : DArgs) (s : State) : Out1 :=
  let e := s.dstEnt w
  let p := s.pHere w.sp
  let x := xcfgOf (s.crossingAt (fieldOf p 5 0)).cfg
  let t := s.crossingTick p false
  let addr := (statElem e (s.dstCoord w)).addr
  s.dWord (.xrd w) w [1]
    (State.checks [State.need e.loaded (State.bad 2), State.need (e.space = 0) (State.bad 1), State.need (e.ty = 12) (State.bad 3), State.need t.isSome (State.bad 7),
      State.need (addr % 4 = 0 && addr + 4 * x.chans + 4 ≤ sliceBytes) (State.badAddr addr)])
    (s.launchD w { s.flightOf (.xrd w) w with par := p, enab := (s.crossingAt (fieldOf p 5 0)).enabled, stamp := t.getD 0 })

/-- DNOP gives at the end of its issue cycle (R245). -/
def execDnop (w : DArgs) (s : State) : Out1 :=
  s.dWord (.dnop w) w [1, 3] (.ok false)
    (s.issues w.takes 0 (fun c => c.addToken (s.giveD w)))

end Sys2Proof.Machine
end

