-- ==== Sys2Proof/Machine/Launch.lean ====
section
/-! DEFINITION. Launch records and their acceptance (03 R71 to R79), the accession journal (19 R403 to R405), replies. -/

namespace Sys2Proof.Machine

/-! ## The journal -/

/-- Fates 4 to 10 are final (19 R405). -/
def Fate.final : Fate → Bool
  | .queued | .running | .stopped | .held => false
  | _ => true

/-- The code of a fate (19 R405). -/
def Fate.code : Fate → Nat
  | .queued => 0
  | .running => 1
  | .stopped => 2
  | .held => 3
  | .done => 4
  | .late => 5
  | .dropped => 6
  | .aborted => 7
  | .abandoned => 8
  | .failed => 9
  | .withdrawn => 10

namespace State

/-- Capacity of the journal in entries. -/
def jrnlCap (s : State) : Nat := s.host.jrnlCfg.toNat

/-- The next entry would overwrite one without a final fate (R403). -/
def journalFull (s : State) : Bool :=
  match s.entryAt (s.host.head - s.jrnlCap) with
  | some e => s.jrnlCap < s.host.head && !e.fate.final
  | none => false

/-- An accepted command's entry is written, and takes the next number (log 32). -/
def journalAdd (s : State) (e : JEntry) : State × Nat :=
  let n := s.host.head
  let j := if s.jrnlCap < n then s.host.journal.del (n - s.jrnlCap) else s.host.journal
  ({ s with host := { s.host with head := n + 1, journal := j.ins n (some { e with accepted := s.now }) } }, n)

/-- An accepted REPLY with its payload, and a refused one (01 R33). -/
def accept (s : State) (m : HostMsg) (payload : List Byte) : State := s.emit (.reply m.tag 0 payload)
def refuse (s : State) (m : HostMsg) (reason : Nat) : State :=
  ({ s with host := { s.host with refusals := s.host.refusals + 1 } }).emit (.reply m.tag reason [])

end State

/-! ## Launch records (R71 to R73) -/

/-- A record's dwords from its 128 bytes. -/
def recordOf (bs : List Byte) : List Dword := (List.range 16).map (dwordAt bs)

def recD (r : List Dword) (i : Nat) : Nat := (r.getD i 0).toNat

/-- Size in bytes of section `i` (S, L, C, W). -/
def recSection (r : List Dword) (i : Nat) : Nat := bitsOf (recD r 4) (16 * i + 15) (16 * i) * 8
def recRegion (r : List Dword) : Nat := bitsOf (recD r 5) 36 32
def recGran (r : List Dword) : Nat := bitsOf (recD r 5) 31 30
def recFixed (r : List Dword) : Bool := bitOf (recD r 5) 29
def recFirst (r : List Dword) : Nat := bitsOf (recD r 5) 28 22
def recCount (r : List Dword) : Nat := bitsOf (recD r 5) 21 15
def recDeadline (r : List Dword) : Nat := recD r 6
def recEstimate (r : List Dword) : Nat := recD r 7
def recTcap (r : List Dword) : Nat := bitsOf (recD r 8) 15 8
def recLate (r : List Dword) : Bool := bitOf (recD r 8) 3
def recStart (r : List Dword) : Nat := recD r 11
def recStaging (r : List Dword) : Nat := bitsOf (recD r 12) 31 0
def recArgs (r : List Dword) : Dword := r.getD 13 0
def recCompletion (r : List Dword) : Nat := recD r 14
/-- The predecessors named, as 32-bit values (R71). -/
def recPreds (r : List Dword) : List Nat :=
  [bitsOf (recD r 9) 31 0, bitsOf (recD r 9) 63 32, bitsOf (recD r 10) 31 0, bitsOf (recD r 10) 63 32].filter (fun p => p ≠ 0xFFFFFFFF)

/-- Quads of one unit, and units of the package, by granularity (R72). -/
def unitQuads (g : Nat) : Nat := match g with | 0 => 1 | 1 => 8 | 2 => 32 | _ => 64
def unitCount (g : Nat) : Nat := 64 / unitQuads g

/-- The record has no nonzero zero field and no field out of its range (R71 to R73). -/
def recordOk (r : List Dword) : Bool :=
  [0, 1, 2, 3].all (fun i => recD r i % 256 = 0 && recSection r i ≤ 65536) &&
  recSection r 0 ≠ 0 &&
  bitsOf (recD r 5) 63 37 = 0 && bitsOf (recD r 5) 14 0 = 0 &&
  1 ≤ recCount r && recFirst r + recCount r ≤ unitCount (recGran r) &&
  bitsOf (recD r 8) 63 16 = 0 && bitsOf (recD r 8) 1 0 ≠ 3 &&
  bitsOf (recD r 12) 63 32 = 0 && recCompletion r % 32 = 0 && recD r 15 = 0

/-- The quads of the run of units from `first`. -/
def runQuads (r : List Dword) (first : Nat) : List Nat :=
  (List.range (recCount r * unitQuads (recGran r))).map (fun i => first * unitQuads (recGran r) + i)

/-- The runs that a placement may take, lowest first (R72, R81). -/
def recRuns (r : List Dword) : List (List Nat) :=
  (if recFixed r then [recFirst r] else List.range (unitCount (recGran r) + 1 - recCount r)).map (runQuads r)

/-- The accepted command that a predecessor value names, for a new command of number `head`; 0 when there is none
(R71), which then refuses the record with reason 6 as a number outside the journal does: the model's choice (log 59). -/
def predSeq (head p : Nat) : Nat :=
  let d := (head - 1 + 2 ^ 32 - p % 2 ^ 32) % 2 ^ 32
  if head - 1 < d then 0 else head - 1 - d

namespace State

/-- The first reason of R74 from 3 to 7 that refuses a record, or 0. -/
def recordReason (s : State) (r : List Dword) : Nat :=
  let head := s.host.head
  let preds := (recPreds r).map (predSeq head)
  let entries := preds.map (fun p => if head - s.jrnlCap ≤ p then s.entryAt p else none)
  if !recordOk r then 3
  else if entries.any (fun e => match e with | some j => !([1, 2, 7].contains j.kind) | none => false) then 3
  else if !s.bound (recRegion r) then 4
  else if !(recRuns r).any (fun qs => qs.all (fun q => (s.regionAt (recRegion r)).quads.getLsbD q)) then 5
  else if entries.any (fun e => e.isNone) then 6
  else if bitOf (recD r 8) 4 && (s.pair.cfg.toNat % 4 ≠ 1 || !s.pair.up) then 7
  else 0

/-- Free entries of the pending-launch pool (R78). -/
def poolFree (s : State) : Nat :=
  2048 - (s.nodes.filter (fun e => match e.2 with | some v => v.pool | none => false)).length

/-- A queue takes launches: open, and no teardown under way (R75, 19 R396). -/
def queueOpen (s : State) (q : Nat) : Bool := (s.queueAt q).isOpen && (s.queueAt q).teardown.isNone

/-- Record slots of a queue in use (R75). -/
def queueUse (s : State) (q : Nat) : Nat :=
  (s.nodes.filter (fun e => match e.2 with | some v => v.inQueue && v.queue.toNat = q && v.st = .waiting | none => false)).length

/-- A node with its journal entry, as accepted (R74, R76). -/
def addNode (s : State) (r : List Dword) (queue : Nat) (kind origin : Nat) (v : Node → Node) : State × Nat :=
  let q := s.queueAt queue
  let deadline := if recDeadline r = 0 then s.now + q.slack.toNat * 1000 else recDeadline r
  let (s, n) := s.journalAdd
    { kind := kind, queue := BitVec.ofNat 6 queue, origin := origin, completion := BitVec.ofNat 64 (recCompletion r), deadline := deadline }
  (s.setNode n (v { rcd := r, queue := BitVec.ofNat 6 queue, part := q.part, deadline := deadline }), n)

end State
end Sys2Proof.Machine
end

