-- ==== Sys2Proof/Machine/Mesh.lean ====
section
/-! DEFINITION. Where the parts of the package stand on the mesh, and the links that a request uses (01 R13 to R22, R29;
18 R374). -/

namespace Sys2Proof.Machine

/-! ## Places: x and row, in package coordinates (R13, R20 to R22) -/

abbrev Place := Nat × Nat

/-- A node of a die at package x (R13). -/
def onDie (die x y : Nat) : Place := (x + 16 * die, y)

/-- A core at (column, j + 1) of its die (R13). -/
def corePlace (core : Nat) : Place := onDie (dieOf core) (columnOf core) (stripOf core + 1)

/-- The row of a stack's port strip (R20). -/
def stackRow (stack : Nat) : Nat := if stack % 4 < 2 then 0 else 9

/-- The port node of a pseudo-channel of a stack (R20). -/
def channelPlace (stack channel : Nat) : Place := onDie (stack / 4) (8 * (stack % 2) + channel / 20) (stackRow stack)

/-- The port node of a quad's copy engine (R21). -/
def enginePlace (engine : Nat) : Place := onDie (engine / 32) (8 * (engine / 8 % 2) + engine % 8) (stackRow (engine / 8))

/-- The outer edge of a die: x = 0 on D0, 15 on D1 (R22). -/
def edgePlace (die row : Nat) : Place := (31 * die, row)

/-- Attachments of the edges (R22). -/
def streamPlace (port : Nat) : Place := edgePlace (port / 2) (9 * (port % 2))
def fabricPlace (port : Nat) : Place := edgePlace (port / 12) (let i := port % 12 / 2; if i < 3 then i + 1 else i + 3)
def hostPlace : Place := edgePlace 0 4
def islandPlace : Place := edgePlace 0 5

/-- The crossing unit of a crossing's die (02 R53); the manual does not place it on its die: a free node (log 60). -/
def crossingPlace (crossing : Nat) : Place :=
  let n := (Config.crossingNode (crossing / 32)).toNat
  onDie (crossing / 32 % 2) (n % 16) (n / 16 % 10)

/-- The place that serves a key of the memory: a core's slice, a pseudo-channel's port, or the host link. -/
def keyPlace (k : Nat) : Place :=
  if k < hbmBase then corePlace (k / 2 ^ 21)
  else if k < hostBase then channelPlace (stackOfKey k) ((k - hbmBase) / 256 / chanRows % 160)
  else hostPlace

/-! ## Routes (R16, R19) -/

/-- The failed link of a mesh row, which a link-down names by its row only (01 R35): below 31 the link east of x in that
row, from 31 on the link south of the row at x less 31. A free value (log 60). -/
def failedLink (row : Nat) : Nat := (Config.meshLink row).toNat % 63

/-- A request from `a` to `b`, first in x along its row and then in y along its destination's column, and its reply, which
comes back the same way, use a link (R16, R19). -/
def routeUses (l : LinkId) (a b : Place) : Bool :=
  match l with
  | .mesh r =>
    let i := failedLink r.toNat
    if i < 31 then a.2 = r.toNat && i ≠ 15 && min a.1 b.1 ≤ i && i < max a.1 b.1
    else b.1 = i - 31 && min a.2 b.2 ≤ r.toNat && r.toNat < max a.2 b.2
  | .dieToDie r => a.2 = r.toNat && min a.1 b.1 ≤ 15 && 15 < max a.1 b.1
  | .fabric _ => false

/-- The row by which a machine check names a link (18 R371). -/
def linkRow : LinkId → Nat
  | .mesh r | .dieToDie r => r.toNat
  | .fabric p => 0x100 + p.toNat

namespace State

/-- The row of a link that is down on the way from `a` to one of the places (18 R374). -/
def cutRow (s : State) (a : Place) (bs : List Place) : Option Nat :=
  if s.down = [] then none else (s.down.find? (fun l => bs.any (routeUses l a))).map linkRow

/-- The homes of a global element's address, as a quad's interface translates it. -/
def homePlace (s : State) (core va : Nat) : List Place :=
  let q := quadOf core
  let p := s.partOf core
  match (s.translate q p false va).2, (s.translate q p true va).2 with
  | .ok (_, k), _ | _, .ok (_, k) => [keyPlace k]
  | _, _ => []

/-- The places outside a core that its accesses to elements go to. -/
def entPlaces (s : State) (core : Nat) (e : Ent) (xs : List Elem) : List Place :=
  match e.space with
  | 1 => if e.peer then [] else [corePlace e.target]
  | 2 => ((groupCores e.tier e.group).filter (s.inPlacement core)).map corePlace
  | 3 => xs.flatMap (fun x => if x.outside then [] else s.homePlace core x.addr)
  | 4 => [hostPlace]
  | _ => []

/-- Fabric ports that carry peer copies: not those of the pair link (01 R29, 19 R397). -/
def peerPorts (s : State) : List Nat :=
  (List.range 24).filter (fun p => !((p = 22 || p = 23) && (s.pair.cfg.toNat % 4 = 1 || s.pair.cfg.toNat % 4 = 2)))

/-- The fabric port by which a copy reaches another package: which one is a free choice (log 60). -/
def portOf (s : State) (y : Copy) : Nat := s.peerPorts.getD ((Config.fabricPort y.id).toNat % s.peerPorts.length) 0

end State
end Sys2Proof.Machine
end

