-- ==== Sys2Proof/Machine/ScalarMem.lean ====
section
/-! DEFINITION. S memory words and atomics (08 R207 to R211), at issue and as the pending accesses of 18 R376. -/

namespace Sys2Proof.Machine

/-- What an S memory word does with the bytes it names. -/
inductive SOp where
  | load | store | add | min | max | xch | cas
  deriving DecidableEq, Repr

def SOp.reads (o : SOp) : Bool := o ≠ .store
def SOp.writes (o : SOp) : Bool := o ≠ .load
def SOp.atomic (o : SOp) : Bool := o.reads && o.writes

/-- The operation of an S memory word. -/
def sOpOf : Instr → SOp
  | .sts .. | .stsK .. => .store
  | .aadd .. | .aaddK .. => .add
  | .amin .. | .aminK .. => .min
  | .amax .. | .amaxK .. => .max
  | .axch .. | .axchK .. => .xch
  | .acas .. | .acasK .. => .cas
  | _ => .load

/-- Bytes that an S access moves (R207). -/
def sSize (e : Ent) : Nat := if e.curve then e.cell else e.t0 * e.esize / 8

/-- The elements of an S access, for a coordinate of up to 96 bits. Dense elements of 4 bits that begin with an odd one lie in one
byte more than R207 counts: they are gathered element by element (the model's choice, log 59). -/
def sElems (e : Ent) (coord : Nat) : List Elem := rowOf e coord

/-- The address of an S access: that of its first element. -/
def sAddr (e : Ent) (coord : Nat) : Nat := ((sElems e coord).head?.map (fun x => x.addr)).getD 0

/-- The value that an atomic stores (R208, R209); `n` in bytes. -/
def sUpdate (o : SOp) (e : Ent) (n old v w : Nat) : Nat :=
  let m := 2 ^ (8 * n)
  let v := v % m
  let less (a b : Nat) : Bool := if isSigned e.ty then exts a (8 * n) < exts b (8 * n) else a < b
  match o with
  | .add => (old + v) % m
  | .min => if less v old then v else old
  | .max => if less old v then v else old
  | .cas => w % m
  | _ => v

/-- LD(n): the value extended to 64 bits (R208). The rule extends the sign where t0 = 1, which a curve entry ignores (04 R113): a
cell's value is extended with zeros (the model's choice, log 59). -/
def sExtend (e : Ent) (n v : Nat) : Dword :=
  if isSigned e.ty && 8 ≤ e.esize && e.t0 = 1 && !e.curve then BitVec.ofInt 64 (exts v (8 * n)) else BitVec.ofNat 64 v

/-- How an S access ends. -/
inductive SDone where
  | value (v : Nat)
  | bad (key : Nat) (m : Mark)
  | fault (f : XFault)
  deriving DecidableEq, Repr

/-- The elements read one by one. -/
def readElems (who : Who) (e : Ent) : List Elem → Acc → Acc × Except SDone (List Nat)
  | [], a => (a, .ok [])
  | x :: t, a =>
    match a.read who e x with
    | (a, .error f) => (a, .error (.fault f))
    | (a, .ok (_, some (k, m))) => (a, .error (.bad k m))
    | (a, .ok (v, none)) =>
      match readElems who e t a with
      | (a, .ok vs) => (a, .ok (v :: vs))
      | r => r

/-- The elements written one by one, until one faults. -/
def writeElems (who : Who) (e : Ent) : List (Elem × Nat) → Acc → Acc × Option XFault
  | [], a => (a, none)
  | p :: t, a =>
    match a.write who e p.1 p.2 false with
    | (a, .error f) => (a, some f)
    | (a, .ok ()) => writeElems who e t a

namespace State

/-- A register of the local table or a p register whose code word is bad (18 R370). -/
def badEntry (s : State) (n : Nat) : Bool := s.me.bad.any (fun b => b.reg = .lt n)

/-- The coordinate of an S access as its word captured it: a code of a k form has 96 bits (04 R112). -/
def sCoord (f : Flight) : Nat := f.sc.toNat + (f.data.headD 0).toNat * 2 ^ 64

/-- The writes of an S access take effect; slice bytes may be seen late by other observers (R165). -/
def sCommit (a : Acc) (who : Who) (e : Ent) (frame : BitVec 64) (elems : List Elem) (worst : Nat) : State :=
  (a.commit who worst).tagWrite who e frame elems worst

/-- Worst latency of an S access (R208). -/
def sWorst (o : SOp) (e : Ent) : Nat :=
  if e.space ≠ 0 then 2800 else match o with | .load => 4 | .store => 3 | _ => 6

/-- An S access performed with what its word captured: the entry in `src`, the coordinate (`sCoord`), x[d] in `par`
and x[d + 1] in `dc`. An atomic reads and writes at the home, as one (06 R162, R173); an ACAS that finds another value
writes nothing. A translation walk adds to the bound of a store (06 R165, 04 R124). -/
def performS (s : State) (who : Who) (e : Ent) (coord : Nat) (o : SOp) (v w : Dword) (frame : BitVec 64) : State × SDone :=
  let n := sSize e
  let elems := sElems e coord
  let worst := sWorst o e
  let begin_ (s : State) : Acc :=
    { Acc.start s who.core with atHome := o.atomic, atom := o.atomic, free := if o.atomic then s.behind who else [] }
  let walks (t : State) : List Trans := (t.quadAt (quadOf who.core)).walks
  let put (a : Acc) (x : Nat) : State × Option XFault :=
    match writeElems who e (elems.zip ((List.range elems.length).map (fun i => x / 2 ^ (e.esize * i) % 2 ^ e.esize))) a with
    | (a, none) => (sCommit a who e frame elems (if walks a.s = walks s then worst else worst + walkCycles), none)
    | (a, some f) => (a.s, some f)
  if o = .store then
    match put (begin_ s) v.toNat with
    | (t, none) => (t, .value 0)
    | (t, some f) => (t, .fault f)
  else
    match readElems who e elems (begin_ (s.sawTags who e (e.sliceOf who.core) frame elems)) with
    | (a, .error r) => (a.s, r)
    | (a, .ok vs) =>
      let old := packElems e.esize vs
      if o = .load || (o = .cas && old ≠ v.toNat % 2 ^ (8 * n)) then (a.commit who 0, .value old)
      else
        match put a (sUpdate o e n old v.toNat w.toNat) with
        | (t, none) => (t, .value old)
        | (t, some f) => (t, .fault f)

/-- The checks of R207, R209 and R211 in the order of R329: the fault's class and status, or whether the access is late. -/
def sCheck (s : State) (o : SOp) (e : Ent) (coord : Nat) (kform : Bool) : Except (Nat × Nat) Bool :=
  let n := sSize e
  let elems := sElems e coord
  let addr := sAddr e coord
  let operand (r : Nat) : Except (Nat × Nat) Bool := .error (2, r * 2 ^ 24)
  let access (a : Nat) : Except (Nat × Nat) Bool := .error (0x0B, a % 2 ^ 32)
  if !e.loaded then operand 2
  else if e.space = 2 || e.space = 4 || e.peer then operand 1
  else if kform && !e.curve then operand 2
  else if !([1, 2, 4, 8].contains n) then operand 3
  else if o.atomic && !((e.ty = 3 || e.ty = 7) && (n = 4 || n = 8)) then operand 3
  else if addr % n ≠ 0 then access addr
  else if o.atomic && elems.any (fun x => x.outside) then access addr
  else if e.space = 1 && !s.inPlacement s.here e.target then access addr
  else
    match firstPast e elems with
    | some a => access a
    | none =>
      if !o.reads then .ok false
      else
        let core := e.sliceOf s.here
        let frame := s.frameNo s.here
        match e.checkRead (s.tagAs { core := s.here, unit := .s, cls := 0 } core) frame elems with
        | .ok => .ok false
        | .pending => .ok true
        | .newer l t => .error (4, (e.expect frame).toNat * 2 ^ 24 + t.toNat * 2 ^ 16 + l)

/-- An S access whose translation fails after the word has issued waits as a pending access (18 R375, R376): its register
stays pending. -/
def sBlocked (s : State) (f : Flight) (regs : List SReg) : State :=
  (s.past (fun c => { c with
    cu := { c.cu with flights := c.cu.flights ++ [f] }
    su := { c.su with pend := c.su.pend ++ regs.map (fun r => (r, 2 ^ 64)) } })).fresh

/-- The result of an S access as its register takes it. -/
def sResult (o : SOp) (e : Ent) (d : BitVec 5) (x : Nat) (c : Core) : Core :=
  if o.reads then c.setX d (sExtend e (sSize e) x) else c

/-- An S access has issued with the value `x`: its register stands `n` cycles later, and a load may perform its read
again, once, until then (00 R8). The write of an atomic, store `no`, is visible to all when the atomic completes (06 R173). -/
def sLands (s : State) (f : Flight) (o : SOp) (e : Ent) (d : BitVec 5) (x worst no : Nat) : State :=
  let t := s.past (sResult o e d x)
  if !o.reads then t.fresh
  else
    let n := Config.sLatency t.freeCtr % worst + 1
    let t := if o = .load && 1 < n then
        t.modCore t.here (fun c => { c with cu := { c.cu with again := c.cu.again ++ [{ f with stamp := f.issued + n }] } })
      else t.visibleBy no (f.issued + n)
    t.later [.x d.toNat] worst

/-- The register and class of an S memory word. -/
def sDest : Instr → BitVec 5
  | .lds d _ _ _ | .ldsK d _ _ _ => d
  | _ => 0

/-- A load of S inside its bound performs its read again (00 R8) (log 6). -/
def sAgain (s : State) (core : Nat) (f : Flight) : State :=
  let s := s.dropAgain core f.id
  let who : Who := { core := core, unit := .s, cls := loadClass f.word, word := some f.ordinal }
  let e := entOf f.src
  match readElems who e (sElems e (sCoord f)) (Acc.start s core) with
  | (a, .ok vs) => (State.reread a who).modCore core (sResult .load e (sDest f.word) (packElems e.esize vs))
  | _ => s

/-- An S memory word with its coordinate; a request that a failed link holds ends in MCHECK (18 R374). -/
def smem (s : State) (i : Instr) (d b : BitVec 5) (cls : BitVec 4) (coord : Nat) (kform : Bool) (creg : SReg) : Out1 :=
  let o := sOpOf i
  let src := s.me.lt b.toNat
  let e := entOf src
  let v := s.me.x d
  let w := if o = .cas then s.me.x (d + 1) else 0
  let dests : List SReg := if o.reads then [.x d.toNat] else []
  let regs := creg :: (if o = .load then [] else [.x d.toNat]) ++ (if o = .cas then [.x (d.toNat + 1)] else [])
  s.scalar regs dests
    (if s.badEntry b.toNat then s.machineCheck s.here .s .uncorrectable 5 b.toNat 0
     else match s.sCheck o e coord kform, s.cutRow (corePlace s.here) (s.entPlaces s.here e (sElems e coord)) with
     | .error (c, st), _ => s.faultAt s.here .s c st
     | .ok true, _ => s.freeze s.here .s
     | .ok false, some row => s.machineCheck s.here .s .uncorrectable 4 row 0
     | .ok false, none =>
       let who : Who := { core := s.here, unit := .s, cls := cls, word := some s.me.su.index }
       let frame := s.frameNo s.here
       let f : Flight :=
         { id := s.freeCtr, unit := .s, ordinal := s.me.su.index, offset := s.me.su.pc, word := i, src := src, dst := 0,
           sc := BitVec.ofNat 64 coord, data := [BitVec.ofNat 32 (coord / 2 ^ 64)], dc := w, par := v, frame := frame, issued := s.cycleOf s.here }
       let walked (t : State) : Bool := (t.quadAt (quadOf s.here)).walks ≠ (s.quadAt (quadOf s.here)).walks
       match s.performS who e coord o v w frame with
       | (t, .value x) => t.sLands f o e d x (sWorst o e + (if walked t then walkCycles else 0)) s.mem.stores
       | (t, .bad k m) => t.consumeBad s.here .s k m
       | (t, .fault _) => t.sBlocked { f with blocked := true } dests)

end State

/-- The coordinate that a k form supplies. -/
def kCoord (c : Core) (a : BitVec 5) : Nat := kCodeOf (c.k a.toNat)
where
  /-- bits [95:0] of a k register (04 R112) -/
  kCodeOf (k : BitVec 128) : Nat := fieldOf k 95 0

/-- The coordinate that an x register supplies. -/
def xCoord (c : Core) (a : BitVec 5) : Nat := (c.x a).toNat

def execLds (d a b : BitVec 5) (c : BitVec 4) (s : State) : Out1 :=
  s.smem (.lds d a b c) d b c (xCoord s.me a) false (.x a.toNat)
def execLdsK (d a b : BitVec 5) (c : BitVec 4) (s : State) : Out1 :=
  s.smem (.ldsK d a b c) d b c (kCoord s.me a) true (.k a.toNat)
def execSts (d a b : BitVec 5) (c : BitVec 4) (s : State) : Out1 :=
  s.smem (.sts d a b c) d b c (xCoord s.me a) false (.x a.toNat)
def execStsK (d a b : BitVec 5) (c : BitVec 4) (s : State) : Out1 :=
  s.smem (.stsK d a b c) d b c (kCoord s.me a) true (.k a.toNat)
def execAadd (d a b : BitVec 5) (c : BitVec 4) (s : State) : Out1 :=
  s.smem (.aadd d a b c) d b c (xCoord s.me a) false (.x a.toNat)
def execAaddK (d a b : BitVec 5) (c : BitVec 4) (s : State) : Out1 :=
  s.smem (.aaddK d a b c) d b c (kCoord s.me a) true (.k a.toNat)
def execAmin (d a b : BitVec 5) (c : BitVec 4) (s : State) : Out1 :=
  s.smem (.amin d a b c) d b c (xCoord s.me a) false (.x a.toNat)
def execAminK (d a b : BitVec 5) (c : BitVec 4) (s : State) : Out1 :=
  s.smem (.aminK d a b c) d b c (kCoord s.me a) true (.k a.toNat)
def execAmax (d a b : BitVec 5) (c : BitVec 4) (s : State) : Out1 :=
  s.smem (.amax d a b c) d b c (xCoord s.me a) false (.x a.toNat)
def execAmaxK (d a b : BitVec 5) (c : BitVec 4) (s : State) : Out1 :=
  s.smem (.amaxK d a b c) d b c (kCoord s.me a) true (.k a.toNat)
def execAxch (d a b : BitVec 5) (c : BitVec 4) (s : State) : Out1 :=
  s.smem (.axch d a b c) d b c (xCoord s.me a) false (.x a.toNat)
def execAxchK (d a b : BitVec 5) (c : BitVec 4) (s : State) : Out1 :=
  s.smem (.axchK d a b c) d b c (kCoord s.me a) true (.k a.toNat)
def execAcas (d a b : BitVec 5) (c : BitVec 4) (s : State) : Out1 :=
  s.smem (.acas d a b c) d b c (xCoord s.me a) false (.x a.toNat)
def execAcasK (d a b : BitVec 5) (c : BitVec 4) (s : State) : Out1 :=
  s.smem (.acasK d a b c) d b c (kCoord s.me a) true (.k a.toNat)

namespace State

/-- An earlier write of S to one of 32 bytes that LTSET waits for (R210). -/
def ltsetWaits (s : State) (off : Nat) (cls : BitVec 4) : Bool :=
  s.mem.recent.any (fun r =>
    r.core.toNat = s.here && r.slot = .s && sliceKey s.here off ≤ r.key && r.key < sliceKey s.here off + 32 &&
      (r.cls = cls || r.cls = 0 || cls = 0) && s.isOpen r)

/-- The entry of LTSET read and checked: it takes effect at the end of the cycle (04 R109). -/
def ltsetReads (s : State) (d : BitVec 5) (off : Nat) (cls : BitVec 4) : State :=
  let who : Who := { core := s.here, unit := .s, cls := cls, word := some s.me.su.index }
  let keys := (List.range 32).map (fun i => sliceKey s.here (off + i))
  match keys.findSome? (fun k => (s.mem.mark k).map (fun m => (k, m))) with
  | some (k, m) => s.consumeBad s.here .s k m
  | none =>
    let v : BitVec 256 := BitVec.ofNat 256 (leNat (keys.map (s.readAs who)))
    if (entOf v).ok v then
      (s.readLocal who keys).past (fun c => { c with ltset := c.ltset ++ [(d.toNat, v)] })
    else s.operandFault s.here .s 2

end State

def execLtset (d a : BitVec 5) (c : BitVec 4) (s : State) : Out1 :=
  let off := (s.me.x a).toNat
  s.scalar [.x a.toNat] []
    (if off % 32 ≠ 0 || 2 ^ 21 ≤ off then s.faultAt s.here .s 0x0B (off % 2 ^ 32)
     else if s.ltsetWaits off c then s
     else s.ltsetReads d off c)

end Sys2Proof.Machine
end

