-- ==== Sys2Proof/Machine/Token.lean ====
section
/-! DEFINITION. Tokens, barriers, fences and queue commands of S (03 R93, R102; 06 R167, R168; 08 R212 to R218). -/

namespace Sys2Proof.Machine

/-- The amount of TADD, TTAKE and TWAIT (R212). -/
def tokenAmount (c : Core) (a n : BitVec 5) : Nat := ((c.x a).toNat % 2 ^ 16 + n.toNat) % 2 ^ 16

/-- The amount that a waiting TTAKE or TWAIT goes on with: that of its first attempt (R199). -/
def waitedAmount (c : Core) (a n : BitVec 5) : Nat :=
  match c.su.wait with
  | some (.token m) => m
  | _ => tokenAmount c a n

namespace State

/-- S waits at its word. -/
def waits (s : State) (w : SWait) : State := s.modCore s.here (fun c => { c with su := { c.su with wait := some w } })

/-- S of a core waits for accesses of its own that translation blocks (06 R167). -/
def sFlying (s : State) (core : Nat) : Bool := (s.coreAt core).cu.flights.any (fun f => f.unit = .s)

/-- A word that reads the given registers at its first attempt only (R199). -/
def scalarWait (s : State) (regs : List SReg) (effect : State) : Out1 :=
  if s.me.su.wait.isSome then .next effect else s.scalar regs [] effect

/-- A word that reads a counter at each attempt, consumed where its code word is bad (18 R370). -/
def counterWait (s : State) (regs : List SReg) (counter : BitVec 5) (effect : State) : Out1 :=
  s.scalarWait regs
    (if s.me.bad.any (fun b => b.reg = .tk counter.toNat) then s.machineCheck s.here .s .uncorrectable 5 counter.toNat 0 else effect)

end State

/-- TADD: its give tells of what fences and class 0 accesses of S order before it (log 9). -/
def execTadd (d a n : BitVec 5) (s : State) : Out1 :=
  s.scalar [.x a.toNat] [] (s.past (fun c => c.addToken
    { counter := d, amount := tokenAmount c a n, order := 0, index := BitVec.ofNat 32 c.su.index, position := BitVec.ofNat 32 c.su.pc
      past := s.mem.known s.here 0 (fun k => k = 0 || k = noClass) }))

/-- TTAKE: the gives of the units that it takes happen before it (06 R163). -/
def execTtake (d a n : BitVec 5) (s : State) : Out1 :=
  let m := waitedAmount s.me a n
  s.counterWait [.x a.toNat] d
    (if m ≤ s.me.tk d then
      (s.takeGiven s.here d m [{ core := s.here, seq := 0, cls := noClass }]).past (fun c => c.setTk d (c.tk d - m))
     else s.waits (.token m))

/-- TWAIT: the gives that satisfy it happen before the S word after it (06 R163). -/
def execTwait (d a n : BitVec 5) (s : State) : Out1 :=
  let m := waitedAmount s.me a n
  s.counterWait [.x a.toNat] d
    (if m ≤ s.me.tk d then
      (s.modMem (fun k => k.tell (s.givenBy s.here d m)
        [{ core := s.here, seq := 0, cls := nextWord (s.me.su.index + 1) }])).past id
     else s.waits (.token m))

def execTread (d a : BitVec 5) (s : State) : Out1 :=
  s.scalar [] [.x d.toNat]
    (if s.me.bad.any (fun b => b.reg = .tk a.toNat) then s.machineCheck s.here .s .uncorrectable 5 a.toNat 0
     else (s.past (fun c => c.setX d (BitVec.ofNat 64 (c.tk a)))).later [.x d.toNat] 2)

/-- FNC: the writes that happen before it are made visible as its scope covers them; S stalls while translation holds one
of its own back (06 R167). -/
def execFnc (scope : BitVec 5) (s : State) : Out1 :=
  .next (if s.sFlying s.here then s else (s.fence s.here scope.toNat).past id)

namespace State

/-- The members of a tier's group that take part in a core's barrier (06 R168). -/
def barrierMembers (s : State) (core tier : Nat) : List Nat :=
  (groupCores tier (groupOf tier core)).filter (s.inPlacement core)

/-- A core waits in the barrier of an ordinal of a tier. -/
def atBarrier (s : State) (core tier ordinal : Nat) : Bool :=
  match (s.coreAt core).su.wait with | some (.gbar t n) => t = tier && n = ordinal | _ => false

/-- A member counts as having issued an ordinal of a tier, its FNC part done (06 R168, 08 R213). -/
def reached (s : State) (core tier ordinal : Nat) : Bool :=
  let c := s.coreAt core
  if s.atBarrier core tier ordinal then !s.sFlying core
  else c.ended || (match c.su.wait with | some (.ncmt _ true _) => true | _ => false) || ordinal ≤ c.gbar.get 0 tier

/-- Every member has come to a barrier and none has gone on: each has fenced at the barrier's scope, and what happens
before any member's GBAR happens before every access that follows any member's (06 R168). -/
def joinBarrier (s : State) (members : List Nat) (tier ordinal : Nat) : State :=
  let here := members.filter (fun c => s.atBarrier c tier ordinal)
  if members.any (fun c => !s.atBarrier c tier ordinal && ordinal ≤ (s.coreAt c).gbar.get 0 tier) then s
  else
    let s := here.foldl (fun (s : State) c => s.fence c tier) s
    let ids := here.flatMap (fun c => s.mem.known c 0 (fun k => k ≤ noClass))
    s.modMem (fun m => m.tell ids (here.map (fun c => { core := c, seq := 0, cls := 0 })))

end State

/-- GBAR: it counts its ordinal once, fences, and S goes on once every member has come (06 R168). -/
def execGbar (tier : BitVec 5) (s : State) : Out1 :=
  let t := tier.toNat
  let (s, n) : State × Nat :=
    match s.me.su.wait with
    | some (.gbar _ n) => (s, n)
    | _ =>
      let n := s.me.gbar.get 0 t + 1
      ((s.modCore s.here (fun c => { c with gbar := c.gbar.ins t n })).waits (.gbar t n), n)
  let members := s.barrierMembers s.here t
  .next
    (if s.sFlying s.here then s
     else if members.all (fun c => c = s.here || s.reached c t n) then (s.joinBarrier members t n).past id
     else s.fence s.here t)

/-! ## Queue commands -/

/-- The x values that a SEG copies (R216). -/
def segValues (c : Core) (a : BitVec 5) : List Dword := (List.range 8).map (fun i => c.x (a + BitVec.ofNat 5 i))

/-- The registers that a SEG reads. -/
def segRegs (a b : BitVec 5) : List SReg := (List.range 8).map (fun i => SReg.x (a.toNat + i)) ++ [.x b.toNat]

/-- SEG: what happens before it, as an access of class 0, happens before its segment and before later accesses of S
(06 R163). -/
def execSeg (d a b : BitVec 5) (s : State) : Out1 :=
  let cmd : Cmd :=
    match s.me.su.wait with
    | some (.seg off xs) => { off := off, xs := xs, past := s.beforeS s.here }
    | _ => { off := s.me.x b, xs := segValues s.me a, past := s.beforeS s.here }
  s.scalarWait (segRegs a b)
    (if (s.me.unit d.toNat).cmdq.length < 16 then
      ((s.endAgain { core := s.here, unit := .s, cls := 0 }).passOn { core := s.here, unit := .s, cls := 0, word := some s.me.su.index }).past (fun c =>
        c.modUnit d.toNat (fun u => { u with cmdq := u.cmdq ++ [cmd] }))
     else s.waits (.seg cmd.off cmd.xs))

def execFmtq (a : BitVec 5) (s : State) : Out1 :=
  let v : Dword := match s.me.su.wait with | some (.fmtq v) => v | _ => s.me.x a
  s.scalarWait [.x a.toNat]
    (if s.me.cu.fmtq.length < 16 then s.past (fun c => { c with cu := { c.cu with fmtNew := c.cu.fmtNew ++ [v] } })
     else s.waits (.fmtq v))

/-- The depth of a queue by the codes of 07 R190, as it was at the start of cycle `cyc` (R218). -/
def queueDepth (c : Core) (code cyc : Nat) : Nat :=
  if code ≤ 3 then (c.unit code).cmdq.length
  else if code = 4 then c.cu.fmtq.length
  else if code ≤ 11 then (c.cu.resq.get [] (code - 8)).length
  else if code ≤ 15 then ((c.cu.opq.get [] (code - 12)).filter (fun e => e.ready ≤ cyc)).length
  else (c.cu.sieve.get [] (code - 16)).length

def execQdep (d code : BitVec 5) (s : State) : Out1 :=
  s.setsXLater [] d (BitVec.ofNat 64 (queueDepth s.me code.toNat (s.cycleOf s.here))) 2

/-- QFLSH: what stands in the queue at the end of the cycle is discarded and counted (R218). -/
def execQflsh (d code : BitVec 5) (s : State) : Out1 :=
  s.scalar [] [.x d.toNat] ((s.past (fun c => { c with flush := some (code, d) })).later [.x d.toNat] 2)

end Sys2Proof.Machine
end

