-- ==== Sys2Proof/Machine/System.lean ====
section
/-! DEFINITION. Time, power and commit words of S, LNCH, control registers, traps (02 R60, 08 R222 to R225). -/

namespace Sys2Proof.Machine

/-! ## Time and power (02 R60) -/

def execTime (d : BitVec 5) (s : State) : Out1 := s.setsXLater [] d (BitVec.ofNat 64 s.now) 6

/-- WAITT: a value that has passed ends the wait at once; otherwise S waits for the cycle that R60 names. -/
def execWaitt (a : BitVec 5) (s : State) : Out1 :=
  match s.me.su.wait with
  | some (.time _) => .next s
  | _ => s.scalar [.x a.toNat] [] (if (s.me.x a).toNat ≤ s.now then s.past id else s.waits (.time (s.me.x a)))

/-- S goes on past its WAITT at the first unfrozen region cycle at or after its time (R60). -/
def execWaittResume (s : State) : Out1 :=
  match s.me.su.wait with
  | some (.time t) =>
    let c := s.me
    let r := s.regionOf s.here
    .next (if t.toNat ≤ s.now && c.run && !(c.frozen || c.held || c.halted || (s.regionAt r).gated || s.injected r) then s.past id else s)
  | _ => .next s

/-- The power predicate of a core's region (02 R66). -/
def State.predicate (s : State) (core : Nat) : Bool := (s.regionAt (s.regionOf core)).power.predicate

def execPwrq (d : BitVec 5) (s : State) : Out1 :=
  s.scalar [] [.q d.toNat] ((s.past (fun c => c.setQ (d.setWidth 3) (s.predicate s.here))).later [.q d.toNat] 4)

/-! ## Commit (03 R103, R104; 08 R224) -/

/-- A word in flight that stages global writes. -/
def Flight.stages (f : Flight) : Bool :=
  match f.word with
  | .tst _ | .fill _ | .sct _ | .scta _ => (entOf f.dst).space = 3
  | .sts .. | .stsK .. | .aadd .. | .aaddK .. | .amin .. | .aminK .. | .amax .. | .amaxK .. | .axch .. | .axchK ..
  | .acas .. | .acasK .. => (entOf f.src).space = 3
  | _ => false

/-- L, C and W have no command, no segment and nothing in flight, and no copy runs (R104). -/
def Core.drained (c : Core) : Bool :=
  [1, 2, 3].all (fun q => (c.unit q).cmdq = [] && (c.unit q).seg.isNone && (c.unit q).retiring = []) &&
    c.cu.flights = [] && c.cu.copies.all (fun y => y.st ≠ .queued && y.st ≠ .running)

namespace State

/-- A core has reached commit `n`: it waits in it with every earlier global write staged, or has passed it. -/
def commitReady (s : State) (n core : Nat) : Bool :=
  let c := s.coreAt core
  match c.su.wait with
  | some (.ncmt m last mark) =>
    (n ≤ m || last) && !c.cu.flights.any (fun f => f.id < mark && f.stages) && (!last || c.drained) &&
      !c.cu.copies.any (fun y => y.id < mark && (y.st = .queued || y.st = .running) && 3 ≤ (entOf y.dst).space)
  | _ => n ≤ c.ncmt || c.ended

/-- A lockstep node's records are compared: none of this side's waits (19 R399). -/
def lockClear (s : State) (n : Nat) (v : Node) : Bool :=
  !lockstep v || v.alone || !s.pair.waiting.any (fun r => r.seq = s.pairSeq n)

/-- A record of a lockstep node goes to the partner, and waits for the partner's (19 R399). -/
def pairSend (s : State) (n : Nat) (v : Node) (r : PairRecord) : State :=
  if !lockstep v || v.alone then s
  else
    let r := { r with seq := s.pairSeq n }
    ({ s with pair := { s.pair with waiting := s.pair.waiting ++ [r] } }).emit (.pairRecord r)

/-- All staged writes of a node take effect at once (R104): every observer sees them, in their order, after what the memory
holds; they and what happens before them happen before what its commit orders (06 R163). An irrevocable node has written
through: its writes are then visible to all. -/
def release (s : State) (n : Nat) (v : Node) : State :=
  let mine (r : Recent) : Bool := r.stage = some n || (irrevocable v && hbmBase ≤ r.key && (nodeCores v).contains r.core.toNat)
  let ids := (s.mem.recent.filter mine).flatMap (fun r => r.no :: r.past)
  let byte (r : Recent) : Byte := r.old.getD (s.mem.byte r.key)
  let kept := s
  let s := s.modMem (fun m => if m.recent = [] then m else { m with
    recent := (m.recent.filter (fun r => r.stage ≠ some n)).map (fun r => if mine r then { r with until_ := 0 } else r) ++
      (m.recent.filter (fun r => r.stage = some n)).map (fun r => { r with old := some (byte r), stage := none, until_ := 0 }) })
  let s :=
    if irrevocable v then s
    else
      ((s.retune v.part.toNat ((v.staged.filter (fun c => c.1 < hostBase)).map (fun c => c.1))).modMem (fun m => m.write v.staged)).poisonWords
        ((v.stagedBad.filter (fun b => b.2 ≠ .correctable)).map (fun b => b.1))
  -- a byte whose store every core of the node has long seen comes after another node's store that some may still miss
  let old := (v.staged.filter (fun c => (kept.chain none c.1) ≠ [] && (kept.chain (some n) c.1) = [])).map (fun (c : Nat × Byte) =>
    ({ no := kept.mem.stores * 2 ^ 72, core := BitVec.ofNat 8 ((nodeCores v).headD 0), slot := .s, cls := 0, key := c.1
       old := some (kept.mem.byte c.1), val := c.2, region := 0, until_ := 0 } : Recent))
  let s := if old = [] then s else s.modMem (fun m => { m with recent := m.recent ++ old, stores := m.stores + 1 })
  s.modNode n (fun w => { w with staged := [], stagedBad := [], past := w.past ++ ids })

/-- A core that reaches `ncmt.end`'s release issues no later S word; the node completes, at the time of its final release,
when every core has issued `ncmt.end` (R224). -/
def endCores (s : State) (cores : List Nat) (n : Nat) : State :=
  let s := cores.foldl (fun (s : State) c => s.modCore c (fun k =>
    { k with ended := true, su := { k.su with pc := k.su.pc + 4, index := k.su.index + 1, wait := none } })) s
  match s.nodeAt n with
  | none => s
  | some v =>
    if (nodeCores v).all (fun c => (s.coreAt c).ended) then
      s.endNode n v (if recDeadline v.rcd ≠ 0 && recDeadline v.rcd < v.committed then .late else .done) 0
    else s

/-- NCMT tried in a cycle: the release when every core has reached it, then S goes on (R104). The release that every core
has reached with `ncmt.end` is the final one, and ends the node at once. A core whose ordinal another's turn has committed
goes on with no second release. -/
def commitTry (s : State) (k : Nat) (last : Bool) : State :=
  match s.nodeOn s.here with
  | none => s
  | some (n, v) =>
    let go (s : State) : State := if last then s.endCores [s.here] n else s.past id
    if k ≤ v.commits then (if !last || (s.me.drained && s.lockClear n v) then go s else s)
    else if (nodeCores v).all (s.commitReady k) && s.lockClear n v then
      let s := (s.release n v).modNode n (fun w => { w with commits := max w.commits k, committed := s.now })
      let ends (c : Nat) : Bool := (s.coreAt c).ended || (match (s.coreAt c).su.wait with | some (.ncmt _ true _) => true | _ => false)
      if (nodeCores v).all ends then s.endCores ((nodeCores v).filter (fun c => !(s.coreAt c).ended)) n else go s
    else s

/-- NCMT issued or tried again. -/
def commit (s : State) (last : Bool) : State :=
  let (s, k) : State × Nat :=
    match s.me.su.wait with
    | some (.ncmt k _ _) => (s, k)
    | _ =>
      let k := s.me.ncmt + 1
      let s := (s.modCore s.here (fun c => { c with ncmt := k })).waits (.ncmt k last s.freeCtr)
      (match s.nodeOn s.here with
       | some (n, v) => s.pairSend n v { seq := n, rank := s.me.rank, sequencer := 0, ordinal := k, cycles := 0, signature := 0, digest := 0 }
       | none => s, k)
  if s.sFlying s.here then s else s.commitTry k last

end State

def execNcmt (s : State) : Out1 := .next (s.commit false)
def execNcmtEnd (s : State) : Out1 := .next (s.commit true)

/-! ## LNCH (08 R223) -/

namespace State

/-- The pool entry that a child takes: a free one, or its parent's reservation (03 R79); none when there is neither. -/
def childEntry (s : State) (parent : Node) : Option Bool :=
  if 64 < s.poolFree then some false
  else if parent.pool && !parent.spent then some true
  else none

/-- LNCH of the record at a local offset: the value of x[d], and acceptance. -/
def lnchChild (s : State) (n : Nat) (v : Node) (r : List Dword) : State × Dword × Bool :=
  let no (k : Nat) : State × Dword × Bool := (s, BitVec.ofNat 64 (2 ^ 64 - k), false)
  let q := v.queue.toNat
  if !s.queueOpen q then no 2
  else if s.recordReason r ≠ 0 then no (s.recordReason r)
  else
    match s.childEntry v with
    | none => no 16
    | some own =>
      if s.journalFull then no 8
      else
        let (s, k) := s.addNode r q 2 n (fun w =>
          { w with parent := some n, inQueue := false, pool := true, borrowed := own, past := s.beforeS s.here })
        let s := if own then s.modNode n (fun w => { w with pool := false, spent := true }) else s
        -- a lockstep child goes to the partner as a LAUNCH does (19 R398)
        (if bitOf (recD r 8) 4 then s.emit (.pairLaunch k (BitVec.ofNat 6 q) (r.flatMap (bytesOf 8))) else s, BitVec.ofNat 64 k, true)

end State

def execLnch (d a : BitVec 5) (q : BitVec 3) (s : State) : Out1 :=
  let off := (s.me.x a).toNat
  let who : Who := { core := s.here, unit := .s, cls := 0, word := some s.me.su.index }
  let finish (t : State) (v : Dword) (ok : Bool) : State :=
    (t.past (fun c => (c.setX d v).setQ q ok)).later [.x d.toNat, .q q.toNat] 400
  s.scalar [.x a.toNat] [.x d.toNat, .q q.toNat]
    (if off % 128 ≠ 0 || 2 ^ 21 ≤ off then finish s (BitVec.ofNat 64 (2 ^ 64 - 17)) false
     else
       let keys := (List.range 128).map (fun i => sliceKey s.here (off + i))
       match keys.findSome? (fun k => (s.mem.mark k).map (fun m => (k, m))) with
       | some (k, m) => s.consumeBad s.here .s k m
       | none =>
         let bytes := keys.map (s.readAs who)
         let s := s.readLocal who keys
         match s.nodeOn s.here with
         | none => s.past id
         | some (n, v) =>
           let (t, x, ok) := s.lnchChild n v (recordOf bytes)
           finish t x ok)

/-! ## Control registers (07 R191) -/

/-- CORE_ID (01 R14). -/
def coreIdReg (package : BitVec 13) (core : Nat) : Dword :=
  BitVec.ofNat 64 (package.toNat * 2 ^ 32 + dieOf core * 2 ^ 24 + columnOf core * 2 ^ 20 + stripOf core * 2 ^ 17 +
    stackOf core * 2 ^ 14 + quadOf core * 2 ^ 8 + core)

/-- State codes of REGION_ID (02 R47). -/
def RegionSt.code : RegionSt → Nat
  | .unbound | .locked => 0
  | .tracking => 1
  | .ceiling => 2
  | .holdover => 3
  | .frozen => 4
  | .relocking => 5

/-- DEVINFO, CAPS and QMASK (01 R38, 18 R378) (log 11). -/
def devinfoReg : Dword :=
  BitVec.ofNat 64 (0xFA15 * 2 ^ 48 + 0x0256 * 2 ^ 32 + 0x01 * 2 ^ 24 + (if Config.isModule then 1 else 2) * 2 ^ 16)

namespace State

/-- Channels that are not retired. -/
def usableChannels (s : State) : Nat :=
  ((List.range 8).map (fun k => 160 - popNat 160 (s.stackAt k).retired.toNat)).sum

def capsReg (s : State) : Dword :=
  BitVec.ofNat 64 (0xFF * 2 ^ 56 + s.usableChannels * 2 ^ 45 + 64 * 2 ^ 38 + 600 * 2 ^ 16 + 200 * 2 ^ 8)

/-- Remaining boost of a quad, in ns. -/
def boostLeft (s : State) (q : Nat) : Nat :=
  match (s.quadAt q).boost with
  | some t => t - s.now
  | none => 0

/-- PWRSTAT of a core (02 R69). The remaining boost in µs is rounded down, so that `boosted` may read 1 beside a remaining
boost of 0 (the model's choice, log 59). -/
def pwrstat (s : State) (core : Nat) : Dword :=
  let p := (s.regionAt (s.regionOf core)).power
  let left := s.boostLeft (quadOf core)
  BitVec.ofNat 64 (p.estimate.toNat * 2 ^ 32 + left / 1000 % 2 ^ 16 * 2 ^ 16 + p.duty % 16 * 2 ^ 8 + p.step % 16 * 2 ^ 4 +
    b2n (left ≠ 0) * 2 ^ 3 + b2n p.predicate)

/-- The register numbered `n` of a core, as a CSRR reads it. -/
def csr (s : State) (core n : Nat) : Dword :=
  let r := (s.coreAt core).csr
  let rid := s.regionOf core
  let g := s.regionAt rid
  match n with
  | 0 => coreIdReg s.packageNo core
  | 1 => r.flags.setWidth 64
  | 2 => r.ashape
  | 3 => r.oqbind.setWidth 64
  | 4 => r.sieveCfg.setWidth 64
  | 5 => BitVec.ofNat 64 (fieldOf g.bind 63 32 * 2 ^ 32 + g.st.code * 2 ^ 5 + rid)
  | 6 => g.frameNo
  | 7 => BitVec.ofNat 64 (g.frameCy % 2 ^ 32)
  | 8 => BitVec.ofNat 64 (g.frameNo.toNat % 2 ^ 32 * 2 ^ 32 + g.frameCy % 2 ^ 32)
  | 9 => r.schedCy
  | 10 => r.remain
  | 11 => r.trap0
  | 12 => r.trap1
  | 13 => r.trap2
  | 14 => r.gwstat
  | 15 => r.rngSeed
  | 16 => r.rngStep.setWidth 64
  | 17 => s.pwrstat core
  | 18 => devinfoReg
  | 19 => s.capsReg
  | 20 => BitVec.allOnes 64
  | 21 => r.trapVec
  | 22 => r.trapPc
  | 23 => r.wdog.setWidth 64
  | n => r.watch.get 0 (n - 24)

/-- The core that an OQBIND byte binds to, and the operand queue (04 R132). -/
def bindTarget (core : Nat) (byte : Nat) : Nat × Nat := (dieOf core * 128 + bitsOf byte 6 4 * 16 + columnOf core, bitsOf byte 3 2)

/-- OQBIND as it reads back: the enable of a target outside the core's region or node is 0 (R132). -/
def bindKept (s : State) (core : Nat) (v : Dword) : Dword :=
  BitVec.ofNat 64 (packElems 8 ((List.range 4).map (fun j =>
    let b := elemAt v 8 j
    let t := (bindTarget core b).1
    let ok := s.regionOf t = s.regionOf core && s.inPlacement core t
    b / 4 % 32 * 4 + (if bitOf b 7 && ok then 128 else 0))))

/-- What CSRW leaves of a value: none when the write is ignored (R191 and each register's own rule). -/
def csrKept (s : State) (core n : Nat) (v : Dword) : Option Dword :=
  let c := s.coreAt core
  match n with
  | 1 => some (v &&& 0x7F#64)
  | 3 => if (List.range 4).any (fun j => c.cu.resq.get [] j ≠ []) then none else some (s.bindKept core v)
  | 4 =>
    let sum := ((List.range 4).map (elemAt v 12)).sum
    if 2048 < sum || (List.range 4).any (fun p => c.cu.sieve.get [] p ≠ []) || c.cu.appends ≠ [] then none
    else some (v &&& 0xFFFFFFFFFFFF#64)
  | 10 | 15 => some v
  | 16 => some (v &&& 0xFFFFFFFF#64)
  | 21 => some (v &&& 0xFFFFFFFD#64)
  | 22 => some (v &&& 0xFFFFFFFC#64)
  | 23 =>
    if v = 0 || 16777216 < v.toNat then none else some v
  | n => if 24 ≤ n then some (v &&& 0xF0F80000001FFFFF#64) else none

/-- The writes of CSRW take effect at the end of the issue cycle (08 R225); a register's own rule has been applied. -/
def applyCsrw (c : Core) (w : Nat × Dword) : Core :=
  let c := c.good (.csr w.1)
  let r := c.csr
  let v := w.2
  match w.1 with
  | 1 => { c with csr := { r with flags := v.setWidth 7 } }
  | 3 => { c with csr := { r with oqbind := v.setWidth 32 } }
  | 4 => { c with csr := { r with sieveCfg := v.setWidth 48 } }
  | 10 => { c with csr := { r with remain := v } }
  | 15 => { c with csr := { r with rngSeed := v } }
  | 16 => { c with csr := { r with rngStep := v.setWidth 32 } }
  | 21 => { c with csr := { r with trapVec := v &&& 0xFFFFFFFD#64 } }
  | 22 => { c with csr := { r with trapPc := v &&& 0xFFFFFFFC#64 } }
  | 23 => { c with csr := { r with wdog := v.setWidth 25 } }
  | n => { c with csr := { r with watch := r.watch.put 0 (n - 24) v } }

end State

/-- CSRR; a register whose code word is bad is consumed (18 R370). -/
def execCsrr (d n : BitVec 5) (s : State) : Out1 :=
  if s.me.bad.any (fun b => b.reg = .csr n.toNat) && !s.me.busy [.x d.toNat] then .next (s.machineCheck s.here .s .uncorrectable 5 n.toNat 0)
  else s.setsXLater [] d (s.csr s.here n.toNat) 2

def execCsrw (n a : BitVec 5) (s : State) : Out1 :=
  let kept := s.csrKept s.here n.toNat (s.me.x a)
  s.scalar [.x a.toNat] [] (s.past (fun c =>
    match kept with
    | some v => { c with csrw := c.csrw ++ [(n.toNat, v)] }
    | none => c))

/-! ## Traps -/

def execTrap (n : BitVec 5) (s : State) : Out1 := .next (s.faultAt s.here .s 0x11 n.toNat)
def execBrk (n : BitVec 5) (s : State) : Out1 := .next (s.faultAt s.here .s 0x12 n.toNat)

/-- ERET; outside a handler it is an unassigned encoding (16 R334, R337). -/
def execEret (s : State) : Out1 :=
  .next (if s.me.inHandler then s.leaveHandler s.here else s.faultAt s.here .s 0x01 0x10000060)

def execNop (s : State) : Out1 := .next (s.past id)

end Sys2Proof.Machine
end

