-- ==== Sys2Proof/Machine/Vector.lean ====
section
/-! DEFINITION. What every vector word shares: registers and masks as it reads them, banks, results within their
bounds, and outlier lists (03 R90, 05 R150, R151, 10 R246 to R251). -/

namespace Sys2Proof

/-- Type code, element count and register numbers of a vector word. -/
def VArgs.t (w : VArgs) : Nat := w.ty.toNat
def VArgs.bits (w : VArgs) : Nat := Machine.widthOf w.t
def VArgs.n (w : VArgs) : Nat := 4096 / w.bits

/-- The fields of a conversion's immediate and parameter (10 R258). -/
def VArgs.srcT (w : VArgs) : Nat := w.immf 3 0
def VArgs.mode (w : VArgs) : Nat := w.immf 5 4
def VArgs.sat (w : VArgs) : Bool := w.immf 6 6 = 1
def VArgs.outl (w : VArgs) : Bool := w.immf 7 7 = 1
def VArgs.wrap (w : VArgs) : Bool := w.immf 8 8 = 1

end Sys2Proof

namespace Sys2Proof.Machine

/-- The latency of a word that takes longer under a floating type. -/
def latFlt (t int flt : Nat) : Nat := if isFlt t then flt else int

/-! ## Registers -/

namespace Core

/-- A result that targets a register has not reached its bound (R90). -/
def inWindow (c : Core) (r : VReg) : Bool := c.cu.windows.any (fun w => w.reg = r)

/-- The window of a result of the C sequencer's current segment. -/
def window (c : Core) (r : VReg) (bound : Nat) : Window := { reg := r, bound := bound, ordinal := c.segNow }

/-- The bank that holds v[n] is lent (R250). -/
def lentReg (c : Core) (n : Nat) : Bool := c.cu.lent.any (fun b => b.bank = n / 16)

/-- v[n] := x with the bound of its result; undefined where another result's window is open (R90). -/
def putV (c : Core) (free bound n : Nat) (x : BitVec 4096) (kept : Nat) : Core :=
  let c1 := c.setV n (if c.inWindow (.v n) then Config.freeBits free 4096 else x) kept
  { c1 with cu := { c1.cu with windows := c1.cu.windows ++ [c.window (.v n) bound] } }

/-- m[n] := x likewise; a write to m0 is discarded (R179). -/
def putM (c : Core) (free bound n : Nat) (x : BitVec 1024) (kept : Nat) : Core :=
  if n = 0 then c
  else
    let c1 := c.setM n (if c.inWindow (.m n) then Config.freeBits free 1024 else x) kept
    { c1 with cu := { c1.cu with windows := c1.cu.windows ++ [c.window (.m n) bound] } }

/-- A register's bank is written by a word of the segment as late as an issue offset (10 R278). -/
def noteBank (c : Core) (off n : Nat) : Core :=
  { c with c := { c.c with seg := c.c.seg.map (fun g =>
      { g with bankDue := g.bankDue.ins (n / 16) (max off (g.bankDue.get 0 (n / 16))) }) } }

end Core

/-- A register as a word leaves it; bit i of `kept` tells that the word does not write code word i whole. -/
structure Put (w : Nat) where
  reg : Nat
  image : BitVec w
  kept : Nat := 0
  deriving DecidableEq, Repr

/-- What a vector word gives: registers, masks and flags. -/
structure VRes where
  vs : List (Put 4096) := []
  ms : List (Put 1024) := []
  fl : Flags := 0
  deriving DecidableEq, Repr

namespace Core

/-- The results of a word: within `bound`, with their flags in the cycle `due` (R247, R251). -/
def results (c : Core) (ctr bound due off : Nat) (r : VRes) : Core :=
  let c1 := r.vs.foldl (fun c x => (c.putV (128 * ctr + 64 + x.reg) bound x.reg x.image x.kept).noteBank off x.reg) c
  let c2 := r.ms.foldl (fun c x => c.putM (32 * ctr + 16 + x.reg) bound x.reg x.image x.kept) c1
  if r.fl = 0 then c2 else { c2 with flagsDue := c2.flagsDue ++ [(due, r.fl)] }

end Core

namespace State

/-- v[n] as a word reads it: undefined before the bound of a result that targets it (R90). -/
def vRead (s : State) (n : Nat) : BitVec 4096 :=
  if s.me.inWindow (.v n) then Config.freeBits (128 * s.freeCtr + n) 4096 else s.me.v n

/-- m[n] as a word reads it; m0 is all true (R179). -/
def mRead (s : State) (n : Nat) : BitVec 1024 :=
  if n = 0 then BitVec.allOnes 1024
  else if s.me.inWindow (.m n) then Config.freeBits (32 * s.freeCtr + n) 1024
  else s.me.m n

/-- The write mask of a word. -/
def vMask (s : State) (w : VArgs) : BitVec 1024 := s.mRead w.mask.toNat

/-- A word issues with its results: `worst` bounds them. `f` is what else it does to its core. -/
def vIssues (s : State) (worst : Nat) (r : VRes) (f : Core → Core) : State :=
  let cyc := s.cycleOf s.here
  let due := cyc + s.latency worst
  (s.issues [] worst (fun c => f (c.results s.freeCtr (cyc + worst) due (s.offsetHere + worst) r))).fresh

/-- A vector word of the segment may still write a register of the bank at the current offset. -/
def bankBusy (s : State) (bank : Nat) : Bool :=
  match s.unitHere.seg with
  | some g => g.clock.getD 0 < g.bankDue.get 0 bank
  | none => false

/-- A VLEND at the current issue offset lends a bank, which passes its own check: words of the other columns at that offset
find it lent (10 R278). -/
def lendsNow (s : State) (bank : Nat) : Bool :=
  s.slotHere ≠ .vl && !s.me.cu.lent.any (fun b => b.bank = bank) && !s.bankBusy bank &&
    (match (s.dueTodo s.here .vl).bind (fun t => decodeTodo .vl t.word) with
     | some (.vlendLend w) => w.immf 1 0 = bank
     | _ => false)

/-- A vector word: OPERAND for a register of a lent bank, its own checks, a bad register consumed among those it reads, or
its effect. -/
def vWord (s : State) (reads writes ms : List Nat) (check : Except (Nat × Nat) Bool) (effect : State) (also : List BadReg := []) : Out1 :=
  s.tryWord [] (checks [need (!(reads ++ writes).any (fun n => s.me.lentReg n || s.lendsNow (n / 16))) (bad 4), check])
    (s.consuming (reads.map .v ++ ms.map .m ++ also) effect)

end State

/-! ## Elements -/

/-- What a word writes to one element, with its flags; none keeps the element. -/
abbrev Lane := Option (Nat × Flags)

/-- The lanes of a masked word (R179). -/
def lanes (n : Nat) (mask : BitVec 1024) (f : Nat → Nat × Flags) : List Lane :=
  (List.range n).map (fun i => if mask.getLsbD i then some (f i) else none)

/-- The lanes of a word that writes every element. -/
def allLanes (n : Nat) (f : Nat → Nat) : List Lane := (List.range n).map (fun i => some (f i, 0))

/-- A register's elements from element `i` on. -/
def laneElems (w : Nat) (old : BitVec 4096) : List Lane → Nat → List Nat
  | [], _ => []
  | l :: t, i => (match l with | some x => x.1 | none => elemAt old w i) :: laneElems w old t (i + 1)

/-- A register with lanes of width `w` written; elements beyond the list keep their value. -/
def laneImage (w : Nat) (old : BitVec 4096) (ls : List Lane) : BitVec 4096 :=
  let k := w * ls.length
  BitVec.ofNat 4096 (packElems w (laneElems w old ls 0) + old.toNat / 2 ^ k * 2 ^ k)

/-- The code words of a register that lanes of width `w` do not write whole. -/
def laneKept (w : Nat) (ls : List Lane) : Nat :=
  let per := 128 / w
  packBits ((List.range 32).map (fun k => (List.range per).any (fun i => (ls.getD (per * k + i) none).isNone)))

/-- The flags of the lanes written (R251). -/
def laneFlags (ls : List Lane) : Flags := orFlags (ls.map (fun l => match l with | some x => x.2 | none => 0))

/-- Every g-th lane from lane j: what register j of a group holds (R249). -/
def groupLanes (g j : Nat) (ls : List Lane) : List Lane := (List.range (ls.length / g)).map (fun k => (ls.getD (g * k + j) none))

namespace State

/-- v[n] with lanes of width `bits` written. -/
def vPut (s : State) (n bits : Nat) (ls : List Lane) : Put 4096 :=
  { reg := n, image := laneImage bits (s.me.v n) ls, kept := laneKept bits ls }

/-- A word of lanes with one destination of width `bits`. -/
def vLanes (s : State) (w : VArgs) (bits : Nat) (srcs ms : List Nat) (worst : Nat) (ls : List Lane) (also : List BadReg := []) : Out1 :=
  s.vWord srcs [w.vd.toNat] (w.mask.toNat :: ms) (.ok false)
    (s.vIssues worst { vs := [s.vPut w.vd.toNat bits ls], fl := laneFlags ls } id) also

/-- An element-wise word at its type: a, b and c are the source registers (R253, R262). -/
def vEach (s : State) (w : VArgs) (srcs : List Nat) (worst : Nat) (f : Nat → Nat → Nat → Nat × Flags) : Out1 :=
  let a := s.vRead w.va.toNat
  let b := s.vRead w.vb.toNat
  let c := s.vRead w.vc.toNat
  s.vLanes w w.bits srcs [] worst
    (lanes w.n (s.vMask w) (fun i => f (elemAt a w.bits i) (elemAt b w.bits i) (elemAt c w.bits i)))

end State

/-- The source registers of words with one, two and three of them. -/
def src1 (w : VArgs) : List Nat := [w.va.toNat]
def src2 (w : VArgs) : List Nat := [w.va.toNat, w.vb.toNat]
def src3 (w : VArgs) : List Nat := [w.va.toNat, w.vb.toNat, w.vc.toNat]

/-- A mask with bits i < n written where their governing bit is set, and bits from n on zero (R255, R270). -/
def maskImage (n : Nat) (mask old : BitVec 1024) (f : Nat → Bool) : BitVec 1024 :=
  BitVec.ofNat 1024 (packBits ((List.range n).map (fun i => if mask.getLsbD i then f i else old.getLsbD i)))

/-- The code words of a mask that `maskImage` does not write whole. -/
def maskKept (n : Nat) (mask : BitVec 1024) : Nat :=
  packBits ((List.range 8).map (fun k => (List.range 128).any (fun i => 128 * k + i < n && !mask.getLsbD (128 * k + i))))

namespace State

/-- A word that writes mask m[vd] (R255, R270). -/
def vMaskWord (s : State) (w : VArgs) (srcs : List Nat) (worst : Nat) (f : Nat → Bool) (also : List BadReg := []) : Out1 :=
  let md := w.vd.toNat
  s.vWord srcs [] [w.mask.toNat] (.ok false)
    (s.vIssues worst { ms := [{ reg := md, image := maskImage w.n (s.vMask w) (s.me.m md) f, kept := maskKept w.n (s.vMask w) }] } id) also

/-! ## Outlier lists (05 R151) -/

/-- The C sequencer's accesses that carry no class of their own act in class 0. -/
def cWho (s : State) : Who := { core := s.here, unit := s.slotHere, cls := 0 }

/-- A little-endian field of the core's own slice, as a word of the C sequencer reads it in class 0. -/
def cField (s : State) (off n : Nat) : Nat := leNat ((List.range n).map (fun i => s.readAs s.cWho (sliceKey s.here (off + i))))

/-- Entries that a list can hold, and its count. -/
def listCap (s : State) (off : Nat) : Nat := s.cField (off + 4) 4
def listCount (s : State) (off : Nat) : Nat := s.cField off 4

/-- The list must lie in the slice (16 R346). -/
def listCheck (s : State) (off : Nat) : Except (Nat × Nat) Bool :=
  checks [need (off % 8 = 0) (bad 5), need (off + 8 + 8 * s.listCap off ≤ sliceBytes) (badAddr sliceBytes)]

/-- The mark of a bad word among bytes of the core's slice. -/
def badBytes (s : State) (off n : Nat) : Option (Nat × Mark) :=
  (List.range n).findSome? (fun i => (s.mem.mark (sliceKey s.here (off + i))).map (fun m => (sliceKey s.here (off + i), m)))

/-- What appends write: offset and byte, in order; and the count after them. -/
def listWrites (off cap : Nat) : Nat → List (Nat × Nat) → List (Nat × Byte)
  | count, [] => (leBytes 4 count).zipIdx.map (fun p => (off + p.2, p.1))
  | count, (idx, val) :: t =>
    let e := if count < cap then (leBytes 8 (idx % 2 ^ 32 + val % 2 ^ 32 * 2 ^ 32)).zipIdx.map (fun p => (off + 8 + 8 * count + p.2, p.1)) else []
    e ++ listWrites off cap ((count + 1) % 2 ^ 32) t

/-- Outliers (index, f32 value) appended to a list within `worst` cycles, with the watchpoints they touch, by a word of C or
the matrix engine (18 R381). -/
def appendList (s : State) (who : Who) (off worst : Nat) (items : List (Nat × Nat)) : State :=
  if items = [] then s
  else
    let ws := (listWrites off (s.listCap off) (s.listCount off) items).map (fun w => (sliceKey s.here w.1, w.2))
    let s := s.readLocal who ((List.range 8).map (fun i => sliceKey s.here (off + i)))
    ((s.writeAs who (s.behind who) ws worst false).watchSlice (if who.unit = .mc then 4 else 2) s.here true (ws.map (fun w => w.1))).fresh

end State
end Sys2Proof.Machine
end

