-- ==== Sys2Proof/Machine/VecA.lean ====
section
/-! DEFINITION. The VA column: element-wise arithmetic, logic, compares and conversions (10 R253 to R261). -/

namespace Sys2Proof.Machine

/-! ## Element operations -/

/-- |a| and -a (R253). -/
def elemAbs (t a : Nat) : Nat :=
  if isInt t then wrapTo t (if isSigned t then (intOf t a).natAbs else a)
  else if (numOf t a).isNan then nanOf t else a % 2 ^ (widthOf t - 1)

def elemNeg (t a : Nat) : Nat :=
  if isInt t then wrapTo t (-(a : Int))
  else if (numOf t a).isNan then nanOf t else a ^^^ 2 ^ (widthOf t - 1)

/-- Shifts by a count below the width (R254). -/
def elemShl (t a c : Nat) : Nat := a * 2 ^ c % 2 ^ widthOf t
def elemShr (a c : Nat) : Nat := a / 2 ^ c
def elemSar (t a c : Nat) : Nat := if isSigned t then wrapTo t (intOf t a / (2 ^ c : Nat)) else a / 2 ^ c

/-- A compare by its condition code (R255). -/
def elemCmp (t cond a b : Nat) : Bool :=
  let x := numOf t a
  let y := numOf t b
  let un := x.isNan || y.isNan
  match cond with
  | 0 => x.eqv y
  | 1 => !x.eqv y
  | 2 => x.lt y
  | 3 => x.lt y || x.eqv y
  | 4 => y.lt x
  | 5 => y.lt x || x.eqv y
  | _ => un

/-- MIN(MAX(a, lo), hi), saturated when the value changes (R257). -/
def elemClamp (t a lo hi : Nat) : Nat × Flags :=
  let d := elemMin t (elemMax t a lo) hi
  let nan := (numOf t a).isNan || (numOf t lo).isNan || (numOf t hi).isNan
  (d, flagIf (!nan && !(numOf t d).eqv (numOf t a)) flSaturated)

def execVadd (w : VArgs) (s : State) : Out1 := s.vEach w (src2 w) (latFlt w.t 2 4) (fun a b _ => elemAdd w.t a b)
def execVsub (w : VArgs) (s : State) : Out1 := s.vEach w (src2 w) (latFlt w.t 2 4) (fun a b _ => elemSub w.t a b)
def execVmin (w : VArgs) (s : State) : Out1 := s.vEach w (src2 w) 2 (fun a b _ => (elemMin w.t a b, 0))
def execVmax (w : VArgs) (s : State) : Out1 := s.vEach w (src2 w) 2 (fun a b _ => (elemMax w.t a b, 0))
def execVabs (w : VArgs) (s : State) : Out1 := s.vEach w (src1 w) 2 (fun a _ _ => (elemAbs w.t a, 0))
def execVneg (w : VArgs) (s : State) : Out1 := s.vEach w (src1 w) 2 (fun a _ _ => (elemNeg w.t a, 0))
def execVand (w : VArgs) (s : State) : Out1 := s.vEach w (src2 w) 2 (fun a b _ => (a &&& b, 0))
def execVor (w : VArgs) (s : State) : Out1 := s.vEach w (src2 w) 2 (fun a b _ => (a ||| b, 0))
def execVxor (w : VArgs) (s : State) : Out1 := s.vEach w (src2 w) 2 (fun a b _ => (a ^^^ b, 0))

/-- The shift count of element i: imm[4:0] or the element of vb, modulo the width (R254). -/
def shiftCount (w : VArgs) (b : Nat) : Nat := (if w.immf 15 15 = 1 then w.immf 4 0 else b) % w.bits

/-- The registers that a shift reads. -/
def shiftSrc (w : VArgs) : List Nat := if w.immf 15 15 = 1 then src1 w else src2 w

def execVshl (w : VArgs) (s : State) : Out1 :=
  s.vEach w (shiftSrc w) 2 (fun a b _ => (elemShl w.t a (shiftCount w b), 0))
def execVshr (w : VArgs) (s : State) : Out1 :=
  s.vEach w (shiftSrc w) 2 (fun a b _ => (elemShr a (shiftCount w b), 0))
def execVsar (w : VArgs) (s : State) : Out1 :=
  s.vEach w (shiftSrc w) 2 (fun a b _ => (elemSar w.t a (shiftCount w b), 0))

def execVcmp (w : VArgs) (s : State) : Out1 :=
  let a := s.vRead w.va.toNat
  let b := s.vRead w.vb.toNat
  s.vMaskWord w (src2 w) 2 (fun i => elemCmp w.t (w.immf 2 0) (elemAt a w.bits i) (elemAt b w.bits i))

def execVsel (w : VArgs) (s : State) : Out1 :=
  let a := s.vRead w.va.toNat
  let b := s.vRead w.vb.toNat
  let mc := s.mRead w.vc.toNat
  s.vLanes w w.bits (src2 w) [w.vc.toNat] 2
    (lanes w.n (s.vMask w) (fun i => (elemAt (if mc.getLsbD i then a else b) w.bits i, 0)))

def execVclmp (w : VArgs) (s : State) : Out1 := s.vEach w (src3 w) 2 (fun a b c => elemClamp w.t a b c)

/-! ## Conversions (R258) -/

namespace State

/-- The index that a conversion of element i uses for the whisk and its outlier entry. -/
def convIndex (s : State) (w : VArgs) (i : Nat) : Nat := (fieldOf (s.pHere (w.vb.setWidth 3)) 63 32 + i) % 2 ^ 32

/-- The offset of the outlier list. -/
def convList (s : State) (w : VArgs) : Nat := fieldOf (s.pHere (w.vb.setWidth 3)) 20 0

/-- The high half of the whisk of element i (05 R140 to R142). -/
def convWhisk (s : State) (w : VArgs) (i : Nat) : Nat := whiskHigh s.me.csr.rngSeed s.me.csr.rngStep (s.convIndex w i)

/-- CONVERT of an exact value at element i of a conversion word. -/
def convElem (s : State) (w : VArgs) (i : Nat) (x : Num) : Conv :=
  convert w.t w.mode w.sat w.outl (if w.mode = 2 then s.convWhisk w i else 0) x

/-- CONVERT of element bits: equal types copy (R259), an infinity in outlier mode too, which 05 R150 would make an outlier:
the model's choice (log 59). -/
def convBits (s : State) (w : VArgs) (i b : Nat) : Conv :=
  if w.srcT = w.t then { bits := sameType w.t b } else s.convElem w i (numOf w.srcT b)

/-- The outliers of a list of conversions, with their indices, ascending. -/
def outliers (s : State) (w : VArgs) (cs : List (Option Conv)) : List (Nat × Nat) :=
  cs.zipIdx.filterMap (fun p =>
    match p.1 with
    | some c => c.outlier.map (fun v => (s.convIndex w p.2, v))
    | none => none)

/-- The conversions of a masked word. -/
def convLanes (n : Nat) (mask : BitVec 1024) (f : Nat → Conv) : List (Option Conv) :=
  (List.range n).map (fun i => if mask.getLsbD i then some (f i) else none)

/-- Conversions as lanes. -/
def asLanes (cs : List (Option Conv)) : List Lane := cs.map (fun c => c.map (fun x => (x.bits, x.flags)))

/-- The control registers that a random draw reads (05 R140). -/
def rngRegs : List BadReg := [.csr 15, .csr 16]

/-- A conversion word: the list is checked and its entries appended in outlier mode, each adding 2 cycles. -/
def vConv (s : State) (w : VArgs) (vs : List Nat) (worst : Nat) (cs : List (Option Conv)) (r : VRes) : Out1 :=
  let items := s.outliers w cs
  let late := worst + 2 * items.length
  let off := s.convList w
  s.vWord vs (r.vs.map (fun v => v.reg)) [w.mask.toNat] (if w.outl then s.listCheck off else .ok false)
    (also := (if w.outl || w.mode = 2 then [s.pWord (w.vb.toNat % 8)] else []) ++ (if w.mode = 2 then rngRegs else []))
    (match (if w.outl then s.badBytes off 8 else none) with
     | some (k, m) => s.consumeBad s.here s.slotHere k m
     | none => (s.appendList s.cWho off late items).vIssues late r id)

end State

def execVcvt (w : VArgs) (s : State) : Out1 :=
  let ws := widthOf w.srcT
  let a := s.vRead w.va.toNat
  let cs := State.convLanes (4096 / max ws w.bits) (s.vMask w) (fun i => s.convBits w i (elemAt a ws i))
  let ls := State.asLanes cs
  s.vConv w [w.va.toNat] 4 cs
    { vs := [s.vPut w.vd.toNat w.bits ls], fl := laneFlags ls }

def execVwid (w : VArgs) (s : State) : Out1 :=
  let ws := widthOf w.srcT
  let g := w.bits / ws
  let a := s.vRead w.va.toNat
  let cs := State.convLanes (4096 / ws) (s.vMask w) (fun i => s.convBits w i (elemAt a ws i))
  let ls := State.asLanes cs
  let outs := (List.range g).map (fun j => w.vd.toNat + j)
  s.vConv w [w.va.toNat] 4 cs
    { vs := outs.zipIdx.map (fun p => s.vPut p.1 w.bits (groupLanes g p.2 ls)), fl := laneFlags ls }

def execVnar (w : VArgs) (s : State) : Out1 :=
  let ws := widthOf w.srcT
  let g := ws / w.bits
  let srcs := (List.range g).map (fun j => w.va.toNat + j)
  let imgs := srcs.map s.vRead
  let elem (i : Nat) : Nat := elemAt (imgs.getD (i % g) 0) ws (i / g)
  let cs := State.convLanes w.n (s.vMask w) (fun i =>
    if w.wrap then { bits := elem i % 2 ^ w.bits } else s.convBits w i (elem i))
  let ls := State.asLanes cs
  s.vConv w srcs 4 cs
    { vs := [s.vPut w.vd.toNat w.bits ls], fl := laneFlags ls }

end Sys2Proof.Machine
end

