-- ==== Sys2Proof/Machine/VecM.lean ====
section
/-! DEFINITION. The VM column: products, dot products, block scaling and quantisation (10 R262 to R266). -/

namespace Sys2Proof.Machine

/-- A product at its type (R262). -/
def elemMul (t a b : Nat) : Nat × Flags :=
  if isInt t then (wrapTo t (intOf t a * intOf t b), 0) else rneOp t ((numOf t a).mul (numOf t b))

/-- ±(a × b) ± c with one rounding; an infinity times zero is invalid even beside a NaN (05 R153). -/
def elemFma (t : Nat) (negp negc : Bool) (a b c : Nat) : Nat × Flags :=
  if isInt t then
    let p := intOf t a * intOf t b
    wrapTo t ((if negp then -p else p) + (if negc then -intOf t c else intOf t c)) |> (·, 0)
  else
    let (p, i) := (numOf t a).mul (numOf t b)
    let x := numOf t c
    let (r, j) := (if negp then p.neg else p).add (if negc then x.neg else x)
    rneOp t (r, i || j)

def elemMulh (t a b : Nat) : Nat := wrapTo t (intOf t a * intOf t b / (2 ^ widthOf t : Nat))

def execVmul (w : VArgs) (s : State) : Out1 := s.vEach w (src2 w) (latFlt w.t 4 5) (fun a b _ => elemMul w.t a b)
def execVfma (w : VArgs) (s : State) : Out1 := s.vEach w (src3 w) 5 (elemFma w.t false false)
def execVfms (w : VArgs) (s : State) : Out1 := s.vEach w (src3 w) 5 (elemFma w.t false true)
def execVfnma (w : VArgs) (s : State) : Out1 := s.vEach w (src3 w) 5 (elemFma w.t true false)
def execVmulh (w : VArgs) (s : State) : Out1 := s.vEach w (src2 w) 4 (fun a b _ => (elemMulh w.t a b, 0))

/-- A product at the double width (R263). The rule says that a product of two bf16 numbers fits f32; one beyond its range is
rounded like any result, with its flags (the model's choice, log 59). -/
def elemMulw (t a b : Nat) : Nat × Flags :=
  if isInt t then (wrapTo (t + 1) (intOf t a * intOf t b), 0) else rneOp 12 ((numOf t a).mul (numOf t b))

def execVmulw (w : VArgs) (s : State) : Out1 :=
  let a := s.vRead w.va.toNat
  let b := s.vRead w.vb.toNat
  let ls := lanes w.n (s.vMask w) (fun i => elemMulw w.t (elemAt a w.bits i) (elemAt b w.bits i))
  let outs := [w.vd.toNat, w.vd.toNat + 1]
  s.vWord (src2 w) outs [w.mask.toNat] (.ok false)
    (s.vIssues 5 { vs := outs.zipIdx.map (fun p => s.vPut p.1 (2 * w.bits) (groupLanes 2 p.2 ls))
                   fl := laneFlags ls } id)

/-- Lane j of VDOT: c + the exact sum of g products, rounded once (R264, 05 R159). -/
def dotLane (t : Nat) (as bs : List Nat) (c : Nat) : Nat × Flags :=
  if isInt t then
    (((c : Int) + ((as.zip bs).map (fun p => intOf t p.1 * intOf t p.2)).sum) % (2 ^ 32 : Nat)).toNat |> (·, 0)
  else
    let ps := (as.zip bs).map (fun p => (numOf t p.1).mul (numOf t p.2))
    let (r, i) := sumNums (numOf 12 c :: ps.map (fun p => p.1))
    rneOp 12 (r, i || ps.any (fun p => p.2))

def execVdot (w : VArgs) (s : State) : Out1 :=
  let a := s.vRead w.va.toNat
  let b := s.vRead w.vb.toNat
  let c := s.vRead w.vc.toNat
  let g := 32 / w.bits
  let part (v : BitVec 4096) (j : Nat) : List Nat := (List.range g).map (fun t => elemAt v w.bits (g * j + t))
  s.vLanes w 32 (src3 w) [] 6 (lanes 128 (s.vMask w) (fun j => dotLane w.t (part a j) (part b j) (elemAt c 32 j)))

/-- a × 2^(s - 127); a scale of 0xFF is invalid (R265). -/
def elemScale (t a sc : Nat) : Nat × Flags :=
  if sc = 255 then (nanOf t, flInvalid) else rne t ((numOf t a).scale ((sc : Int) - 127))

def execVscl (w : VArgs) (s : State) : Out1 :=
  let a := s.vRead w.va.toNat
  let b := s.vRead w.vb.toNat
  s.vLanes w w.bits (src2 w) [] 4 (lanes w.n (s.vMask w) (fun i => elemScale w.t (elemAt a w.bits i) (elemAt b 8 (i / 32))))

/-! ## VQNT (R266) -/

/-- floor(log2 |x|) of a finite nonzero number. -/
def Num.top : Num → Option Int
  | .fin _ man exp => if man = 0 then none else some (exp + log2 man)
  | _ => none

/-- The exponent ceiling of a target. -/
def quantTop (t : Nat) : Int := match t with | 8 => 8 | 9 => 15 | 1 => 6 | _ => 3

/-- es of one block from its live numbers: 0 when there is no finite nonzero one. -/
def blockShift (t : Nat) (xs : List Num) : Int :=
  match (xs.filterMap Num.top).max? with
  | none => 0
  | some m => max (-127) (min 127 (m - quantTop t))

def execVqnt (w : VArgs) (s : State) : Out1 :=
  let ws := widthOf w.srcT
  let n := 4096 / max ws w.bits
  let a := s.vRead w.va.toNat
  let mask := s.vMask w
  let shift (k : Nat) : Int :=
    blockShift w.t (((List.range 32).filter (fun i => mask.getLsbD (32 * k + i))).map (fun i => numOf w.srcT (elemAt a ws (32 * k + i))))
  let shifts := (List.range (n / 32)).map shift
  let cs := State.convLanes n mask (fun i => s.convElem w i ((numOf w.srcT (elemAt a ws i)).scale (-(shifts.getD (i / 32) 0))))
  let ls := State.asLanes cs
  let scales : List Lane := shifts.map (fun e => some ((e + 127).toNat, 0))
  s.vConv w [w.vd.toNat, w.va.toNat, w.vc.toNat] 10 cs
    { vs := [s.vPut w.vd.toNat w.bits ls, s.vPut w.vc.toNat 8 scales]
      fl := laneFlags ls }

end Sys2Proof.Machine
end

