-- ==== Sys2Proof/Machine/Array.lean ====
section
/-! DEFINITION. The matrix array: operands, planes, accumulators and checksums, and what a command does when it reads and
writes them (05 R158 to R161; 11 R280 to R289, R296 to R302; 18 R370; 20 R408, R409). -/

namespace Sys2Proof.Machine

/-! ## The shape -/

/-- ASHAPE: bands that take part and active columns (R281). -/
def shapeBands (a : BitVec 64) : Nat := fieldOf a 3 0
def shapeCols (a : BitVec 64) : Nat := fieldOf a 15 8 + 1

/-- The value that an MSHAPE writes (R295). -/
def shapeOf (w : MArgs) : BitVec 64 := BitVec.ofNat 64 (w.opf 11 4 * 2 ^ 8 + w.opf 3 0)

/-- Bands of a mask, ascending. -/
def bandList (b : Nat) : List Nat := (List.range 4).filter (bitOf b)

/-- MACs per cell of an operand format; 0 for a type outside R282's set. -/
def mpcOf (t : Nat) : Nat :=
  match t with
  | 10 | 11 => 1
  | 1 | 8 | 9 => 2
  | 13 => 4
  | _ => 0

/-! ## Products and planes -/

/-- The product of two lg6 elements; an invalid one is a NaN (R145). -/
def lg6Mul (a b : Nat) : Num × Bool :=
  let x := a % 64
  let y := b % 64
  if x = 0x20 || y = 0x20 then (.nan, true)
  else if x = 0 || y = 0 then (.fin false 0 0, false)
  else (lgNum (x / 32 ≠ y / 32) ((x % 32 + y % 32 : Nat) - 32 : Int), false)

/-- A product of operand elements of formats `ta`, `tb`; one of integers is never -0 (R159). -/
def macMul (ta tb a b : Nat) : Num × Bool :=
  if ta = 13 && tb = 13 then lg6Mul a b
  else
    let r := (numOf ta a).mul (numOf tb b)
    if isInt ta && isInt tb && r.1.isZero then (.fin false 0 0, false) else r

/-- A number times 2^(s - 127); a scale of 0xFF is NaN (R158, R159). -/
def scaleBy (s : Nat) (x : Num) : Num := if s = 255 then .nan else x.scale ((s : Int) - 127)

/-- RNE(acc + x, f32) with the flags of the sum. -/
def accumulate (acc : BitVec 32) (x : Num) : BitVec 32 × Flags :=
  let r := rneOp 12 ((numOf 12 acc.toNat).add x)
  (BitVec.ofNat 32 r.1, r.2)

namespace Plane

def cell (p : Plane) (k n : Nat) : Nat := (p.cells.get 0 (256 * k + n)).toNat
def scale (p : Plane) (b n : Nat) : Nat := (p.scales.get 0x7F (256 * b + n)).toNat

end Plane

namespace Quad

def accAt (q : Quad) (r n : Nat) : BitVec 32 := q.acc.get 0 (256 * r + n)
def setAcc (q : Quad) (r n : Nat) (v : BitVec 32) : Quad := { q with acc := q.acc.put 0 (256 * r + n) v }
def setRc (q : Quad) (r : Nat) (v : BitVec 32) : Quad := { q with rc := q.rc.put 0 r v }
def setCc (q : Quad) (n : Nat) (v : BitVec 32) : Quad := { q with cc := q.cc.put 0 n v }
def activeAt (q : Quad) (j : Nat) : Plane := q.active.get {} j
def shadowAt (q : Quad) (j : Nat) : Plane := q.shadow.get {} j

end Quad

/-- One block of an MMUL row: the exact block sum and whether an operation in it was invalid. -/
def blockSum (ta tb : Nat) (as bs : List Nat) : Num × Bool :=
  let ps := (as.zip bs).map (fun p => macMul ta tb p.1 p.2)
  let r := sumNums (ps.map (fun p => p.1))
  (r.1, r.2 || ps.any (fun p => p.2))

/-- What an MMUL has of its operands: formats, rows of A with their block scales, column count and checksum flag. -/
structure MulArgs where
  ta : Nat
  tb : Nat
  rows : Nat
  arow : Nat
  nb : Nat
  nc : Nat
  cs : Bool
  /-- A elements by row, then K -/
  a : List Nat
  /-- A scales by row, then block -/
  sa : List Nat

namespace MulArgs

def scaleA (x : MulArgs) (m b : Nat) : Nat := x.sa.getD (m * x.nb + b) 0x7F
def rowA (x : MulArgs) (m b : Nat) : List Nat := (x.a.drop (m * 32 * x.nb + 32 * b)).take 32

end MulArgs

/-- Column n of a block of a plane. -/
def columnB (p : Plane) (lb n : Nat) : List Nat := (List.range 32).map (fun k => p.cell (32 * lb + k) n)

/-- Block b over all rows and columns: accumulators, then the row checksum (R298). `p`, `lb`: the plane and the block's
place in it. -/
def mulBlock (x : MulArgs) (p : Plane) (lb b : Nat) (q : Quad) : Quad × Flags :=
  let cols := (List.range x.nc).map (fun n => (n, columnB p lb n, p.scale lb n))
  (List.range x.rows).foldl (fun (st : Quad × Flags) m =>
    let r := x.arow + m
    let as := x.rowA m b
    let sa := x.scaleA m b
    let st := cols.foldl (fun (st : Quad × Flags) c =>
      let (sum, inv) := blockSum x.ta x.tb as c.2.1
      let v := accumulate (st.1.accAt r c.1) (scaleBy c.2.2 (scaleBy sa sum))
      (st.1.setAcc r c.1 v.1, st.2 ||| v.2 ||| flagIf (inv || sa = 255 || c.2.2 = 255) flInvalid)) st
    if x.cs then
      let terms := as.zipIdx.map (fun a => (scaleBy sa (numOf x.ta a.1)).mul (p.eb.get (.fin false 0 0) (32 * lb + a.2)) |>.1)
      (st.1.setRc r (accumulate (st.1.rc.get 0 r) (sumNums terms).1).1, st.2)
    else st) (q, 0)

/-- The column checksums of block b (R298). -/
def mulColumns (x : MulArgs) (p : Plane) (lb b : Nat) (q : Quad) : Quad :=
  (List.range x.nc).foldl (fun (q : Quad) n =>
    let col := columnB p lb n
    let terms := (List.range x.rows).flatMap (fun m =>
      ((x.rowA m b).zip col).map (fun e => scaleBy (p.scale lb n) (scaleBy (x.scaleA m b) (macMul x.ta x.tb e.1 e.2).1)))
    q.setCc n (accumulate (q.cc.get 0 n) (sumNums terms).1).1) q

/-- The whole MMUL, in ascending blocks (R158). -/
def mulAll (x : MulArgs) (bands : List Nat) (q : Quad) : Quad × Flags :=
  let mpc := mpcOf x.tb
  (List.range x.nb).foldl (fun (st : Quad × Flags) b =>
    let p := st.1.activeAt (bands.getD (b / mpc) 0)
    let (q, f) := mulBlock x p (b % mpc) b st.1
    (if x.cs then mulColumns x p (b % mpc) b q else q, st.2 ||| f)) (q, 0)

/-- The shadow plane of the i-th band taking part: B elements by K then column, its scales and row sums (R296). -/
def loadPlane (fmt : Nat) (block cs : Bool) (nc mpc i : Nat) (b sb : List Nat) : Plane :=
  let rows := List.range (32 * mpc)
  let at_ (k n : Nat) : Nat := b.getD ((32 * mpc * i + k) * nc + n) 0 % (if fmt = 13 then 64 else 2 ^ 16)
  let sc (lb n : Nat) : Nat := if block then sb.getD ((mpc * i + lb) * nc + n) 0x7F else 0x7F
  { info := some { fmt := BitVec.ofNat 4 fmt, block := block, cs := cs, nc := nc }
    cells := (rows.flatMap (fun k => (List.range nc).map (fun n => (256 * k + n, BitVec.ofNat 16 (at_ k n))))).filter (fun e => e.2 ≠ 0)
    scales := ((List.range mpc).flatMap (fun lb => (List.range nc).map (fun n => (256 * lb + n, BitVec.ofNat 8 (sc lb n))))).filter (fun e => e.2 ≠ 0x7F)
    eb := if cs then rows.map (fun k =>
        (k, (sumNums ((List.range nc).map (fun n => scaleBy (sc (k / 32) n) (numOf fmt (at_ k n))))).1))
      else [] }

/-- Every band taking part has an active record that fits the format word (R298, R301). -/
def recordsOk (q : Quad) (bl : List Nat) (fmt : Nat) (block : Bool) (nc : Nat) (cs : Bool) : Bool :=
  bl.all (fun j => match (q.activeAt j).info with
    | some r => r.fmt.toNat = fmt && r.block = block && nc ≤ r.nc && (!cs || r.cs)
    | none => false)

/-- Rows set to +0.0 with their row checksums. -/
def zeroRows (q : Quad) (arow rows : Nat) : Quad :=
  let out (r : Nat) : Bool := r < arow || arow + rows ≤ r
  { q with acc := q.acc.filter (fun e => out (e.1 / 256)), accBad := q.accBad.filter (fun e => out (e.1 / 64)), rc := q.rc.filter (fun e => out e.1) }

/-! ## Error injection (20 R409) -/

/-- An armed injection fires at a trigger command: `chk` for MCHK, the rows and columns it reads. The check bits of the word
that it strikes are computed again, so that the word is good. -/
def inject (q : Quad) (chk : Bool) (arow rows nc : Nat) : Quad :=
  let i := q.errInj
  let r := i.row.toNat
  let inRows : Bool := arow ≤ r && r < arow + rows
  let bit : BitVec 32 := 1#32 <<< i.bit.toNat
  let done (q : Quad) : Quad := { q with errInj := { i with arm := false, fired := satNat 8 (i.fired.toNat + 1) } }
  if !i.arm then q
  else if i.target = 0 && inRows && i.column.toNat < nc then
    let w := 64 * r + i.column.toNat / 4
    done { q.setAcc r i.column.toNat (q.accAt r i.column.toNat ^^^ bit) with accBad := q.accBad.filter (fun e => e.1 ≠ w) }
  else if i.target = 1 && chk && inRows then done (q.setRc r (q.rc.get 0 r ^^^ bit))
  else if i.target = 2 && chk && i.column.toNat < nc then done (q.setCc i.column.toNat (q.cc.get 0 i.column.toNat ^^^ bit))
  else q

/-! ## Drains and corrections (R300 to R302) -/

/-- One drained element: RNE(acc × tscale, f32), then CONVERT (05 R160). An outlier keeps the flags of the first rounding,
which R150 does not speak of: the model's choice (log 59). -/
def drainElem (x : MatCtx) (acc : BitVec 32) (index : Nat) : Conv :=
  let mode := fieldOf x.fmt 19 18
  let y := elemMul 12 acc.toNat (fieldOf x.fmt 63 32)
  let h := if mode = 2 then whiskHigh x.seed x.rstep index else 0
  let c := convert (fieldOf x.fmt 23 20) mode (x.fmt.getLsbD 17) (x.fmt.getLsbD 15) h (numOf 12 y.1)
  { c with flags := c.flags ||| y.2 }

/-- One entry of an outlier list applied (05 R161, R301). A scale of 0xFF raises invalid, as R159 has it for a block; the
manual names no flag of MOCR for it: the model's choice (log 59). -/
def applyOutlier (fmt mpc : Nat) (bl : List Nat) (nc arow index value : Nat) (st : Quad × Flags) : Quad × Flags :=
  let i := arow + index / 512
  let k := index % 512
  let p := st.1.activeAt (bl.getD (k / 32 / mpc) 0)
  let pos := k % (32 * mpc)
  let cs := match p.info with | some r => r.cs | none => false
  let v := numOf 12 value
  let st := (List.range nc).foldl (fun (st : Quad × Flags) n =>
    let sb := p.scale (pos / 32) n
    let (x, inv) := v.mul (numOf fmt (p.cell pos n))
    let x := scaleBy sb x
    let r := accumulate (st.1.accAt i n) x
    let q := st.1.setAcc i n r.1
    let q := if cs then q.setCc n (accumulate (q.cc.get 0 n) x).1 else q
    (q, st.2 ||| r.2 ||| flagIf (inv || sb = 255) flInvalid)) st
  if cs then (st.1.setRc i (accumulate (st.1.rc.get 0 i) (v.mul (p.eb.get (.fin false 0 0) pos)).1).1, st.2) else st

/-- The add tree of a list padded with -0.0 (R302). -/
def addTree (xs : List Nat) : Nat := (treeOf (combine 12 0) 10 (xs ++ List.replicate (2 ^ (if xs.length ≤ 1 then 0 else (xs.length - 1).log2 + 1) - xs.length) 0x80000000)).1

/-- A residue is bad: NaN or of a magnitude above the tolerance. -/
def badResidue (tau x : Nat) : Bool := (numOf 12 x).isNan || (numOf 12 tau).lt (numOf 12 x).abs

/-- The bytes MCHK writes from soff on. -/
def checkBytes (q : Quad) (arow rows nc tau : Nat) : List Byte :=
  let acc (r n : Nat) : Nat := (q.accAt r n).toNat
  let rr := (List.range rows).map (fun m => (elemSub 12 (q.rc.get 0 (arow + m)).toNat (addTree ((List.range nc).map (acc (arow + m))))).1)
  let cr := (List.range nc).map (fun n => (elemSub 12 (q.cc.get 0 n).toNat (addTree ((List.range rows).map (fun m => acc (arow + m) n)))).1)
  let first (l : List Nat) : Nat := (l.findIdx? (badResidue tau)).getD 0xFFFFFFFF
  let pad := alignUp (4 * (rows + nc)) 16 - 4 * (rows + nc)
  (rr ++ cr).flatMap (leBytes 4) ++ List.replicate pad 0 ++
    ([rr.countP (badResidue tau), cr.countP (badResidue tau), first rr, first cr]).flatMap (leBytes 4)

/-! ## Scratchpad accesses of VL and MC words (R252, R289) -/

/-- Two lists of slice offsets share a byte. -/
def meetKeys (a b : List Nat) : Bool := a.any (fun k => b.contains k)

/-- The slice offsets that elements touch. -/
def touched (e : Ent) (xs : List Elem) : List Nat := (xs.filter (fun x => !x.outside)).flatMap (elemBytes e)

/-- Elements read in order where wanted; one not wanted gives zero. The first bad word consumed is named. -/
def loadElems (who : Who) (e : Ent) : List (Elem × Bool) → Acc → Acc × List Nat × Option (Nat × Mark)
  | [], a => (a, [], none)
  | (x, want) :: t, a =>
    let r : Acc × Nat × Option (Nat × Mark) :=
      if !want then (a, 0, none)
      else
        match a.read who e x with
        | (b, .ok (v, m)) => (b, v, m)
        | (b, .error _) => (b, 0, none)
    let (c, vs, m) := loadElems who e t r.1
    (c, r.2.1 :: vs, if r.2.2.isSome then r.2.2 else m)

/-- Elements written in order. -/
def storeElems (who : Who) (e : Ent) : List (Elem × Nat) → Acc → Acc
  | [], a => a
  | (x, v) :: t, a => storeElems who e t (a.write who e x v false).1

/-! ## What a command has captured (R284 to R286) -/

/-- Element (c0 + i, c1 + j) of a tile operand. -/
def tileElem (e : Ent) (coord i j : Nat) : Elem :=
  let (c0, c1, c2, c3) := coordOf coord
  denseElem e (c0 + i : Nat) (c1 + j) c2 c3

/-- The fields of a descriptor (R285). -/
def dSoff (d : Dword) : Nat := fieldOf d 40 20
def dFlag (d : Dword) : Bool := d.getLsbD 19
def dRows (d : Dword) : Nat := fieldOf d 18 9
def dArow (d : Dword) : Nat := fieldOf d 8 0

/-- A word names a lent bank, and which. -/
def isBank (w : MArgs) : Bool := w.opf 18 18 = 1
def opBank (w : MArgs) : Nat := w.opf 14 13

/-- Slice offsets from one on. -/
def byteKeys (off n : Nat) : List Nat := (List.range (min n (sliceBytes - off))).map (fun i => off + i)

namespace MatCtx

def ent' (x : MatCtx) : Ent := entOf x.ent
def bands (x : MatCtx) : List Nat := bandList (shapeBands x.shape)
def ncols (x : MatCtx) : Nat := shapeCols x.shape
def block (x : MatCtx) : Bool := x.fmt.getLsbD 16
def cs (x : MatCtx) : Bool := x.fmt.getLsbD 14
def outl (x : MatCtx) : Bool := x.fmt.getLsbD 15
def afmt (x : MatCtx) : Nat := fieldOf x.fmt 31 28
def bfmt (x : MatCtx) : Nat := fieldOf x.fmt 27 24
def ofmt (x : MatCtx) : Nat := fieldOf x.fmt 23 20
/-- blocks of K (R283) -/
def nb (x : MatCtx) : Nat := x.bands.length * mpcOf x.bfmt

/-- The elements of a tile operand of `inner` by `outer`, inner fastest. -/
def elems (x : MatCtx) (inner outer : Nat) : List Elem :=
  (List.range outer).flatMap (fun j => (List.range inner).map (fun i => tileElem x.ent' x.coord i j))

/-- Slice offsets of a tile operand. -/
def keys (x : MatCtx) (xs : List Elem) : List Nat := if isBank x.w then [] else touched x.ent' xs

end MatCtx

namespace State

def quadHere (s : State) : Quad := s.quadAt (quadOf s.here)
def mcWho (s : State) : Who := { core := s.here, unit := .mc, cls := 0 }

/-- The array of the quad as a command leaves it. -/
def putArray (s : State) (r : Quad) : State :=
  s.modQuad (quadOf s.here) (fun v => { v with
    active := r.active, shadow := r.shadow, acc := r.acc, accBad := r.accBad, rc := r.rc, cc := r.cc, errInj := r.errInj })

/-! ## Bad words that a command consumes (18 R370) (log 58) -/

/-- A machine check for the first bad byte among `n` of the slice from `off` on. -/
def sliceLost (s : State) (off n : Nat) : Option State := (s.badBytes off n).map (fun p => s.consumeBad s.here .mc p.1 p.2)

/-- A machine check for a bad word of the accumulators of some rows and the first `nc` columns. -/
def accLost (s : State) (q : Quad) (arow rows nc : Nat) : Option State :=
  (q.accBad.find? (fun e => e.2 ≠ .correctable && arow ≤ e.1 / 64 && e.1 / 64 < arow + rows && e.1 % 64 * 4 < nc)).map
    (fun e => s.machineCheck s.here .mc e.2 3 (quadOf s.here) 0)

/-- Correctable words of the accumulators of some rows and the first `nc` columns are written back corrected and counted by the
quad's stack (18 R368, R373) (log 58). -/
def accFixed (s : State) (arow rows nc : Nat) : State :=
  let q := quadOf s.here
  let hit (e : Nat × Mark) : Bool := e.2 = .correctable && arow ≤ e.1 / 64 && e.1 / 64 < arow + rows && e.1 % 64 * 4 < nc
  let fixed := (s.quadAt q).accBad.filter hit
  if fixed = [] then s
  else (s.modQuad q (fun v => { v with accBad := v.accBad.filter (fun e => !hit e) })).countCorrected (fixed.map (fun _ => sliceKey s.here 0))

/-- A machine check for a bad word of an active plane at one of the K positions `ks` of its band and the first `nc`
columns. -/
def planeLost (s : State) (q : Quad) (nc : Nat) (at_ : List (Nat × List Nat)) : Option State :=
  at_.findSome? (fun p =>
    ((q.activeAt p.1).bad.find? (fun e => e.2 ≠ .correctable && p.2.contains (e.1 / 32) && e.1 % 32 * 8 < nc)).map
      (fun e => s.machineCheck s.here .mc e.2 8 p.1 0))

/-- A machine check for a bad register of a lent bank among those that hold `count` elements. -/
def bankLost (s : State) (bank width count : Nat) : Option State :=
  ((List.range (ceilDiv (count * width) 4096)).find? (fun i => s.me.bad.any (fun b => b.reg = .v (16 * bank + i)))).map
    (fun i => s.machineCheck s.here .mc .uncorrectable 5 (16 * bank + i) 0)

/-- The values of a read operand. A bank's come from its registers, and are undefined once its return has taken effect
(R287). -/
def opRead (s : State) (m : MatCmd) (code : Nat) (xs : List Elem) (count : Nat) (a : Acc) : Acc × List Nat × Option State :=
  let w := m.ctx.w
  if isBank w then
    let per := 4096 / widthOf code
    let free := Config.freeBits s.freeCtr 65536
    let imgs := (List.range 16).map (fun i => if m.gone then free.extractLsb' (4096 * i) 4096 else s.vRead (16 * opBank w + i))
    (a, (List.range count).map (fun i => elemAt (imgs.getD (i / per) 0) (widthOf code) (i % per)),
      if m.gone then none else s.bankLost (opBank w) (widthOf code) count)
  else
    let r := loadElems s.mcWho m.ctx.ent' (xs.map (fun x => (x, true))) a
    (r.1, r.2.1, r.2.2.map (fun p => s.consumeBad s.here .mc p.1 p.2))

/-- Scale bytes as a command reads them. -/
def scaleBytes (s : State) (soff n : Nat) : List Nat := (byteKeys soff n).map (fun o => s.cField o 1)

/-- Bytes of the core's own slice have been read. -/
def readOwn (s : State) (off n : Nat) : State :=
  if n = 0 then s else s.readLocal s.mcWho ((byteKeys off n).map (sliceKey s.here))

/-! ## What each command does (R296 to R302) -/

/-- The cycles that a command's writes may still take. -/
def mcLeft (s : State) (m : MatCmd) : Nat := m.due - s.cycleOf s.here

def doMldw (s : State) (m : MatCmd) : State × MatCmd :=
  let x := m.ctx
  let nc := x.ncols
  let nsc := if x.block then x.nb * nc else 0
  let soff := dSoff x.desc
  let r := s.opRead m x.bfmt (x.elems nc (32 * x.nb)) (32 * x.nb * nc) (Acc.start s s.here)
  match r.2.2.or (s.sliceLost soff nsc) with
  | some t => (t, m)
  | none =>
    let sb := s.scaleBytes soff nsc
    let q := s.quadHere
    ((((r.1.commit s.mcWho 0).readOwn soff nsc).putArray { q with shadow := x.bands.zipIdx.foldl (fun sh p =>
      sh.ins p.1 (loadPlane x.bfmt x.block x.cs nc (mpcOf x.bfmt) p.2 r.2.1 sb)) q.shadow }), m)

def doMswp (s : State) (m : MatCmd) : State × MatCmd :=
  let q := s.quadHere
  let bl := m.ctx.bands
  (s.putArray { q with
    active := bl.foldl (fun t j => t.ins j (q.shadowAt j)) q.active
    shadow := bl.foldl (fun t j => t.ins j (q.activeAt j)) q.shadow }, m)

def doMmul (s : State) (m : MatCmd) : State × MatCmd :=
  let x := m.ctx
  let rows := dRows x.desc
  let arow := dArow x.desc
  let soff := dSoff x.desc
  let nsc := if x.block then rows * x.nb else 0
  let s := s.accFixed arow rows x.ncols
  let q := s.quadHere
  let r := s.opRead m x.afmt (x.elems (32 * x.nb) rows) (32 * x.nb * rows) (Acc.start s s.here)
  let ks := List.range (32 * mpcOf x.bfmt)
  match r.2.2.or ((s.sliceLost soff nsc).or ((s.planeLost q x.ncols (x.bands.map (fun j => (j, ks)))).or (s.accLost q arow rows x.ncols))) with
  | some t => (t, m)
  | none =>
    let y : MulArgs :=
      { ta := x.afmt, tb := x.bfmt, rows := rows, arow := arow, nb := x.nb, nc := x.ncols, cs := x.cs, a := r.2.1, sa := s.scaleBytes soff nsc }
    let (p, fl) := mulAll y x.bands q
    (((r.1.commit s.mcWho 0).readOwn soff nsc).putArray p, { m with flags := fl })

def doMzacc (s : State) (m : MatCmd) : State × MatCmd :=
  let d := m.ctx.desc
  let q := zeroRows s.quadHere (dArow d) (dRows d)
  (s.putArray (if dFlag d then { q with cc := [] } else q), m)

/-- The drained elements of a command with their indexes. -/
def drained (x : MatCtx) (q : Quad) : List (Nat × Conv) :=
  (List.range (dRows x.desc)).flatMap (fun m => (List.range x.ncols).map (fun n =>
    (256 * (dArow x.desc + m) + n, drainElem x (q.accAt (dArow x.desc + m) n) (256 * (dArow x.desc + m) + n))))

def doMdrn (s : State) (m : MatCmd) : State × MatCmd :=
  let x := m.ctx
  let rows := dRows x.desc
  let arow := dArow x.desc
  let soff := dSoff x.desc
  let e := x.ent'
  let s := (s.putArray (inject s.quadHere false arow rows x.ncols)).accFixed arow rows x.ncols
  match (s.accLost s.quadHere arow rows x.ncols).or (if x.outl then s.sliceLost soff 8 else none) with
  | some t => (t, m)
  | none =>
    let q := s.quadHere
    let cs := drained x q
    let bits := cs.map (fun c => c.2.bits)
    let xs := x.elems x.ncols rows
    let s := s.putArray (if dFlag x.desc then zeroRows q arow rows else q)
    let s :=
      if isBank x.w then s
      else ((storeElems s.mcWho e (xs.zip bits) (Acc.start s s.here)).commit s.mcWho (s.mcLeft m)).tagWrite s.mcWho e x.frame xs (s.mcLeft m)
    (if x.outl then s.appendList s.mcWho soff (s.mcLeft m) (cs.filterMap (fun c => c.2.outlier.map (fun v => (c.1, v)))) else s,
      { m with flags := orFlags (cs.map (fun c => c.2.flags)), bank := if isBank x.w then some (opBank x.w, widthOf x.ofmt, bits) else none })

/-- The entries of an outlier list that a correction applies: index and value (R301). -/
def listEntries (s : State) (x : MatCtx) : List (Nat × Nat) :=
  let soff := dSoff x.desc
  ((List.range (min (s.listCount soff) (s.listCap soff))).map (fun i => (s.cField (soff + 8 + 8 * i) 4, s.cField (soff + 12 + 8 * i) 4))).filter
    (fun y => y.1 / 512 < dRows x.desc && y.1 % 512 < 32 * x.nb)

def doMocr (s : State) (m : MatCmd) : State × MatCmd :=
  let x := m.ctx
  let soff := dSoff x.desc
  let mpc := mpcOf x.bfmt
  let n := min (s.listCount soff) (s.listCap soff)
  let es := s.listEntries x
  let s := es.foldl (fun s y => s.accFixed (dArow x.desc + y.1 / 512) 1 x.ncols) s
  let q := s.quadHere
  let cells := es.map (fun y => (x.bands.getD (y.1 % 512 / 32 / mpc) 0, [y.1 % 512 % (32 * mpc)]))
  let rows := es.findSome? (fun y => s.accLost q (dArow x.desc + y.1 / 512) 1 x.ncols)
  match (s.sliceLost soff (8 + 8 * n)).or ((s.planeLost q x.ncols cells).or rows) with
  | some t => (t, m)
  | none =>
    let (p, fl) := es.foldl (fun st y => applyOutlier x.bfmt mpc x.bands x.ncols (dArow x.desc) y.1 y.2 st) (q, 0)
    ((s.readOwn soff (8 + 8 * n)).putArray p, { m with flags := fl })

def doMchk (s : State) (m : MatCmd) : State × MatCmd :=
  let x := m.ctx
  let rows := dRows x.desc
  let arow := dArow x.desc
  let s := (s.putArray (inject s.quadHere true arow rows x.ncols)).accFixed arow rows x.ncols
  match s.accLost s.quadHere arow rows x.ncols with
  | some t => (t, m)
  | none =>
    let q := s.quadHere
    let used := 4 * (rows + x.ncols)
    let ws := ((checkBytes q arow rows x.ncols (x.coord % 2 ^ 32)).zipIdx.filter (fun p => p.2 < used || alignUp used 16 ≤ p.2)).map
      (fun p => (sliceKey s.here (dSoff x.desc + p.2), p.1))
    let s := s.endAgain s.mcWho
    (((s.writeAs s.mcWho (s.behind s.mcWho) ws (s.mcLeft m) false).watchSlice 4 s.here true (ws.map (fun y => y.1))).fresh, m)

/-- The list entries that a command which has still to do its work would append or apply now (R303). -/
def entriesNow (s : State) (m : MatCmd) : Nat :=
  let s := { s with cur := { core := m.core, slot := .mc, n := m.core.toNat } }
  match m.word with
  | .mdrn _ => if m.ctx.outl then ((drained m.ctx (inject s.quadHere false (dArow m.ctx.desc) (dRows m.ctx.desc) m.ctx.ncols)).filter (fun c => c.2.outlier.isSome)).length else 0
  | .mocr _ => (s.listEntries m.ctx).length
  | _ => 0

/-- What a command does in its place of the order: reads, the array, and the slice (R288, R289). -/
def doCmd (s : State) (m : MatCmd) : State × MatCmd :=
  match m.word with
  | .mldw _ => s.doMldw m
  | .mswp _ => s.doMswp m
  | .mmul _ => s.doMmul m
  | .mzacc _ => s.doMzacc m
  | .mdrn _ => s.doMdrn m
  | .mocr _ => s.doMocr m
  | .mchk _ => s.doMchk m
  | _ => (s, m)

/-- A command of a quad reads its operands and changes the array; what its own accesses follow happens before its give. -/
def perform (s : State) (q id : Nat) : State :=
  match (s.quadAt q).cmds.find? (fun m => m.id = id) with
  | none => s
  | some m =>
    if m.done then s
    else
      let cur := s.cur
      let s := { s with cur := { core := m.core, slot := .mc, n := m.core.toNat } }
      let known (s : State) : List Nat := s.mem.known m.core.toNat 2 (fun c => c = 0)
      let (t, k) := s.doCmd m
      let k := { k with done := true, entries := s.entriesNow m, past := k.past ++ (known t).filter (fun n => !(known s).contains n) }
      { t.modQuad q (fun v => { v with cmds := v.cmds.map (fun c => if c.id = id then k else c) }) with cur := cur }

end State

/-- An earlier command `c` of the quad holds up command `m`: they share a resource or bytes of their core's slice, `c` is an
MSHAPE, `m` is an MREL, or another holder of the lease issued `c` (R288, R289, R293, 03 R98). -/
def MatCmd.before (c m : MatCmd) : Bool :=
  c.core ≠ m.core || m.uses.contains (7, 0) || c.uses.contains (6, 0) || c.uses.any m.uses.contains || meetKeys c.keys m.keys

/-- The commands, in order, that have still to be done before those that `want` picks are. -/
def toDo (cmds : List MatCmd) (want : MatCmd → Bool) : List MatCmd :=
  cmds.reverse.foldl (fun acc c => if !c.done && (want c || acc.any (fun m => c.before m)) then c :: acc else acc) []

namespace State

/-- The commands of a quad that `want` picks are done, and those before them. -/
def performSome (s : State) (q : Nat) (want : MatCmd → Bool) : State :=
  (toDo (s.quadAt q).cmds want).foldl (fun s m => s.perform q m.id) s

/-- The core's earlier matrix commands perform their accesses to some offsets before an access that follows them (R289). -/
def flushMatrix (s : State) (keys : List Nat) : State :=
  s.performSome (quadOf s.here) (fun m => m.core.toNat = s.here && meetKeys m.keys keys)

end State
end Sys2Proof.Machine
end

