-- ==== Sys2Proof/Machine/VecL.lean ====
section
/-! DEFINITION. The VL column: scratchpad accesses, operand queues and bank lending (04 R132 to R134, 10 R252, R275
to R278), and the order of VL and MC accesses of one core (11 R289). -/

namespace Sys2Proof.Machine

/-! ## Order among the accesses of the C sequencer -/

/-- The region cycle from which the latency of an access counts: its issue, or the bound of an earlier access to a
shared byte, of the same class or with either in class 0 (R252, R289). -/
def Core.accessStart (c : Core) (cyc : Nat) (cls : BitVec 4) (keys : List Nat) : Nat :=
  c.cu.vlWords.foldl (fun m w =>
    if (w.cls = cls || w.cls = 0 || cls = 0) && meetKeys w.keys keys then max m w.bound else m) cyc

/-- A load that may perform its reads again before its bound. -/
def Core.mayAgain (c : Core) (f : Flight) : Core := { c with cu := { c.cu with again := c.cu.again ++ [f] } }

/-- An access and its bound, for later ones. -/
def Core.noteAccess (c : Core) (cls : BitVec 4) (keys : List Nat) (bound : Nat) : Core :=
  if keys = [] then c else { c with cu := { c.cu with vlWords := c.cu.vlWords ++ [{ cls := cls, keys := keys, bound := bound, ordinal := c.segNow }] } }

namespace State

/-- `Core.accessStart`, against the earlier matrix commands of the core too: their bytes are class 0 accesses that land
by their commands' bounds (R289). -/
def accessFrom (s : State) (cyc : Nat) (cls : BitVec 4) (keys : List Nat) : Nat :=
  (s.quadAt (quadOf s.here)).cmds.foldl (fun m c =>
    if c.core.toNat = s.here && meetKeys c.keys keys then max m c.due else m) (s.me.accessStart cyc cls keys)

end State

/-! ## Scratchpad words (R252, R275, R276) -/

/-- The layout entry, class and coordinate of a VL word. -/
def State.vlEnt (s : State) (w : VArgs) : Ent := entOf (s.me.lt w.va.toNat)
def vlClass (w : VArgs) : BitVec 4 := BitVec.ofNat 4 (w.immf 15 12)
def State.vlCoord (s : State) (w : VArgs) : Nat := (s.pHere (w.vb.setWidth 3)).toNat
def State.vlWho (s : State) (w : VArgs) : Who := { core := s.here, unit := .vl, cls := vlClass w }

namespace State

/-- The checks of a VL word over the elements it names: space, width, shape, then addresses and, for a read, tags. -/
def vlCheck (s : State) (w : VArgs) (shape : Bool) (xs : List Elem) (read : Bool) : Except (Nat × Nat) Bool :=
  let e := s.vlEnt w
  checks [need e.loaded (bad 2), need (e.space = 0) (bad 1), need (w.bits = e.esize) (bad 3), need shape (bad 2), inSpace e xs,
    if read then tagCheck (e.expect (s.frameNo s.here)) (e.checkRead (s.tagAs (s.vlWho w) s.here) (s.frameNo s.here) xs) else .ok false]

/-- A tile or cell of at most 512 bytes. -/
def vlFits (e : Ent) : Bool := if e.curve then e.cell ≤ 512 else e.t0 * e.t1 * e.esize ≤ 4096

/-- What a load reads: the elements it names, which of them it reads, and element i of its register from the values. -/
structure VlPlan where
  xs : List Elem
  want : Nat → Bool
  lane : List Nat → Nat → Nat

/-- The elements that VLDG and VSTG refer to, by register element, where the mask is set (R276). -/
def gathered (w : VArgs) (e : Ent) (coord : Nat) (mask : BitVec 1024) (idx : BitVec 4096) : List (Elem × Nat) :=
  let (c0, c1, c2, c3) := coordOf coord
  ((List.range w.n).filter (fun i => mask.getLsbD i)).map (fun i => (denseElem e (c0 + elemAt idx w.bits i : Nat) c1 c2 c3, i))

/-- VLD takes the tile or cell, VLDB a row of it, its element i mod t0 or i mod c, and VLDG the elements its indices name
(R275, R276). -/
def vlPlan (i : Instr) (w : VArgs) (e : Ent) (coord : Nat) (mask : BitVec 1024) (idx : BitVec 4096) : VlPlan :=
  match i with
  | .vldb _ =>
    let xs := rowOf e coord
    { xs := xs, want := fun i => (List.range w.n).any (fun k => k % xs.length = i && mask.getLsbD k)
      lane := fun vals i => vals.getD (i % xs.length) 0 }
  | .vldg _ =>
    let xs := gathered w e coord mask idx
    { xs := xs.map (fun x => x.1), want := fun _ => true
      lane := fun vals i => ((xs.zip vals).findSome? (fun p => if p.1.2 = i then some p.2 else none)).getD 0 }
  | _ => { xs := tileOf e coord, want := fun i => mask.getLsbD i, lane := fun vals i => vals.getD i 0 }

/-- The register that a load leaves, from the one it finds. -/
def VlPlan.image (p : VlPlan) (w : VArgs) (mask : BitVec 1024) (vals : List Nat) (old : BitVec 4096) : BitVec 4096 :=
  laneImage w.bits old (lanes w.n mask (fun i => (p.lane vals i, 0)))

/-- The code words of the register that it does not write whole. -/
def loadKept (w : VArgs) (mask : BitVec 1024) : Nat := laneKept w.bits (lanes w.n mask (fun _ => (0, 0)))

/-- A load; until its bound it may perform its reads again, once (00 R8). -/
def vlLoad (s : State) (i : Instr) (w : VArgs) (srcs : List Nat) (shape : Bool) (worst : Nat) : Out1 :=
  let e := s.vlEnt w
  let cls := vlClass w
  let mask := s.vMask w
  let idx := s.vRead w.vc.toNat
  let p := vlPlan i w e (s.vlCoord w) mask idx
  let keys := touched e p.xs
  s.vWord srcs [w.vd.toNat] [w.mask.toNat] (s.vlCheck w shape p.xs true) (also := [.lt w.va.toNat, s.pWord (w.vb.toNat % 8)])
    (let t := (s.flushMatrix keys).sawTags (s.vlWho w) e s.here (s.frameNo s.here) p.xs
     let (a, vals, badWord) := loadElems (s.vlWho w) e (p.xs.zipIdx.map (fun x => (x.1, p.want x.2))) (Acc.start t s.here)
     match badWord with
     | some (k, m) => s.consumeBad s.here s.slotHere k m
     | none =>
       let cyc := s.cycleOf s.here
       let start := s.accessFrom cyc cls keys
       let f : Flight :=
         { id := s.freeCtr, unit := .vl, ordinal := s.ordinalHere, offset := s.offsetHere, word := i, src := s.me.lt w.va.toNat, dst := 0,
           sc := BitVec.ofNat 64 (s.vlCoord w), dc := 0, par := 0, frame := s.frameNo s.here, issued := cyc, stamp := start + worst
           data := (List.range 32).map (fun k => mask.extractLsb' (32 * k) 32) ++ (List.range 128).map (fun k => idx.extractLsb' (32 * k) 32) }
       (a.commit (s.vlWho w) 0).vIssues (start + worst - cyc)
         { vs := [{ reg := w.vd.toNat, image := p.image w mask vals (s.me.v w.vd.toNat), kept := loadKept w mask }] }
         (fun c => (c.noteAccess cls keys (start + worst)).mayAgain f))

/-- A load of VL inside its bound performs its reads again (00 R8) (log 6). -/
def vlAgain (s : State) (core : Nat) (f : Flight) : State :=
  let s := s.dropAgain core f.id
  match f.word with
  | .vld w | .vldb w | .vldg w =>
    let who : Who := { core := core, unit := .vl, cls := vlClass w }
    let e := entOf f.src
    let words (i n : Nat) : Nat := ((f.data.drop i).take n).foldr (fun (x : BitVec 32) (v : Nat) => v * 2 ^ 32 + x.toNat) 0
    let mask := BitVec.ofNat 1024 (words 0 32)
    let p := vlPlan f.word w e f.sc.toNat mask (BitVec.ofNat 4096 (words 32 128))
    let (a, vals, badWord) := loadElems who e (p.xs.zipIdx.map (fun x => (x.1, p.want x.2))) (Acc.start s core)
    if badWord.isSome then s
    else (State.reread a who).modCore core (fun c => c.setV w.vd.toNat (p.image w mask vals (c.v w.vd.toNat)) (loadKept w mask))
  | _ => s

/-- A store of the elements named with their values, in order. -/
def vlStore (s : State) (w : VArgs) (srcs : List Nat) (shape : Bool) (xs : List Elem) (outs : List (Elem × Nat)) (worst : Nat) : Out1 :=
  let e := s.vlEnt w
  let cls := vlClass w
  let written := outs.map (fun o => o.1)
  let keys := touched e written
  s.vWord (w.vd.toNat :: srcs) [] [w.mask.toNat] (s.vlCheck w shape xs false) (also := [.lt w.va.toNat, s.pWord (w.vb.toNat % 8)])
    (let cyc := s.cycleOf s.here
     let start := s.accessFrom cyc cls keys
     let t := s.flushMatrix keys
     let a := storeElems (s.vlWho w) e outs (Acc.start t s.here)
     ((a.commit (s.vlWho w) (start + worst - cyc)).tagWrite (s.vlWho w) e (s.frameNo s.here) written (start + worst - cyc)).vIssues (start + worst - cyc) {}
       (fun c => c.noteAccess cls keys (start + worst)))

end State

def execVld (w : VArgs) (s : State) : Out1 := s.vlLoad (.vld w) w [] (State.vlFits (s.vlEnt w)) 10

def execVst (w : VArgs) (s : State) : Out1 :=
  let e := s.vlEnt w
  let xs := tileOf e (s.vlCoord w)
  let mask := s.vMask w
  let v := s.vRead w.vd.toNat
  let outs := (xs.zipIdx.filter (fun p => mask.getLsbD p.2)).map (fun p => (p.1, elemAt v w.bits p.2))
  s.vlStore w [] (State.vlFits e) xs outs 10

def execVldb (w : VArgs) (s : State) : Out1 := s.vlLoad (.vldb w) w [] (State.vlFits (s.vlEnt w)) 10
def execVldg (w : VArgs) (s : State) : Out1 := s.vlLoad (.vldg w) w [w.vc.toNat] (!(s.vlEnt w).curve) (8 + w.n / 4)

def execVstg (w : VArgs) (s : State) : Out1 :=
  let e := s.vlEnt w
  let xs := State.gathered w e (s.vlCoord w) (s.vMask w) (s.vRead w.vc.toNat)
  let v := s.vRead w.vd.toNat
  s.vlStore w [w.vc.toNat] (!e.curve) (xs.map (fun x => x.1)) (xs.map (fun x => (x.1, elemAt v w.bits x.2))) (8 + w.n / 4)

/-! ## Operand queues (R132 to R134, R277) -/

def execOqp (w : VArgs) (s : State) : Out1 :=
  let q := w.immf 1 0
  let v := s.vRead w.vd.toNat
  let full := 16 ≤ (s.me.cu.resq.get [] q).length
  s.vWord [w.vd.toNat] [] [] (if full then .error (7, 2 ^ 24 + q) else .ok false)
    (s.vIssues 2 {} (fun c => { c with cu := { c.cu with resq := c.cu.resq.put [] q (c.cu.resq.get [] q ++ [v]) } }))

/-- Strips between two cores of a column. -/
def stripGap (a b : Nat) : Nat := max (stripOf a) (stripOf b) - min (stripOf a) (stripOf b)

/-- OQG: a queue whose head is not there since an earlier cycle is a late result; the credit of the entry popped returns
to its result queue (R95, R133, R277). -/
def execOqg (w : VArgs) (s : State) : Out1 :=
  let q := w.immf 1 0
  let mask := s.vMask w
  let cyc := s.cycleOf s.here
  let late := match s.me.cu.opq.get [] q with | [] => true | x :: _ => cyc < x.ready
  s.vWord [] [w.vd.toNat] [w.mask.toNat] (.ok late)
    (match s.me.cu.opq.get [] q with
     | [] => s
     | x :: rest =>
       match x.bad.filter (fun m => m ≠ .correctable) with
       | some m => s.machineCheck s.here s.slotHere m 5 w.vd.toNat 0
       | none =>
         let t := s.vIssues 3 { vs := [s.vPut w.vd.toNat w.bits (lanes w.n mask (fun i => (elemAt x.data w.bits i, 0)))] }
           (fun c => { c with cu := { c.cu with opq := c.cu.opq.put [] q rest } })
         { t with credits := t.credits ++ [{ source := x.source, lane := x.lane, due := cyc + stripGap s.here x.source.toNat + 3 }] })

/-! ## Bank lending (R278) -/

/-- Matrix commands read the bank from the lend's landing on; before it they read undefined values (R90). -/
def execVlendLend (w : VArgs) (s : State) : Out1 :=
  let bank := w.immf 1 0
  s.vWord [] [] [] (State.need (!s.me.cu.lent.any (fun b => b.bank = bank) && !s.bankBusy bank) (State.bad 4))
    (s.vIssues 2 {} (fun c => { c with cu := { c.cu with
      lent := c.cu.lent ++ [{ bank := bank }]
      windows := c.cu.windows ++ (List.range 16).map (fun i => c.window (.v (16 * bank + i)) (s.cycleOf s.here + 2)) } }))

def execVlendRet (w : VArgs) (s : State) : Out1 :=
  let bank := w.immf 1 0
  s.vWord [] [] [] (State.need (s.me.cu.lent.any (fun b => b.bank = bank)) (State.bad 4))
    (s.vIssues 64 {} (fun c => { c with cu := { c.cu with lent := c.cu.lent.map (fun b =>
      if b.bank = bank && b.back.isNone then { b with back := some 64 } else b) } }))

end Sys2Proof.Machine
end

