-- ==== Sys2Proof/Machine/Land.lean ====
section
/-! DEFINITION. The landing of D words and of pending accesses, whole or a part first: their reads and writes, gives, and the
faults they meet (09 R227 to R242; 18 R369, R375, R376, R382; 19 R393, R399, R419). -/

namespace Sys2Proof.Machine

/-! ## Elements moved one by one -/

/-- One element of a word: where it comes from (or a constant), where it goes, and how it combines. Between element
widths (R234) its bits come from `src` and the elements `more` after it, or from bit `shift` of `src`. -/
structure Item where
  src : Option (Ent × Elem)
  more : List Elem := []
  shift : Nat := 0
  value : Nat := 0
  dst : Ent × Elem
  op : Option Nat := none
  deriving DecidableEq, Repr

/-- How a list of elements ends: all moved; or stopped before element `k` by a translation fault, an element beyond its
space, or a bad word consumed. -/
inductive Moved where
  | all (a : Acc) (fl : Flags) (k : Nat)
  | blocked (a : Acc) (fl : Flags) (k : Nat) (f : XFault)
  | past (a : Acc) (fl : Flags) (k addr : Nat)
  | bad (a : Acc) (fl : Flags) (k key : Nat) (m : Mark)

/-- Elements read and packed, and whether a bad word gave one. -/
def packedValue (who : Who) (e : Ent) : List Elem → Acc → Acc × Except XFault (Nat × Bool)
  | [], a => (a, .ok (0, false))
  | x :: t, a =>
    match a.read who e x with
    | (a, .error f) => (a, .error f)
    | (a, .ok (v, b)) =>
      match packedValue who e t a with
      | (a, .error f) => (a, .error f)
      | (a, .ok (w, c)) => (a, .ok (v + 2 ^ e.esize * w, b.isSome || c))

/-- One element: the value read from its sources, and whether a bad word gave it. -/
def itemValue (who : Who) (it : Item) (a : Acc) : Acc × Except XFault (Nat × Bool) :=
  match it.src with
  | none => (a, .ok (it.value, false))
  | some (e, x) =>
    match packedValue who e (x :: it.more) a with
    | (a, .error f) => (a, .error f)
    | (a, .ok (v, b)) => (a, .ok (v / 2 ^ it.shift % 2 ^ it.dst.1.esize, b))

/-- The items of a row of elements `xs` moved to the elements `ys` of a row of as many bits (R234). -/
def rowItems (a : Ent) (xs : List Elem) (b : Ent) (ys : List Elem) (op : Option Nat) : List Item :=
  ys.zipIdx.filterMap (fun p =>
    let bit := p.2 * b.esize
    match (xs.drop (bit / a.esize)).take (max 1 (b.esize / a.esize)) with
    | [] => none
    | x :: t => some { src := some (a, x), more := t, shift := bit % a.esize, dst := (b, p.1), op := op })

/-- One element combined with what stands at its destination, read and written there as one (R234, 18 R382, 06 R173). -/
def itemCombine (who : Who) (it : Item) (v : Nat) (b : Bool) (a : Acc) : Acc × Except XFault (Nat × Bool × Flags) :=
  match it.op with
  | none => (a, .ok (v, b, 0))
  | some op =>
    if it.dst.2.outside then (a, .ok (v, b, 0))
    else
      match { a with race := false, atHome := true }.read who it.dst.1 it.dst.2 with
      | (c, .error f) => ({ c with race := a.race, atHome := a.atHome }, .error f)
      | (c, .ok (w, m)) =>
        let r := combine it.dst.1.ty op w v
        ({ c with race := a.race, atHome := a.atHome }, .ok (r.1, b || m.isSome, r.2))

/-- Elements moved in order from element `k` on. -/
def moveItems (who : Who) : List Item → Nat → Acc → Flags → Moved
  | [], k, a, fl => .all a fl k
  | it :: t, k, a, fl =>
    if it.dst.2.past it.dst.1 then .past a fl k it.dst.2.addr
    else if (match it.src with | some (e, x) => (x :: it.more).any (fun y => y.past e) | none => false) then
      .past a fl k (match it.src with | some (e, x) => (firstPast e (x :: it.more)).getD x.addr | none => 0)
    else
      match itemValue who it a with
      | (a, .error f) => .blocked a fl k f
      | (a, .ok (v, b)) =>
        match itemCombine who it v b a with
        | (a, .error f) => .blocked a fl k f
        | (a, .ok (v, b, g)) =>
          match a.write who it.dst.1 it.dst.2 v b with
          | (a, .error f) => .blocked a fl k f
          | (a, .ok ()) => moveItems who t (k + 1) a (fl ||| g)

/-- The items of a word from element `done` on, up to element `lim`. -/
def moveFrom (who : Who) (items : List Item) (done : Nat) (lim : Option Nat) (a : Acc) : Moved :=
  moveItems who (match lim with | some k => (items.take k).drop done | none => items.drop done) done a 0

/-- The blocks that an element's bytes lie in: 64 bytes of a slice, 256 bytes elsewhere, or the bytes (06 R162). -/
def elemBlocks (bytewise : Bool) (p : Ent × Elem) : List Nat :=
  if p.2.outside then []
  else (elemBytes p.1 p.2).map (fun o => if bytewise then o else if p.1.space < 3 then o / 64 else o / 256)

/-- The blocks that items read, and those that they write. -/
def readBlocks (bytewise : Bool) (l : List Item) : List Nat :=
  l.flatMap (fun it => match it.src with | some (e, x) => (x :: it.more).flatMap (fun y => elemBlocks bytewise (e, y)) | none => [])
def writtenBlocks (bytewise : Bool) (l : List Item) : List Nat := l.flatMap (fun it => elemBlocks bytewise it.dst)

/-- A word may perform its first `k` items before the rest: no block is read or written by both (06 R162). -/
def mayCut (bytewise : Bool) (items : List Item) (k : Nat) : Bool :=
  let a := items.take k
  let b := items.drop k
  !meetKeys (readBlocks bytewise a) (readBlocks bytewise b) && !meetKeys (writtenBlocks bytewise a) (writtenBlocks bytewise b)

/-- A little-endian number of `n` bytes of the core's own slice, as the word reads its list. -/
def readList (who : Who) (off n : Nat) (a : Acc) : Nat × Option (Nat × Mark) :=
  let ks := (List.range n).map (fun i => sliceKey who.core (off + i))
  (leNat (ks.map (a.byte who)), ks.findSome? (fun k => (a.s.markAt who.core k).map (fun m => (k, m))))

/-- A word's read of `n` bytes of its list is one of its accesses (R233). -/
def Acc.listed (a : Acc) (core off n : Nat) : Acc :=
  { a with touches := (List.range n).map (fun i => { key := sliceKey core (off + i), pma := 0, write := false }) ++ a.touches }

/-- The rows of GTH, SCT and SCTA in ascending j, each index read before its row moves (R233, R234). `per` elements a
row; `mk idx j` the items of row j (log 23). A row of the gather's own that it writes into its list is seen by its later
reads of the list (the model's choice, log 59). -/
def gatherRows (who : Who) (off per : Nat) (mk : Nat → Nat → List Item) : List Nat → Nat → Acc → Flags → Moved
  | [], k, a, fl => .all a fl k
  | j :: t, done, a, fl =>
    if (j + 1) * per ≤ done then gatherRows who off per mk t done a fl
    else
      let a := a.listed who.core (off + 8 * j) 8
      match readList who (off + 8 * j) 8 a with
      | (_, some (k, m)) => .bad a fl done k m
      | (idx, none) =>
        match moveItems who ((mk idx j).drop (done - j * per)) (max done (j * per)) a fl with
        | .all a fl k => gatherRows who off per mk t k a fl
        | r => r

/-- The ranges of RGTH in list order: `j` cells taken so far, at most `cmax` (R235). -/
def rangeRows (who : Who) (off per cmax : Nat) (mk : Nat → Nat → List Item) :
    List Nat → Nat → Nat → Acc → Flags → Moved
  | [], _, k, a, fl => .all a fl k
  | r :: t, j, done, a, fl =>
    let b := a.listed who.core (off + 16 * r) 16
    match readList who (off + 16 * r) 8 a, readList who (off + 16 * r + 8) 8 a with
    | (_, some (k, m)), _ | _, (_, some (k, m)) => .bad b fl done k m
    | (first, none), (last, none) =>
      let n := if last < first then 0 else min (last + 1 - first) (cmax - j)
      -- a range whose cells have all been moved was read before
      let a := if 0 < n && (j + n) * per ≤ done then a else b
      let items := (List.range n).flatMap (fun i => mk (first + i) (j + i))
      let base := j * per
      match moveItems who (items.drop (done - base)) (max done base) a fl with
      | .all a fl k => if cmax ≤ j + n then .all a fl k else rangeRows who off per cmax mk t (j + n) (max k ((j + n) * per)) a fl
      | x => x

namespace State

/-! ## The parts of a landing -/

/-- Who makes the accesses of a flight. -/
def flightWho (core : Nat) (f : Flight) : Who := { core := core, unit := f.unit, cls := flightClass f }

/-- A flight as it now stands. -/
def setFlight (s : State) (core : Nat) (f : Flight) : State :=
  s.modCore core (fun c => { c with cu := { c.cu with flights := c.cu.flights.map (fun g => if g.id = f.id then f else g) } })

/-- Cycles left of a flight's worst-case latency. -/
def leftOf (s : State) (core : Nat) (f : Flight) : Nat := f.since + f.worst - s.cycleOf core

/-- The record of a fault that an issued word meets: it names the word (16 R331). -/
def flightRec (s : State) (core : Nat) (f : Flight) (cls : BitVec 8) (status : BitVec 32) : FaultRec :=
  { s.faultRec core f.unit cls.toNat status with index := BitVec.ofNat 32 f.ordinal, position := BitVec.ofNat 32 f.offset }

/-- A flight leaves the core; a packet of EGR that is not yet sent leaves its port's queue with it. -/
def dropFlight (s : State) (core : Nat) (f : Flight) : State :=
  let s := match f.word with
    | .egr _ => s.modPort (fieldOf f.par 63 62) (fun q => { q with queue := q.queue.filter (fun k => !(k.core.toNat = core && k.flight = f.id)) })
    | _ => s
  s.modCore core (fun c => { c with cu := { c.cu with flights := c.cu.flights.filter (fun g => g.id ≠ f.id) } })

/-- The give of a flight, added at the end of the cycle (R91): all that happens before its accesses happens before the give
(06 R163). -/
def flightGive (f : Flight) (past : List Nat) : TokAdd :=
  match dArgs f.word with
  | some w =>
    { counter := w.gc, amount := w.ga.toNat, order := if f.unit = .l then 1 else 8, index := BitVec.ofNat 32 f.ordinal,
      position := BitVec.ofNat 32 f.offset, past := past }
  | none => { counter := 0, amount := 0, order := 0, index := 0, position := 0 }

/-- Two flights of one sequencer whose accesses program order relates (R126, R227). -/
def related (f g : Flight) : Bool :=
  seqOf g.unit = seqOf f.unit && (flightClass g = flightClass f || flightClass g = 0 || flightClass f = 0)

/-- An entry read as bytes. -/
def asBytes (e : Ent) : Ent := { e with ty := 1, curve := false }

/-- Byte `i` from an address. -/
def byteElem (addr i : Nat) : Elem := { addr := addr + i, high := false, outside := false }

/-- The items of INGT: slots from the ingest half to the tile address (R241), as INGEST_CFG lays them out at the landing, should
the host have written it since the issue (the model's choice, log 59). -/
def ingtItems (s : State) (core : Nat) (f : Flight) : List Item :=
  let b := asBytes (entOf f.dst)
  let g := ingestOf (s.regionAt (s.regionOf core)).ingestCfg
  let frame := frameDelta f.frame (fieldOf f.par 39 32)
  let off := g.half (frame.toNat % 2) + fieldOf f.par 15 0 * g.slot
  let dst := (statElem (entOf f.dst) f.dc.toNat).addr
  let src : Ent := { b with perm := false, base := 0, space := 0, tagged := false }
  (List.range (fieldOf f.par 31 16 * g.slot)).map (fun i => { src := some (src, byteElem off i), dst := (b, byteElem dst i) })

/-- The rows that a list names, as it stands (R233). -/
def namedRow (s : State) (core : Nat) (f : Flight) (j : Nat) : Nat :=
  (readList (flightWho core f) (gthOff f.par + 8 * j) 8 (Acc.start s core)).1

/-- The codes that a range list names as it stands, at most `cmax` (R235). -/
def namedCodes (s : State) (core : Nat) (f : Flight) (off : Nat) : List Nat → Nat → List Nat
  | [], _ => []
  | r :: t, cmax =>
    let who := flightWho core f
    let a := Acc.start s core
    let first := (readList who (off + 16 * r) 8 a).1
    let last := (readList who (off + 16 * r + 8) 8 a).1
    let n := if last < first then 0 else min (last + 1 - first) cmax
    (List.range n).map (fun i => first + i) ++ s.namedCodes core f off t (cmax - n)

/-- What a flight reads and writes: entries with elements of theirs, its lists as bytes of its own slice. -/
def flightReach (s : State) (core : Nat) (f : Flight) : List (Ent × List Elem) :=
  let a := entOf f.src
  let b := entOf f.dst
  let bytes (e : Ent) (addr n : Nat) : Ent × List Elem := (asBytes e, (List.range n).map (byteElem addr))
  let list (size : Nat) : Ent × List Elem := bytes { a with space := 0, perm := false } (gthOff f.par) (size * gthN f.par)
  let rows (e : Ent) : List Elem := (List.range (gthN f.par)).flatMap (fun j => rowOf e (s.namedRow core f j))
  let near (e : Ent) (c : Dword) (n : Nat) : List Elem := (List.range n).flatMap (nearRow e c.toNat)
  match f.word with
  | .tld _ | .tldr _ | .tst _ | .tstr _ | .tgr _ | .tbc _ => [(a, tileOf a f.sc.toNat), (b, tileOf b f.dc.toNat)]
  | .fill _ => [(b, tileOf b f.dc.toNat)]
  | .gth _ => [list 8, (a, rows a), (b, near b f.dc (gthN f.par))]
  | .sct _ | .scta _ => [list 8, (a, near a f.sc (gthN f.par)), (b, rows b)]
  | .rgth _ =>
    let codes := s.namedCodes core f (gthOff f.par) (List.range (gthN f.par)) (rgthMax f.par)
    [list 16, (a, codes.flatMap (rowOf a)), (b, near b f.dc codes.length)]
  | .egr _ => [(a, tileOf a f.sc.toNat)]
  | .xwr _ => [(a, (rowOf a f.sc.toNat).take f.dc.toNat)]
  | .bstat _ => [bytes b (statElem b f.dc.toNat).addr 8]
  | .xrd _ => [bytes b (statElem b f.dc.toNat).addr (4 * (xcfgOf (s.crossingAt (fieldOf f.par 5 0)).cfg).chans + 4)]
  | .ingt _ => (s.ingtItems core f).flatMap (fun it => (match it.src with | some (e, x) => [(e, [x])] | none => []) ++ [(it.dst.1, [it.dst.2])])
  | _ => []

/-- The bytes of elements of a core's word: the space of a slice as its core, and an address (log 6). -/
def reachBytes (s : State) (core : Nat) (p : Ent × List Elem) : List (Nat × Nat) :=
  let offs := (p.2.filter (fun x => !x.outside)).flatMap (elemBytes p.1)
  let spaces := match p.1.space with
    | 3 => [256]
    | 2 => (members p.1).filter (s.inPlacement core)
    | _ => [p.1.sliceOf core]
  spaces.flatMap (fun c => offs.map (fun o => (c, o)))

/-- Two flights share a byte (R227). -/
def sharesByte (s : State) (core : Nat) (f g : Flight) : Bool :=
  let a := (s.flightReach core f).flatMap (s.reachBytes core)
  let b := (s.flightReach core g).flatMap (s.reachBytes core)
  let words (l : List (Nat × Nat)) : List (Nat × Nat) :=
    l.foldl (fun acc p => match acc with | q :: _ => if q = (p.1, p.2 / 64) then acc else (p.1, p.2 / 64) :: acc | [] => [(p.1, p.2 / 64)]) []
  let wb := words b
  (words a).any (fun w => wb.contains w && (a.filter (fun p => p.1 = w.1 && p.2 / 64 = w.2)).any b.contains)

/-- The worst case of a gather by the list that it now reads, which an earlier word may have written since its issue (R236). -/
def reworst (s : State) (core : Nat) (g : Flight) : Nat :=
  let a := entOf g.src
  let miss (e : Ent) (l : List Elem) : Nat :=
    if e.space = 3 && l.any (fun x => !x.outside && (s.cached (quadOf core) (s.partOf core) x.addr).isNone) then walkCycles else 0
  match g.word with
  | .gth _ | .sct _ | .scta _ => g.worst + (if walkCycles ≤ g.worst then 0 else ((s.flightReach core g).map (fun p => miss p.1 p.2)).foldl max 0)
  | .rgth _ =>
    let codes := s.namedCodes core g (gthOff g.par) (List.range (gthN g.par)) (rgthMax g.par)
    gatherWorst a codes.length false + miss a (codes.flatMap (rowOf a))
  | _ => g.worst

/-- A later flight that shares a byte with one whose accesses are over, where program order relates the two, counts its
latency from then (R227). -/
def restart (s : State) (core : Nat) (f g : Flight) : Flight :=
  if f.id < g.id && related f g && s.sharesByte core f g then { g with since := max g.since (s.cycleOf core), worst := s.reworst core g } else g

/-- A flight has landed: its give is added, and the latency of later words that share a byte with it counts from now
(R227). -/
def landed (s : State) (core : Nat) (f : Flight) : State :=
  let past := s.knownBy (flightWho core f)
  (s.dropFlight core f).modCore core (fun c =>
    { c with cu := { c.cu with flights := c.cu.flights.map (s.restart core f) } }.addToken (flightGive f past))

/-- The digest of the granules that a lockstep node's word staged, into its segment (19 R399). -/
def digest (s : State) (core : Nat) (f : Flight) (ts : List Touch) : State :=
  match s.nodeOn core with
  | none => s
  | some (_, v) =>
    if !lockstep v then s
    else
      let gs := (ts.filter (fun t => t.write && hbmBase ≤ t.key)).foldl
        (fun (acc : List (Nat × Nat)) t => if acc.any (fun g => g.1 = t.key / 256) then acc else (t.key / 256, t.pma / 256 * 256) :: acc) []
      let who : Who := flightWho core f
      let d := gs.foldl (fun (d : BitVec 32) g =>
        d ^^^ crc32c (leBytes 8 g.2 ++ (List.range 256).map (fun i => s.globalByte who (256 * g.1 + i)))) 0
      let upd (g : Seg) : Seg := if g.ordinal = f.ordinal then { g with digest := g.digest ^^^ d } else g
      s.modCore core (fun c => c.modUnit (seqOf f.unit) (fun u => { u with seg := u.seg.map upd, retiring := u.retiring.map upd }))

/-- The words written take effect: bytes, tags of the lines they complete, watchpoints, flags, digest. Every observer sees
them when the word's worst-case latency ends (06 R165). -/
def applyMoved (a : Acc) (core : Nat) (f : Flight) (fl : Flags) (dst : Ent) (outs rest : List Elem) : State :=
  let keep := linesOf dst rest
  let lines := (linesOf dst outs).filter (fun l => !keep.contains l)
  let n := a.s.leftOf core f
  let s := a.commit (flightWho core f) n
  let s := if dst.tagged && dst.space < 3 then s.setTagsAs (flightWho core f) (dst.sliceOf core) (dst.expect f.frame) lines n else s
  let s := s.modCore core (fun c => c.raiseFlags fl)
  s.digest core f a.touches

/-- How a landing ends: done without its give; a part of it performed; stopped at an element, with what came before
performed; a fault raised; or nothing yet, since a tag is pending. -/
inductive Landing where
  | done (t : State)
  | partly (t : State)
  | blocked (t : State) (f : Flight) (x : XFault)
  | faulted (t : State)
  | waits

/-- A list of elements taken to its end, or to a limit. `outs` are the destination elements in order. -/
def endMove (core : Nat) (f : Flight) (dst : Ent) (outs : List Elem) (lim : Option Nat) (r : Moved) : Landing :=
  let upTo (k : Nat) : List Elem := (outs.take k).drop f.done
  match r with
  | .all a fl k =>
    match lim with
    | none => .done (applyMoved a core f fl dst (outs.drop f.done) [])
    | some _ => .partly ((applyMoved a core f fl dst (upTo k) (outs.drop k)).setFlight core { f with done := k })
  | .blocked a fl k x => .blocked (applyMoved a core f fl dst (upTo k) (outs.drop k)) { f with done := k } x
  | .past a fl k addr =>
    let s := applyMoved a core f fl dst (upTo k) (outs.drop k)
    .faulted ((s.dropFlight core f).raise core (s.flightRec core f 0x0B (BitVec.ofNat 32 addr)))
  | .bad a fl k key m =>
    let s := applyMoved a core f fl dst (upTo k) (outs.drop k)
    .faulted ((s.dropFlight core f).consumeCounted core f.unit key m)

/-- The start of a flight's accesses: reads of bytes that the word itself writes are unordered. -/
def accOf (s : State) (core : Nat) : Acc := { Acc.start s core with race := true }

/-- The items of tile moves and FILL (R228, R237). -/
def tileItems (f : Flight) (srcs : Option (List Elem)) : List Item :=
  let b := entOf f.dst
  let outs := tileOf b f.dc.toNat
  match srcs with
  | some l => (l.zip outs).map (fun p => { src := some (entOf f.src, p.1), dst := (b, p.2) })
  | none => outs.map (fun x => { src := none, value := f.par.toNat % 2 ^ b.esize, dst := (b, x) })

/-- Tile moves and FILL. -/
def landMove (s : State) (core : Nat) (f : Flight) (lim : Option Nat) (srcs : Option (List Elem)) : Landing :=
  endMove core f (entOf f.dst) (tileOf (entOf f.dst) f.dc.toNat) lim
    (moveFrom (flightWho core f) (tileItems f srcs) f.done lim (s.accOf core))

/-- A window entry as an entry of one member's slice. -/
def asMember (e : Ent) (m : Nat) : Ent := { e with space := 1, base := m * 2 ^ 42 + bitsOf e.base 20 0 }

/-- GWSTAT after a group word that had `absent` absent members (04 R119). -/
def countAbsent (s : State) (core absent : Nat) : State :=
  s.modCore core (fun c =>
    let hi := fieldOf c.csr.gwstat 63 32
    let hi := if absent = 0 then hi else min (hi + 1) (2 ^ 32 - 1)
    { c with csr := { c.csr with gwstat := BitVec.ofNat 64 (hi * 2 ^ 32 + absent) } })

end State

/-- What a flight has read under a number: the value, and whether a bad word gave it. -/
def Flight.gotAt (f : Flight) (k : Nat) : Option (Nat × Bool) := (f.got.find? (fun e => e.1 = k)).map (fun e => (e.2 / 2, e.2 % 2 = 1))

/-- The number under which a group word has read element `i` of a member. -/
def gotKey (m i : Nat) : Nat := m * 2 ^ 20 + i

namespace State

/-- A flight reads the 64-byte block of a slice that element `i` lies in, before its landing (06 R174, 09 R242): `e` and
`xs` are what it reads of member `m`. -/
def readBlock (s : State) (core : Nat) (f : Flight) (e : Ent) (m i : Nat) (xs : List Elem) : State :=
  let who := flightWho core f
  let block (x : Elem) : Option Nat := if x.outside then none else ((elemBytes e x).head?).map (fun o => o / 64)
  match (xs[i]?).bind block with
  | none => s
  | some b =>
    let todo := xs.zipIdx.filter (fun p => block p.1 = some b && (f.gotAt (gotKey m p.2)).isNone)
    let (a, got) := todo.foldl (fun (st : Acc × List (Nat × Nat)) p =>
      match st.1.read who e p.1 with
      | (c, .ok (v, q)) => (c, st.2 ++ [(gotKey m p.2, 2 * v + b2n q.isSome)])
      | (c, .error _) => (c, st.2)) (Acc.start s core, ([] : List (Nat × Nat)))
    if todo = [] then s else (a.commit who 0).setFlight core { f with got := f.got ++ got }

/-- TGR: the tree over the members, absent ones giving the identity; a bad operand makes the result poisoned
(04 R118, R119; 18 R382). Each byte of a member is read on its own, then or before (06 R174). A combine with a poisoned
operand raises the flags of the bits as they stand, in SCTA too (the model's choice, log 59). -/
def landTgr (s : State) (core : Nat) (f : Flight) : Landing :=
  let e := entOf f.src
  let b := entOf f.dst
  let who := flightWho core f
  let ms := members e
  let here := ms.filter (s.inPlacement core)
  let ins := (tileOf e f.sc.toNat).zipIdx
  let outs := tileOf b f.dc.toNat
  let one (x : Elem × Nat) : Nat × Bool × Flags :=
    if x.1.outside then (0, false, 0)
    else
      let rs := ms.map (fun m =>
        if here.contains m then
          match f.gotAt (gotKey m x.2) with
          | some r => r
          | none =>
            match (Acc.start s core).read who (asMember e m) x.1 with
            | (_, .ok (v, p)) => (v, p.isSome)
            | (_, .error _) => (0, true)
        else (identityOf e.ty e.op, false))
      let r := treeOf (combine e.ty e.op) 9 (rs.map (fun p => p.1))
      (r.1, rs.any (fun p => p.2), r.2)
  let vals := ins.map one
  let acc := (vals.zip outs).foldl (fun (a : Acc) p => (a.write who b p.2 p.1.1 p.1.2.1).1) (Acc.start s core)
  let reads : List Touch := here.flatMap (fun m =>
    ins.flatMap (fun x => if x.1.outside || (f.gotAt (gotKey m x.2)).isSome then [] else
      (elemBytes e x.1).map (fun o => { key := sliceKey m o, pma := 0, write := false })))
  let t := applyMoved { acc with touches := reads ++ acc.touches } core f (orFlags (vals.map (fun v => v.2.2))) b outs []
  .done (t.countAbsent core (ms.length - here.length))

/-- TBC: the source tile, read once, written to every present member (04 R121), each when it is applied there (06 R174):
`done` members have been written. -/
def landTbc (s : State) (core : Nat) (f : Flight) (lim : Option Nat) : Landing :=
  let a := entOf f.src
  let e := entOf f.dst
  let who := flightWho core f
  let ms := members e
  let here := ms.filter (s.inPlacement core)
  let src := (tileOf a f.sc.toNat).zipIdx
  let dst := tileOf e f.dc.toNat
  let (reads, vals) := src.foldl (fun (st : Acc × List (Nat × Bool)) x =>
    match f.gotAt (gotKey 0 x.2) with
    | some r => (st.1, st.2 ++ [r])
    | none =>
      match st.1.read who a x.1 with
      | (c, .ok (v, p)) => (c, st.2 ++ [(v, p.isSome)])
      | (c, .error _) => (c, st.2 ++ [(0, true)])) (Acc.start s core, ([] : List (Nat × Bool)))
  let now := (here.take (lim.getD here.length)).drop f.done
  let acc := now.foldl (fun (c : Acc) m =>
    (vals.zip dst).foldl (fun (c : Acc) p => (c.write who (asMember e m) p.2 p.1.1 p.1.2).1) c) reads
  let n := s.leftOf core f
  let t := applyMoved acc core f 0 { e with tagged := false } dst []
  let t := if e.tagged then now.foldl (fun t m => t.setTagsAs who m (e.expect f.frame) (linesOf e dst) n) t else t
  match lim with
  | none => .done (t.countAbsent core (ms.length - here.length))
  | some k => .partly (t.setFlight core { f with
      done := k, got := vals.zipIdx.map (fun p => (gotKey 0 p.2, 2 * p.1.1 + b2n p.1.2)) })

/-- The near and far entries of a gather, scatter or SCTA, and the items of row j with far coordinate `idx` (R234). -/
def nearOf (f : Flight) (scatter : Bool) : Ent := entOf (if scatter then f.src else f.dst)
def farOf (f : Flight) (scatter : Bool) : Ent := entOf (if scatter then f.dst else f.src)
def rowItemsOf (f : Flight) (scatter : Bool) (op : Option Nat) (idx j : Nat) : List Item :=
  let near := nearOf f scatter
  let far := farOf f scatter
  let coord := (if scatter then f.sc else f.dc).toNat
  if scatter then rowItems near (nearRow near coord j) far (rowOf far idx) op
  else rowItems far (rowOf far idx) near (nearRow near coord j) none

/-- Elements in a row of the destination. -/
def perRow (f : Flight) (scatter : Bool) : Nat :=
  rowBits (farOf f scatter) / (if scatter then farOf f scatter else nearOf f scatter).esize

/-- The tag check of far rows that were not known at issue, as the rows are moved (16 R329, 04 R116) (log 23). -/
def lateTags (s : State) (core : Nat) (f : Flight) (far : Ent) (rows : List Elem) : TagCheck :=
  if f.stamp = 1 || f.done ≠ 0 then .ok
  else far.checkRead (s.tagAs (flightWho core f) (far.sliceOf core)) f.frame rows

/-- A landing once its late tag check has passed; a newer tag raises TAG, and at a pending one the word waits (log 23). -/
def tagged (s : State) (core : Nat) (f : Flight) (far : Ent) (c : TagCheck) (r : Landing) : Landing :=
  match c with
  | .ok => r
  | .pending => .waits
  | .newer l t => .faulted ((s.dropFlight core f).raise core (s.flightRec core f 4
      (BitVec.ofNat 32 ((far.expect f.frame).toNat * 2 ^ 24 + t.toNat * 2 ^ 16 + l))))

/-- GTH, SCT, SCTA: `far` names the pieces, `near` the rows (R234). Each update of SCTA reads and writes its element at
its home as one (06 R173). -/
def landGather (s : State) (core : Nat) (f : Flight) (lim : Option Nat) (scatter : Bool) (op : Option Nat) : Landing :=
  let near := nearOf f scatter
  let far := farOf f scatter
  let coord := (if scatter then f.sc else f.dc).toNat
  let n := gthN f.par
  let per := perRow f scatter
  let rows := List.range (match lim with | some k => min n (k / per) | none => n)
  let far1 := if scatter && op.isNone then { far with tagged := false } else far
  let c := s.lateTags core f far1 ((List.range n).flatMap (fun j => rowOf far (s.namedRow core f j)))
  let s := if c = .ok && f.stamp = 0 && f.done = 0 then
      s.sawTags (flightWho core f) far1 (far.sliceOf core) f.frame ((List.range n).flatMap (fun j => rowOf far (s.namedRow core f j)))
    else s
  let who := flightWho core f
  let acc := if op.isSome then { s.accOf core with atom := true, free := s.behind who } else s.accOf core
  let r := gatherRows who (gthOff f.par) per (rowItemsOf f scatter op) rows f.done acc 0
  let outs :=
    if scatter then (List.range n).flatMap (fun j => rowOf far (s.namedRow core f j))
    else (List.range n).flatMap (nearRow near coord)
  s.tagged core f far c (endMove core f (if scatter then far else near) outs lim r)

/-- RGTH (R235). -/
def landRgth (s : State) (core : Nat) (f : Flight) : Landing :=
  let near := entOf f.dst
  let far := entOf f.src
  let per := near.t0
  let mk (code j : Nat) : List Item := rowItems far (rowOf far code) near (nearRow near f.dc.toNat j) none
  let codes := if f.stamp = 1 then [] else s.namedCodes core f (gthOff f.par) (List.range (gthN f.par)) (rgthMax f.par)
  let c := s.lateTags core f far (codes.flatMap (rowOf far))
  let s := if c = .ok && f.stamp = 0 then s.sawTags (flightWho core f) far (far.sliceOf core) f.frame (codes.flatMap (rowOf far)) else s
  let r := rangeRows (flightWho core f) (gthOff f.par) per (rgthMax f.par) mk (List.range (gthN f.par)) 0 f.done (s.accOf core) 0
  let named := (s.namedCodes core f (gthOff f.par) (List.range (gthN f.par)) (rgthMax f.par)).length
  let cells := match r with | .all _ _ k => k / per | .blocked _ _ k _ | .past _ _ k _ | .bad _ _ k _ _ => max named (k / per + 1)
  s.tagged core f far c (endMove core f near ((List.range cells).flatMap (nearRow near f.dc.toNat)) none r)

/-- INGT. -/
def landIngt (s : State) (core : Nat) (f : Flight) (lim : Option Nat) : Landing :=
  let items := s.ingtItems core f
  endMove core f (asBytes (entOf f.dst)) (items.map (fun it => it.dst.2)) lim (moveFrom (flightWho core f) items f.done lim (s.accOf core))

/-- Constant bytes written at an element's address through an entry. -/
def landBytes (s : State) (core : Nat) (f : Flight) (addr : Nat) (bs : List Byte) : Landing :=
  let b := asBytes (entOf f.dst)
  let outs := (List.range bs.length).map (byteElem addr)
  let items : List Item := (bs.zip outs).map (fun p => { src := none, value := p.1.toNat, dst := (b, p.2) })
  endMove core f b outs none (moveFrom (flightWho core f) items 0 none (Acc.start s core))

/-- The status code and class of a copy's handle (04 R129, R240). -/
def copyStatus (s : State) (core handle : Nat) : Nat × Nat :=
  let c := s.coreAt core
  match c.cu.copies.find? (fun y => y.home.toNat = handle / 2 ^ 24 && y.n % 2 ^ 24 = handle % 2 ^ 24) with
  | none => (0, 0)
  | some y =>
    if c.cu.copyCount ≥ y.n + 1025 then (0, 0)
    else
      match y.st with
      | .queued => (1, 0)
      | .running => (2, 0)
      | .done => (3, 0)
      | .cancelled => (4, 0)
      | .failed cls => (5, cls.toNat)

/-- BSTAT (R240). -/
def landBstat (s : State) (core : Nat) (f : Flight) : Landing :=
  let (st, cls) := s.copyStatus core (fieldOf f.par 31 0)
  s.landBytes core f (statElem (entOf f.dst) f.dc.toNat).addr (leBytes 8 (st + cls * 2 ^ 8))

/-- XRD: the channels that the crossing unit returned, the status byte and three zero bytes; its flags (R244).
`data` holds the status, the flags, then the channels. -/
def landXrd (s : State) (core : Nat) (f : Flight) : Landing :=
  let bytes := (f.data.drop 2).flatMap (bytesOf 4) ++ bytesOf 1 (f.data.headD 0) ++ [0, 0, 0]
  match s.landBytes core f (statElem (entOf f.dst) f.dc.toNat).addr bytes with
  | .done t => .done (t.modCore core (fun c => c.raiseFlags ((f.data.getD 1 0).setWidth 7)))
  | r => r

/-- A pending S access performed: its value lands in x[d] (18 R376). -/
def landS (s : State) (core : Nat) (f : Flight) : Landing :=
  let e := entOf f.src
  let o := sOpOf f.word
  let (d, cls) : BitVec 5 × BitVec 4 :=
    match f.word with
    | .lds d _ _ c | .ldsK d _ _ c | .sts d _ _ c | .stsK d _ _ c | .aadd d _ _ c | .aaddK d _ _ c | .amin d _ _ c
    | .aminK d _ _ c | .amax d _ _ c | .amaxK d _ _ c | .axch d _ _ c | .axchK d _ _ c | .acas d _ _ c | .acasK d _ _ c => (d, c)
    | _ => (0, 0)
  let who : Who := { core := core, unit := .s, cls := cls, word := some f.ordinal }
  match s.performS who e (sCoord f) o f.par f.dc f.frame with
  | (t, .value v) =>
    let t := if o.atomic then t.visibleBy s.mem.stores (t.cycleOf core) else t
    .done (t.modCore core (fun c =>
      let c := if o.reads then c.setX d (sExtend e (sSize e) v) else c
      { c with su := { c.su with pend := c.su.pend.filter (fun p => p.1 ≠ .x d.toNat) } }))
  | (t, .bad k m) => .faulted ((t.dropFlight core f).consumeBad core .s k m)
  | (t, .fault x) => .blocked t f x

/-- The accesses of a flight that are still to be made: all of them, or those before element `lim` (log 6). -/
def land (s : State) (core : Nat) (f : Flight) (lim : Option Nat := none) : Landing :=
  match f.word with
  | .tld _ | .tst _ | .tldr _ | .tstr _ => s.landMove core f lim (some (tileOf (entOf f.src) f.sc.toNat))
  | .tgr _ => s.landTgr core f
  | .tbc _ => s.landTbc core f lim
  | .gth _ => s.landGather core f lim false none
  | .sct _ => s.landGather core f lim true none
  | .scta _ => s.landGather core f lim true (some (gthOp f.par))
  | .rgth _ => s.landRgth core f
  | .fill _ => s.landMove core f lim none
  | .bstat _ => s.landBstat core f
  | .ingt _ => s.landIngt core f lim
  | .xrd _ => s.landXrd core f
  | _ => if f.unit = .s then s.landS core f else .done s

/-- A word that lands here, as a whole. -/
def landsHere (f : Flight) : Bool :=
  match f.word with
  | .bcan _ | .egr _ | .xwr _ => false
  | .xrd _ => f.data ≠ []
  | _ => f.unit ≠ .s

/-- An earlier word of the sequencer that program order puts before a flight, with accesses still to come (R126, R227). -/
def behindOf (f g : Flight) : Bool := g.id < f.id && orders g && !g.applied && related f g

/-- The accesses of the words before it are over, and the region's clock is not gated (R126, R227, 17 R348, log 6). -/
def mayLand (s : State) (core : Nat) (f : Flight) : Bool :=
  !(s.regionAt (s.regionOf core)).gated && !(s.coreAt core).cu.flights.any (behindOf f)

/-- The flight that the cursor names. -/
def flightHere (s : State) : Option Flight := s.me.cu.flights.find? (fun f => f.id = s.cur.n)

/-- The elements of an EGR's tile, those read before as they were, and the first bad word (R242). -/
def egressBytes (s : State) (core : Nat) (f : Flight) : Acc × List Nat × Option (Nat × Mark) :=
  let e := entOf f.src
  (tileOf e f.sc.toNat).zipIdx.foldl (fun (st : Acc × List Nat × Option (Nat × Mark)) x =>
    match f.gotAt (gotKey 0 x.2) with
    | some r => (st.1, st.2.1 ++ [r.1], st.2.2)
    | none =>
      match st.1.read (flightWho core f) e x.1 with
      | (a, .ok (v, b)) => (a, st.2.1 ++ [v], if st.2.2.isSome then st.2.2 else b)
      | (a, .error _) => (a, st.2.1 ++ [0], st.2.2)) (Acc.start s core, ([] : List Nat), none)

/-- An EGR whose packet's bytes are not all read. -/
def egrWaits (s : State) (core : Nat) (f : Flight) : Bool :=
  (s.portAt (fieldOf f.par 63 62)).queue.any (fun k => k.core.toNat = core && k.flight = f.id && k.bytes.isNone)

/-- An EGR reads what is left of its tile, 64 cycles after its issue at the latest; a bad word is consumed
(R242, 18 R370). -/
def readEgress (s : State) (core : Nat) (f : Flight) : State :=
  let port := fieldOf f.par 63 62
  if !s.egrWaits core f then s
  else
    let e := entOf f.src
    match s.egressBytes core f with
    | (_, _, some (k, m)) =>
      ((s.modPort port (fun q => { q with queue := q.queue.filter (fun x => !(x.core.toNat = core && x.flight = f.id)) })).dropFlight core f).consumeBad
        core f.unit k m
    | (a, vs, none) =>
      let bytes := leBytes (vs.length * e.esize / 8) (packElems e.esize vs)
      (a.commit (flightWho core f) 0).modPort port (fun q => { q with queue := q.queue.map (fun k =>
        if k.core.toNat = core && k.flight = f.id then { k with bytes := some bytes } else k) })

/-- An XWR reads the channels of its tile, before its write travels to the unit; a bad word is consumed
(R227, R244, 18 R370). -/
def readChannels (s : State) (core : Nat) (f : Flight) : State :=
  let e := entOf f.src
  let xs := (rowOf e f.sc.toNat).take f.dc.toNat
  let (a, vs, b) := loadElems (flightWho core f) e (xs.map (fun x => (x, true))) (Acc.start s core)
  match b with
  | some (k, m) => (s.dropFlight core f).consumeBad core f.unit k m
  | none =>
    let t := (a.commit (flightWho core f) 0).setFlight core { f with data := vs.map (BitVec.ofNat 32) }
    t.modCore core (fun c => { c with cu := { c.cu with flights := c.cu.flights.map (s.restart core f) } })

/-- The places that a flight's requests go to (01 R16 to R22). -/
def flightPlaces (s : State) (core : Nat) (f : Flight) : List Place :=
  let a := entOf f.src
  let b := entOf f.dst
  let rows (e : Ent) : List Elem := (List.range (gthN f.par)).flatMap (fun j => rowOf e (s.namedRow core f j))
  match f.word with
  | .egr _ => [streamPlace (fieldOf f.par 63 62)]
  | .xwr _ | .xrd _ => [crossingPlace (fieldOf f.par 5 0)]
  | .bcan _ | .bstat _ => [enginePlace (quadOf core)]
  | .gth _ => s.entPlaces core a (rows a)
  | .sct _ | .scta _ => s.entPlaces core b (rows b)
  | .rgth _ =>
    s.entPlaces core a ((s.namedCodes core f (gthOff f.par) (List.range (gthN f.par)) (rgthMax f.par)).flatMap (rowOf a))
  | .tst _ | .tstr _ | .tbc _ | .fill _ => s.entPlaces core b (tileOf b f.dc.toNat)
  | .tld _ | .tldr _ | .tgr _ => s.entPlaces core a (tileOf a f.sc.toNat)
  | _ => if f.unit = .s then s.entPlaces core a (sElems a (sCoord f)) else []

/-- A flight's requests travel through a link that is down: they end in MCHECK at the core (18 R374). -/
def cutFlight (s : State) (core : Nat) (f : Flight) : Option State :=
  (s.cutRow (corePlace core) (s.flightPlaces core f)).map (fun row => (s.dropFlight core f).machineCheck core f.unit .uncorrectable 4 row 0)

/-! ## A part of a word's accesses before its landing -/

/-- The word may perform its first `k` elements, or rows or members, before the rest: never a lockstep node's word, whose
digest takes its granules whole (06 R162, 19 R399) (log 6). -/
def mayPart (s : State) (core : Nat) (f : Flight) (k : Nat) : Bool :=
  let items : List Item :=
    match f.word with
    | .tld _ | .tst _ | .tldr _ | .tstr _ => tileItems f (some (tileOf (entOf f.src) f.sc.toNat))
    | .fill _ => tileItems f none
    | .ingt _ => s.ingtItems core f
    | .gth _ => (List.range (gthN f.par)).flatMap (fun j => rowItemsOf f false none (s.namedRow core f j) j)
    | .sct _ | .scta _ => (List.range (gthN f.par)).flatMap (fun j => rowItemsOf f true none (s.namedRow core f j) j)
    | _ => []
  !(match s.nodeOn core with | some (_, v) => lockstep v | none => false) && f.done < k && !f.blocked && landsHere f && s.mayLand core f &&
    (match f.word with
     | .tbc _ => true
     | .gth _ => k % perRow f false = 0 && k < items.length && mayCut false items k
     | .sct _ | .scta _ => k % perRow f true = 0 && k < items.length && mayCut false items k
     | .tld _ | .tst _ | .tldr _ | .tstr _ | .fill _ | .ingt _ => k < items.length && mayCut false items k
     | _ => false)

/-- All accesses of a D word, ahead of its landing (log 6). -/
def applyWord (s : State) (core : Nat) (f : Flight) : State :=
  if f.applied || f.blocked || !landsHere f || !s.mayLand core f || (s.cutFlight core f).isSome then s
  else
    match s.land core f with
    | .done t => t.setFlight core { f with applied := true }
    | .faulted t => t
    | _ => s

/-- The number that stands for all of a word's accesses. -/
def wholeWord : Nat := 2 ^ 40

/-- A part of a word's accesses inside its bound (00 R8): a load of S or VL read again, a block of a TGR's or an EGR's
reads, or the first `k` elements of another D word, or all of them (log 6). -/
def partWord (s : State) (core id k : Nat) : State :=
  match (s.coreAt core).cu.again.find? (fun f => f.id = id) with
  | some f =>
    if (s.regionAt (s.regionOf core)).gated then s
    else if f.unit = .s then s.sAgain core f else s.vlAgain core f
  | none =>
    match (s.coreAt core).cu.flights.find? (fun f => f.id = id) with
    | none => s
    | some f =>
      if !s.mayLand core f || f.blocked || f.applied then s
      else if wholeWord ≤ k then s.applyWord core f
      else
        match f.word with
        | .tgr _ =>
          let e := entOf f.src
          let m := k / 2 ^ 20
          if (members e).contains m && s.inPlacement core m then s.readBlock core f (asMember e m) m (k % 2 ^ 20) (tileOf e f.sc.toNat) else s
        | .egr _ =>
          let t := s.readBlock core f (entOf f.src) 0 k (tileOf (entOf f.src) f.sc.toNat)
          if !s.egrWaits core f || (t.coreAt core).cu.flights.any (fun g => g.id = id && g.got.any (fun e => e.2 % 2 = 1)) then s else t
        | _ =>
          if s.mayPart core f k then
            match s.land core f (some k) with
            | .partly t => t
            | _ => s
          else s

end State

/-- A D word lands: its reads and writes are performed and its give added. One whose translation faults waits for that
event; an EGR reads its bytes, and an XWR its channels (log 6). -/
def execDWordLand (s : State) : Out1 :=
  match s.flightHere with
  | none => .next s
  | some f =>
    if f.blocked || !s.mayLand s.here f then .next s
    else if f.applied && State.landsHere f then .next (s.landed s.here f)
    else if let some t := s.cutFlight s.here f then .next t
    else
      match f.word with
      | .egr _ => .next (s.readEgress s.here f)
      | .xwr _ => .next (if f.data = [] then s.readChannels s.here f else s)
      | _ =>
        if !State.landsHere f then .next s
        else
          match s.land s.here f with
          | .done t => .next (t.landed s.here f)
          | .faulted t => .next t
          | .blocked _ _ _ | .partly _ | .waits => .next s

namespace State

/-- A node is held after a translation fault (18 R376): stopped, with NODE_FAULT to the host. -/
def holdNode (s : State) (n core : Nat) (v : Node) (f : FaultRec) (va : Nat) : State :=
  let s := (s.journalFault n core f.cls).haltNode n v
  let s := s.modNode n (fun w => { w with st := .holding, heldVa := BitVec.ofNat 64 va })
  (s.setFate n .held).signal 1 (leBytes 8 n ++ leBytes 8 f.cls.toNat ++ leBytes 8 va)

/-- A translation or permission fault, or a staging overrun, at an issued access (18 R375, R376; 19 R393, R419). -/
def translationStop (s : State) (core : Nat) (f : Flight) (x : XFault) : State :=
  let keep (s : State) : State := s.modCore core (fun c => { c with cu := { c.cu with
    flights := c.cu.flights.map (fun g => if g.id = f.id then { f with blocked := true } else g) } })
  match s.nodeOn core with
  | none => s.dropFlight core f
  | some (n, v) =>
    if !(nodeCores v).contains core then s.dropFlight core f
    else
      let rcd := s.flightRec core f x.cls x.status
      let log (s : State) : State := (s.logMemory core x.va 0).trapRecord core rcd (s.coreAt core).inHandler
      match v.st with
      | .saving => if x.overrun then ((log s).dropFlight core f).failNode n core x.cls else keep s
      | .holding => if x.overrun then ((log s).dropFlight core f).failNode n core x.cls else keep s
      | .running | .placed | .resuming | .stopping _ =>
        if s.transition core then
          -- the stop is latched until the transition ends (17 R360)
          keep ((s.domainOf core).foldl (fun s d => s.modCore d (fun k => { k with held := true })) s)
        else if !x.overrun && checkpointable v && !lockstep v then (keep (log s)).holdNode n core v rcd x.va
        else ((log s).dropFlight core f).failNode n core x.cls
      | _ => s.dropFlight core f

end State

/-- The quad interface reports a fault of an issued access: what came before the failing element has been performed. -/
def execTranslationFault (s : State) : Out1 :=
  match s.flightHere with
  | none => .next s
  | some f =>
    let gated := (s.regionAt (s.regionOf s.here)).gated
    -- the tables have changed since: the access can land
    let free : State := (s.modCore s.here (fun c => { c with cu := { c.cu with
      flights := c.cu.flights.map (fun g => if g.id = f.id then { g with blocked := false } else g) } })).refreshHolds (s.regionOf s.here)
    if f.unit ≠ .s && (f.applied || !State.landsHere f || s.me.cu.flights.any (State.behindOf f)) then .next s
    else
      match s.land s.here f with
      -- in a gate the report alone arrives: it is latched, and nothing of the word lands (17 R348, R360)
      | .blocked t g x => .next ((if gated then s.translationStop s.here f x else t.translationStop s.here g x).refreshHolds (s.regionOf s.here))
      -- an access of S has no other event, and is made now
      | .done t => .next (if f.unit = .s && !gated then (t.landed s.here f).refreshHolds (s.regionOf s.here) else free)
      | .faulted t => .next (if f.unit = .s && !gated then t else free)
      | _ => .next free

end Sys2Proof.Machine
end

