-- ==== Sys2Proof/Machine/Matrix.lean ====
section
/-! DEFINITION. The quad's lease and its runs, band power, and the MC and CT words (03 R97, R98; 02 R63 to R65; 11 R280 to
R304). A command enters the quad's pipeline when it issues; it reads and writes in its place of the order, between its issue
and its landing (log 7). -/

namespace Sys2Proof.Machine

/-! ## The lease -/

namespace State

/-- The lowest of V0 to V2 whose clock limit is at least the region clock (02 R44, R63, R68). -/
def clockClass (s : State) (r : Nat) : Nat :=
  let g := s.regionAt r
  let num := fieldOf g.bind 63 32 * (16 - g.power.step) * 10 ^ 9 * 2 ^ 16
  let den := 16 * (fieldOf g.bind 31 20 + 1) * (s.sourceAt (fieldOf g.bind 19 15)).period.toNat
  if num ≤ 1200000000 * den then 0 else if num ≤ 1600000000 * den then 1 else 2

/-- Cycles of a region's nominal clock in `ns` nanoseconds, rounded up (02 R44). -/
def nsCycles (s : State) (r ns : Nat) : Nat :=
  let g := s.regionAt r
  ceilDiv (ns * 65536 * fieldOf g.bind 63 32) (max 1 ((fieldOf g.bind 31 20 + 1) * (s.sourceAt (fieldOf g.bind 19 15)).period.toNat))

/-- The class that a request is granted: what it asks for, V3 only under its core's boost, or what the clock needs (R63,
R292). -/
def grantClass (s : State) (q : Nat) (r : LeaseReq) : Nat :=
  let v := s.quadAt q
  if r.cls = 3 && v.boost.isSome && v.boostCore = r.core then 3 else max (min r.cls 2) (s.clockClass (s.regionOfQuad q 32))

/-- A band is awake, and at a class or ready to change to it, with no change under way. -/
def bandReady (b : Band) (cls : Nat) : Bool := b.awake && (b.cls = cls || b.next = cls) && b.waking.isNone

/-- The bands that the first request of a free lease waits for begin to wake or to change class (02 R64). -/
def startWake (s : State) (q : Nat) : State :=
  let v := s.quadAt q
  match v.lease, v.requests with
  | none, r :: _ =>
    let cls := s.grantClass q r
    s.modQuad q (fun v => { v with bands := (bandList r.bands.toNat).foldl (fun t j =>
      let b := t.get {} j
      if bandReady b cls || (b.waking.isSome && b.next = cls) then t
      else t.ins j { b with waking := some (s.now + 600), next := cls }) v.bands })
  | _, _ => s

/-- Bands that a matrix command names have received it now (02 R64). -/
def useBands (s : State) (q bands : Nat) : State :=
  s.modQuad q (fun v => { v with bands := (bandList bands).foldl (fun t j => t.ins j { t.get {} j with used := s.now }) v.bands })

/-- At a command boundary the leased bands take the class of the lease, or V3 under a boost (02 R64, R65). -/
def boundary (s : State) (q : Nat) : State :=
  let v := s.quadAt q
  match v.lease with
  | none => s
  | some l =>
    if v.cmds ≠ [] then s
    else
      let cls := if v.boost.isSome then 3 else l.cls
      s.modQuad q (fun v => { v with bands := (bandList l.bands.toNat).foldl (fun t j => t.ins j { t.get {} j with cls := cls, next := cls }) v.bands })

/-- The lease is given up; the first waiting request's bands begin to wake. -/
def giveUp (s : State) (q : Nat) : State := (s.modQuad q (fun v => { v with lease := none })).startWake q

/-- The bands that the core may use: those of its lease, or of the pending request whose give the word takes (R290). -/
def leaseBands (s : State) (w : MArgs) : Option Nat :=
  let q := s.quadHere
  let pend := (q.requests.find? (fun r => r.core.toNat = s.here && r.ga ≠ 0 && w.takes.any (fun t => t.1 = r.gc && t.2 ≠ 0))).map
    (fun r => r.bands.toNat)
  match q.lease with
  | some l => if l.core.toNat = s.here then some l.bands.toNat else pend
  | none => pend

/-- The lease check: reason 1 not held, 2 run passed to a waiter, 3 a band outside it (R341). -/
def leaseCheck (s : State) (w : MArgs) (bands : Nat) (all : Bool) : Except (Nat × Nat) Bool :=
  let reason := if s.quadHere.passed.contains (BitVec.ofNat 8 s.here) then 2 else 1
  match s.leaseBands w with
  | none => .error (9, reason * 2 ^ 24 + bands)
  | some b => if all && !(bandList bands).all (bitOf b) then .error (9, 3 * 2 ^ 24 + bands) else .ok false

/-! ## How an MC word issues (R287, R288) -/

/-- The format word at the head of the queue. -/
def fmtWord (s : State) : Dword := s.me.cu.fmtq.headD 0

/-- ASHAPE as a word that issues now finds it in its place of the order: an MSHAPE of the core that has not landed comes
before it (R281). -/
def shapeHere (s : State) : BitVec 64 :=
  match (s.quadAt (quadOf s.here)).cmds.reverse.find? (fun m => m.core.toNat = s.here && (match m.word with | .mshape _ => true | _ => false)) with
  | some m => shapeOf m.ctx.w
  | none => s.me.csr.ashape

/-- The bands of ASHAPE there. -/
def bandsHere (s : State) : Nat := shapeBands s.shapeHere

/-- What a word of the MC column captures at its issue. -/
def mctx (s : State) (w : MArgs) : MatCtx :=
  { w := w, ent := s.me.lt (w.opf 17 13), coord := (s.pHere (BitVec.ofNat 3 (w.opf 12 10))).toNat
    desc := s.pHere (BitVec.ofNat 3 (w.opf 9 7)), fmt := s.fmtWord, shape := s.shapeHere, frame := s.frameNo s.here
    seed := s.me.csr.rngSeed, rstep := s.me.csr.rngStep }

/-- The worst-case landing of a command: `lat` cycles from its issue, from that of every command that it waits for, or from
that of an earlier VL word that touches its bytes (R288, R289). -/
def cmdDue (s : State) (m : MatCmd) (lat : Nat) : Nat :=
  (s.quadAt (quadOf s.here)).cmds.foldl (fun k c => if c.before m then max k c.due else k) m.start + lat

/-- The word is counted in the run of its core's lease. -/
def countRun (s : State) : State :=
  let q := quadOf s.here
  match (s.quadAt q).lease with
  | some l => if l.core.toNat = s.here then s.modQuad q (fun v => { v with lease := some { l with count := l.count + 1 } }) else s
  | none => s

/-- An MC word issues: takes, the format word, its ordinal, its run, and the bands that it names. -/
def mIssues (s : State) (w : MArgs) (pop : Bool) (bands : Nat) (f : Core → Core) : State :=
  (((s.issues w.takes 0 (fun c =>
    f { c with cu := { c.cu with mcIndex := c.cu.mcIndex + 1, fmtq := if pop then c.cu.fmtq.drop 1 else c.cu.fmtq } })).countRun).useBands
      (quadOf s.here) bands).fresh

/-- A command enters the quad's pipeline: `keys` are the slice offsets it touches, `uses` the resources of R288, `lat` its
latency but for the `extra` cycles of its list entries. -/
def enterArray (s : State) (i : Instr) (w : MArgs) (pop : Bool) (bands : Nat) (keys : List Nat) (uses : List (Nat × Nat)) (lat : Nat)
    (g : MatCmd → MatCmd) (f : MatCmd → Core → Core) (extra : Nat := 0) : State :=
  let m : MatCmd := g
    { id := s.freeCtr, core := BitVec.ofNat 8 s.here, ordinal := s.ordinalHere, offset := s.offsetHere, index := s.me.cu.mcIndex
      gc := w.gc, ga := w.ga, issued := s.cycleOf s.here, word := i, ctx := s.mctx w, keys := keys, uses := uses
      lent := if isBank w then some (opBank w) else none, start := s.me.accessStart (s.cycleOf s.here) 0 keys, lat := lat }
  let m := { m with due := s.cmdDue m (lat + extra) }
  let t := s.mIssues w pop bands (f m)
  t.modQuad (quadOf s.here) (fun v => { v with cmds := v.cmds ++ [{ m with past := t.mem.known s.here 2 (fun _ => true) }] })

/-- An MC word that needs the lease; `regs` are the registers it reads. -/
def mWord (s : State) (w : MArgs) (bands : Nat) (all : Bool) (regs : List BadReg) (check : Except (Nat × Nat) Bool) (effect : State) : Out1 :=
  s.tryWord w.takes (checks [s.leaseCheck w bands all, check]) (s.consuming regs effect)

/-! ## Operands (R282 to R286) -/

/-- FMTQ_EMPTY, then the zero field of the word. -/
def fmtCheck (s : State) (op : Nat) (ok : Bool) : Except (Nat × Nat) Bool :=
  if s.me.cu.fmtq = [] then .error (6, op) else need (fieldOf s.fmtWord 13 0 = 0 && ok) (bad 6)

/-- A valid pair (R283). -/
def pairOk (a b : Nat) : Bool :=
  match a with
  | 10 | 11 => b = 10 || b = 11
  | 8 | 9 => b = 8 || b = 9
  | 1 => b = 1
  | 13 => b = 13
  | _ => false

/-- Output formats of MDRN. -/
def outFmtOk (t : Nat) : Bool := [1, 2, 3, 8, 9, 10, 11, 12, 13].contains t

/-- The descriptor (R285). -/
def desc (s : State) (w : MArgs) : Dword := s.pHere (BitVec.ofNat 3 (w.opf 9 7))

/-- Registers of a word: its descriptor, and an operand's entry and coordinate. -/
def descReg (s : State) (w : MArgs) : List BadReg := [s.pWord (w.opf 9 7)]
def opRegs (s : State) (w : MArgs) : List BadReg :=
  s.descReg w ++ (if isBank w then [] else [.lt (w.opf 17 13), s.pWord (w.opf 12 10)])

/-- A descriptor with rows: the zero fields that a command leaves unused, its range and the alignment of soff. -/
def descOk (d : Dword) (soff flag : Bool) (align : Nat) : Bool :=
  fieldOf d 63 41 = 0 && (soff || dSoff d = 0) && (flag || !dFlag d) && 1 ≤ dRows d && dRows d ≤ 512 && dArow d + dRows d ≤ 512 &&
    dSoff d % align = 0

/-- The operand's entry and coordinate, and its elements, `inner` by `outer`. -/
def opEnt (s : State) (w : MArgs) : Ent := entOf (s.me.lt (w.opf 17 13))
def opCoord (s : State) (w : MArgs) : Nat := (s.pHere (BitVec.ofNat 3 (w.opf 12 10))).toNat
def opElems (s : State) (w : MArgs) (inner outer : Nat) : List Elem := (s.mctx w).elems inner outer

/-- Entry or bank of an operand of type `code` and `count` elements. -/
def opCheck (s : State) (w : MArgs) (code count : Nat) : Except (Nat × Nat) Bool :=
  let e := s.opEnt w
  if isBank w then need (s.me.cu.lent.any (fun b => b.bank = opBank w) && count * widthOf code ≤ 65536) (bad 4)
  else checks [need (e.loaded && !e.curve && e.ty = code) (bad 2), need (e.space = 0) (bad 1)]

/-- Addresses and, for a read, tags of a tile operand. -/
def opSpace (s : State) (w : MArgs) (xs : List Elem) : Except (Nat × Nat) Bool := if isBank w then .ok false else inSpace (s.opEnt w) xs
def opTags (s : State) (w : MArgs) (xs : List Elem) : Except (Nat × Nat) Bool :=
  let e := s.opEnt w
  if isBank w then .ok false else tagCheck (e.expect (s.frameNo s.here)) (e.checkRead (s.tagAs { core := s.here, unit := .mc, cls := 0 } s.here) (s.frameNo s.here) xs)

def sawOpTags (s : State) (w : MArgs) (xs : List Elem) : State :=
  if isBank w then s else s.sawTags s.mcWho (s.opEnt w) s.here (s.frameNo s.here) xs

/-- Bytes of the slice from `soff` on. -/
def areaCheck (soff n : Nat) : Except (Nat × Nat) Bool := need (soff + n ≤ sliceBytes) (badAddr (max soff sliceBytes))

/-- The planes' records as the commands still to be done leave them (R287). -/
def planned (q : Quad) : Quad :=
  q.cmds.foldl (fun p m =>
    if m.done then p
    else
      match m.word with
      | .mldw _ =>
        let rcd : PlaneRec := { fmt := BitVec.ofNat 4 m.ctx.bfmt, block := m.ctx.block, cs := m.ctx.cs, nc := m.ctx.ncols }
        { p with shadow := m.ctx.bands.foldl (fun t j => t.ins j { info := some rcd }) p.shadow }
      | .mswp _ =>
        { p with
          active := m.ctx.bands.foldl (fun t j => t.ins j (p.shadowAt j)) p.active
          shadow := m.ctx.bands.foldl (fun t j => t.ins j (p.activeAt j)) p.shadow }
      | _ => p) q

/-! ## The resources of R288, by kind -/

def entryPort : List (Nat × Nat) := [(0, 0)]
def shadowOf (bl : List Nat) : List (Nat × Nat) := bl.map (fun j => (1, j))
def activeOf (bl : List Nat) : List (Nat × Nat) := bl.map (fun j => (2, j))
def rowsOf (arow rows : Nat) : List (Nat × Nat) := (List.range rows).map (fun m => (3, arow + m))
def ccOf (uses : Bool) : List (Nat × Nat) := if uses then [(4, 0)] else []
def drainPort : List (Nat × Nat) := [(5, 0)]
/-- an MSHAPE, which every later command waits for, and an MREL, which waits for every earlier one (R293) -/
def shapeUse : List (Nat × Nat) := [(6, 0)]
def allUse : List (Nat × Nat) := [(7, 0)]

end State

/-! ## MLEASE, MREL, MBST (R292 to R294) -/

def execMlease (w : MArgs) (s : State) : Out1 :=
  let q := quadOf s.here
  let held : Bool := match (s.quadAt q).lease with | some l => l.core.toNat = s.here | none => false
  let r : LeaseReq :=
    { core := BitVec.ofNat 8 s.here, bands := BitVec.ofNat 4 (w.opf 3 0), cls := w.opf 5 4, gc := w.gc, ga := w.ga
      index := BitVec.ofNat 32 s.me.cu.mcIndex, position := BitVec.ofNat 32 s.offsetHere, ordinal := s.ordinalHere
      due := s.cycleOf s.here + 3 * 16384 + 8 + s.nsCycles (s.regionOf s.here) 600 }
  s.tryWord w.takes (.ok false)
    (let t := s.mIssues w false 0 id
     let t := if held then t.modQuad q (fun v => { v with lease := none }) else t
     (t.modQuad q (fun v => { v with requests := v.requests ++ [r] })).startWake q)

def execMrel (w : MArgs) (s : State) : Out1 :=
  let q := quadOf s.here
  let held : Bool := match (s.quadAt q).lease with | some l => l.core.toNat = s.here | none => false
  s.tryWord w.takes (.ok false)
    (let t := s.enterArray (.mrel w) w false 0 [] State.allUse 2 id (fun _ => id)
     let t := t.modQuad q (fun v => { v with requests := v.requests.filter (fun r => r.core.toNat ≠ s.here) })
     if held then t.giveUp q else t.startWake q)

/-- MBST: the governor decides (event `boostDecision`), and adds the give. -/
def execMbst (w : MArgs) (s : State) : Out1 :=
  s.mWord w s.bandsHere false [] (.ok false) (s.enterArray (.mbst w) w false 0 [] [] (4 + s.nsCycles (s.regionOf s.here) 200) (fun c => { c with boost := some (w.opf 15 0) }) (fun _ => id))

/-! ## Shape and planes (R295 to R297) -/

/-- MSHAPE writes ASHAPE at its landing. Later commands capture the new shape when they issue, which is after MSHAPE in the
order of R281. -/
def execMshape (w : MArgs) (s : State) : Out1 :=
  s.mWord w (w.opf 3 0) true [] (.ok false) (s.enterArray (.mshape w) w false (w.opf 3 0) [] State.shapeUse 1 id (fun _ => id))

def execMldw (w : MArgs) (s : State) : Out1 :=
  let x := s.mctx w
  let nc := x.ncols
  let xs := x.elems nc (32 * x.nb)
  let nsc := if x.block then x.nb * nc else 0
  let soff := dSoff x.desc
  let r := 32 * x.bands.length
  s.mWord w s.bandsHere true (.csr 2 :: s.opRegs w)
    (State.checks [s.fmtCheck 4 (mpcOf x.bfmt ≠ 0), State.need (fieldOf x.desc 63 41 = 0 && fieldOf x.desc 19 0 = 0) (State.bad 5),
      s.opCheck w x.bfmt (32 * x.nb * nc), s.opSpace w xs, if x.block then State.areaCheck soff nsc else .ok false, s.opTags w xs])
    ((s.sawOpTags w xs).enterArray (.mldw w) w true s.bandsHere (x.keys xs ++ byteKeys soff nsc) (State.shadowOf x.bands)
      (if isBank w then 4 + r else 8 + 2 * r) id (fun _ => id))

def execMswp (w : MArgs) (s : State) : Out1 :=
  let bl := bandList s.bandsHere
  s.mWord w s.bandsHere false [.csr 2] (.ok false)
    (s.enterArray (.mswp w) w false s.bandsHere [] (State.shadowOf bl ++ State.activeOf bl) 2 id (fun _ => id))

/-! ## MMUL and MZACC (R298, R299) -/

def execMmul (w : MArgs) (s : State) : Out1 :=
  let x := s.mctx w
  let rows := dRows x.desc
  let arow := dArow x.desc
  let xs := x.elems (32 * x.nb) rows
  let nsc := if x.block then rows * x.nb else 0
  let soff := dSoff x.desc
  s.mWord w s.bandsHere true (.csr 2 :: s.opRegs w)
    (State.checks [s.fmtCheck 6 (State.pairOk x.afmt x.bfmt), State.need (State.descOk x.desc true false 1) (State.bad 5),
      s.opCheck w x.afmt (32 * x.nb * rows), State.need (recordsOk (State.planned s.quadHere) x.bands x.bfmt x.block x.ncols x.cs) (State.bad 6),
      s.opSpace w xs, if x.block then State.areaCheck soff nsc else .ok false, s.opTags w xs])
    ((s.sawOpTags w xs).enterArray (.mmul w) w true s.bandsHere (x.keys xs ++ byteKeys soff nsc)
      (State.entryPort ++ State.activeOf x.bands ++ State.rowsOf arow rows ++ State.ccOf x.cs)
      ((if isBank w then 13 + rows else 16 + 2 * rows) + (if x.cs then 2 else 0)) id (fun _ => id))

def execMzacc (w : MArgs) (s : State) : Out1 :=
  let d := s.desc w
  s.mWord w s.bandsHere false (s.descReg w) (State.need (State.descOk d false true 1) (State.bad 5))
    (s.enterArray (.mzacc w) w false 0 [] (State.rowsOf (dArow d) (dRows d) ++ State.ccOf (dFlag d)) (4 + ceilDiv (dRows d) 64) id (fun _ => id))

/-! ## Drains and corrections (R300 to R302) -/

/-- What MDRN reserves counts every drained element as an outlier in outlier mode; its bound counts those that it appends
(`State.dueNow`). -/
def execMdrn (w : MArgs) (s : State) : Out1 :=
  let x := s.mctx w
  let nc := x.ncols
  let soff := dSoff x.desc
  let rows := dRows x.desc
  let xs := x.elems nc rows
  s.mWord w s.bandsHere true (.csr 2 :: s.opRegs w ++ (if fieldOf x.fmt 19 18 = 2 then State.rngRegs else []))
    (State.checks [s.fmtCheck 8 (State.outFmtOk x.ofmt), State.need (State.descOk x.desc true true (if x.outl then 8 else 1)) (State.bad 5),
      s.opCheck w x.ofmt (nc * rows), s.opSpace w xs, if x.outl then s.listCheck soff else .ok false])
    (s.enterArray (.mdrn w) w true s.bandsHere (x.keys xs ++ if x.outl then byteKeys soff (8 + 8 * s.listCap soff) else [])
      (State.rowsOf (dArow x.desc) rows ++ State.drainPort)
      (if isBank w then 6 + rows else 8 + 2 * rows) id
      (fun m c => if isBank w then { c with cu := { c.cu with windows := c.cu.windows ++ (List.range 16).map (fun i =>
        c.window (.v (16 * opBank w + i)) m.due) } } else c) (if x.outl then 2 * (nc * rows) else 0))

/-- What MOCR reserves counts as many entries as the list can hold; its bound counts those that it applies (`State.dueNow`). -/
def execMocr (w : MArgs) (s : State) : Out1 :=
  let x := s.mctx w
  let d := x.desc
  let soff := dSoff d
  s.mWord w s.bandsHere true (.csr 2 :: s.descReg w)
    (State.checks [s.fmtCheck 9 (mpcOf x.bfmt ≠ 0), State.need (State.descOk d true false 8) (State.bad 5),
      State.need (recordsOk (State.planned s.quadHere) x.bands x.bfmt x.block x.ncols false) (State.bad 6), s.listCheck soff])
    (s.enterArray (.mocr w) w true s.bandsHere (byteKeys soff (8 + 8 * s.listCap soff))
      (State.entryPort ++ State.activeOf x.bands ++ State.rowsOf (dArow d) (dRows d) ++ State.ccOf true) 10 id (fun _ => id) (2 * s.listCap soff))

def execMchk (w : MArgs) (s : State) : Out1 :=
  let x := s.mctx w
  let rows := dRows x.desc
  let used := 4 * (rows + x.ncols)
  let soff := dSoff x.desc
  let tv := numOf 12 (x.coord % 2 ^ 32)
  s.mWord w s.bandsHere false (.csr 2 :: s.descReg w ++ [s.pWord (w.opf 12 10)])
    (State.checks [State.need (State.descOk x.desc true false 16) (State.bad 5),
      State.need (!tv.isNan && !tv.isInf && (!tv.isNeg || tv.isZero)) (State.bad 5), State.areaCheck soff (alignUp used 16 + 16)])
    (s.enterArray (.mchk w) w false 0 (((List.range (alignUp used 16 + 16)).filter (fun i => i < used || alignUp used 16 ≤ i)).map (fun i => soff + i))
      (State.rowsOf (dArow x.desc) rows ++ State.ccOf true ++ State.drainPort) (24 + 2 * rows) id (fun _ => id))

/-! ## CT words (R304) -/

def execCnop (w : MArgs) (s : State) : Out1 := s.tryWord w.takes (.ok false) (s.issues w.takes 0 id)

/-- The stores that happen before a CTOK's give: those before its takes, and the core's VL stores that have reached their
bound, with what happens before them (06 R171). -/
def State.beforeCtok (s : State) : List Nat :=
  let own (r : Recent) : Bool := r.core.toNat = s.here && seqOf r.slot = 2
  let told := s.mem.recent.filter (fun r => r.seen.any (fun x => x.core = s.here && x.seq = 2 && x.cls = 0) && !(own r && s.isOpen r))
  let vl := s.mem.recent.filter (fun r => own r && r.slot = .vl && !s.isOpen r)
  (told ++ vl).map (fun r => r.no) ++ vl.flatMap (fun r => r.past)

/-- CTOK gives at the end of its issue cycle. -/
def execCtok (w : MArgs) (s : State) : Out1 :=
  s.tryWord w.takes (.ok false)
    (let t := s.issues w.takes 0 id
     t.modCore s.here (fun c => c.addToken
      { counter := w.gc, amount := w.ga.toNat, order := 7, index := BitVec.ofNat 32 s.ordinalHere, position := BitVec.ofNat 32 s.offsetHere
        past := t.beforeCtok }))

/-! ## Events of the quad -/

/-- Commands that a command which has left held up count their latency from now at the latest (R288). -/
def State.leftArray (s : State) (q : Nat) (m : MatCmd) : State :=
  s.modQuad q (fun v => { v with cmds := v.cmds.map (fun c =>
    if m.id < c.id && m.before c then { c with start := max c.start (s.cycleOf m.core.toNat) } else c) })

/-- A command lands: its writes are visible to all, a lent bank's registers hold its results, its flags are raised, and it
gives (R289, R291, R300). -/
def State.landMatrix (s : State) (q id : Nat) : State :=
  let s := s.perform q id
  match (s.quadAt q).cmds.find? (fun c => c.id = id) with
  | none => s
  | some m =>
    let core := m.core.toNat
    let s := s.modQuad q (fun v => { v with cmds := v.cmds.filter (fun c => c.id ≠ id) })
    let s := if s.mem.recent = [] then s else s.modMem (fun x => { x with recent := x.recent.map (fun r =>
      if r.core = m.core && r.slot = .mc && r.key < hbmBase && m.keys.contains (r.key % 2 ^ 21) then { r with until_ := min r.until_ (s.cycleOf core) } else r) })
    let s := if s.mem.tagNews = [] then s else s.modMem (fun x => { x with tagNews := x.tagNews.map (fun t =>
      if t.core = m.core && t.slot = .mc && m.keys.any (fun k => k / 512 = t.line) then { t with until_ := 0 } else t) })
    let s := s.modCore core (fun c =>
      let c := c.raiseFlags m.flags
      let c := match m.word with
        | .mshape w => ({ c with csr := { c.csr with ashape := shapeOf w } }).good (.csr 2)
        | _ => c
      let c := match m.bank with
        | some (j, w, vals) =>
          if m.gone then c
          else
            let per := 4096 / w
            let c : Core := { c with cu := { c.cu with windows := c.cu.windows.filter (fun x =>
              !(x.bound = m.due && x.ordinal = m.ordinal && (match x.reg with | .v n => n / 16 = j | .m _ => false))) } }
            (List.range (ceilDiv vals.length per)).foldl (fun (c : Core) i =>
              let ls : List Lane := ((vals.drop (per * i)).take per).map (fun v => some (v, 0))
              c.setV (16 * j + i) (laneImage w (c.v (16 * j + i)) ls) (laneKept w ls)) c
        | none => c
      c.addToken { counter := m.gc, amount := m.ga.toNat, order := 9, index := BitVec.ofNat 32 m.index, position := BitVec.ofNat 32 m.offset
                   past := m.past })
    let s := s.leftArray q m
    let last := match (s.quadAt q).lease with | some l => l.ending && !(s.quadAt q).cmds.any (fun c => c.core = l.core) | none => false
    ((if last then s.giveUp q else s).boundary q).fresh

/-- The region cycle of a command's worst-case landing as it now stands: its latency, with the list entries that it appends or
applies, from the latest of its start and the worst cases of the commands that it still waits for (R288, R303). The commands
of a quad come in their order, each with what `acc` holds of those before it. -/
def State.dueNow (s : State) (cmds : List MatCmd) : List (MatCmd × Nat) :=
  cmds.foldl (fun (acc : List (MatCmd × Nat)) m =>
    let start := acc.foldl (fun k c => if c.1.before m then max k c.2 else k) m.start
    acc ++ [(m, start + m.lat + 2 * (if m.done then m.entries else s.entriesNow m))]) []

/-- A command waits for those before it in the order, and a boost request for the governor (R288, R289, R294). -/
def State.cmdWaits (cmds : List MatCmd) (m : MatCmd) : Bool := m.boost.isSome || cmds.any (fun c => c.id < m.id && c.before m)

/-- The command that the cursor names leaves the array; none does while the clock is gated (17 R348). -/
def execMatrixCommandDone (s : State) : Out1 :=
  let q := quadOf s.here
  let cmds := (s.quadAt q).cmds
  match cmds.find? (fun m => m.id = s.cur.n) with
  | none => .next s
  | some m => .next (if State.cmdWaits cmds m || (s.regionAt (s.regionOfQuad q 32)).gated then s else s.landMatrix q m.id)

/-- The first request of a free lease is granted when its bands are awake and ready for its class; a class that changes
waits for the commands in flight (R97, R292, 02 R64) (log 16). -/
def execLeaseGrant (s : State) : Out1 :=
  let q := s.cur.n
  let v := s.quadAt q
  match v.lease, v.requests with
  | none, r :: rest =>
    let cls := s.grantClass q r
    let bl := bandList r.bands.toNat
    if bl.all (fun j => State.bandReady (v.bands.get {} j) cls) && (v.cmds = [] || bl.all (fun j => (v.bands.get {} j).cls = cls)) then
      let core := r.core.toNat
      let l : Lease :=
        { core := r.core, bands := r.bands, cls := max (min r.cls 2) (s.clockClass (s.regionOfQuad q 32)), count := 1, start := s.cycleOf core }
      let s := s.modQuad q (fun v => { v with
        lease := some l, requests := rest, passed := v.passed.filter (fun c => c ≠ r.core)
        boost := if v.boostCore = r.core then v.boost else none
        bands := bl.foldl (fun t j => t.ins j { t.get {} j with cls := cls, next := cls, used := s.now }) v.bands })
      let s := s.modCore core (fun c => c.addToken
        { counter := r.gc, amount := r.ga.toNat, order := 9, index := r.index, position := r.position })
      .next (s.boundary q)
    else .next (s.startWake q)
  | _, _ => .next s

/-- The grant of a free lease that some request's worst case calls for: the first request's, which another waits behind for
one run each of those before it (R98, R303). The waking bands that it needs are ready first. -/
def State.grantMoves (s : State) (q : Nat) : List Move :=
  let v := s.quadAt q
  match v.lease, v.requests with
  | none, r :: _ =>
    if v.requests.zipIdx.any (fun p => p.1.due ≤ s.cycleOf r.core.toNat + 16384 * p.2) then
      (bandList r.bands.toNat).map (fun j => Move.event { n := 4 * q + j } .bandWakeComplete) ++ [.event { n := q } .leaseGrant]
    else []
  | _, _ => []

/-- A lease run is over: 64 commands, or 16,384 cycles from the grant (R98). -/
def State.runOver (s : State) (q : Nat) : Bool :=
  match (s.quadAt q).lease with
  | some l => !l.ending && (64 ≤ l.count || l.start + 16384 ≤ s.cycleOf l.core.toNat)
  | none => false

/-- The quad re-arbitrates: the holder has a new run, or the lease passes to the first waiter. -/
def execLeaseRunEnd (s : State) : Out1 :=
  let q := s.cur.n
  match (s.quadAt q).lease with
  | none => .next s
  | some l =>
    if !s.runOver q then .next s
    else if (s.quadAt q).requests = [] then
      .next (s.modQuad q (fun v => { v with lease := some { l with count := 0, start := s.cycleOf l.core.toNat } }))
    else .next ((s.modQuad q (fun v => { v with passed := v.passed ++ [l.core] })).giveUp q)

/-- What suspended boost time takes of the reserve (19 R388). -/
def State.boostCharge (s : State) : Nat :=
  ((List.range 64).map (fun q => if s.now < (s.quadAt q).charged then (Config.freeBits (s.freeCtr * 64 + q) 32).toNat else 0)).sum

/-- A core's node is stopped for a checkpoint and not yet saved. -/
def State.savingOn (s : State) (core : Nat) : Bool := match s.nodeOn core with | some (_, v) => v.st = .saving | none => false

/-- The governor decides the first boost request of a quad (02 R65, R294): granted below the soft limit less the
reserve, clamped to BOOST_MAX. Suspended time is charged against the reserve until its expiry, each by an amount that the
manual does not state: a free value (19 R388) (log 14). A core that has stopped meanwhile holds no boost. -/
def execBoostDecision (quad : BitVec 6) (estimate : Nat) (s : State) : Out1 :=
  let q := quad.toNat
  match (s.quadAt q).cmds.find? (fun m => m.boost.isSome) with
  | none => .next s
  | some m =>
    let us := min (m.boost.getD 0) s.power.boostMax.toNat
    let ok := !s.power.exceeded && estimate + s.power.reserve.toNat + s.boostCharge < s.power.soft.toNat
    let until_ := s.now + us * 1000
    let s :=
      if !ok then s
      else if (s.coreAt m.core.toNat).run then s.modQuad q (fun v => { v with boost := some until_, boostCore := m.core })
      else if s.savingOn m.core.toNat then s.modQuad q (fun v => { v with charged := max v.charged until_ })
      else s
    .next ((s.modQuad q (fun v => { v with cmds := v.cmds.map (fun c => if c.id = m.id then { c with boost := none } else c) })).landMatrix q m.id)

/-- A boost's time is over (02 R65). -/
def execBoostExpiry (s : State) : Out1 :=
  let q := s.cur.n
  match (s.quadAt q).boost with
  | some t => .next (if t ≤ s.now then (s.modQuad q (fun v => { v with boost := none })).boundary q else s)
  | none => .next s

/-- Quad and band of an event's number. -/
def bandPlace (n : Nat) : Nat × Nat := (n / 4, n % 4)

/-- A band that no lease names gates itself off when it has been idle for QUAD_IDLE ns (02 R64). -/
def execBandIdleGate (s : State) : Out1 :=
  let (q, j) := bandPlace s.cur.n
  let v := s.quadAt q
  let b := v.bands.get {} j
  let named := match v.lease with | some l => bitOf l.bands.toNat j | none => false
  .next (if b.awake && !named && b.waking.isNone && v.idle ≠ 0 && b.used + v.idle.toNat ≤ s.now then
      s.modQuad q (fun v => { v with bands := v.bands.ins j { b with awake := false } })
    else s)

/-- A wake takes 600 ns, and an awake band is ready to change its class in at most that; the change itself takes effect at a
grant or a command boundary (02 R64). -/
def execBandWakeComplete (s : State) : Out1 :=
  let (q, j) := bandPlace s.cur.n
  let b := (s.quadAt q).bands.get {} j
  match b.waking with
  | some t =>
    .next (if b.awake || t ≤ s.now then
        s.modQuad q (fun v => { v with
          bands := v.bands.ins j { b with awake := true, cls := if b.awake then b.cls else b.next, waking := none, used := s.now } })
      else s)
  | none => .next s

end Sys2Proof.Machine
end

