-- ==== Sys2Proof/Machine/Dispatcher.lean ====
section
/-! DEFINITION. The stream dispatchers: the ready set, placement and pre-emption (03 R80 to R85), launch (R83, R84, R418),
stops, checkpoints and resumes (19 R385 to R391), completion records (03 R105), teardowns (19 R396). -/

namespace Sys2Proof.Machine

namespace State

/-! ## Readiness (R80, R393) -/

/-- The final fate of a node. -/
def fateOf (s : State) (n : Nat) : Option Fate :=
  match s.nodeAt n with
  | some v => match v.st with | .ended f => some f | _ => none
  | none => none

/-- The predecessors of node `n` (R71). -/
def predsOf (n : Nat) (v : Node) : List Nat := (recPreds v.rcd).map (predSeq n)

/-- A predecessor has ended otherwise than DONE or LATE (R80). -/
def orphan (s : State) (n : Nat) (v : Node) : Bool :=
  (predsOf n v).any (fun p => match s.fateOf p with | some f => f ≠ .done && f ≠ .late | none => false)

/-- A core has nothing in flight and no copy that is not over. -/
def coreQuiet (s : State) (c : Nat) : Bool :=
  let k := s.coreAt c
  k.cu.flights = [] && k.cu.copies.all (fun y => y.st ≠ .queued && y.st ≠ .running) && k.adds = []

def quadQuiet (s : State) (q : Nat) : Bool := (s.quadAt q).cmds = [] && (groupCores 1 q).all s.coreQuiet

/-- The node that holds a quad. -/
def occupant (s : State) (q : Nat) : Option (Nat × Node) :=
  s.nodes.findSome? (fun e =>
    match e.2 with
    | some v => if holdsQuads v && v.quads.contains q then some (e.1, v) else none
    | none => none)

/-- A quad is held for another node than `n` (R85). -/
def heldFor (s : State) (n q : Nat) : Bool := match s.holds.get none q with | some m => m ≠ n | none => false

def quadFree (s : State) (n q : Nat) : Bool := (s.occupant q).isNone && s.quadQuiet q && !s.heldFor n q

/-- Staging budgets of every node that has run and not ended, in 4 KiB units (R393). -/
def stagingSum (s : State) : Nat :=
  (s.nodes.map (fun e =>
    match e.2 with
    | some v => match v.st with
      | .waiting | .ending _ _ | .ended _ => 0
      | _ => recStaging v.rcd
    | none => 0)).sum

/-- In the ready set, quads apart (R80, R393): waiting or checkpointed, with what an earlier run left behind landed. -/
def baseReady (s : State) (n : Nat) (v : Node) : Bool :=
  let saved := v.st = .checkpointed
  (v.st = .waiting || saved) &&
    (predsOf n v).all (fun p => match s.fateOf p with | some f => f = .done || f = .late | none => false) &&
    (s.regionAt (recRegion v.rcd)).st = .locked &&
    (v.pool || !v.inQueue || 0 < s.poolFree) &&
    s.stagingSum + (if saved then 0 else recStaging v.rcd) ≤ 98304 &&
    s.cores.all (fun e => e.2.node ≠ some n || s.coreQuiet e.1)

/-- The order of R81. -/
def earlier (a b : Nat × Node) : Bool :=
  a.2.deadline < b.2.deadline ||
    (a.2.deadline = b.2.deadline && (a.2.queue.toNat < b.2.queue.toNat || (a.2.queue = b.2.queue && a.1 ≤ b.1)))

/-- Runs of quads that a node may take, lowest first: one when its placement is fixed by its record, by a saved OQBIND
(R387) or by an earlier wait (R85). -/
def runsFor (s : State) (v : Node) : List (List Nat) :=
  let bound := v.cores.any (fun c => [0, 1, 2, 3].any (fun j => bitOf (elemAt c.csr.oqbind 8 j) 7))
  if v.cores ≠ [] && (recFixed v.rcd || bound) then [v.quads]
  else
    let rs := (recRuns v.rcd).filter (fun r => r.all (fun q => (s.regionAt (recRegion v.rcd)).quads.getLsbD q))
    if v.want ≠ [] then rs.filter (fun r => r = v.want) else rs

/-- The partner's quads of a run are free too: a free choice for a node of a pair, whose placements are equal (19 R398,
R401) (log 53). -/
def partnerFree (s : State) (n : Nat) (v : Node) (r : List Nat) : Bool :=
  !lockstep v || v.alone || Config.raceNew s.freeCtr (s.pairSeq n * 64 + r.headD 0)

/-- The first run that is free for a node. -/
def freeRun (s : State) (n : Nat) (v : Node) : Option (List Nat) :=
  (s.runsFor v).find? (fun r => r.all (s.quadFree n) && s.partnerFree n v r)

/-- The die whose dispatcher decides a run (R81). -/
def runDie (r : List Nat) : Nat := if r.all (fun q => 32 ≤ q) then 1 else 0

/-- The run a node would take, or wait for. -/
def aimOf (s : State) (n : Nat) (v : Node) : List Nat :=
  match s.freeRun n v with
  | some r => r
  | none => (s.runsFor v).headD []

/-! ## Pre-emption (R85) -/

/-- What the dispatcher does to a victim. -/
inductive Choice where
  | drain
  | stop (k : StopKind)
  deriving DecidableEq, Repr

def Choice.cost : Choice → Nat
  | .drain => 0
  | .stop .checkpoint => 1
  | .stop _ => 2

/-- The highest REMAIN among a node's cores (R106). -/
def remaining (s : State) (v : Node) : Nat := ((nodeCores v).map (fun c => (s.coreAt c).csr.remain.toNat)).foldl max 0

/-- A quad holds accumulator state. DEDUCED: any accumulator or checksum that is not +0.0 (log 19). -/
def accState (s : State) (q : Nat) : Bool := let v := s.quadAt q; v.acc ≠ [] || v.rc ≠ [] || v.cc ≠ []

/-- Running nodes on a run that no earlier decision drains: the victims it would take (log 48). -/
def victimsOn (s : State) (r : List Nat) : List (Nat × Node) :=
  r.foldl (fun (acc : List (Nat × Node)) q =>
    match s.occupant q with
    | some (m, w) => if w.st = .running && !w.drained && !acc.any (fun a => a.1 = m) then acc ++ [(m, w)] else acc
    | none => acc) []

/-- A quad is taken by a node that does not run yet, which no pre-emption frees. -/
def quadTaken (s : State) (q : Nat) : Bool :=
  match s.occupant q with
  | some (_, w) => w.st = .placed || w.st = .resuming
  | none => false

/-- Victims may free the run: each has a later deadline, and no other node's hold or placement that is still to start lies
on it. -/
def runOpen (s : State) (n : Nat) (v : Node) (r : List Nat) : Bool :=
  let vs := s.victimsOn r
  vs ≠ [] && vs.all (fun w => v.deadline < w.2.deadline) && r.all (fun q => !s.heldFor n q && !s.quadTaken q)

/-- The run with the fewest victims, and among those the one whose earliest victim's deadline is latest. -/
def bestRun (s : State) (n : Nat) (v : Node) : Option (List Nat) :=
  let key (r : List Nat) : Nat × Nat :=
    let vs := s.victimsOn r
    (vs.length, (vs.map (fun w => w.2.deadline)).foldl min (2 ^ 64))
  let better (a b : List Nat) : Bool := (key a).1 < (key b).1 || ((key a).1 = (key b).1 && (key b).2 ≤ (key a).2)
  (sortBy better ((s.runsFor v).filter (s.runOpen n v))).head?

/-- A secondary's lockstep node, whose pre-emption the primary decides (19 R401). -/
def foreignPair (s : State) (n : Nat) (v : Node) : Bool :=
  lockstep v && !v.alone && (match s.entryAt n with | some e => e.kind = 7 | none => false)

/-- The first choice of R85's table that holds for a victim; in a gated region only the kill (17 R356). -/
def choiceFor (s : State) (slack : Int) (bound : Nat) (m : Nat) (w : Node) : Option Choice :=
  let gated := (s.regionAt (recRegion w.rcd)).gated
  if s.foreignPair m w then none
  else if drainable w && !gated && (s.remaining w : Int) ≤ slack then some .drain
  else if checkpointable w && !gated && (bound : Int) ≤ slack then some (.stop .checkpoint)
  else if restartable w then some (.stop .kill)
  else none

/-- Where a pair stops a node: one segment past the highest started, 64 S words past the highest count (19 R401). The
other side's counts are free values (log 53). -/
def pairPoints (s : State) (v : Node) : List (Nat × Nat) :=
  (nodeCores v).flatMap (fun c =>
    let k := s.coreAt c
    [0, 1, 2, 3].map (fun q =>
      let own := if q = 0 then k.su.index else (k.unit q).ordinal
      let other := (Config.freeBits (s.freeCtr * 4096 + c * 4 + q) 32).toNat
      (4 * k.rank + q, max own other + (if q = 0 then 64 else 0))))

/-- A stop decided for a running node (19 R385). A pair's primary names the stop point to its partner. -/
def decideStop (s : State) (m : Nat) (w : Node) (k : StopKind) : State :=
  if lockstep w && !w.alone && !s.foreignPair m w && k ≠ .abort then
    let ps := s.pairPoints w
    ((s.modNode m (fun x => { x with st := .stopping k, points := ps })).emit (.pairPreempt (s.pairSeq m) k ps)).fresh
  else s.modNode m (fun x => { x with st := .stopping k })

def applyChoice (s : State) (m : Nat) (w : Node) (c : Choice) : State :=
  match c with
  | .drain => s.modNode m (fun x => { x with drained := true })
  | .stop k => s.decideStop m w k

/-- Pre-emption of a run for newcomer `n`: every victim with its choice, and the tokens taken, or nothing (R85). -/
def preempt (s : State) (n : Nat) (v : Node) (r : List Nat) : Option State :=
  let vs := s.victimsOn r
  let slack : Int := (v.deadline : Int) - (s.now : Int) - (recEstimate v.rcd : Int)
  let bound := if (vs.flatMap (fun w => w.2.quads)).any s.accState then 14000 else 9000
  let cs := vs.map (fun w => s.choiceFor slack bound w.1 w.2)
  let cost := (cs.map (fun c => match c with | some x => x.cost | none => 0)).sum
  let part := v.part.toNat
  if cs.any (fun c => c.isNone) || recTcap v.rcd < v.paid + cost || (s.partAt part).current.toNat < cost then none
  else
    let s := s.modPart part (fun p => { p with current := p.current - BitVec.ofNat 16 cost })
    let s := s.modNode n (fun x => { x with want := r, paid := x.paid + cost })
    some ((vs.zip cs).foldl (fun s p => match p.2 with | some c => s.applyChoice p.1.1 p.1.2 c | none => s) s)

/-- A node that no longer waits, or that this die's earliest node displaces, gives its holds up. -/
def dropHolds (s : State) (n die : Nat) : State :=
  { s with holds := s.holds.filter (fun e =>
      match e.2 with
      | some m =>
        m ≠ n && (match s.nodeAt m with
          | some w => (w.st = .waiting || w.st = .checkpointed) && runDie (s.aimOf m w) ≠ die
          | none => false)
      | none => false) }

/-- The earliest node waits: victims are considered, its placement is fixed, and its quads are held as they free. A hold
of an earlier node of the other die stays. -/
def waitFor (s : State) (n : Nat) (v : Node) (die : Nat) : State :=
  let s := s.dropHolds n die
  let s :=
    match s.bestRun n v with
    | none => s
    | some r => match s.preempt n v r with | some t => t | none => s
  let s := s.modNode n (fun x => { x with want := if x.want = [] then (s.runsFor x).headD [] else x.want })
  match s.nodeAt n with
  | none => s
  | some v =>
    v.want.foldl (fun s q =>
      match s.holds.get none q with
      | some m =>
        match s.nodeAt m with
        | some w => if earlier (m, w) (n, v) then s else { s with holds := s.holds.ins q (some n) }
        | none => { s with holds := s.holds.ins q (some n) }
      | none => { s with holds := s.holds.ins q (some n) }) s

/-! ## Dispatch -/

/-- A node takes its quads; a first dispatch takes its reservation (R78). -/
def place (s : State) (n : Nat) (r : List Nat) : State :=
  let s := { s with holds := s.holds.filter (fun e => e.2 ≠ some n) }
  (s.modNode n (fun v => { v with
    st := if v.cores = [] then .placed else .resuming
    quads := r, pool := v.pool || v.inQueue, inQueue := false, want := [], drained := false, placedAt := s.now })).setFate n .running

/-- Nodes with a predecessor that ended otherwise than DONE or LATE are ABANDONED (R80). -/
def abandon (s : State) : State :=
  s.nodes.foldl (fun s e =>
    match e.2 with
    | some v => if v.st = .waiting && s.orphan e.1 v then s.endNode e.1 v .abandoned 0 else s
    | none => s) s

/-- A bad launch record found in queue memory before dispatch completes its node FAILED with class MCHECK (18 R371): the
journal entry names unit 7 and the queue (log 50). -/
def failBadRecords (s : State) : State :=
  s.nodes.foldl (fun s e =>
    match e.2 with
    | some v =>
      if v.badRecord && v.inQueue && v.st = .waiting then
        let status : BitVec 32 := 7#4 ++ BitVec.ofNat 12 v.queue.toNat ++ Config.freeBits s.freeCtr 16
        let s := s.fresh.modEntry e.1 (fun j =>
          if j.cls = 0 then { j with cls := 0x0F, trap0 := 0x0F#8 ++ 0#24 ++ status, trap1 := 0, trap2 := 0 } else j)
        s.endNode e.1 v .failed 0x0F
      else s
    | none => s) s

/-- The ready set of a die, quads apart, earliest first (log 48). -/
def candidates (s : State) (die : Nat) : List (Nat × Node) :=
  sortBy earlier (s.nodes.filterMap (fun e =>
    match e.2 with
    | some v => if s.baseReady e.1 v && s.aimOf e.1 v ≠ [] && runDie (s.aimOf e.1 v) = die then some (e.1, v) else none
    | none => none))

/-- The written deadline of a record with late = 1 has passed before its first dispatch (R82). -/
def missed (s : State) (v : Node) : Bool :=
  v.st = .waiting && v.dispatched = 0 && v.rollbacks = 0 && v.stops = 0 &&
    recDeadline v.rcd ≠ 0 && recDeadline v.rcd < s.now && recLate v.rcd

/-- Nodes that have missed such a deadline are DROPPED without running (R82, 19 R394). -/
def dropMissed (s : State) : State :=
  s.nodes.foldl (fun s e =>
    match s.nodeAt e.1 with
    | some v => if s.missed v then s.endNode e.1 v .dropped 0 else s
    | none => s) s

/-- One decision of a die's dispatcher (log 48). -/
def decide_ (s : State) (die : Nat) : State :=
  let s := s.abandon.failBadRecords.dropMissed
  let cs := s.candidates die
  let s := match cs with
    | (n, v) :: _ => if (s.freeRun n v).isNone then s.waitFor n v die else s
    | [] => s
  match cs.findSome? (fun c => match s.nodeAt c.1 with
      | some v => (s.freeRun c.1 v).map (fun r => (c.1, r))
      | none => none) with
  | some (n, r) => (s.place n r).fresh
  | none => s.fresh

end State

namespace State

/-- The number of the present period of 32 ns of device time, and the first one whose decision a die has not made (R81). -/
def decisionSlot (s : State) : Nat := s.clock.now / (32 * 65536)
def decidedTo (s : State) (die : Nat) : Nat := if die = 0 then s.clock.decided0 else s.clock.decided1

end State

/-- The dispatcher of the die that the cursor names makes its decision, one in every 32 ns (R81) (log 1). -/
def execDispatchDecision (s : State) : Out1 :=
  let d := s.cur.n
  let k := s.decisionSlot + 1
  .next (if k ≤ s.decidedTo d then s
    else
      ({ s with clock := if d = 0 then { s.clock with decided0 := k } else { s.clock with decided1 := k } }).decide_ d)

/-- A record with late = 1 whose written deadline passes before its first dispatch is DROPPED (R82, 19 R394). -/
def execDeadlineExpiry (s : State) : Out1 :=
  let n := s.cur.n
  match s.nodeAt n with
  | some v => .next (if s.missed v then s.endNode n v .dropped 0 else s)
  | none => .next s

/-! ## Launch (R83, R84, R418) -/

namespace State

/-- What keeps a section from loading: class, status word, and the HBM bytes read where a word is bad. -/
structure LoadFault where
  cls : Nat
  status : BitVec 32
  keys : List Nat := []
  deriving DecidableEq, Repr

/-- A translation of the dispatcher's own: through the tables as they stand. -/
def dispatcherWalk (s : State) (part : Nat) (wr : Bool) (va : Nat) : Except XFault (Nat × Nat) :=
  if 2 ^ 48 ≤ va then .error (xAccess va) else (s.translate 64 part wr va).2

/-- The bytes of one 256-byte granule of a section, its first `n` (R418) (log 57). -/
def loadGranule (s : State) (part va n : Nat) : Except LoadFault (List Byte) :=
  match s.dispatcherWalk part false va with
  | .error f => .error { cls := f.cls.toNat, status := f.status }
  | .ok (_, key) =>
    match (List.range (ceilDiv n 32)).findSome? (fun i => (s.mem.mark (key + 32 * i)).map (fun m => (key + 32 * i, m))) with
    | some (k, m) =>
      let syn : BitVec 16 := match m with | .poisoned => granuleMask.setWidth 16 | _ => Config.freeBits s.freeCtr 16
      .error { cls := (match m with | .poisoned => 0x0E | _ => 0x0F)
               status := 1#4 ++ BitVec.ofNat 12 ((key - hbmBase) / 256 / chanRows) ++ syn
               keys := [k] }
    | none => .ok ((List.range n).map (fun i => s.hbmByte part (key + i) s.mem.byte))

/-- A section's granules in order. -/
def loadGranules (s : State) (part va : Nat) : Nat → Nat → Except LoadFault (List Byte)
  | 0, _ => .ok []
  | k + 1, n =>
    match s.loadGranule part va (min n 256) with
    | .error f => .error f
    | .ok bs => match s.loadGranules part (va + 256) k (n - 256) with | .error f => .error f | .ok t => .ok (bs ++ t)

/-- Section `i` of a node, S, L, C or W. -/
def loadSection (s : State) (v : Node) (i : Nat) : Except LoadFault (List Byte) :=
  let n := recSection v.rcd i
  s.loadGranules v.part.toNat (recD v.rcd i) (ceilDiv n 256) n

/-- The code store of every core of a node, or the section that fails and how. -/
def loadCode (s : State) (v : Node) : Except (Nat × LoadFault) CodeStore :=
  match s.loadSection v 0, s.loadSection v 1, s.loadSection v 2, s.loadSection v 3 with
  | .error f, _, _, _ => .error (0, f)
  | _, .error f, _, _ => .error (1, f)
  | _, _, .error f, _ => .error (2, f)
  | _, _, _, .error f => .error (3, f)
  | .ok a, .ok b, .ok c, .ok d => .ok { s := a, l := b, c := c, w := d }

/-- The sections of a node have been read: the words found corrected, in them and in the walks, are counted (18 R368,
R373). -/
def countLoad (s : State) (v : Node) : State :=
  if s.mem.marks = [] then s
  else
    let part := v.part.toNat
    (List.range 4).foldl (fun s i =>
      let n := recSection v.rcd i
      (List.range (ceilDiv n 32)).foldl (fun s j =>
        let va := recD v.rcd i + 32 * j
        match s.dispatcherWalk part false va with
        | .error _ => s.walked part va
        | .ok (_, k) => (if j % 8 = 0 then s.walked part va else s).countFound 256 [k]) s) s

/-- The launch state of a core (R84) (log 49). -/
def launchCore (n : Nat) (v : Node) (rank count : Nat) : Core :=
  let xs := Tab.put 0 (Tab.put 0 (Tab.put 0 [] 1 (recArgs v.rcd)) 2 (BitVec.ofNat 64 rank)) 3 (BitVec.ofNat 64 count)
  { node := some n, rank := rank, run := true
    su := { x := xs }
    cu := { m := [(0, BitVec.allOnes 1024)] }
    csr := { remain := BitVec.ofNat 64 (recEstimate v.rcd) } }

/-- The matrix state of a quad at a launch (11 R280). -/
def clearQuad (q : Quad) : Quad :=
  { q with active := [], shadow := [], acc := [], accBad := [], rc := [], cc := [], lease := none, requests := [], passed := [] }

/-- Slices last used by another partition are cleared, and the partition is their last user (R83). -/
def takeSlices (s : State) (v : Node) (clear : Bool) : State :=
  (nodeCores v).foldl (fun s c => s.modMem (fun m =>
    let was := m.lastPart.get none c
    let m := if clear && was.isSome && was ≠ some v.part then m.clearSlice c else m
    { m with lastPart := m.lastPart.ins c (some v.part) })) s

/-- Chain entries and credits of a placement's cores are gone. -/
def clearChains (s : State) (cs : List Nat) : State :=
  { s with
    chains := s.chains.filter (fun e => !cs.contains e.source.toNat && !cs.contains e.target.toNat)
    credits := s.credits.filter (fun e => !cs.contains e.source.toNat) }

/-- A node's cores run: from the launch cycle, or from the resume cycle on. The region cycle to come is its first, and
fixes the time of its first dispatch when it begins. -/
def nodeRuns (s : State) (n : Nat) : State :=
  let s := s.modNode n (fun w => { w with
    st := .running, dispatched := if w.dispatched = 0 then s.now else w.dispatched
    began := if w.dispatched = 0 then some (s.regionAt (recRegion w.rcd)).cycles else none })
  (s.modEntry n (fun e => { e with dispatched := if e.dispatched = 0 then s.now else e.dispatched })).setFate n .running

/-- The nodes of region `r` that first start in the cycle that begins now were dispatched now (R105). -/
def noteStarts (s : State) (r : Nat) : State :=
  s.nodes.foldl (fun s e =>
    match e.2 with
    | some v =>
      if v.began.isNone || recRegion v.rcd ≠ r then s
      else if v.began = some (s.regionAt r).cycles then
        (s.modNode e.1 (fun w => { w with began := none, dispatched := s.now })).modEntry e.1 (fun j => { j with dispatched := s.now })
      else s.modNode e.1 (fun w => { w with began := none })
    | none => s) s

/-- What happens before the accesses of a node: what its LNCH or its stop names, and what its predecessors released
(06 R163). -/
def beforeNode (s : State) (n : Nat) (v : Node) : List Nat :=
  v.past ++ (predsOf n v).flatMap (fun p => match s.nodeAt p with | some w => w.past | none => [])

/-- The launch of a node whose sections are loaded. -/
def launch (s : State) (n : Nat) (v : Node) (code : CodeStore) : State :=
  let cs := nodeCores v
  let s := (s.takeSlices v true).clearChains cs
  let s := cs.foldl (fun s c => s.startsWith c (s.beforeNode n v)) s
  let s := (List.range cs.length).foldl (fun (s : State) r =>
    let c := cs.getD r 0
    { s.setCore c (launchCore n v r cs.length) with code := s.code.ins c code }) s
  (v.quads.foldl (fun s q => s.modQuad q clearQuad) s).nodeRuns n

end State

/-- The clock of a node's region runs. -/
def State.ticking (s : State) (v : Node) : Bool := s.bound (recRegion v.rcd) && !(s.regionAt (recRegion v.rcd)).gated

/-- The launch cycle: every core of the placement starts (R84), at or after the start-at time, in a cycle of its region
(02 R61). -/
def execLaunchCycle (s : State) : Out1 :=
  let n := s.cur.n
  match s.nodeAt n with
  | some v =>
    if v.st = .placed && recStart v.rcd ≤ s.now && s.ticking v then
      match s.loadCode v with
      | .ok code => .next ((s.countLoad v).launch n v code)
      | .error _ => .next s
    else .next s
  | none => .next s

/-- A section does not load: the node is FAILED and has started on no core (R418). -/
def execSectionLoadFailure (s : State) : Out1 :=
  let n := s.cur.n
  match s.nodeAt n with
  | some v =>
    if v.st = .placed || v.st = .resuming then
      match s.loadCode v with
      | .ok _ => .next s
      | .error (i, f) =>
        let t0 : BitVec 64 := BitVec.ofNat 8 f.cls ++ BitVec.ofNat 3 i ++ 0#1 ++ 0#4 ++
          BitVec.ofNat 8 ((State.nodeCores v).headD 0) ++ 0#8 ++ f.status
        let s := s.modEntry n (fun e =>
          if e.cls = 0 then { e with cls := BitVec.ofNat 8 f.cls, trap0 := t0, trap1 := 0, trap2 := 0 } else e)
        .next (((s.countFound 256 f.keys).fresh).endNode n v .failed (BitVec.ofNat 8 f.cls))
    else .next s
  | none => .next s

/-! ## Stops (19 R385, R388, R389) -/

namespace State

/-- Each core of a node records the stop: class PREEMPT, engine S, S's next word. -/
def recordStop (s : State) (n : Nat) (v : Node) (k : StopKind) : State :=
  let code := match k with | .checkpoint => 1 | .kill => 2 | .abort => 3
  (nodeCores v).foldl (fun s c =>
    if (s.coreAt c).node = some n then
      s.trapRecord c (s.faultRec c .s 0x14 (BitVec.ofNat 32 (code * 2 ^ 24))) (s.coreAt c).inHandler
    else s) s

/-- A pair's node has reached its stop point in every core (19 R401); any other node may stop. -/
def atPoint (s : State) (v : Node) : Bool :=
  v.points = [] ||
    (nodeCores v).all (fun c =>
      let k := s.coreAt c
      (v.points.get 0 (4 * k.rank) ≤ k.su.index || k.ended) &&
        [1, 2, 3].all (fun q =>
          let u := k.unit q
          u.seg.isNone && u.retiring = [] && (u.cmdq = [] || v.points.get 0 (4 * k.rank + q) < u.ordinal)))

/-- A boost of a quad that the node's cores hold ends: suspended time stays charged until its expiry (R388). -/
def suspendBoost (s : State) (v : Node) : State :=
  v.quads.foldl (fun s q => s.modQuad q (fun w =>
    match w.boost with
    | some t => { w with boost := none, charged := max w.charged t }
    | none => w)) s

/-- One more checkpoint or kill suffered (R105). -/
def countStop (s : State) (n : Nat) : State := (s.modNode n (fun w => { w with stops := w.stops + 1 })).noteHistory n

end State

/-- The stop cycle: all issue of the node halts; a checkpoint then waits for its words to land, a kill returns the node
to the ready set from its start, an abort ends it. -/
def execStopCycle (s : State) : Out1 :=
  let n := s.cur.n
  match s.nodeAt n with
  | none => .next s
  | some v =>
    match v.st with
    | .stopping k =>
      if !s.atPoint v then .next s
      else if (State.nodeCores v).any s.transition then
        -- latched: the cores of the freeze domain hold all issue until the transition ends (17 R360)
        .next ((State.nodeCores v).foldl (fun s c =>
          if (s.coreAt c).node = some n then (s.holdDomain c).modCore c (fun x => { x with stopHeld := true }) else s) s)
      else
        let s := s.recordStop n v k
        match k with
        | .checkpoint => .next (((s.haltNode n v).suspendBoost v).modNode n (fun w => { w with st := .saving, points := [] }))
        | .kill => .next ((s.requeue n v).countStop n)
        | .abort => .next ((s.withdrawChildren n).endNode n v .aborted 0)
    | _ => .next s

/-! ## Checkpoint and resume (19 R386, R387) -/

namespace State

/-- An offset of a core's slice lies in its region's ingest array (R386) (log 49). -/
def ingestByte (s : State) (core off : Nat) : Bool :=
  let g := ingestOf (s.regionAt (s.regionOf core)).ingestCfg
  g.on && g.core = core && g.base ≤ off && off < g.base + 2 * g.hsize

/-- A slice as it is saved: its bytes, tags and marks but for the lines of the ingest array. -/
def saveSlice (s : State) (core : Nat) : SavedSlice :=
  let keep (k : Nat) : Bool := core * 2 ^ 21 ≤ k && k < (core + 1) * 2 ^ 21 && !s.ingestByte core (k % 2 ^ 21)
  { cells := (s.mem.cells.filter (fun e => keep e.1)).map (fun e => (e.1 % 2 ^ 21, e.2))
    tags := (s.mem.tags.filter (fun e => e.1 / 4096 = core && !s.ingestByte core (e.1 % 4096 * 512))).map (fun e => (e.1 % 4096, e.2))
    marks := (s.mem.marks.filter (fun e => keep e.1)).map (fun e => (e.1 % 2 ^ 21, e.2)) }

/-- A saved slice restored: lines of the ingest array keep what they hold. -/
def restoreSlice (s : State) (core : Nat) (v : SavedSlice) : State :=
  let keep (k : Nat) : Bool := k < core * 2 ^ 21 || (core + 1) * 2 ^ 21 ≤ k || s.ingestByte core (k % 2 ^ 21)
  let put (off : Nat) : Bool := !s.ingestByte core off
  s.modMem (fun m => { m with
    recent := m.recent.filter (fun r => keep r.key)
    tagNews := m.tagNews.filter (fun t => t.target ≠ core || s.ingestByte core (t.line * 512))
    cells := (v.cells.filter (fun e => put e.1)).foldl (fun t e => putCell t (sliceKey core e.1) e.2) (m.cells.filter (fun e => keep e.1))
    tags := (v.tags.filter (fun e => put (e.1 * 512))).foldl (fun t e => Tab.put 0 t (core * 4096 + e.1) e.2)
      (m.tags.filter (fun e => e.1 / 4096 ≠ core || s.ingestByte core (e.1 % 4096 * 512)))
    marks := (v.marks.filter (fun e => put e.1)).foldl (fun t e => Tab.ins t (sliceKey core e.1) e.2) (m.marks.filter (fun e => keep e.1)) })

/-- A word of a stopped core that is saved with its context: it waits for a translation, or its accesses come after those of
such a word, through at most `fuel` others (18 R376). -/
def waitsSaved (fs : List Flight) : Nat → Flight → Bool
  | 0, f => f.blocked
  | fuel + 1, f => f.blocked || (fs.any (fun g => behindOf f g && waitsSaved fs fuel g))

/-- Everything of a stopped node has landed but the accesses that wait for a translation and those behind them; what a
running copy has written ends at a granule of 256 bytes (R386). -/
def landedAll (s : State) (v : Node) : Bool :=
  let cs := nodeCores v
  cs.all (fun c =>
      let k := s.coreAt c
      k.adds = [] && k.cu.flights.all (waitsSaved k.cu.flights k.cu.flights.length) && k.cu.copies.all (fun y => y.st ≠ .running || !y.mid)) &&
    v.quads.all (fun q => (s.quadAt q).cmds = []) &&
    s.chains.all (fun e => !cs.contains e.source.toNat) && s.credits.all (fun e => !cs.contains e.source.toNat)

/-- A core's context as it is saved: results landed, copies suspended, the watchdog's count gone (log 49). -/
def saveCore (c : Core) : Core :=
  { c with
    run := false
    frozenCount := 0
    flagsDue := []
    csr := { c.csr with flags := c.csr.flags ||| (c.flagsDue.map (fun f => f.2)).foldl (· ||| ·) 0 }
    su := { c.su with pend := [] }
    cu := { c.cu with
      windows := []
      vlWords := []
      again := []
      copies := c.cu.copies.map (fun y => if y.st = .queued || y.st = .running then { y with suspended := true } else y) } }

/-- An uncorrectable word that the save of a core finds, by unit and location of R371. Those of an operand queue have neither:
they are free (log 57). -/
def badSaved (s : State) (core : Nat) : Option (Nat × Nat) :=
  let c := s.coreAt core
  let queued := c.cu.opq.any (fun e => e.2.any (fun x => x.bad = some .uncorrectable))
  match c.bad.find? (fun b => match b.reg with | .code _ => false | _ => true) with
  | some b => some (5, badNumber b.reg)
  | none => if queued then some ((Config.freeBits s.freeCtr 4).toNat, (Config.freeBits s.freeCtr 12).toNat) else none

/-- An uncorrectable word that the save of a quad's matrix state finds, by unit and location of R371. -/
def badMatrix (s : State) (q : Nat) : Option (Nat × Nat) :=
  let v := s.quadAt q
  let lost (l : List (Nat × Mark)) : Bool := l.any (fun e => e.2 = .uncorrectable)
  if lost v.accBad then some (3, q)
  else ((v.active ++ v.shadow).find? (fun e => lost e.2.bad)).map (fun e => (8, e.1))

/-- The first uncorrectable word that the save of a node finds outside its slices, with the core that records it. -/
def savedLoss (s : State) (v : Node) : Option (Nat × Nat × Nat) :=
  match (nodeCores v).findSome? (fun c => (s.badSaved c).map (fun r => (c, r))) with
  | some r => some r
  | none => v.quads.findSome? (fun q => (s.badMatrix q).map (fun r => (4 * q, r)))

/-- What a stop of a node orders before all it does after its resume: every access of its cores, and the gives that
their counters hold (06 R163). -/
def stopPast (s : State) (v : Node) : List Nat :=
  let cs := nodeCores v
  v.past ++ cs.flatMap s.beforeStop ++ (s.mem.given.filter (fun g => cs.contains g.core)).flatMap (fun g => g.past)

/-- A NODE_RESUME of a node waits for its context to be saved (18 R376) (log 31). -/
def resumeAsked (s : State) (n : Nat) : Bool :=
  s.host.journal.any (fun e => match e.2 with | some j => j.kind = 5 && j.origin = n && j.fate = .queued | none => false)

/-- A held node returns to the ready set, and the NODE_RESUME is carried out (18 R376, 19 R405) (log 31). -/
def releaseHeld (s : State) (n : Nat) : State :=
  ((s.modNode n (fun w => { w with st := .checkpointed })).setFate n .stopped).settleResumes n

/-- A node's context is saved and its quads are given up. -/
def saveNode (s : State) (n : Nat) (v : Node) : State :=
  let cs := nodeCores v
  let s := s.modNode n (fun w => { w with
    cores := cs.map (fun c => saveCore (s.coreAt c)), mats := v.quads.map s.quadAt, slices := cs.map s.saveSlice
    past := s.stopPast v })
  cs.foldl (fun s c => (s.modCore c (fun k => { k with cu := { k.cu with flights := [], copies := [] } })).dropLease c) s

end State

/-- The save of a stopped node ends (R386): a checkpoint returns it to the ready set, a node stopped by a translation
fault is held (18 R376). An uncorrectable word that the save finds rolls the node back. -/
def execCheckpointSaveEnd (s : State) : Out1 :=
  let n := s.cur.n
  match s.nodeAt n with
  | none => .next s
  | some v =>
    let cs := State.nodeCores v
    if (v.st = .saving || v.st = .holding) && s.landedAll v then
      match s.savedLoss v with
      | some (c, u, l) => .next (s.machineCheck c .s .uncorrectable u l 0)
      | none =>
        match s.mem.marks.find? (fun e => e.2 = .uncorrectable && e.1 < hbmBase && cs.contains (e.1 / 2 ^ 21) && !s.ingestByte (e.1 / 2 ^ 21) (e.1 % 2 ^ 21)) with
        | some (k, m) => .next (s.consumeBad (k / 2 ^ 21) .s k m)
        | none =>
          let t := s.saveNode n v
          if v.st = .saving then
            .next (((t.modNode n (fun w => { w with st := .checkpointed })).countStop n).setFate n .stopped)
          else if s.resumeAsked n then .next (t.releaseHeld n)
          else .next (t.modNode n (fun w => { w with st := .held }))
    else .next s

namespace State

/-- A saved core on the core `c` of its new placement (R387): the watch registers are those of the core, since no
checkpoint saves them. -/
def restoreCore (s : State) (n c : Nat) (k : Core) : Core :=
  { k with
    node := some n
    frozen := false
    late := []
    held := false
    recorded := none
    bad := k.bad.filter (fun b => match b.reg with | .code _ => false | _ => true)
    csr := { k.csr with watch := (s.coreAt c).csr.watch }
    mflog := (s.coreAt c).mflog
    l := { k.l with seg := k.l.seg.map (fun g => { g with landed := 0 }), retiring := k.l.retiring.map (fun g => { g with landed := 0 }) }
    c := { k.c with seg := k.c.seg.map (fun g => { g with landed := 0 }), retiring := k.c.retiring.map (fun g => { g with landed := 0 }) }
    w := { k.w with seg := k.w.seg.map (fun g => { g with landed := 0 }), retiring := k.w.retiring.map (fun g => { g with landed := 0 }) }
    cu := { k.cu with
      appends := k.cu.appends.map (fun a => { a with due := s.cycleOf c })
      opq := k.cu.opq.map (fun e => (e.1, e.2.map (fun x => { x with ready := 0 })))
      flights := k.cu.flights.map (fun f => { f with since := s.cycleOf c })
      copies := k.cu.copies.map (fun y =>
        if y.suspended then { y with suspended := false, due := if y.due = 0 then 0 else s.clock.now + y.span } else y) } }

/-- The core of quad `q` that has the place of an old core in its quad. -/
def moved (q : Nat) (c : BitVec 8) : BitVec 8 := BitVec.ofNat 8 (4 * q + c.toNat % 4)

/-- A quad with the saved matrix state, and its lease granted again with its bands awake (R387). -/
def restoreQuad (s : State) (q : Nat) (m : Quad) : State :=
  let cyc := (s.regionAt (s.regionOfQuad q 32)).cycles
  let lease := m.lease.map (fun l => { l with core := moved q l.core, start := cyc })
  s.modQuad q (fun w => { w with
    active := m.active, shadow := m.shadow, acc := m.acc, accBad := m.accBad, rc := m.rc, cc := m.cc
    lease := lease
    requests := m.requests.map (fun r => { r with core := moved q r.core })
    passed := m.passed.map (moved q)
    bands := match lease with
      | none => w.bands
      | some l => (bandList l.bands.toNat).foldl (fun t j =>
          Tab.ins t j { Tab.get {} t j with awake := true, cls := l.cls, next := l.cls, waking := none, used := s.now }) w.bands })

/-- The egress packets of a resumed node's EGRs, which are known by their flights, are those of its new cores. -/
def movePackets (s : State) (cs : List Nat) : State :=
  { s with ports := s.ports.map (fun e => (e.1, { e.2 with queue := e.2.queue.map (fun k =>
      match cs.find? (fun c => (s.coreAt c).cu.flights.any (fun f => f.id = k.flight)) with
      | some c => { k with core := BitVec.ofNat 8 c, due := if s.cycleOf c < k.issued then s.cycleOf c else k.due }
      | none => k) })) }

/-- The pending accesses of a resumed node, in issue order, until one faults again (18 R376). -/
def resumeAccesses (s : State) (n : Nat) : List (Nat × Flight) → State
  | [] => s
  | (c, f) :: t =>
    let resuming := match s.nodeAt n with | some w => w.st = .resuming | none => false
    if !resuming then s
    else if let some u := s.cutFlight c f then u.resumeAccesses n t
    else
      match s.land c { f with blocked := false } with
      | .done u => (u.landed c f).resumeAccesses n t
      | .faulted u => u.resumeAccesses n t
      | .blocked u g x => (u.translationStop c g x).resumeAccesses n t
      | .partly _ | .waits => (s.setFlight c { f with blocked := false }).resumeAccesses n t

/-- The saved context restored to a node's new cores and quads. -/
def restoreNode (s : State) (n : Nat) (v : Node) (code : CodeStore) : State :=
  let cs := nodeCores v
  let s := (s.takeSlices v false).clearChains cs
  let s := cs.foldl (fun s c => s.startsWith c v.past) s
  let s := (cs.zip (v.cores.zip v.slices)).foldl (fun (s : State) p =>
    let t := s.setCore p.1 (s.restoreCore n p.1 p.2.1)
    ({ t with code := t.code.ins p.1 code }).restoreSlice p.1 p.2.2) s
  let s := ((v.quads.zip v.mats).foldl (fun s p => s.restoreQuad p.1 p.2) s).movePackets cs
  s.modNode n (fun w => { w with cores := [], mats := [], slices := [] })

end State

/-- The resume cycle: contexts restored, leases granted again, pending accesses performed, and all cores go on together. -/
def execResumeCycle (s : State) : Out1 :=
  let n := s.cur.n
  match s.nodeAt n with
  | none => .next s
  | some v =>
    if v.st ≠ .resuming || !s.ticking v then .next s
    else
      match s.loadCode v with
      | .error _ => .next s
      | .ok code =>
        let cs := State.nodeCores v
        let s := (s.countLoad v).restoreNode n v code
        let pending := sortBy (fun (a b : Nat × Flight) => a.2.id ≤ b.2.id)
          (cs.flatMap (fun c => ((s.coreAt c).cu.flights.filter (fun f => f.blocked)).map (fun f => (c, f))))
        let s := s.resumeAccesses n pending
        match s.nodeAt n with
        | some w =>
          if w.st = .resuming then
            .next ((cs.foldl (fun s c => s.modCore c (fun k => { k with run := true })) s).nodeRuns n)
          else .next s
        | none => .next s

/-! ## Completion records (R105), teardowns (19 R396), priority tokens (R77) -/

/-- Completion status of a final fate. -/
def Fate.status : Fate → Nat
  | .done => 1
  | .late => 2
  | .dropped => 3
  | .aborted => 4
  | .abandoned => 5
  | _ => 6

namespace State

/-- The 32 bytes of a completion record. -/
def recordBytes (n : Nat) (v : Node) (f : Fate) (cls : BitVec 8) : List Byte :=
  let released := f = .done || f = .late
  leBytes 8 (f.status + (if f = .failed then cls.toNat else 0) * 2 ^ 8 + n % 2 ^ 32 * 2 ^ 32) ++
    leBytes 8 (if released then v.committed else 0) ++ leBytes 8 v.dispatched ++ bytesOf 8 (historyOf v)

/-- Bytes written by the dispatcher at a home key: through, under the partition's key, after the stores `ids`, past the
global watchpoints. -/
def dispatcherWrite (s : State) (part key pma : Nat) (ids : List Nat) (bs : List Byte) : State :=
  let ws := (List.range bs.length).map (fun i => (key + i, bs.getD i 0))
  ((s.retune part (ws.map (fun w => w.1))).putAfter ids ws).watchGlobal part 0 0 none true
    ((List.range bs.length).map (fun i => pma + i))

/-- Commands that a node's final fate carries out: a NODE_ABORT of it is done (19 R405). -/
def settleAborts (s : State) (n : Nat) : State :=
  { s with host := { s.host with journal := s.host.journal.map (fun e =>
      match e.2 with
      | some j => if j.kind = 6 && j.origin = n && j.fate = .queued then (e.1, some { j with fate := .done, ended := s.now }) else e
      | none => e) } }

/-- A node's final fate stands: its placement and its reservation are free. -/
def settleNode (s : State) (n : Nat) (f : Fate) (cls : BitVec 8) : State :=
  let s := s.modNode n (fun w => { w with st := .ended f, pool := false, inQueue := false, want := [] })
  let s := { s with holds := s.holds.filter (fun e => e.2 ≠ some n) }
  ((s.noteHistory n).modEntry n (fun e => { e with fate := f, ended := s.now, cls := if e.cls = 0 then cls else e.cls })).settleAborts n

end State

/-- The completion record of a node whose fate is decided; a write that fails, in its translation or on a link that is
down, leaves RECORD_LOST (R105, 01 R35). The manual places no dispatcher on the mesh: whether a link that is down lies on
the write's way is a free choice (log 60). -/
def State.completeNode (s : State) (n : Nat) : State :=
  match s.nodeAt n with
  | none => s
  | some v =>
    match v.st with
    | .ending f cls =>
      let addr := recCompletion v.rcd
      let lost (c : Nat) : State := (s.settleNode n f cls).signal 7 (leBytes 8 n ++ leBytes 8 (f.status + c * 2 ^ 8) ++ leBytes 8 addr)
      match s.dispatcherWalk v.part.toNat true addr with
      | .ok (pma, key) =>
        if s.down ≠ [] && Config.raceNew s.freeCtr n then (lost 0x0F).fresh
        else (s.dispatcherWrite v.part.toNat key pma v.past (State.recordBytes n v f cls)).settleNode n f cls
      | .error x => lost x.cls.toNat
    | _ => s

def execCompletionRecordWrite (s : State) : Out1 := .next (s.completeNode s.cur.n)

/-- How many nodes of a list ended with a fate. -/
def State.countFate (s : State) (ns : List Nat) (f : Fate) : Nat := (ns.filter (fun n => s.fateOf n = some f)).length

/-- QUEUE_DONE: every node of the teardown of queue `n` has its final fate. -/
def execTeardownComplete (s : State) : Out1 :=
  let q := s.cur.n
  match (s.queueAt q).teardown with
  | none => .next s
  | some t =>
    if t.nodes.all (fun n => (s.fateOf n).isSome) then
      let counts := [Fate.done, .late, .dropped, .aborted, .abandoned, .failed, .withdrawn].flatMap (fun f => leBytes 4 (s.countFate t.nodes f))
      let s := s.modQueue q (fun v => { v with teardown := none })
      let s := s.modEntry t.seq (fun e => { e with fate := .done, ended := s.now })
      .next (s.signal 2 (leBytes 8 q ++ counts ++ leBytes 4 0))
    else .next s

/-- A refill interval of partition `n` has run: one token more, up to max (R77). -/
def execPartTokenRefill (s : State) : Out1 :=
  let p := s.cur.n
  let v := s.partAt p
  let step := v.refill.toNat * 2 ^ 16
  .next (if step ≠ 0 && v.refilled + step ≤ s.clock.now then
      s.modPart p (fun v => { v with
        current := if v.current.toNat < v.max.toNat then v.current + 1 else v.current, refilled := v.refilled + step })
    else s)

end Sys2Proof.Machine
end

