-- ==== Sys2Proof/Machine/Region.lean ====
section
/-! DEFINITION. Sources, regions and their clocks (02 R41 to R50, 17 R348 to R357), ingest (02 R48 to R51), the 1588 unit
(02 R57, R58) and the stream ports' links. -/

namespace Sys2Proof.Machine

/-! ## Sources (R41, R349) -/

def srcKind (v : BitVec 64) : Nat := let k := fieldOf v 63 60; if 5 < k then 0 else k
def srcPort (v : BitVec 64) : Nat := fieldOf v 59 58
def srcStream (v : BitVec 64) : Nat := fieldOf v 57 42
def srcGuard (v : BitVec 64) : Nat := fieldOf v 41 32

/-- Fields of REGION_BIND. -/
def bindN (v : BitVec 64) : Nat := fieldOf v 63 32
def bindD (v : BitVec 64) : Nat := fieldOf v 31 20 + 1
def bindSource (v : BitVec 64) : Nat := fieldOf v 19 15

/-- The quotient rounded to the nearest. -/
def nearest (a b : Nat) : Nat := (2 * a + b) / (2 * b)

/-- The index of a tick that occurs at device time `now`; a missing pin's count goes on at the period that the recovery loop
holds (R41). -/
def tickIndex (v : Source) (now : Nat) : Nat :=
  let p := v.period.toNat
  match srcKind v.cfg with
  | 1 | 5 => now / p
  | 4 => v.refIndex + nearest (now - v.refStamp) p
  | _ =>
    match v.tickAt, v.last with
    | some _, some t => if v.missing then v.index + nearest (now - t) v.held else v.index + 1
    | _, _ => 0

/-- An arrival at a source: an edge or a sample. A gap of 4 nominal periods breaks the presence of a missing source. -/
def arrives (v : Source) (now : Nat) : Source :=
  let broken := match v.last with | some t => t + 4 * v.period.toNat ≤ now | none => true
  { v with
    last := some now
    present := if !v.missing then none else if broken || v.present.isNone then some now else v.present }

namespace State

/-- The source of a region. -/
def regionSource (s : State) (r : Nat) : Nat := bindSource (s.regionAt r).bind

/-- Bound regions of a source. -/
def boundTo (s : State) (i : Nat) : List Nat := (List.range 32).filter (fun r => s.bound r && s.regionSource r = i)

/-- The measure of R349 fails: the source is missing. -/
def isMissing (s : State) (i : Nat) : Bool :=
  let v := s.sourceAt i
  let silent := match v.last with | some t => t + 4 * v.period.toNat ≤ s.clock.now | none => true
  match srcKind v.cfg with
  | 2 | 3 => silent
  | 4 => silent || !(s.portAt (srcPort v.cfg)).up
  | 5 => !(s.portAt (srcPort v.cfg)).up
  | _ => false

/-- The region's clock runs on from now between two periods (R68, 17 R348) (log 55). -/
def setPace (s : State) (r : Nat) (quick slow : Nat × Nat) : State :=
  s.modRegion r (fun g => { g with pace := { since := s.clock.now, cycle := g.cycles, quick := quick, slow := slow } })

/-- The cycle of N × f_s / D for a tick period: D × period / N (R44). -/
def boundCycle (s : State) (r period : Nat) : Nat × Nat :=
  let v := (s.regionAt r).bind
  (bindD v * period, bindN v)

/-- The cycle of CAPS.fmax × 10 MHz, 0.5 ns (01 R39). -/
def fastCycle : Nat × Nat := (32768, 1)

/-- The cycle of a region's clock as it enters a state: the bound clock, the maximum, or that of the state left, which in
HOLDOVER is what the source's loop holds (17 R348). -/
def entryCycle (s : State) (r : Nat) (st : RegionSt) : Option (Nat × Nat) :=
  let v := s.sourceAt (s.regionSource r)
  let old := (s.regionAt r).st
  match st with
  | .ceiling => some fastCycle
  | .tracking => some (if old = .ceiling then fastCycle else s.boundCycle r v.period.toNat)
  | .holdover => some (if old = .ceiling then fastCycle else s.boundCycle r v.held)
  | .locked => some (s.boundCycle r v.period.toNat)
  | _ => none

/-- A region enters a state: a pending policy takes effect (R355). -/
def enter (s : State) (r : Nat) (st : RegionSt) : State :=
  let s := match s.entryCycle r st with | some p => s.setPace r p p | none => s
  s.modRegion r (fun g => { g with st := st, polNow := g.pol, ticksIn := 0 })

/-! ## Ticks (R44, R45, R348) -/

/-- The phase guard of a region's source, in fine units. -/
def guardFine (s : State) (r : Nat) : Nat := srcGuard (s.sourceAt (s.regionSource r)).cfg * 65536

/-- The region's clock does not follow its source's ticks: the source is missing, or the governor steps the clock and the
region has not realigned since (R68, 17 R353). -/
def ownClock (g : Region) : Bool := g.st = .holdover || g.power.step ≠ 0 || g.power.glide.isSome || g.realign

/-- The region's next frame may be one that a realignment skips (17 R351, R352). -/
def maySkip (g : Region) : Bool := g.gated || g.st = .ceiling || g.st = .relocking || g.realign

/-- A tick's phase error is found within the guard, or beyond it (R45, 17 R348). -/
def settleTick (s : State) (r : Nat) (within : Bool) : State :=
  let s := s.modRegion r (fun g => { g with inGuard := if within then some s.clock.now else none })
  match (s.regionAt r).st with
  | .locked => if within then s else s.enter r .tracking
  | .tracking => s.modRegion r (fun g => { g with ticksIn := if within then g.ticksIn + 1 else 0 })
  | _ => s

/-- The clock that the loop asks for, in units of 10 kHz, passes the maximum or falls below it again (17 R348). -/
def askClock (s : State) (r ask : Nat) : State :=
  match (s.regionAt r).st with
  | .tracking => if 200000 < ask then s.enter r .ceiling else s
  | .ceiling => if ask * 1000 ≤ 200000 * 999 then s.enter r .tracking else s
  | _ => s

/-- The edge or sample of tick `k` of frame `f` has come within the guard, at device time `t`: the tick has that time, also
where a crossing word has named it since its cycle began (21 R414). -/
def retime (s : State) (r f k t : Nat) : State :=
  match s.tickTime r f k with
  | none => s.modRegion r (fun g => noteTick g t f k)
  | some old =>
    let n := f * bindD (s.regionAt r).bind + k
    let crosses (w : Instr) : Bool := match w with | .xwr _ | .xrd _ => true | _ => false
    let s := s.modRegion r (fun g => noteTick g t f k)
    let s := (s.regionCores r).foldl (fun s c => s.modCore c (fun q => { q with cu := { q.cu with
      flights := q.cu.flights.map (fun w => if crosses w.word && w.stamp = old && s.flightSample c w = n then { w with stamp := t } else w) } })) s
    { s with crossings := s.crossings.map (fun (e : Nat × Crossing) =>
      if (xcfgOf e.2.cfg).producer = r then
        (e.1, { e.2 with ring := e.2.ring.map (fun (p : Nat × Option RingEntry) =>
          (p.1, p.2.map (fun x => if x.sample = (n : Int) && x.ts = old then { x with ts := t } else x))) })
      else e) }

/-- Tick `k` of the region's source, at device time `t`. The tick of a cycle that began while it was awaited has its own time
when it comes within the guard. While the clock is gated no cycle is aligned with a tick, and its phase error is `err` ns by
the loop's measure. Else it is the time from the start of the cycle aligned with it: known now where that cycle has begun, and
when it begins where it has not (R45) (log 45). A tick of a frame that may be skipped is not recorded (17 R352). `ask` is the
clock the loop asks for. -/
def judge (s : State) (r k t err ask : Nat) : State :=
  let g := s.regionAt r
  let d := bindD g.bind
  let hit := g.awaited.find? (fun a => a.1 = k / d && a.2.1 = k % d)
  let within := match hit with | some a => t - a.2.2 ≤ s.guardFine r | none => false
  let s := s.modRegion r (fun g => { g with awaited := g.awaited.filter (fun a => !(a.1 = k / d && a.2.1 = k % d)) })
  let s := if within then s.retime r (k / d) (k % d) t else s
  if g.gated then
    s.modRegion r (fun g => { g with inGuard := if err ≤ srcGuard (s.sourceAt (s.regionSource r)).cfg then some s.clock.now else none })
  else if ownClock g then s
  else
    let s := if hit.isSome then s.settleTick r within
      else if (s.tickTime r (k / d) (k % d)).isSome || (maySkip g && g.frameNo.toNat < k / d) then s
      else s.modRegion r (fun g => noteTick g t (k / d) (k % d))
    s.askClock r ask

/-- Ticks whose edge or sample has not come within the guard are late: a phase error beyond the guard (21 R414) (log 45). -/
def lateTick (s : State) (r : Nat) : State :=
  let late (a : Nat × Nat × Nat) : Bool := a.2.2 + s.guardFine r < s.clock.now
  if (s.regionAt r).awaited.any late then
    (s.modRegion r (fun g => { g with awaited := g.awaited.filter (fun a => !late a) })).settleTick r false
  else s

/-- The device time of tick `k` of a source whose ticks are exact in device time: kinds 1 and 5 (R41). -/
def exactTick (v : Source) (k : Nat) : Option Nat := if srcKind v.cfg = 1 || srcKind v.cfg = 5 then some (k * v.period.toNat) else none

/-- Tick `k` of the frame as the cycle aligned with it begins. It has its own time where its edge or sample has come, or where
the source's ticks are exact in device time, and the cycle's start is judged against it. Where its edge is still to come, the
source is missing, or the clock is stepped, the loop makes the tick at the start of the cycle (R45, 21 R414, 17 R354, 02
R68). -/
def makeTick (s : State) (r k : Nat) : State :=
  let g := s.regionAt r
  let now := s.clock.now
  let v := s.sourceAt (s.regionSource r)
  let f := g.frameNo.toNat
  let judged (s : State) (t : Nat) : State := s.settleTick r (t ≤ now + s.guardFine r && now ≤ t + s.guardFine r)
  if ownClock g then s.modRegion r (fun g => noteTick g now f k)
  else
    match exactTick v (f * bindD g.bind + k), s.tickTime r f k with
    | some t, _ => judged (s.modRegion r (fun g => noteTick g t f k)) t
    | none, some t => judged s t
    | none, none => s.modRegion r (fun g => { noteTick g now f k with
        awaited := if [2, 3, 4].contains (srcKind v.cfg) then g.awaited ++ [(f, k, now)] else g.awaited })

/-- At the start of a region's cycle: awaited ticks that the guard has passed are late, and the cycle's own ticks are made. -/
def tickStart (s : State) (r : Nat) : State :=
  let g := s.regionAt r
  let s := if ownClock g then s.modRegion r (fun g => { g with awaited := [] }) else s.lateTick r
  (ticksAtCycle (bindN g.bind) (bindD g.bind) g.frameCy).foldl (fun s k => s.makeTick r k) s

/-- The device times between which a region's next cycle begins; none where nothing bounds it. A LOCKED region makes N cycles
of every D ticks: cycle c of frame f lies (f × N + c) × D / N ticks after tick 0, within the guard of where the latest edge
or sample puts it (R44). Elsewhere the clock has a rate of its own: exact where the source's ticks are exact in device time,
in HOLDOVER, at CEILING and at a step; between two rates in a glide, and in TRACKING at most 100 ppm more or less in every
frame, and never above the maximum (R68, 17 R348) (log 55). -/
def nextCycle (s : State) (r : Nat) : Option (Nat × Nat) :=
  let g := s.regionAt r
  let v := s.sourceAt (s.regionSource r)
  let n := bindN g.bind
  let p := g.pace
  if g.st = .locked && !ownClock g && (exactTick v 0).isNone then
    v.tickAt.map (fun t =>
      let c := g.frameNo.toNat * n + g.frameCy + b2n g.atEnd
      let x : Int := ((t * n + c * bindD g.bind * v.period.toNat : Nat) - (v.index * n * v.period.toNat : Nat) : Int) / n
      ((x - s.guardFine r).toNat, (x + s.guardFine r).toNat))
  else if p.slow.2 = 0 then none
  else
    let k := g.cycles - p.cycle
    let slew := if g.st = .tracking then k / n + 1 else 0
    let first := max (ceilDiv (k * p.quick.1 * 10000) (p.quick.2 * (10000 + slew))) (k * fastCycle.1)
    some (p.since + first, p.since + max first (ceilDiv (k * p.slow.1 * (10000 + slew)) (p.slow.2 * 10000)))

/-- A region's next cycle may begin now. -/
def onPace (s : State) (r : Nat) : Bool := match s.nextCycle r with | some w => w.1 ≤ s.clock.now | none => true

/-- A region's clock runs a cycle: it is bound, powered, not gated, not at a frame's end, and not ahead of its pace
(log 43, 55). -/
def clockRuns (s : State) (r : Nat) : Bool :=
  let g := s.regionAt r
  s.powered && s.bound r && !g.gated && !g.atEnd && s.onPace r

end State

/-- A tick of a source at device time now, the same index once (R41). -/
def State.countTick (s : State) (i : Nat) : State :=
  s.modSource i (fun v =>
    if v.tickAt = some s.clock.now then v
    else
      let k := tickIndex v s.clock.now
      let v := match v.tickAt with
        | some t => if v.index < k then { v with measured := nearest (s.clock.now - t) (k - v.index) } else v
        | none => v
      let v := if srcKind v.cfg = 2 || srcKind v.cfg = 3 then arrives v s.clock.now else v
      { v with index := k, tickAt := some s.clock.now })

/-- A tick of a source, whose regions share it; the event names one of them. An unbound region's tick is of the source that
the cursor names, which only counts it (R41). The phase error and the clock asked for are the measures of the region named;
that of the others is free, and their loops ask for their own multiple of the same tick rate (log 14). A second event at the
same device time is no second tick. A region that waits for this frame boundary resumes at it (R45, 17 R351). -/
def execSourceTick (region : BitVec 5) (err ask : Nat) (s : State) : Out1 :=
  let r := region.toNat
  let i := if s.bound r then s.regionSource r else s.cur.n
  let seen := (s.sourceAt i).tickAt = some s.clock.now
  let s := s.countTick i
  let v := s.sourceAt i
  let g := (s.regionAt r).bind
  let t := (State.exactTick v v.index).getD s.clock.now
  if v.missing || !s.bound r then .next s
  else if seen then .next (s.judge r v.index t err ask)
  else
    let s := (s.boundTo i).foldl (fun s k =>
      if k = r then s.judge r v.index t err ask
      else
        let h := (s.regionAt k).bind
        (s.judge k v.index t (Config.freeBits s.freeCtr 32).toNat (ask * bindN h * bindD g / (bindD h * bindN g))).fresh) s
    let waits := (s.boundTo i).filter (fun k => (s.regionAt k).gated && v.index % bindD (s.regionAt k).bind = 0)
    let resumes := waits.map (fun k =>
      Move.event {} (.realignResume (BitVec.ofNat 5 k) (BitVec.ofNat 64 (v.index / bindD (s.regionAt k).bind))))
    .next { s with agenda := resumes ++ s.agenda }

/-- 16 consecutive ticks within the guard return a TRACKING region to LOCKED. -/
def execTrackingRelock (s : State) : Out1 :=
  let r := s.cur.n
  let g := s.regionAt r
  .next (if g.st = .tracking && 16 ≤ g.ticksIn then s.enter r .locked else s)

/-- A missing source has been present for 16 nominal periods: its regions in HOLDOVER and FROZEN enter RELOCKING. -/
def execSourcePresent (s : State) : Out1 :=
  let i := s.cur.n
  let v := s.sourceAt i
  match v.present with
  | some t =>
    if v.missing && !s.isMissing i && t + 16 * v.period.toNat ≤ s.clock.now then
      let s := s.modSource i (fun v => { v with missing := false, present := none })
      .next ((s.boundTo i).foldl (fun s r =>
        match (s.regionAt r).st with
        | .holdover | .frozen => s.enter r .relocking
        | _ => s) s)
    else .next s
  | none => .next s

/-! ## Ingest (R48 to R51) -/

namespace State

/-- Half `h` of a region, and a change of it. -/
def halfOf (g : Region) (h : Nat) : Half := if h = 0 then g.half0 else g.half1
def setHalf (g : Region) (h : Nat) (v : Half) : Region := if h = 0 then { g with half0 := v } else { g with half1 := v }

/-- Bytes that the ingest engine writes to its slice, and the watchpoints they touch. The manual gives the engine no id
for a watchpoint's status word (18 R381). -/
def ingestWrite (s : State) (core : Nat) (ws : List (Nat × Byte)) : State :=
  let keys := ws.map (fun w => (sliceKey core w.1, w.2))
  let id := (Config.freeBits s.freeCtr 13).toNat
  ((s.modMem (fun m => m.put keys)).watchSlice 6 id true (keys.map (fun w => w.1))).fresh

/-- Lines of a half that hold only bytes of slots that have been received (R49). -/
def fullLines (g : Ingest) (got : List Nat) : List Nat :=
  (List.range (g.count * g.slot / 512)).filter (fun l =>
    (List.range (ceilDiv (l * 512 % g.slot + 512) g.slot)).all (fun i => got.contains (l * 512 / g.slot + i)))

/-- The half of frame `f` opened for its data; an older half that has not completed is completed first. -/
def openHalf (s : State) (r : Nat) (f : Nat) : State :=
  s.modRegion r (fun g =>
    if (halfOf g (f % 2)).frame.toNat = f && !(halfOf g (f % 2)).complete then g
    else setHalf g (f % 2) { frame := BitVec.ofNat 64 f, complete := false })

/-- The status block of a half (R50). -/
def statusBlock (h : Half) : List Byte :=
  bytesOf 8 h.frame ++ leBytes 4 h.filled ++ leBytes 4 h.discarded ++ leBytes 4 h.truncated ++ leBytes 44 0

/-- A half completed: slots without data read zero, the status block is written last, and every line carries the tag. -/
def completeHalf (s : State) (r h : Nat) : State :=
  let g := s.regionAt r
  let c := ingestOf g.ingestCfg
  let v := halfOf g h
  if v.complete then s
  else
    let s := s.setRegion r (setHalf g h { v with complete := true })
    if !c.on then s
    else
      let empty := (List.range c.count).filter (fun k => !v.got.contains k)
      let zeros := empty.flatMap (fun k => (List.range c.slot).map (fun i => (c.half h + k * c.slot + i, (0 : Byte))))
      let stat := (List.range 64).map (fun i => (c.half h + c.count * c.slot + i, (statusBlock v).getD i 0))
      let s := s.ingestWrite c.core (zeros ++ stat)
      s.setTags c.core (v.frame.setWidth 8) ((List.range (c.hsize / 512)).map (fun l => c.half h / 512 + l))

/-- The arrival guard G of REGION_CTL (R43). -/
def arrivalGuard (g : Region) : Nat := fieldOf g.ctl 31 0

/-- Half `h` completed where it belongs to a frame before `f` (R49). -/
def completeOld (s : State) (r h f : Nat) : State := if (halfOf (s.regionAt r) h).frame.toNat < f then s.completeHalf r h else s

/-- At the start of a cycle at or after the arrival guard, the half of the frame before is complete at the latest (R49). -/
def halfDue (s : State) (r : Nat) : State :=
  let g := s.regionAt r
  if arrivalGuard g ≤ g.frameCy then s.completeOld r ((g.frameNo.toNat + 1) % 2) g.frameNo.toNat else s

/-- Both halves completed, the older first: nothing arrives any more for the current frame or one before (17 R354, R357). -/
def completeBoth (s : State) (r : Nat) : State :=
  let f := (s.regionAt r).frameNo.toNat
  (s.completeOld r ((f + 1) % 2) (f + 1)).completeOld r (f % 2) (f + 1)

/-- One item of frame `f` for slot `k`, or for the next free slot (R49, R357). A half that is not yet the frame's is
opened when the frame is the region's current or next one; an item of a frame that a realignment may skip or has skipped is
not written (R351, R352); one for a completed half is late (log 51). -/
def ingestItem (s : State) (r f : Nat) (slot : Option Nat) (item : List Byte) : State :=
  let g := s.regionAt r
  let c := ingestOf g.ingestCfg
  let no := g.frameNo.toNat
  if !c.on then s
  else if no < f && (maySkip g || no + 1 < f) then s
  else if g.skipFrom ≤ f && f < g.skipTo then s
  else
    let h := f % 2
    let late (s : State) : State := s.modRegion r (fun g => { g with late := satNat 16 (g.late.toNat + 1) })
    let v := halfOf g h
    let opens := v.complete && v.frame.toNat < f
    if !opens && (v.complete || f < v.frame.toNat) then late s
    else if !opens && v.frame.toNat < f then s
    else
      let s := if opens then s.openHalf r f else s
      let v := halfOf (s.regionAt r) h
      let k := slot.getD v.filled
      if c.count ≤ k then
        s.modRegion r (fun g => setHalf g h { v with discarded := v.discarded + 1 })
      else
        let bytes := (item ++ List.replicate c.slot 0).take c.slot
        let got := if v.got.contains k then v.got else v.got ++ [k]
        let was := fullLines c v.got
        let lines := (fullLines c got).filter (fun l => !was.contains l)
        let w : Half :=
          { v with
            got := got
            filled := if v.got.contains k then v.filled else v.filled + 1
            truncated := v.truncated + (if c.slot < item.length then 1 else 0) }
        let s := s.modRegion r (fun g => setHalf g h w)
        let s := s.ingestWrite c.core ((List.range c.slot).map (fun i => (c.half h + k * c.slot + i, bytes.getD i 0)))
        s.setTags c.core (BitVec.ofNat 8 f) (lines.map (fun l => c.half h / 512 + l))

/-- The items of a stream packet. -/
def packetItems (bs : List Byte) (count size : Nat) : List (List Byte) :=
  (List.range count).map (fun i => (bs.drop (32 + i * size)).take size)

/-- The items of one packet into one region of source `i`: samples by their index, events by their time stamp. -/
def ingestPacket (s : State) (r : Nat) (v : Source) (index : Nat) (items : List (List Byte)) : State :=
  let d := bindD (s.regionAt r).bind
  if srcKind v.cfg = 4 then
    ((List.range items.length).zip items).foldl (fun s p => s.ingestItem r ((index + p.1) / d) (some ((index + p.1) % d)) p.2) s
  else
    items.foldl (fun s it => s.ingestItem r (leNat (it.take 8) * 2 ^ 16 / v.period.toNat / d) none it) s

end State

/-- A half is completed: that of a frame before the region's at some cycle up to G of the next, or the current one whose slots
have all arrived from a periodic stream, or to which nothing comes because the source is missing (R49, 15 R326, 17 R354). -/
def execIngestHalfComplete (s : State) : Out1 :=
  let r := s.cur.n
  let g := s.regionAt r
  let no := g.frameNo.toNat
  let old := State.halfOf g ((no + 1) % 2)
  let cur := State.halfOf g (no % 2)
  let c := ingestOf g.ingestCfg
  let full : Bool := cur.got.length = c.count && srcKind (s.sourceAt (s.regionSource r)).cfg = 4
  .next (if !s.bound r then s
    else if !old.complete && old.frame.toNat < no then s.completeHalf r ((no + 1) % 2)
    else if !cur.complete && cur.frame.toNat = no && (full || g.st = .holdover) then s.completeHalf r (no % 2)
    else s)

/-- A frame at a stream port: a stream packet for each source whose stream it is, a 1588 message, or another frame, which
is counted (R51). A packet shorter than its header's count × size, or of a kind that does not fit the source's, is dropped
whole and counted nowhere (the model's choice, log 59). -/
def execStreamPacketReceive (port : BitVec 2) (f : RxFrame) (s : State) : Out1 :=
  let p := port.toNat
  if !(s.portAt p).up then .next s
  else if f.ethertype = 0x88F7#16 then .next s
  else if f.ethertype ≠ 0x88B5#16 then .next (s.modPort p (fun q => { q with other := q.other + 1 }))
  else
    let bs := f.payload
    let kind := leNat ((bs.drop 2).take 1)
    let count := leNat ((bs.drop 4).take 4)
    let index := leNat ((bs.drop 8).take 8)
    let stamp := leNat ((bs.drop 16).take 8)
    let size := leNat ((bs.drop 24).take 4)
    if bs.length < 32 + count * size then .next s
    else
      let items := State.packetItems bs count size
      let takes (v : Source) : Bool :=
        (srcKind v.cfg = 4 && kind = 1 || srcKind v.cfg = 5 && kind = 2) && srcPort v.cfg = p && srcStream v.cfg = leNat (bs.take 2)
      .next ((List.range 32).foldl (fun s i =>
        if takes (s.sourceAt i) then
          let s := if kind = 1 && count ≠ 0 then
              s.modSource i (fun v => { arrives v s.clock.now with refIndex := index, refStamp := stamp * 2 ^ 16 })
            else s
          (s.boundTo i).foldl (fun s r => s.ingestPacket r (s.sourceAt i) index items) s
        else s) s)

/-! ## Frame boundaries, gates and resumes (R46, R348, R351 to R355) -/

namespace State

/-- SCHED_CY of cores by a change (log 45). -/
def moveSched (s : State) (cs : List Nat) (d : BitVec 64) : State :=
  cs.foldl (fun s c => s.modCore c (fun k => { k with csr := { k.csr with schedCy := k.csr.schedCy + d } })) s

/-- The region's clock is gated at its frame boundary: FRAME_CY and SCHED_CY keep the values of the last cycle (R351,
21 R416) (log 45). -/
def gate (s : State) (r : Nat) : State :=
  if (s.regionAt r).gated then s else
  let ahead := if s.injected r then [] else (s.regionCores r).filter (fun c => let k := s.coreAt c; k.run && !(k.frozen || k.held || k.halted))
  (s.moveSched ahead (-1)).modRegion r (fun g => { g with gated := true, ahead := ahead })

/-- A new frame begins; the half it uses is opened, an older one in it completed first. After a gate the schedule counters
go on, but for a core that an event latched in the gate holds (R360), and the clock from now (log 45). -/
def beginFrame (s : State) (r : Nat) (frame : BitVec 64) : State :=
  let s := s.moveSched ((s.regionAt r).ahead.filter (fun c => !(s.coreAt c).held)) 1
  let s := s.modRegion r (fun g => { g with
    frameNo := frame, frameCy := 0, atEnd := false, gated := false, ahead := []
    pace := if g.gated then { g.pace with since := s.clock.now, cycle := g.cycles } else g.pace })
  let s := s.completeOld r (frame.toNat % 2) frame.toNat
  let s := s.openHalf r frame.toNat
  s

/-- What was latched during a transition is delivered in the first cycle after it (R360). -/
def endTransition (s : State) (r : Nat) : State :=
  let cores := s.regionCores r
  let stops := cores.foldl (fun (acc : List Nat) c =>
    let k := s.coreAt c
    match k.node with
    | some n => if k.stopHeld && !acc.contains n then acc ++ [n] else acc
    | none => acc) []
  let s := cores.foldl (fun s c => s.modCore c (fun k => { k with stopHeld := false })) s
  let evs := cores.flatMap (fun c =>
    let k := s.coreAt c
    let here (n : Nat) : Cursor := { core := BitVec.ofNat 8 c, n := n }
    (if k.latched ≠ [] then [Move.event (here c) .latchedDelivery] else []) ++
      (if k.run then (k.cu.flights.filter (fun f => f.blocked)).map (fun f => Move.event (here f.id) .translationFault) else []))
  let s := s.refreshHolds r
  { s with agenda := evs ++ stops.map (fun n => Move.event { n := n } .stopCycle) ++ s.agenda }

/-- Nodes that lie on a region and have not met their fate. -/
def nodesOn (s : State) (r : Nat) : List (Nat × Node) :=
  s.nodes.filterMap (fun e =>
    match e.2 with
    | some v =>
      let live := holdsQuads v && (match v.st with | .ending _ _ => false | _ => true)
      if live && recRegion v.rcd = r then some (e.1, v) else none
    | none => none)

/-- A node fails with SOURCE: its lowest core records it (R355), also where the node is placed and has not started there. -/
def failSource (s : State) (r n : Nat) (v : Node) (reason : Nat) : State :=
  let c := (nodeCores v).headD 0
  let status := reason * 2 ^ 24 + (s.regionAt r).st.code * 2 ^ 5 + r
  let f := s.faultRec c .s 0x10 (BitVec.ofNat 32 status)
  if (s.coreAt c).node = some n && v.st ≠ .placed && v.st ≠ .resuming then s.raise c f
  else (s.trapRecord c f (s.coreAt c).inHandler).failNode n c 0x10

/-- A kill of R355's action 2: the node returns to the ready set from its start. -/
def killNode (s : State) (n : Nat) (v : Node) : State := ((s.recordStop n v .kill).requeue n v).countStop n

/-- What a region does to its nodes on entry to FROZEN. -/
def frozenAction (s : State) (r : Nat) : State :=
  let act := fieldOf (s.regionAt r).polNow 1 0
  if act = 1 || act = 2 then
    (s.nodesOn r).foldl (fun s p =>
      if act = 2 && restartable p.2 then s.killNode p.1 p.2 else s.failSource r p.1 p.2 1) s
  else s

end State

/-- A frame boundary in HOLDOVER: the H-th frame begun in it has ended, or one more begins (R348). The half of the frame that
ends is complete by then (R354, R357). -/
def State.holdBoundary (s : State) (r : Nat) : State :=
  let s := s.completeBoth r
  let g := s.regionAt r
  if fieldOf g.ctl 63 48 ≤ g.holdFrames then { s with agenda := .event { n := r } .frozenEntry :: s.agenda }
  else (s.modRegion r (fun g => { g with
    holdFrames := g.holdFrames + 1, heldCount := satNat 16 (g.heldCount.toNat + 1) })).beginFrame r (g.frameNo + 1)

/-- The period that a source's loop holds: a free value between the nominal one and the last that it measured (log 14). -/
def heldPeriod (v : Source) (free : Nat) : Nat :=
  let p := v.period.toNat
  let m := if v.measured = 0 then p else v.measured
  min p m + free % (max p m - min p m + 1)

/-- A source is found missing: its loop holds its period, and its regions enter HOLDOVER (R349), where the half of the frame
in which it went missing completes with what has arrived (R357). One that is gated at CEILING takes its pending frame boundary at the held clock, and what was latched is delivered
unless it stays gated (R351, R360). -/
def State.loseSource (s : State) (i : Nat) : State :=
  let s := s.modSource i (fun v => { v with missing := true, present := none, held := heldPeriod v (Config.freeBits s.freeCtr 64).toNat })
  (s.boundTo i).foldl (fun s r =>
    let gated := (s.regionAt r).gated
    match (s.regionAt r).st with
    | .locked | .tracking | .ceiling =>
      let s := ((s.enter r .holdover).modRegion r (fun g => { g with holdFrames := 0 })).completeBoth r
      if gated then
        let s := s.holdBoundary r
        if (s.regionAt r).gated then s else s.endTransition r
      else s
    | _ => s) s.fresh

def execSourceMissing (s : State) : Out1 :=
  let i := s.cur.n
  .next (if !(s.sourceAt i).missing && s.isMissing i then s.loseSource i else s)

/-- The end of a region's frame: the next frame, a gate (RELOCKING, CEILING, or the end of stepped scaling), or FROZEN (log 16). -/
def execFrameBoundary (s : State) : Out1 :=
  let r := s.cur.n
  let g := s.regionAt r
  let next := g.frameNo + 1
  if !s.bound r || !g.atEnd || g.gated then .next s
  else
    match g.st with
    | .ceiling | .relocking => .next (s.gate r)
    | .holdover => .next (s.holdBoundary r)
    | _ =>
      if g.realign then .next ((s.enter r .relocking).gate r)
      else .next (s.beginFrame r next)

/-- The region of a source that stays missing is gated at the boundary that ends its H-th frame of HOLDOVER. -/
def execFrozenEntry (s : State) : Out1 :=
  let r := s.cur.n
  let g := s.regionAt r
  if g.st = .holdover && g.atEnd && fieldOf g.ctl 63 48 ≤ g.holdFrames then
    let s := ((s.enter r .frozen).gate r).modRegion r (fun g => { g with frozenAt := s.clock.now })
    .next (s.frozenAction r)
  else .next s

/-- A region's nodes fail once it has stayed FROZEN for more than flimit µs (R355). -/
def execFlimitExpiry (s : State) : Out1 :=
  let r := s.cur.n
  let g := s.regionAt r
  let limit := fieldOf g.polNow 63 32
  if g.st = .frozen && limit ≠ 0 && g.frozenAt + limit * 1000 * 2 ^ 16 < s.clock.now then
    .next ((s.nodesOn r).foldl (fun s p => s.failSource r p.1 p.2 2) s)
  else .next s

/-- A gated region resumes on the cycle at which source frame `frame` begins, from RELOCKING where the phase error of this very
tick lies within the guard (R45, R351); a bind's first frame skips none (log 51). Of a source whose ticks are exact the
cycles then keep the phase in which the loop has locked, a free part of the guard (log 55). -/
def execRealignResume (region : BitVec 5) (frame : BitVec 64) (s : State) : Out1 :=
  let r := region.toNat
  let g := s.regionAt r
  let v := s.sourceAt (s.regionSource r)
  let d := bindD g.bind
  let first := g.cycles = 0
  let starts := v.tickAt = some s.clock.now && v.index % d = 0 && v.index / d = frame.toNat && (first || g.frameNo.toNat < frame.toNat)
  let ready := match g.st with
    | .relocking => !v.missing && g.inGuard = some s.clock.now
    | .unbound | .holdover | .frozen => false
    | _ => true
  if g.gated && ready && starts then
    let s := if g.st = .relocking then s.enter r .locked else s
    let s := s.modRegion r (fun g => { g with
      realign := false
      skipFrom := if first then 0 else g.frameNo.toNat + 1
      skipTo := frame.toNat
      gap := if first then g.gap else satNat 24 (g.gap.toNat + (frame.toNat - g.frameNo.toNat - 1)) })
    let s := s.completeOld r ((frame.toNat + 1) % 2) frame.toNat
    let s := s.modRegion r (fun g => State.setHalf g ((frame.toNat + 1) % 2) { frame := frame - 1, complete := true })
    let s := s.beginFrame r frame
    let phase := if g.st = .relocking then (Config.freeBits s.freeCtr 32).toNat % (s.guardFine r + 1) else 0
    let s := s.modRegion r (fun g => { State.noteTick g s.clock.now frame.toNat 0 with pace := { g.pace with since := g.pace.since + phase } })
    .next (s.fresh.endTransition r)
  else .next s

/-! ## Ports and the 1588 unit -/

/-- A stream port loses its link: its sources are missing, and one that was missing starts its 16 periods anew; its packets
are discarded with their gives, and the host is told (R349, 09 R242, 01 R35). -/
def execStreamPortLinkLoss (s : State) : Out1 :=
  let p := s.cur.n
  if !(s.portAt p).up then .next s
  else
    let there (k : EgrPacket) : Bool := (s.coreAt k.core.toNat).cu.flights.any (fun f => f.id = k.flight)
    let queue := (s.portAt p).queue.filter there
    let s := s.modPort p (fun q => { q with
      up := false, queue := q.queue.filter (fun k => !there k), discards := q.discards + queue.length })
    let s := queue.foldl (fun s k =>
      match (s.coreAt k.core.toNat).cu.flights.find? (fun f => f.id = k.flight) with
      | some f => s.landed k.core.toNat f
      | none => s) s
    let s := (List.range 32).foldl (fun s i =>
      let v := s.sourceAt i
      if (srcKind v.cfg = 4 || srcKind v.cfg = 5) && srcPort v.cfg = p then
        (if v.missing then s.modSource i (fun v => { v with present := none }) else s.loseSource i)
      else s) s
    .next (s.signal 5 (leBytes 8 (3 + p * 2 ^ 8)))

/-- A stream port's link is up again. -/
def execStreamPortLinkUp (s : State) : Out1 :=
  let p := s.cur.n
  if (s.portAt p).up || 4 ≤ p then .next s
  else
    let s := s.modPort p (fun q => { q with up := true })
    .next ((List.range 32).foldl (fun s i =>
      s.modSource i (fun v =>
        if srcKind v.cfg = 5 && srcPort v.cfg = p && v.missing then { v with present := some s.clock.now } else v)) s)

/-- Fields of TIME_CFG (R58). -/
def timePorts (v : BitVec 64) : Nat := fieldOf v 43 16
def timeRole (v : BitVec 64) : Nat := let k := fieldOf v 10 9; if k = 3 then 0 else k
def timeDomain (v : BitVec 64) : Nat := let d := fieldOf v 7 0; if 127 < d then 0 else d

namespace State

/-- The 1588 unit works from step 3 of the boot on, on the ports that TIME_CFG enables (12 R310). -/
def ptpRuns (s : State) : Bool := 3 ≤ s.island.boot && timePorts s.clock.cfg ≠ 0

/-- A measured offset from the master. A Sync ends a sync interval: the unit is locked when every offset has been within 10 ns
for 16 of them (R58). Once it has locked, it disciplines device time: a clock that lags its master runs on faster, by a free
part of the offset; one that leads is slowed, as time passes (R57) (log 14, 55). -/
def ptpMeasure (s : State) (sync : Bool) (offset : BitVec 32) : State :=
  let c := s.clock
  let near := -10 ≤ offset.toInt && offset.toInt ≤ 10
  let settled := if !near then 0 else if sync then c.settled + 1 else c.settled
  let locked := near && 16 ≤ settled
  let lag := (-offset.toInt).toNat * 65536
  let step := if c.disciplined then (Config.freeBits s.freeCtr 64).toNat % (lag + 1) else 0
  { s with
    freeCtr := s.freeCtr + 1
    agenda := if step = 0 then s.agenda else .time step :: s.agenda
    clock := { c with offset := offset, settled := settled, locked := locked, disciplined := c.disciplined || locked } }

/-- Whether the unit is master on a port (R57). -/
def masterOn (s : State) (port : Nat) : Bool := s.clock.masters.getLsbD port
def setMaster (s : State) (port : Nat) (on : Bool) : State :=
  let bit : BitVec 28 := BitVec.ofNat 28 (2 ^ port)
  { s with clock := { s.clock with masters := if on then s.clock.masters ||| bit else s.clock.masters &&& ~~~bit } }

end State

/-- A 1588 message. On a port that TIME_CFG enables and in the unit's domain, Management is discarded and counted (R57). An
Announce decides by the default data-set comparison, whose outcome is `best`, whether a master-capable or boundary clock is
master on the port; where it is not, Sync, Follow_Up and the delay responses give its offset. What comes on a fabric port and
is not for the unit is passed on, with the time it has spent here added to its correction field (log 14). -/
def execPtpMessageReceive (kind : PtpKind) (domain : BitVec 8) (port : BitVec 5) (offset : BitVec 32) (best : Bool) (s : State) : Out1 :=
  let p := port.toNat
  let mine := s.ptpRuns && bitOf (timePorts s.clock.cfg) p && domain.toNat = timeDomain s.clock.cfg
  .next (if !mine then
      (if s.island.boot < 3 || p < 4 || 28 ≤ p then s
       else (s.emit (.ptpForward kind domain p (Config.freeBits s.freeCtr 64).toNat)).fresh)
    else
      match kind with
      | .management => { s with clock := { s.clock with discarded := s.clock.discarded + 1 } }
      | .announce => s.setMaster p (timeRole s.clock.cfg ≠ 0 && best)
      | .sync => if s.masterOn p then s else s.ptpMeasure true offset
      | .followUp | .delayResp | .pdelayResp | .pdelayRespFollowUp => if s.masterOn p then s else s.ptpMeasure false offset
      | .delayReq | .pdelayReq | .signaling => s)

/-- A message that the unit's role has it send on an enabled port (R57, R58): a master's Sync, Follow_Up, Announce and
Delay_Resp; a slave's Delay_Req; peer delay messages under delay = 1. The Announce of a master-capable or boundary clock that
has heard no better one in its time makes it master on the port (log 14). -/
def execPtpMessageTransmit (kind : PtpKind) (port : BitVec 5) (s : State) : Out1 :=
  let v := s.clock.cfg
  let p := port.toNat
  let peer := v.getLsbD 12
  let two := v.getLsbD 11
  let master := timeRole v ≠ 0 && s.masterOn p
  let may := match kind with
    | .sync => master
    | .announce => timeRole v ≠ 0
    | .followUp => master && two
    | .delayReq => !peer && !master
    | .delayResp => master && !peer
    | .pdelayReq | .pdelayResp => peer
    | .pdelayRespFollowUp => peer && two
    | .signaling => true
    | .management => false
  .next (if may && s.ptpRuns && bitOf (timePorts v) p then
      (if kind = .announce then s.setMaster p true else s).emit (.ptp kind p two)
    else s)

end Sys2Proof.Machine
end

