-- ==== Sys2Proof/Machine/Engine.lean ====
section
/-! DEFINITION. The engines beside the cores: crossing units (02 R53 to R56, R417; 17 R358, R359), egress (09 R242), copy
engines (04 R128 to R131, 09 R238 to R240, 18 R377), page walkers (04 R124). -/

namespace Sys2Proof.Machine

/-! ## Crossings -/

namespace State

/-- A request acts only under the enabling that it was issued under (R417). -/
def sameEnabling (s : State) (f : Flight) : Bool :=
  let x := s.crossingAt (flightCrossing f)
  (xcfgOf x.cfg).on && x.enabled = f.enab

end State

/-- The entry of a ring that holds sample `n`. -/
def ringHolds (x : Crossing) (n : Int) : Option RingEntry :=
  if n < 0 then none
  else
    match x.ring.get none (n.toNat % 64) with
    | some e => if e.sample = n then some e else none
    | none => none

/-- The greatest index whose sample is held with a time stamp at or before `u` (R55). -/
def ringNewest (x : Crossing) (u : Int) : Option RingEntry :=
  x.ring.foldl (fun (best : Option RingEntry) p =>
    match p.2 with
    | none => best
    | some e =>
      if u < (e.ts : Int) then best
      else match best with
        | some b => if b.sample < e.sample then some e else best
        | none => some e) none

/-- Channel `ch` of the interpolation at entry `n`: fused steps over the taps, i ascending (R55). -/
def interpolate (x : Crossing) (c : XCfg) (e : RingEntry) (phase ch : Nat) : Nat × Flags :=
  (List.range c.taps).foldl (fun (st : Nat × Flags) (i : Nat) =>
    let v := match ringHolds x (e.sample - (i : Int)) with | some r => (r.chans.getD ch 0).toNat | none => 0
    let r := elemFma 12 false false (x.weights.get 0 (16 * phase + i)).toNat v st.1
    (r.1, st.2 ||| r.2)) (0, 0)

/-- What an XRD at time `t` returns: status, flags, channels; and the outputs kept for HOLD (R55, R358, R359). -/
def crossingRead (x : Crossing) (t : Nat) : Nat × Flags × List Nat × Crossing :=
  let c := xcfgOf x.cfg
  let u : Int := (t : Int) - (c.lag * 65536 : Nat)
  let chans := List.range c.chans
  let stale (n : Option RingEntry) : Nat × Flags × List Nat × Crossing :=
    let out := match c.policy with
      | 0 => chans.map (fun ch => (x.last.get 0 ch).toNat)
      | 1 => chans.map (fun _ => 0)
      | _ => chans.map (fun ch => match n with | some e => (e.chans.getD ch 0).toNat | none => 0)
    (2, 0, out, x)
  match ringNewest x u with
  | none => stale none
  | some e =>
    let age := (u - (e.ts : Int)).toNat
    let p := x.period.toNat
    let intact := (List.range c.taps).all (fun (i : Nat) => (ringHolds x (e.sample - (i : Int))).isSome)
    if !intact || 4 * p ≤ age then stale (some e)
    else
      let phase := min (c.phases * age / p) (c.phases - 1)
      let rs := chans.map (interpolate x c e phase)
      let out := rs.map (fun r => r.1)
      (if age < p then 0 else 1, orFlags (rs.map (fun r => r.2)), out,
        { x with last := (chans.zip out).foldl (fun l q => Tab.ins l q.1 (BitVec.ofNat 32 q.2)) x.last })

/-- The crossing unit applies an XWR's sample, or drops it; its give is added. XWRs of one core to one crossing act in
program order (R54). One whose channels are not read, or whose region's clock is gated, does not act yet (R227, 17 R348,
R359) (log 21). -/
def execXwrApply (s : State) : Out1 :=
  match s.flightHere with
  | none => .next s
  | some f =>
    match f.word with
    | .xwr _ =>
      let i := State.flightCrossing f
      let earlier := s.me.cu.flights.any (fun g =>
        g.id < f.id && (match g.word with | .xwr _ => State.flightCrossing g = i | _ => false))
      if earlier || f.data = [] || (s.regionAt (s.regionOf s.here)).gated then .next s
      else
        let n := s.flightSample s.here f
        let e : RingEntry := { sample := n, ts := f.stamp, chans := f.data }
        let s := if s.sameEnabling f then s.modCrossing i (fun x => { x with ring := x.ring.ins (n % 64) (some e) }) else s
        .next (s.landed s.here f)
    | _ => .next s

/-- An entry of a ring that an XRD reads, for one that holds a bad word (18 R370). -/
def ringBad (x : Crossing) (t : Nat) : Option Mark :=
  let c := xcfgOf x.cfg
  match ringNewest x ((t : Int) - (c.lag * 65536 : Nat)) with
  | none => none
  | some e => ((List.range c.taps).findSome? (fun (i : Nat) => (ringHolds x (e.sample - (i : Int))).bind (fun r => r.bad))).filter (fun m => m ≠ .correctable)

/-- An XRD's request reaches the unit, while its region's clock is gated too: it returns values and a status from the ring as
it stands (R55, 17 R348). A bad entry is consumed; no rule names its unit, which is free (18 R370, R371) (log 57). One that is
cut off writes as many channels as the crossing is configured for at this arrival (R417; the model's choice, log 59). -/
def execXrdCompute (s : State) : Out1 :=
  match s.flightHere with
  | none => .next s
  | some f =>
    match f.word with
    | .xrd _ =>
      if f.data ≠ [] then .next s
      else
        let i := State.flightCrossing f
        let x := s.crossingAt i
        let bad := if s.sameEnabling f then ringBad x f.stamp else none
        if let some m := bad then
          .next ((s.dropFlight s.here f).machineCheck s.here f.unit m (Config.freeBits s.freeCtr 4).toNat (Config.freeBits s.freeCtr 12).toNat 0)
        else
        let (st, fl, out, y) :=
          if s.sameEnabling f then crossingRead x f.stamp
          else (2, (0 : Flags), (List.range (xcfgOf x.cfg).chans).map (fun _ => 0), x)
        let data : List (BitVec 32) := BitVec.ofNat 32 st :: fl.setWidth 32 :: out.map (BitVec.ofNat 32)
        .next ((s.modCrossing i (fun _ => y)).modCore s.here (fun c => { c with cu := { c.cu with
          flights := c.cu.flights.map (fun g => if g.id = f.id then { g with data := data } else g) } }))
    | _ => .next s

/-! ## Egress -/

/-- The stream header of an egress packet (R51, R52) (log 52). -/
def egressHeader (k : EgrPacket) (depart : Nat) : List Byte :=
  bytesOf 2 k.stream ++ [3, 0] ++ leBytes 4 k.count ++ bytesOf 8 k.frame ++ leBytes 8 depart ++ leBytes 4 k.size ++ leBytes 4 0

/-- The Ethernet header of a port (R243), its two addresses most significant octet first. -/
def portHeader (q : Port) : List Byte :=
  let addr (v : BitVec 64) : List Byte := (leBytes 6 (fieldOf v 47 0)).reverse
  let tag := if q.egr1.getLsbD 60 then [0x81, 0x00] ++ (leBytes 2 (fieldOf q.egr1 63 61 * 2 ^ 13 + fieldOf q.egr1 59 48)).reverse else []
  addr q.egr0 ++ addr q.egr1 ++ tag ++ [0x88, 0xB5]

/-- The packets of a port whose due cycle has come, those of a node that is saved apart: the longest due first, then the lower region, then the lower core. -/
def State.dueFirst (s : State) (q : Port) : Option EgrPacket :=
  let lateBy (k : EgrPacket) : Nat := (s.regionAt k.region).cycles - k.due
  let due := q.queue.filter (fun k => k.due ≤ (s.regionAt k.region).cycles && (s.coreAt k.core.toNat).cu.flights.any (fun f => f.id = k.flight))
  (sortBy (fun (a b : EgrPacket) =>
    lateBy b < lateBy a || (lateBy a = lateBy b && (a.region < b.region || (a.region = b.region && a.core.toNat ≤ b.core.toNat)))) due).head?

/-- A packet leaves its port at its due cycle, or is discarded at a port without a link; EGR's give is added (R242). A
packet whose bytes are still to be read waits for that. -/
def execEgrDepart (s : State) : Out1 :=
  let p := s.cur.n
  let q := s.portAt p
  match s.dueFirst q with
  | none => .next s
  | some k =>
    let gone (s : State) : State :=
      let s := s.modPort p (fun q => { q with queue := removeFirst (fun x => x.core = k.core && x.flight = k.flight) q.queue })
      match (s.coreAt k.core.toNat).cu.flights.find? (fun f => f.id = k.flight) with
      | some f => s.landed k.core.toNat f
      | none => s
    if !q.up then .next ((gone s).modPort p (fun q => { q with discards := q.discards + 1 }))
    else
      match k.bytes with
      | none => .next s
      | some bs => .next ((gone s).emit (.packet p (portHeader q ++ egressHeader k s.now ++ bs)))

/-! ## Copies -/

/-- The element pairs of a copy box: source and destination (R238). -/
def copyPairs (a b : Ent) (sc dc : Nat) : List (Elem × Elem) :=
  let (c0, c1, c2, c3) := coordOf sc
  let (d0, d1, d2, d3) := coordOf dc
  (List.range (a.e3 - c3)).flatMap (fun k => (List.range (a.e2 - c2)).flatMap (fun j =>
    (List.range (a.e1 - c1)).flatMap (fun i => (List.range (a.e0 - c0)).map (fun h =>
      (denseElem a (c0 + h : Nat) (c1 + i) (c2 + j) (c3 + k), denseElem b (d0 + h : Nat) (d1 + i) (d2 + j) (d3 + k))))))

namespace State

/-- An entry that names another package's slice (log 52). -/
def foreign (s : State) (e : Ent) : Bool := e.peer && e.package ≠ s.packageNo.toNat

/-- Items by bytes, a copy's units of access (06 R162); those of 4-bit elements stay as they are. -/
def byteItems (items : List Item) : List Item :=
  items.flatMap (fun it =>
    let n := it.dst.1.esize
    if n = 4 || it.dst.2.outside then [it]
    else
      (List.range (n / 8)).map (fun i =>
        { src := it.src.map (fun p => (asBytes p.1, if p.2.outside then p.2 else byteElem p.2.addr i))
          value := it.value / 2 ^ (8 * i) % 256
          dst := (asBytes it.dst.1, byteElem it.dst.2.addr i) }))

/-- The items of a copy; what another package's slice holds is a free value. -/
def copyItems (s : State) (y : Copy) : List Item :=
  let a := entOf y.src
  let b := entOf y.dst
  let ps := copyPairs a b y.sc.toNat y.dc.toNat
  byteItems (if s.foreign a then
      ((List.range ps.length).zip ps).map (fun p =>
        { src := none, value := (Config.freeBits (s.freeCtr * 2 ^ 64 + p.1) a.esize).toNat, dst := (b, p.2.2) })
    else ps.map (fun p => { src := some (a, p.1), dst := (b, p.2) }))

/-- A slice of this package outside the node's placement (R117). A peer entry that names this package is not held to it. -/
def strayed (s : State) (core : Nat) (e : Ent) : Bool := e.space = 1 && !e.peer && !s.inPlacement core e.target

/-- A byte, or half of one, for another package's slice: the element, its bits, and whether a bad word gave it. -/
structure PeerElem where
  elem : Elem
  bits : Nat
  poison : Bool
  deriving DecidableEq, Repr

/-- How a copy's accesses come out: everything moved, or stopped before item `k` with a class. -/
inductive CopyEnd where
  | all (a : Acc) (outs : List PeerElem)
  | stopped (a : Acc) (outs : List PeerElem) (k : Nat) (cls : BitVec 8)

/-- The values of a copy to another package's slice, in order (log 52). -/
def readOut (who : Who) : List Item → Nat → Acc → List PeerElem → CopyEnd
  | [], _, a, outs => .all a outs
  | it :: t, k, a, outs =>
    if (match it.src with | some (e, x) => x.past e | none => false) || it.dst.2.past it.dst.1 then .stopped a outs k 0x0B
    else
      match itemValue who it a with
      | (a, .error f) => .stopped a outs k f.cls
      | (a, .ok (v, p)) => readOut who t (k + 1) a (outs ++ [{ elem := it.dst.2, bits := v, poison := p }])

/-- A copy to host memory stops at a poisoned word (18 R369). -/
def poisonAt (who : Who) (items : List Item) (a : Acc) : Option Nat :=
  (List.range items.length).find? (fun k =>
    match items[k]? with
    | some it => match itemValue who it a with | (_, .ok (_, b)) => b && !it.dst.2.outside | _ => false
    | none => false)

/-- The places of the mesh that a copy's engine reaches: its homes, slices, the host link or its fabric port (01 R21). -/
def copyPlaces (s : State) (core : Nat) (y : Copy) : List Place :=
  let places (e : Ent) (xs : List Elem) : List Place :=
    if s.foreign e then [fabricPlace (s.portOf y)]
    else if e.space = 1 then [corePlace e.target]
    else if e.space = 0 then [corePlace core]
    else s.entPlaces core e xs
  let ps := copyPairs (entOf y.src) (entOf y.dst) y.sc.toNat y.dc.toNat
  places (entOf y.src) (ps.map (fun p => p.1)) ++ places (entOf y.dst) (ps.map (fun p => p.2))

/-- The row of a failed mesh link on a copy's way; a failed fabric port on it (18 R374). -/
def copyCut (s : State) (core : Nat) (y : Copy) : Option Nat := if s.down = [] then none else s.cutRow (enginePlace (quadOf core)) (s.copyPlaces core y)
def copyPortDown (s : State) (y : Copy) : Bool :=
  s.down ≠ [] && (s.foreign (entOf y.src) || s.foreign (entOf y.dst)) && s.down.contains (.fabric (BitVec.ofNat 5 (s.portOf y)))

/-- The accesses of a copy from where it stands up to item `lim` (log 6). -/
def runCopy (s : State) (core : Nat) (y : Copy) (items : List Item) (lim : Nat) : CopyEnd :=
  let who := copyWho core y
  let b := entOf y.dst
  let todo := (items.take lim).drop y.done
  let a := { Acc.start s core with race := true }
  if s.strayed core (entOf y.src) || s.strayed core b then .stopped a [] 0 0x0B
  else if s.copyPortDown y then .stopped a [] y.done 0x0F
  else if s.foreign b then readOut who todo y.done a []
  else
    let cut := if b.space = 4 then poisonAt who todo a else none
    match moveItems who (match cut with | some k => todo.take k | none => todo) y.done a 0 with
    | .all a _ k => match cut with | some _ => .stopped a [] k 0x0E | none => .all a []
    | .blocked a _ k f => .stopped a [] k f.cls
    | .past a _ k _ => .stopped a [] k 0x0B
    | .bad a _ k _ _ => .stopped a [] k 0x0F

/-- What a copy sends of one byte of a peer's slice: the value, which halves (1 low, 2 high), and whether it is poisoned. -/
abbrev PeerByte := Nat × Nat × Bool

/-- The bytes for another package's slice, by offset. -/
def peerBytes (b : Ent) (outs : List PeerElem) : Tab PeerByte :=
  outs.foldl (fun (t : Tab PeerByte) p =>
    if p.elem.outside then t
    else
      let o := b.permute p.elem.addr
      if b.esize = 4 then
        let (v, h, q) := t.get (0, 0, false) o
        Tab.ins t o (if p.elem.high then (v % 16 + p.bits % 16 * 16, h / 2 * 2 + h % 2 + (if h < 2 then 2 else 0), q || p.poison)
          else (v / 16 * 16 + p.bits % 16, h / 2 * 2 + 1, q || p.poison))
      else Tab.ins t o (p.bits % 256, 3, p.poison)) []

/-- The runs that leave as one write each: whole bytes of one 512-byte line, all poisoned or none; half a byte alone. -/
structure PeerRun where
  offset : Nat
  bytes : List Byte
  halves : Nat
  poison : Bool
  deriving DecidableEq, Repr

def peerRuns (b : Ent) (outs : List PeerElem) : List PeerRun :=
  (peerBytes b outs).foldr (fun (e : Nat × PeerByte) (acc : List PeerRun) =>
    let (o, v, h, p) := e
    match acc with
    | r :: rest =>
      if o + 1 = r.offset && o / 512 = r.offset / 512 && h = 3 && r.halves = 3 && r.poison = p then
        { r with offset := o, bytes := BitVec.ofNat 8 v :: r.bytes } :: rest
      else { offset := o, bytes := [BitVec.ofNat 8 v], halves := h, poison := p } :: acc
    | [] => [{ offset := o, bytes := [BitVec.ofNat 8 v], halves := h, poison := p }]) []

/-- A copy's bytes leave for a peer package (R130): each run in turn, the tag with the last run of a line that is `whole`;
poisoned words go as poisoned ones, and are counted (18 R369, R372). -/
def sendPeer (s : State) (core : Nat) (y : Copy) (outs : List PeerElem) (whole : Nat → Bool) : State :=
  let b := entOf y.dst
  let runs := peerRuns b outs
  let spread := (((runs.filter (fun r => r.poison)).flatMap (fun r => (List.range r.bytes.length).map (fun i => (r.offset + i) / 16))).foldl
    (fun (acc : List Nat) k => if acc.contains k then acc else k :: acc) []).length
  let s := ((List.range runs.length).zip runs).foldl (fun s p =>
    let lastOfLine := !(runs.drop (p.1 + 1)).any (fun r => r.offset / 512 = p.2.offset / 512)
    let tag := if b.tagged && lastOfLine && whole (p.2.offset / 512) then some (b.expect y.frame) else none
    let half := match p.2.halves with | 1 => some false | 2 => some true | _ => none
    s.emit (.peerWrite (BitVec.ofNat 13 b.package) (BitVec.ofNat 8 b.target) p.2.offset p.2.bytes half tag p.2.poison)) s
  if spread = 0 then s
  else s.modCore core (fun c => { c with mflog := { c.mflog with spread := satNat 32 (c.mflog.spread.toNat + spread) } })

/-- The copy of a core that has number `n`. -/
def copyAt (s : State) (core n : Nat) : Option Copy := (s.coreAt core).cu.copies.find? (fun y => y.n = n)

/-- A copy as it now stands. -/
def setCopy (s : State) (core : Nat) (y : Copy) : State :=
  s.modCore core (fun c => { c with cu := { c.cu with copies := c.cu.copies.map (fun (z : Copy) => if z.n = y.n then y else z) } })

/-- Every observer sees a copy's writes from its completion on (06 R165). -/
def closeCopy (s : State) (core : Nat) (y : Copy) : State :=
  if s.mem.recent = [] then s
  else s.modMem (fun m => { m with recent := m.recent.map (fun r =>
    if r.seen.head? = some (copyWho core y).mark then { r with until_ := 0 } else r) })

/-- A copy is over: its status, and its give at the end of the cycle, which its writes happen before (R130, R131, R377, 06
R163). -/
def endCopy (s : State) (core : Nat) (y : Copy) (st : CopySt) : State :=
  let s := s.closeCopy core y
  let past := s.knownBy (copyWho core y)
  (s.setCopy core { y with st := st, cancel := false }).modCore core (fun c => c.addToken { giveCopy y with past := past })

/-- The byte of the destination that an item writes. -/
def itemByte (it : Item) : Nat := it.dst.1.permute it.dst.2.addr

/-- Lines of a slice that some items complete: every byte of theirs is written once those are. -/
def doneLines (done rest : List Item) : List Nat :=
  let lines (l : List Item) : List Nat := (l.filter (fun it => !it.dst.2.outside)).map (fun it => itemByte it / 512)
  let keep := lines rest
  ((lines done).foldl (fun acc l => if acc.contains l then acc else acc ++ [l]) []).filter (fun l => !keep.contains l)

/-- The bytes that a copy has written, by `a` or in `outs` for another package, take effect with the tags of the lines
that they complete: `done` and `rest` are the items written now, and those still to come. Other observers may see them
until `bound` cycles later. -/
def settleCopy (s : State) (core : Nat) (y : Copy) (a : Acc) (outs : List PeerElem) (done rest : List Item) (bound : Nat) : State :=
  let b := entOf y.dst
  let who := copyWho core y
  let t := a.commitAs who bound 5 (quadOf core)
  let lines := if b.tagged && b.space < 3 then doneLines done rest else []
  if s.foreign b then t.sendPeer core y outs (fun l => lines.contains l)
  else if lines = [] then t
  else t.setTagsAs who (b.sliceOf core) (b.expect y.frame) lines 0

/-- Bytes of a failed copy's destination from item `k` on are undefined: a free value each, where they can be written at all
(R377) (log 47). A destination outside the placement, which R117 forbids, is not written (00 R10). -/
def undefinedRest (s : State) (core : Nat) (y : Copy) (items : List Item) (k : Nat) : State :=
  let b := entOf y.dst
  if s.foreign b || s.strayed core b then s
  else
    let rest := ((List.range items.length).zip items).drop k
    let a := rest.foldl (fun (a : Acc) p =>
      let junk : Item := { src := none, value := (Config.freeBits (s.freeCtr * 2 ^ 64 + p.1) p.2.dst.1.esize).toNat, dst := p.2.dst }
      match moveItems (copyWho core y) [junk] 0 a 0 with | .all c _ _ => c | _ => a) (Acc.start s core)
    a.commitAs (copyWho core y) 0 5 (quadOf core)

/-- A copy fails before item `k`: what came before is written, the rest undefined, and its give is added (R377). -/
def failCopy (s : State) (core : Nat) (y : Copy) (items : List Item) (a : Acc) (outs : List PeerElem) (k : Nat) (cls : BitVec 8) : State :=
  ((s.settleCopy core y a outs ((items.take k).drop y.done) (items.drop k) 0).undefinedRest core y items k).endCopy core { y with done := k } (.failed cls)

/-- Copies of a quad that its engine works on. -/
def runningCopies (s : State) (q : Nat) : Nat :=
  ((groupCores 1 q).map (fun c => ((s.coreAt c).cu.copies.filter (fun y => y.st = .running)).length)).sum

/-- The next copy of a quad: the first received that is queued and not suspended. -/
def nextCopy (s : State) (q : Nat) : Option (Nat × Copy) :=
  let all := (groupCores 1 q).flatMap (fun c => ((s.coreAt c).cu.copies.filter (fun y => y.st = .queued && !y.suspended)).map (fun y => (c, y)))
  (sortBy (fun (a b : Nat × Copy) => a.2.id ≤ b.2.id) all).head?

end State

/-- A quad's engine takes its next copy; it works on up to eight at once (R128). -/
def execCopyStart (s : State) : Out1 :=
  let q := s.cur.n
  match s.nextCopy q with
  | none => .next s
  | some (c, y) =>
    .next (if s.runningCopies q < 8 then
        s.modCore c (fun k => { k with cu := { k.cu with copies := k.cu.copies.map (fun (z : Copy) => if z.n = y.n then { z with st := .running } else z) } })
      else s)

/-- A running copy's last write is visible and its give is added (R130). A copy that would fail waits for that event, and
one whose mesh traffic a failed link holds ends in MCHECK at its core (18 R374). -/
def execCopyComplete (s : State) : Out1 :=
  match s.copyAt s.here s.cur.n with
  | none => .next s
  | some y =>
    if y.st ≠ .running || y.suspended || y.cancel then .next s
    else
      match s.copyCut s.here y with
      | some row => .next (s.machineCheck s.here .w .uncorrectable 4 row 0)
      | none =>
        let items := s.copyItems y
        match s.runCopy s.here y items items.length with
        | .all a outs =>
          .next ((s.settleCopy s.here y a outs (items.drop y.done) [] 0).endCopy s.here { y with done := items.length } .done)
        | .stopped _ _ _ _ => .next s

/-- A copy meets a fault: earlier bytes are written, the rest are undefined, the status is 5 with the class, and the give
is added (18 R377) (log 47). -/
def execCopyFailure (s : State) : Out1 :=
  match s.copyAt s.here s.cur.n with
  | none => .next s
  | some y =>
    if y.st ≠ .running || y.suspended || (s.copyCut s.here y).isSome then .next s
    else
      let items := s.copyItems y
      match s.runCopy s.here y items items.length with
      | .all _ _ => .next s
      | .stopped a outs k cls => .next (s.failCopy s.here y items a outs k cls)

namespace State

/-- A running copy writes its bytes before item `k` ahead of its completion (06 R165) (log 6). -/
def partCopy (s : State) (core : Nat) (y : Copy) (k : Nat) : State :=
  let items := s.copyItems y
  let lockstepped := match s.nodeOn core with | some (_, v) => lockstep v | none => false
  if y.st ≠ .running || y.suspended || y.cancel || lockstepped || s.foreign (entOf y.dst) || k ≤ y.done || items.length ≤ k ||
      (s.copyCut core y).isSome || meetKeys (((items.take k).drop y.done).map itemByte) ((items.drop k).map itemByte) then s
  else
    match s.runCopy core y items k with
    | .all a outs => (s.settleCopy core y a outs ((items.take k).drop y.done) (items.drop k) (2 ^ 40)).setCopy core { y with
        done := k, mid := match items[k - 1]?, items[k]? with | some a, some b => itemByte a / 256 = itemByte b / 256 | _, _ => false }
    | .stopped _ _ _ _ => s

/-- A copy cancelled at its acknowledgement: a queued one before it writes, a running one with each byte of its range old
or new (R131). -/
def cancelCopy (s : State) (core : Nat) (y : Copy) : State :=
  match y.st with
  | .queued => s.endCopy core y .cancelled
  | .running =>
    let items := s.copyItems y
    let rest := items.drop y.done
    let kept := rest.filter (fun it => Config.copyByteWritten s.freeCtr (itemByte it))
    let lost := rest.filter (fun it => !Config.copyByteWritten s.freeCtr (itemByte it))
    let z := { y with done := 0 }
    match s.runCopy core z kept kept.length with
    | .all a outs => (s.settleCopy core y a outs kept lost 0).endCopy core y .cancelled
    | .stopped a outs k _ => (s.settleCopy core y a outs (kept.take k) (kept.drop k ++ lost) 0).endCopy core y .cancelled
  | _ => s

/-- The copy of a handle. -/
def handleCopy (s : State) (core handle : Nat) : Option Copy :=
  (s.coreAt core).cu.copies.find? (fun y => y.home.toNat = handle / 2 ^ 24 && y.n % 2 ^ 24 = handle % 2 ^ 24)

/-- The copy that a BCAN in flight names: one of the last 1,024 of its core (R129, R131). -/
def namedCopy (s : State) (core handle : Nat) : Option Copy :=
  (s.handleCopy core handle).filter (fun y => (s.coreAt core).cu.copyCount < y.n + 1025)

/-- The request of a BCAN reaches the engine (R131, R240): a running copy stops its writes, and what is cancelled or over
already, or no copy of the core, is acknowledged at once. -/
def cancelArrives (s : State) (core : Nat) (f : Flight) : State :=
  if f.applied || (s.regionAt (s.regionOf core)).gated then s
  else if let some t := s.cutFlight core f then t
  else
    match s.namedCopy core (fieldOf f.par 31 0) with
    | none => s.landed core f
    | some y =>
      if y.st = .running then (s.setCopy core { y with cancel := true }).setFlight core { f with applied := true }
      else (s.cancelCopy core y).landed core f

/-- The BCANs in flight that wait for the acknowledgement of a copy land with it (R131, R240). -/
def landCancels (s : State) (core : Nat) (y : Copy) : State :=
  ((s.coreAt core).cu.flights.filter (fun f =>
    (match f.word with | .bcan _ => true | _ => false) && f.applied && (s.handleCopy core (fieldOf f.par 31 0)).map (fun z => z.n) = some y.n)).foldl
    (fun s f => s.landed core f) s

/-- A part of the accesses of a word in flight, of a load inside its bound, or of a running copy; of a BCAN, its request
reaches the engine (log 6). -/
def performPart (s : State) (core id k : Nat) : State :=
  match (s.coreAt core).cu.copies.find? (fun y => y.id = id), (s.coreAt core).cu.flights.find? (fun f => f.id = id) with
  | some y, _ => s.partCopy core y k
  | none, some f => if (match f.word with | .bcan _ => true | _ => false) then s.cancelArrives core f else s.partWord core id k
  | none, none => s.partWord core id k

end State

/-- A cancel is acknowledged: that of the copy that a BCAN in flight names, or of one that a stop cancels (slot S in the
cursor, with the copy's number). The copy's give and BCAN's give are added (R131, R240). -/
def execBcanAck (s : State) : Out1 :=
  let core := s.here
  if s.slotHere = .s then
    match s.copyAt core s.cur.n with
    | some y => .next (if y.cancel then (s.cancelCopy core y).landCancels core y else s)
    | none => .next s
  else
    match s.flightHere with
    | none => .next s
    | some f =>
      match f.word with
      | .bcan _ =>
        let s := s.cancelArrives core f
        if (s.regionAt (s.regionOf core)).gated then .next s
        else
          match s.flightHere, s.handleCopy core (fieldOf f.par 31 0) with
          | some _, some y => .next ((s.cancelCopy core y).landCancels core y)
          | some f, none => .next (s.landed core f)
          | none, _ => .next s
      | _ => .next s

/-- A copy of a peer package writes a slice of this one, sets a tag and meets the slice's watchpoints (R130, 18 R379). Words
that come poisoned are poisoned here (18 R369). -/
def execPeerCopyWrite (package : BitVec 13) (core : BitVec 8) (offset : BitVec 21) (bytes : List Byte) (how : PeerHow)
    (s : State) : Out1 :=
  let c := core.toNat
  let bs := bytes.take (sliceBytes - offset.toNat)
  let value (k : Nat) (b : Byte) : Byte :=
    match how.half with
    | none => b
    | some true => b &&& 0xF0#8 ||| s.mem.byte k &&& 0x0F#8
    | some false => b &&& 0x0F#8 ||| s.mem.byte k &&& 0xF0#8
  let ws := (List.range bs.length).map (fun i => (sliceKey c (offset.toNat + i), value (sliceKey c (offset.toNat + i)) (bs.getD i 0)))
  if !s.started then .next s else
  let s := (s.modMem (fun m => m.put ws)).watchSlice 7 package.toNat true (ws.map (fun w => w.1))
  let s := if how.poison then s.poisonWords (ws.map (fun w => w.1)) else s
  .next (match how.tag with
    | some x => s.setTags c x ((List.range ((offset.toNat + bs.length + 511) / 512 - offset.toNat / 512)).map (fun l => offset.toNat / 512 + l))
    | none => s)

/-! ## Page walks -/

/-- The first walk of quad `n` finishes and its translation is cached (R124). A full cache drops the translation that was
cached first, and a hit keeps its place (the model's choice, log 59). -/
def execWalkComplete (s : State) : Out1 :=
  let q := s.cur.n
  .next (s.modQuad q (fun v =>
    match v.walks with
    | [] => v
    | t :: rest => { v with walks := rest, cache := (t :: v.cache).take 2048 }))

/-- An invalidation of partition `n` has reached every interface and walker (R124). -/
def execPartInvComplete (s : State) : Out1 :=
  let p := s.cur.n
  if !(s.partAt p).busy then .next s
  else
    let out (l : List Trans) : List Trans := l.filter (fun t => t.part.toNat ≠ p)
    let s := { s with quads := s.quads.map (fun (e : Nat × Quad) =>
      let v : Quad := e.2
      (e.1, { v with cache := out v.cache, walks := out v.walks })) }
    .next (s.modPart p (fun v => { v with busy := false }))

end Sys2Proof.Machine
end

