-- ==== Sys2Proof/Machine/Host.lean ====
section
/-! DEFINITION. Host messages that launch, stop and feed nodes: LAUNCH, QUEUE_CTL, NODE_RESUME, NODE_ABORT, TOKEN_ADD
(01 R31 to R35, 03 R74, 18 R376, 19 R396). -/

namespace Sys2Proof.Machine

namespace State

/-- The code of the lifecycle state (12 R307). -/
def lifecycle (s : State) : Nat :=
  if s.island.burned1 then 4 else if s.island.unlocked then 3 else if s.island.burned0 then 2 else 1

/-- Boot has ended (12 R310). -/
def booted (s : State) : Bool := s.island.boot = 5

/-- A node has no final fate. -/
def open_ (v : Node) : Bool := match v.st with | .ended _ => false | _ => true

/-- A node has never been dispatched. -/
def neverRan (v : Node) : Bool := v.dispatched = 0 && v.rollbacks = 0 && v.stops = 0

/-- Nodes without a final fate that satisfy a test. -/
def openNodes (s : State) (p : Node → Bool) : List (Nat × Node) :=
  s.nodes.filterMap (fun e => match e.2 with | some v => if open_ v && p v then some (e.1, v) else none | none => none)

/-- A node ends ABORTED now, its stop recorded and its undispatched children withdrawn (19 R384). -/
def abortNode (s : State) (n : Nat) : State :=
  match s.nodeAt n with
  | none => s
  | some v =>
    match v.st with
    | .ending _ _ | .ended _ => s
    | .running | .stopping _ => (((s.recordStop n v .abort).withdrawChildren n).endNode n v .aborted 0)
    | _ => (s.withdrawChildren n).endNode n v .aborted 0

end State

/-- LAUNCH (R74): the checks of R33, then the reasons of R74 in their order; an accepted record is journaled and waits
in its queue. A primary forwards a lockstep record to its partner (19 R398) (log 25). -/
def execLaunch (m : HostMsg) (s : State) : Out1 :=
  let q := m.arg.toNat
  if m.payload.length ≠ 128 || 64 ≤ q then .next (s.refuse m 0x21)
  else if !s.booted || s.lifecycle = 4 then .next (s.refuse m 0x23)
  else
    let r := recordOf m.payload
    if !s.queueOpen q then .next (s.refuse m 2)
    else if (s.queueAt q).capacity.toNat ≤ s.queueUse q then .next (s.refuse m 1)
    else if s.recordReason r ≠ 0 then .next (s.refuse m (s.recordReason r))
    else if s.journalFull then .next (s.refuse m 8)
    else
      let (t, n) := s.addNode r q 1 0 id
      let t := t.accept m (leBytes 8 n)
      .next (if bitOf (recD r 8) 4 then t.emit (.pairLaunch n (BitVec.ofNat 6 q) m.payload) else t)

/-! ## QUEUE_CTL (19 R396) -/

namespace State

/-- What an ABORT teardown does to one node: never dispatched, stopped and held nodes end ABORTED; one on its quads is
stopped first. -/
def tearAbort (s : State) (n : Nat) (v : Node) : State :=
  match v.st with
  | .placed | .running | .stopping _ | .resuming =>
    s.modNode n (fun w => { w with st := .stopping .abort, noRequeue := true, points := [] })
  | _ => s.abortNode n

/-- What a DRAIN teardown does to one node: a record never dispatched is discarded. -/
def tearDrain (s : State) (n : Nat) (v : Node) : State :=
  if neverRan v && v.st = .waiting then s.abortNode n else s

/-- QUEUE_CTL with an operation: 1 DRAIN, 2 ABORT. -/
def queueCtl (s : State) (m : HostMsg) : State :=
  let q := m.arg.toNat % 64
  let op := queueOp m
  let nodes := s.openNodes (fun v => v.queue.toNat = q)
  if m.payload ≠ [] || bitsOf m.arg.toNat 7 6 ≠ 0 || 1024 ≤ m.arg.toNat || op = 0 || op = 3 then s.refuse m 0x21
  else if (s.queueAt q).teardown.isSome || (!(s.queueAt q).isOpen && nodes = []) then s.refuse m 0x23
  else if s.journalFull then s.refuse m 8
  else
    let (t, k) := s.journalAdd { kind := 3, queue := BitVec.ofNat 6 q }
    let t := t.accept m (leBytes 8 k)
    let down : Teardown := { seq := k, abort := op = 2, nodes := nodes.map (fun p => p.1) }
    let t := t.modQueue q (fun v => { v with isOpen := false, teardown := some down })
    -- records never dispatched first: a child in the pool has its own fate before its parent's stop would withdraw it
    let order := nodes.filter (fun p => neverRan p.2) ++ nodes.filter (fun p => !neverRan p.2)
    order.foldl (fun t p => if op = 2 then t.tearAbort p.1 p.2 else t.tearDrain p.1 p.2) t

end State

def execQueueCtlDrain (m : HostMsg) (s : State) : Out1 := .next (s.queueCtl m)
def execQueueCtlAbort (m : HostMsg) (s : State) : Out1 := .next (s.queueCtl m)

/-! ## Held nodes (18 R376) -/

/-- Where a node stands. -/
def State.nodeSt (s : State) (n : Nat) : Option NodeSt := (s.nodeAt n).map (fun v => v.st)

/-- A node is held after a translation or permission fault and no NODE_RESUME of it is under way. -/
def State.isHeld (s : State) (n : Nat) : Bool :=
  match s.nodeAt n with
  | some v => v.st = .held || (v.st = .holding && !s.resumeAsked n)
  | none => false

/-- NODE_RESUME: a held node returns to the ready set, once its context is saved (log 31, 32). Of the host's messages only LAUNCH
and security commands are refused before boot has ended, as 12 R308 and R310 say; 01 R33 names no type (the model's choice,
log 25). -/
def execNodeResume (m : HostMsg) (s : State) : Out1 :=
  let n := m.arg.toNat
  if m.payload ≠ [] then .next (s.refuse m 0x21)
  else if !s.isHeld n then .next (s.refuse m 0x25)
  else if s.journalFull then .next (s.refuse m 8)
  else
    let (t, k) := s.journalAdd { kind := 5, origin := n }
    let t := t.accept m (leBytes 8 k)
    .next (if t.nodeSt n = some .held then t.releaseHeld n else t)

/-- NODE_ABORT: a held node completes ABORTED (log 32). -/
def execNodeAbort (m : HostMsg) (s : State) : Out1 :=
  let n := m.arg.toNat
  if m.payload ≠ [] then .next (s.refuse m 0x21)
  else if !s.isHeld n then .next (s.refuse m 0x25)
  else if s.journalFull then .next (s.refuse m 8)
  else
    let (t, k) := s.journalAdd { kind := 6, origin := n }
    .next ((t.accept m (leBytes 8 k)).abortNode n)

/-! ## TOKEN_ADD (01 R34) -/

/-- A node runs, as TOKEN_ADD asks: its cores have started and it has not stopped (log 33). -/
def State.takesTokens (s : State) (n : Nat) : Bool :=
  match s.nodeAt n with
  | some v => (match v.st with | .running | .stopping _ => v.quads ≠ [] && v.dispatched ≠ 0 | _ => false)
  | none => false

def execTokenAdd (m : HostMsg) (s : State) : Out1 :=
  let n := m.arg.toNat
  let v := leNat m.payload
  if m.payload.length ≠ 8 || bitsOf v 31 21 ≠ 0 || bitsOf v 63 48 ≠ 0 || bitsOf v 47 32 = 0 then .next (s.refuse m 0x21)
  else if !s.takesTokens n then .next (s.refuse m 0x25)
  else
    let cores := match s.nodeAt n with | some w => State.nodeCores w | none => []
    if cores.length ≤ v % 2 ^ 16 then .next (s.refuse m 0x21)
    else
      let a : HostAdd :=
        { node := n, rank := v % 2 ^ 16, counter := BitVec.ofNat 5 (bitsOf v 20 16), amount := bitsOf v 47 32, payload := m.payload }
      let t := s.accept m []
      .next { t with host := { t.host with adds := t.host.adds ++ [a] } }

/-- Host addition number `n` of those that wait is made at the end of a cycle, after the cycle's other additions, or is
lost: its node no longer runs, or the counter would pass 65,535 (R34) (log 33). -/
def execTokenAddApply (s : State) : Out1 :=
  match s.host.adds[s.cur.n]? with
  | none => .next s
  | some a =>
    let drop (s : State) : State := { s with host := { s.host with adds := s.host.adds.eraseIdx s.cur.n } }
    if !s.takesTokens a.node then .next ((drop s).tokenLost a)
    else
      let cores := match s.nodeAt a.node with | some v => State.nodeCores v | none => []
      let c := cores.getD a.rank 0
      let k := s.coreAt c
      if k.adds ≠ [] then .next s
      else if 65535 < k.tk a.counter + a.amount then .next ((drop s).tokenLost a)
      else .next ((drop s).modCore c (fun k => k.setTk a.counter (k.tk a.counter + a.amount)))

end Sys2Proof.Machine
end

