-- ==== Sys2Proof/Machine/Island.lean ====
section
/-! DEFINITION. The security island: its commands, boot and measurement, quotes, tenant keys, debug unlock and retirement
(12 R306 to R316). -/

namespace Sys2Proof.Machine

namespace State

def modIsland (s : State) (f : Island → Island) : State := { s with island := f s.island }

/-! ## Acceptance (R308, 01 R33) -/

/-- Bytes of an ML-DSA-87 signature and the signer's public key behind an image or a token (R309, R314). -/
def signedTail : Nat := 4627 + 2592

/-- Bytes that a security command carries, before padding; an image says its own payload length (R308, R309) (log 27). -/
def secBytes (code : Nat) (data : List Byte) : Nat :=
  match code with
  | 1 => 64 + leNat ((data.drop 12).take 4) + signedTail
  | 3 => 65
  | 4 => 65
  | 5 => 1641
  | 6 => 1
  | 8 => 128 + signedTail
  | 10 => 128 + signedTail
  | _ => 0

/-- Fields of the data that have a range of their own: the partition, the slot, the padding (R308, R310) (log 27). -/
def secFieldsOk (code : Nat) (data : List Byte) : Bool :=
  let byteAt (i : Nat) : Nat := (data.getD i 0).toNat
  (data.drop (secBytes code data)).all (fun b => b = 0) &&
    (match code with
     | 3 => byteAt 64 < 16
     | 4 => 5 ≤ byteAt 0 && byteAt 0 ≤ 7
     | 5 | 6 => byteAt 0 < 16
     | _ => true)

/-- A node of partition `p` is running or waits in a launch queue (R313). -/
def partOccupied (s : State) (p : Nat) : Bool :=
  (s.openNodes (fun v => v.part.toNat = p && (holdsQuads v || (v.st = .waiting && v.inQueue)))) ≠ []

/-- A command is not allowed now: boot, the lifecycle, or the command's own rule (R308, R313, R316) (log 28). -/
def secBarred (s : State) (code : Nat) (data : List Byte) : Bool :=
  let life := s.lifecycle
  (life = 4 && code ≠ 2) || (!s.booted && life ≠ 4 && 3 < code) ||
    (code = 5 && (life ≠ 2 || s.partOccupied (data.getD 0 0).toNat)) || (code = 9 && life ≠ 1)

/-- A security command: refused, or held by the island under a new ticket. Until boot ends there is no journal, and a
command has no accession number (log 24). -/
def secAccept (s : State) (m : HostMsg) (code : Nat) : State :=
  let d := m.payload
  if 256 ≤ m.arg.toNat || d.length ≠ alignUp (secBytes code d) 8 || 8192 < d.length || !secFieldsOk code d then s.refuse m 0x21
  else if s.secBarred code d then s.refuse m 0x23
  else if 8 ≤ s.island.cmds.length then s.refuse m 0x22
  else if s.booted && s.journalFull then s.refuse m 8
  else
    let (t, k) : State × Nat := if s.booted then s.journalAdd { kind := 4 } else (s, 0)
    let n := t.island.tickets + 1
    let t := t.accept m (leBytes 8 k ++ leBytes 4 n ++ leBytes 4 0)
    t.modIsland (fun i => { i with tickets := n, cmds := i.cmds ++ [{ seq := k, ticket := n, code := code, data := d }] })

end State

def execSecLoad (m : HostMsg) (s : State) : Out1 := .next (s.secAccept m 1)
def execSecGetid (m : HostMsg) (s : State) : Out1 := .next (s.secAccept m 2)
def execSecQuote (m : HostMsg) (s : State) : Out1 := .next (s.secAccept m 3)
def execSecExtend (m : HostMsg) (s : State) : Out1 := .next (s.secAccept m 4)
def execSecKeyset (m : HostMsg) (s : State) : Out1 := .next (s.secAccept m 5)
def execSecKeydel (m : HostMsg) (s : State) : Out1 := .next (s.secAccept m 6)
def execSecChal (m : HostMsg) (s : State) : Out1 := .next (s.secAccept m 7)
def execSecUnlock (m : HostMsg) (s : State) : Out1 := .next (s.secAccept m 8)
def execSecSecure (m : HostMsg) (s : State) : Out1 := .next (s.secAccept m 9)
def execSecRetire (m : HostMsg) (s : State) : Out1 := .next (s.secAccept m 10)

/-! ## Measurement and identity (R310, R311) -/

namespace State

/-- SHA3-512 as 64 bytes. -/
def hash64 (bs : List Byte) : List Byte := bytesOf 64 (Config.sha3 bs)

/-- slot i := SHA3-512(slot i, d) (R310). -/
def extend (s : State) (i : Nat) (d : List Byte) : State :=
  s.modIsland (fun w => { w with slots := w.slots.ins i (Config.sha3 (bytesOf 64 (w.slots.get 0 i) ++ d)) })

/-- The ROM's boot step, the first of R310: its image and that of the fuses, by their lifecycle bits (log 26). -/
def romStep (s : State) : State :=
  if s.island.boot = 0 then
    (s.extend 0 (hash64 (Config.romImage ++ Config.fuseImage s.island.burned0 s.island.burned1))).modIsland (fun w => { w with boot := 1 }) else s

/-- The two seeds derived from the identity seed: of the ML-DSA-87 pair and of the ML-KEM-1024 pair (R311). -/
def signSeed (x : BitVec 256) : BitVec 256 := (Config.sha3 (bytesOf 32 x ++ [1])).setWidth 256
def kemSeed (x : BitVec 256) : BitVec 512 := Config.sha3 (bytesOf 32 x ++ [2])

/-- The identity seed, while it is not erased. -/
def seed (s : State) : Option (BitVec 256) := if s.island.seedErased then none else some Config.identitySeed

/-- The device identifier (R311); without the seed no rule gives its value (log 29). -/
def deviceId (s : State) : List Byte :=
  match s.seed with
  | some x => (hash64 (bytesOf 2592 (Config.mlDsaPublic (signSeed x)))).take 16
  | none => bytesOf 16 (Config.freeBits s.freeCtr 128)

/-! ## The commands -/

/-- What a command answers: the state, the status, the data returned. -/
structure SecEnd where
  s : State
  status : Nat
  data : List Byte := []

/-- The parts of a firmware image (R309). -/
def imageBody (d : List Byte) : List Byte := d.take (64 + leNat ((d.drop 12).take 4))

/-- A signed text is accepted: the signer's key has the fused hash and the signature verifies (R309, R314). -/
def signedBy (hash : BitVec 512) (body rest : List Byte) : Bool :=
  let sig := rest.take 4627
  let key := (rest.drop 4627).take 2592
  Config.sha3 key = hash && Config.mlDsaVerify key body sig

/-- An image that the island accepts for a boot step (R309). -/
def imageOk (d : List Byte) (kind minimum : Nat) : Bool :=
  let body := imageBody d
  leNat (d.take 4) = 0x52594657 && leNat ((d.drop 4).take 4) = kind && minimum ≤ leNat ((d.drop 8).take 4) &&
    ((d.drop 16).take 48).all (fun b => b = 0) && signedBy Config.vendorKeyHash body (d.drop body.length)

/-- SEC_LOAD: the image that the boot step expects is measured and run; after device firmware, slot 3 is extended and
boot ends (R310). -/
def secLoad (s : State) (d : List Byte) : SecEnd :=
  let version : BitVec 32 := BitVec.ofNat 32 (leNat ((d.drop 8).take 4))
  if s.island.boot = 1 && imageOk d 1 Config.minVersionIsland.toNat then
    { s := (s.extend 1 (hash64 (imageBody d))).modIsland (fun w => { w with boot := 2, version1 := version }), status := 0 }
  else if s.island.boot = 2 && imageOk d 2 Config.minVersionDevice.toNat then
    let t := s.extend 2 (hash64 (imageBody d))
    let t := t.extend 3 (hash64 (leBytes 1 t.lifecycle ++ leBytes 4 t.island.unlocks))
    { s := t.modIsland (fun w => { w with boot := 5, version2 := version }), status := 0 }
  else { s := s, status := 3 }

/-- SEC_GETID: identifier, lifecycle, public keys, certificate, readable fuses, in this order; a RETIRED device returns no
public key (R308, R316) (log 27). -/
def secGetid (s : State) : SecEnd :=
  let keys := match s.seed with | some x => bytesOf 2592 (Config.mlDsaPublic (signSeed x)) ++ bytesOf 1568 (Config.mlKemPublic (kemSeed x)) | none => []
  let fuses := bytesOf 64 Config.vendorKeyHash ++ bytesOf 64 Config.debugAuthHash ++ bytesOf 4 Config.minVersionIsland ++
    bytesOf 4 Config.minVersionDevice ++ leBytes 4 (b2n s.island.burned0 + 2 * b2n s.island.burned1)
  { s := s.fresh, status := 0, data := s.deviceId ++ leBytes 4 s.lifecycle ++ keys ++ Config.certificate ++ fuses }

/-- The 640-byte body of a quote (R312). -/
def quoteBody (s : State) (d : List Byte) : List Byte :=
  let held := ((List.range 16).map (fun p => if (s.partAt p).key.isSome then 2 ^ p else 0)).sum
  leBytes 4 1 ++ leBytes 4 s.lifecycle ++ s.deviceId ++ leBytes 8 s.now ++ bytesOf 4 s.island.version1 ++
    bytesOf 4 s.island.version2 ++ leBytes 4 s.island.unlocks ++ leBytes 4 (d.getD 64 0).toNat ++ d.take 64 ++
    (List.range 8).flatMap (fun i => bytesOf 64 (s.island.slots.get 0 i)) ++ leBytes 2 held ++ leBytes 14 0

/-- SEC_QUOTE: the body and its signature, 5,267 bytes in all (R312). -/
def secQuote (s : State) (d : List Byte) : SecEnd :=
  match s.seed with
  | some x => { s := s, status := 0, data := s.quoteBody d ++ bytesOf 4627 (Config.mlDsaSign (signSeed x) (s.quoteBody d)) }
  | none => { s := s, status := 1 }

def secExtend (s : State) (d : List Byte) : SecEnd :=
  { s := s.extend (d.getD 0 0).toNat ((d.drop 1).take 64), status := 0 }

/-- The key-binding value: 32 bytes of SHA3-512 of the key. No rule gives the value of a key that is not there (R313) (log 29). -/
def binding (s : State) (k : Option (BitVec 512)) : List Byte :=
  match k with
  | some v => (hash64 (bytesOf 64 v)).take 32
  | none => bytesOf 32 (Config.freeBits s.freeCtr 256)

/-- SEC_KEYSET: the unwrapped key is installed and slot 4 extended (R310, R313) (log 28). -/
def secKeyset (s : State) (d : List Byte) : SecEnd :=
  let p := (d.getD 0 0).toNat
  if s.lifecycle ≠ 2 || s.partOccupied p then { s := s, status := 1 }
  else
    match s.seed.bind (fun x => Config.unwrapKey (kemSeed x) ((d.drop 1).take 1568) ((d.drop 1569).take 72)) with
    | none => { s := s, status := 3 }
    | some k =>
      let t := s.modPart p (fun w => { w with key := some k })
      { s := t.extend 4 (hash64 (leBytes 1 p ++ t.binding (some k))), status := 0 }

def secKeydel (s : State) (d : List Byte) : SecEnd :=
  let p := (d.getD 0 0).toNat
  let t := s.extend 4 (hash64 (leBytes 1 p ++ s.binding (s.partAt p).key))
  { s := (t.modPart p (fun w => { w with key := none })).fresh, status := 0 }

/-- SEC_CHAL: a fresh challenge replaces the one before (R314). -/
def secChal (s : State) : SecEnd :=
  let c := Config.challenge s.freeCtr
  { s := (s.modIsland (fun w => { w with challenge := some c })).fresh, status := 0, data := bytesOf 32 c }

/-- A debug token that both SEC_UNLOCK and SEC_RETIRE accept: bound to this device, its lifecycle and the challenge (R314). -/
def tokenOk (s : State) (d : List Byte) : Bool :=
  leNat (d.take 4) = 0x52594454 && (d.drop 4).take 16 = s.deviceId && leNat ((d.drop 20).take 4) = s.lifecycle &&
    (match s.island.challenge with | some c => (d.drop 24).take 32 = bytesOf 32 c | none => false) &&
    ((d.drop 60).take 68).all (fun b => b = 0) && signedBy Config.debugAuthHash (d.take 128) (d.drop 128)

/-- The scope of a token. -/
def tokenScope (d : List Byte) : BitVec 32 := BitVec.ofNat 32 (leNat ((d.drop 56).take 4))

/-- One node of step 3, in order of acceptance: a dependant of a node that did not complete ends ABANDONED, another of the
partitions ABORTED, not re-queued, and its record is written and journaled before the step ends (R315, R316) (log 30). -/
def abortPart (s : State) (hit : Nat → Bool) (n : Nat) (v : Node) : State :=
  let orphan := v.st = .waiting && s.orphan n v
  if !open_ v || !(orphan || hit v.part.toNat) then s
  else ((if orphan then s.endNode n v .abandoned 0 else s.abortNode n)).completeNode n

/-- Launch queues of some partitions are closed, and their nodes and the dependants of these end (R315, R316) (log 30). -/
def abortParts (s : State) (hit : Nat → Bool) : State :=
  let s := { s with queues := s.queues.map (fun (e : Nat × LQueue) =>
    let q : LQueue := e.2
    (e.1, if hit q.part.toNat then { q with isOpen := false } else q)) }
  s.nodes.foldl (fun s e => match s.nodeAt e.1 with | some v => s.abortPart hit e.1 v | none => s) s

/-- Every tenant key is overwritten (R315, R316). -/
def eraseKeys (s : State) : State :=
  { s with parts := s.parts.map (fun (e : Nat × Part) => let p : Part := e.2; (e.1, { p with key := none })) }

/-- Something of a stopped core's node is still on its way: words, running copies or matrix commands (19 R385, R389). -/
def stillLands (s : State) (core : Nat) : Bool :=
  let k := s.coreAt core
  k.cu.flights ≠ [] || k.cu.copies.any (fun y => y.st = .running) || (s.quadAt (quadOf core)).cmds.any (fun m => m.core.toNat = core)

/-- The kill of step 3 has not come to its end for every node of some partitions (R315, R316; 19 R389). -/
def stopsLanding (s : State) (hit : Nat → Bool) : Bool :=
  s.cores.any (fun e =>
    match e.2.node.bind s.nodeAt with
    | some v => hit v.part.toNat && s.stillLands e.1
    | none => false)

/-- The partitions whose nodes a command's step 3 stops, once its steps 1 and 2 have passed (R315, R316). -/
def secStops (s : State) (c : SecCmd) : Option (Nat → Bool) :=
  if c.code = 8 && s.lifecycle = 2 && s.tokenOk c.data then some (fun p => (s.partAt p).key.isSome)
  else if c.code = 10 && s.lifecycle ≠ 4 && s.tokenOk c.data && tokenScope c.data = 0 then some (fun _ => true)
  else none

/-- SEC_UNLOCK, its six steps in order (R315) (log 30). -/
def secUnlock (s : State) (d : List Byte) : SecEnd :=
  if s.lifecycle ≠ 2 then { s := s, status := 1 }
  else if !s.tokenOk d then { s := s, status := 2 }
  else
    let t := (s.abortParts (fun p => (s.partAt p).key.isSome)).eraseKeys
    let t := t.modIsland (fun w => { w with unlocked := true, unlocks := w.unlocks + 1, challenge := none })
    let t := t.extend 3 (hash64 (d.take 128))
    { s := t.modIsland (fun w => { w with scope := some (tokenScope d) }), status := 0 }

/-- SEC_SECURE burns lifecycle bit 0 in MANUFACTURE (R307) (log 28). -/
def secSecure (s : State) : SecEnd :=
  if s.lifecycle ≠ 1 then { s := s, status := 1 }
  else { s := s.modIsland (fun w => { w with burned0 := true }), status := 0 }

/-- SEC_RETIRE, its seven steps in order (R316) (log 30). -/
def secRetire (s : State) (d : List Byte) : SecEnd :=
  if s.lifecycle = 4 then { s := s, status := 1 }
  else if !s.tokenOk d || tokenScope d ≠ 0 then { s := s, status := 2 }
  else
    let t := (s.abortParts (fun _ => true)).eraseKeys
    { s := t.modIsland (fun w => { w with seedErased := true, burned1 := true, scope := none, challenge := none }), status := 0 }

/-- The island carries a command out. -/
def secRun (s : State) (c : SecCmd) : SecEnd :=
  match c.code with
  | 1 => s.secLoad c.data
  | 2 => s.secGetid
  | 3 => s.secQuote c.data
  | 4 => s.secExtend c.data
  | 5 => s.secKeyset c.data
  | 6 => s.secKeydel c.data
  | 7 => s.secChal
  | 8 => s.secUnlock c.data
  | 9 => s.secSecure
  | _ => s.secRetire c.data

end State

/-- The island finishes the oldest command it holds: SEC_RESULT leaves and the command is DONE (R308, 19 R405). A command
accepted before the device was retired is not carried out any more (R316) (log 26). An unlock or a retirement whose kills are
still landing has come to the end of its step 3, and goes on when they have (R315, R316). -/
def execSecCommandFinish (s : State) : Out1 :=
  match s.island.cmds with
  | [] => .next s
  | c :: rest =>
    let stops := match s.secStops c with | some hit => (let t := s.abortParts hit; if t.stopsLanding hit then some t else none) | none => none
    if let some t := stops then .next t else
    let s := (s.modIsland (fun w => { w with cmds := rest })).romStep
    let e : State.SecEnd := if s.lifecycle = 4 && c.code ≠ 2 then { s := s, status := 1 } else s.secRun c
    let bytes := leBytes 4 c.ticket ++ leBytes 4 e.status ++ e.data
    let t := e.s.signal 3 (bytes ++ List.replicate (alignUp bytes.length 8 - bytes.length) 0)
    .next (t.modEntry c.seq (fun j => { j with fate := .done, ended := s.now }))

end Sys2Proof.Machine
end

