-- ==== Sys2Proof/Machine/Registers.lean ====
section
/-! DEFINITION. The device register space as the host reads and writes it (01 R33, R38, R39), with the behaviour of each
register that has one. -/

namespace Sys2Proof.Machine

namespace State

/-! ## Reading -/

/-- SOURCE_CFG and SOURCE_PERIOD (02 R42). -/
def readSource (s : State) (off : Nat) : Dword :=
  let v := s.sourceAt (off / 32 % 32)
  match off % 32 with
  | 0 => v.cfg
  | 8 => v.period
  | _ => 0

/-- Registers of a region (02 R43, R48, 17 R350, R355). -/
def readRegion (s : State) (off : Nat) : Dword :=
  let g := s.regionAt (off / 64 % 32)
  match off % 64 with
  | 0 => g.bind
  | 8 => g.ctl
  | 16 => g.quads
  | 24 => g.ingestCfg
  | 32 => g.pwr.setWidth 64
  | 40 => BitVec.ofNat 64 (g.gap.toNat * 2 ^ 40 + g.late.toNat * 2 ^ 24 + g.heldCount.toNat * 2 ^ 8 + g.st.code * 2 ^ 5)
  | 48 => g.pol
  | _ => 0

/-- XCFG and XPERIOD (02 R53). -/
def readCrossing (s : State) (off : Nat) : Dword :=
  let v := s.crossingAt (off / 64 % 64)
  match off % 64 with
  | 0 => v.cfg
  | 8 => v.period
  | _ => 0

/-- Two entries of a weight table (02 R53). -/
def readWeight (s : State) (off : Nat) : Dword :=
  let v := s.crossingAt (off / 4096 % 64)
  let i := off % 4096 / 4
  v.weights.get 0 (i + 1) ++ v.weights.get 0 i

/-- The package is master on every port that TIME_CFG enables (02 R58). -/
def masterOnAll (s : State) : Bool :=
  let p := timePorts s.clock.cfg
  p ≠ 0 && s.clock.masters &&& BitVec.ofNat 28 p = BitVec.ofNat 28 p

/-- TIME_STAT (02 R58). -/
def timeStat (s : State) : Dword :=
  s.clock.offset ++ BitVec.ofNat 32 (b2n s.masterOnAll * 2 + b2n s.clock.locked)

/-- THERM_REASON (17 R362). -/
def thermReason (s : State) : Dword := s.power.reason ++ s.power.sensor ++ s.power.count ++ 0#32

/-- QUEUE_CFG (03 R75). -/
def readQueue (s : State) (q : Nat) : Dword :=
  let v := s.queueAt q
  BitVec.ofNat 64 (v.slack.toNat * 2 ^ 32 + v.part.toNat * 2 ^ 28 + v.capacity.toNat * 2 + b2n v.isOpen)

/-- PART_TOKENS (03 R77). -/
def readTokens (s : State) (p : Nat) : Dword := let v := s.partAt p; v.refill ++ v.max ++ v.current

/-- PART_PTBR, PART_ILV and PART_INV (04 R122). -/
def readPart (s : State) (off : Nat) : Dword :=
  let v := s.partAt (off / 32 % 16)
  match off % 32 with
  | 0 => v.ptbr
  | 8 => v.ilv
  | 16 => BitVec.ofNat 64 (b2n v.busy)
  | _ => 0

/-- MFLOG (18 R372). -/
def readMflog (s : State) (off : Nat) : Dword :=
  let v := (s.coreAt (off / 32 % 256)).mflog
  match off % 32 with
  | 0 => v.address
  | 8 => v.syndrome ++ 0#32
  | 16 => v.time
  | _ => v.events ++ v.spread

/-- CHAN_RETIRED and ECC_STAT (18 R373, R378). -/
def readStack (s : State) (off : Nat) : Dword :=
  let v := s.stackAt (off / 32 % 8)
  match off % 32 with
  | 0 => v.retired.extractLsb' 0 64
  | 8 => v.retired.extractLsb' 64 64
  | 16 => v.retired.extractLsb' 128 64
  | _ => v.corrected ++ v.uncorrectable ++ v.poisoned

/-- JRNL_TAIL: the lowest number whose fate is not final, or JRNL_HEAD (19 R403). -/
def jrnlTail (s : State) : Nat :=
  s.host.journal.foldl (fun n e => match e.2 with | some j => if j.fate.final then n else min n e.1 | none => n) s.host.head

/-- ERR_INJ (20 R408). -/
def readErrInj (s : State) (q : Nat) : Dword :=
  let v := (s.quadAt q).errInj
  BitVec.ofNat 64 (b2n v.arm * 2 ^ 63 + v.target.toNat * 2 ^ 61 + v.fired.toNat * 2 ^ 50 + v.row.toNat * 2 ^ 28 +
    v.column.toNat * 2 ^ 20 + v.bit.toNat)

/-- The dword at an offset of the device register space; an offset that names no register reads zero (01 R38). -/
def readReg (s : State) (off : Nat) : Dword :=
  if off = 0 then devinfoReg
  else if off = 8 then s.capsReg
  else if off = 0x10 then BitVec.allOnes 64
  else if 0x10000 ≤ off && off < 0x10400 then s.readSource (off - 0x10000)
  else if 0x20000 ≤ off && off < 0x20800 then s.readRegion (off - 0x20000)
  else if 0x30000 ≤ off && off < 0x31000 then s.readCrossing (off - 0x30000)
  else if off = 0x50000 then s.clock.cfg
  else if off = 0x50008 then s.timeStat
  else if 0x60000 ≤ off && off < 0x60200 then (s.quadAt ((off - 0x60000) / 8)).idle.setWidth 64
  else if off = 0x60200 then s.power.boostMax.setWidth 64
  else if off = 0x60208 then s.power.reserve ++ s.power.soft
  else if off = 0x60210 then s.power.hard.setWidth 64
  else if off = 0x60300 then s.thermReason
  else if off = 0x60308 then s.power.thermTime
  else if 0x70000 ≤ off && off < 0x70200 then s.readQueue ((off - 0x70000) / 8)
  else if 0x70200 ≤ off && off < 0x70280 then s.readTokens ((off - 0x70200) / 8)
  else if off = 0x70400 then s.rollCfg.setWidth 64
  else if off = 0x70408 then s.pair.cfg.setWidth 64
  else if 0x80000 ≤ off && off < 0x80200 then s.readPart (off - 0x80000)
  else if 0x80400 ≤ off && off < 0x81400 then (s.partAt ((off - 0x80400) / 256)).watch.get 0 ((off - 0x80400) % 256 / 8)
  else if 0x90000 ≤ off && off < 0x90040 then
    let p := s.portAt ((off - 0x90000) / 16)
    if off % 16 = 0 then p.egr0 else p.egr1
  else if 0xA0000 ≤ off && off < 0xA2000 then s.readMflog (off - 0xA0000)
  else if 0xB0000 ≤ off && off < 0xB0100 then s.readStack (off - 0xB0000)
  else if off = 0xC0000 then s.host.jrnlCfg.setWidth 64
  else if off = 0xC0008 then BitVec.ofNat 64 s.host.head
  else if off = 0xC0010 then BitVec.ofNat 64 s.jrnlTail
  else if off = 0xC0018 then s.host.sel
  else if 0xC0100 ≤ off && off < 0xC0180 then s.host.data.getD ((off - 0xC0100) / 8) 0
  else if 0xD0000 ≤ off && off < 0xD0400 then if off % 16 = 0 then s.readErrInj ((off - 0xD0000) / 16) else 0
  else if 0x100000 ≤ off && off < 0x140000 then s.readWeight (off - 0x100000)
  else 0

/-! ## The messages (01 R33) -/

/-- The end of the device register space (R38). -/
def regEnd : Nat := 0x140000

/-- A REG_READ: the value, and what reading changes. -/
def regGet (s : State) (m : HostMsg) (effect : State → State) : State :=
  let off := m.arg.toNat
  if m.payload ≠ [] || off % 8 ≠ 0 then s.refuse m 0x21
  else if regEnd ≤ off then s.refuse m 0x24
  else effect (s.accept m (bytesOf 8 (s.readReg off)))

/-- A REG_WRITE: accepted, then its effect. -/
def regSet (s : State) (m : HostMsg) (effect : State → State) : State :=
  let off := m.arg.toNat
  if m.payload.length ≠ 8 || off % 8 ≠ 0 then s.refuse m 0x21
  else if regEnd ≤ off then s.refuse m 0x24
  else effect (s.accept m [])

/-- The value that a REG_WRITE carries. -/
def regValue (m : HostMsg) : Dword := BitVec.ofNat 64 (leNat m.payload)

end State

def execRegRead (m : HostMsg) (s : State) : Out1 := .next (s.regGet m id)

/-- ECC_STAT is cleared when it is read (18 R373). -/
def execEccStatRead (m : HostMsg) (s : State) : Out1 :=
  .next (s.regGet m (fun s => s.modStack ((m.arg.toNat - 0xB0000) / 32 % 8) (fun v =>
    { v with corrected := 0, uncorrectable := 0, poisoned := 0 })))

/-! ## Registers without a behaviour of their own -/

namespace State

/-- A plain write: fields that are not zero fields take the value (00 R7); other offsets ignore it. -/
def writePlain (s : State) (off : Nat) (v : Dword) : State :=
  let p : Power := s.power
  if 0x20000 ≤ off && off < 0x20800 && off % 64 = 8 then
    s.modRegion ((off - 0x20000) / 64) (fun g => { g with ctl := v &&& 0xFFFF0000FFFFFFFF#64 })
  else if 0x20000 ≤ off && off < 0x20800 && off % 64 = 32 then
    s.modRegion ((off - 0x20000) / 64) (fun g => { g with pwr := v.setWidth 32 })
  else if 0x60000 ≤ off && off < 0x60200 then s.modQuad ((off - 0x60000) / 8) (fun q => { q with idle := v.setWidth 20 })
  else if off = 0x60200 then { s with power := { p with boostMax := v.setWidth 16 } }
  else if off = 0x60208 then { s with power := { p with soft := v.setWidth 32, reserve := v.extractLsb' 32 32 } }
  else if off = 0x60210 then { s with power := { p with hard := v.setWidth 32 } }
  else if off = 0x70400 then { s with rollCfg := v.setWidth 8 }
  else if 0x80400 ≤ off && off < 0x81400 then
    s.modPart ((off - 0x80400) / 256) (fun w => { w with
      watch := w.watch.put 0 ((off - 0x80400) % 256 / 8) (if off % 16 = 0 then v else v &&& 0xF0F8000000000000#64) })
  else s

end State

def execRegWrite (m : HostMsg) (s : State) : Out1 :=
  .next (s.regSet m (fun s => s.writePlain m.arg.toNat (State.regValue m)))

/-! ## Sources (02 R41, R42) -/

namespace State

/-- The kind that a write gives slot `i`: a kind that breaks R41's rules leaves it unused. -/
def keptKind (s : State) (i : Nat) (v : Dword) : Nat :=
  let k := srcKind v
  let taken := (List.range 32).any (fun j => j ≠ i && srcKind (s.sourceAt j).cfg = k)
  if (k = 1) ≠ (i = 0) then 0 else if (k = 2 || k = 3) && taken then 0 else k

/-- SOURCE_CFG of slot `i`; its tick count starts again. -/
def writeSourceCfg (s : State) (i : Nat) (v : Dword) : State :=
  if s.boundTo i ≠ [] then s
  else
    let cfg := setField (v &&& 0xFFFFFFFFFF000000#64) 63 60 (s.keptKind i v)
    s.modSource i (fun w => { cfg := cfg, period := w.period, last := some s.clock.now })

end State

def execSourceCfgWrite (m : HostMsg) (s : State) : Out1 :=
  .next (s.regSet m (fun s => s.writeSourceCfg (m.arg.toNat / 32 % 32) (State.regValue m)))

/-- SOURCE_PERIOD, kept as it is written. For kinds 1 and 5 the low 16 bits must be zero, and no rule gives the fate of another
value: it is kept, read back and ticked at as it stands (02 R42; the model's choice, log 59). -/
def execSourcePeriodWrite (m : HostMsg) (s : State) : Out1 :=
  let i := m.arg.toNat / 32 % 32
  .next (s.regSet m (fun s => if s.boundTo i ≠ [] then s else s.modSource i (fun w => { w with period := State.regValue m })))

/-! ## Regions (02 R43 to R48, 17 R355) -/

namespace State

/-- The nominal clock N f_s / D lies between 200 MHz and 2 GHz, with f_s in units of 2^16 ns (R44, R45). -/
def clockFits (n d period : Nat) : Bool :=
  period ≠ 0 && 200000000 * d * period ≤ n * 65536 * 1000000000 && n * 65536 * 1000000000 ≤ 2000000000 * d * period

/-- A bind is refused (R45) (log 34). -/
def bindRefused (s : State) (r : Nat) (v : Dword) : Bool :=
  let g := s.regionAt r
  let src := s.sourceAt (bindSource v)
  let others := (List.range 32).any (fun k => k ≠ r && s.bound k && (s.regionAt k).quads &&& g.quads ≠ 0)
  !clockFits (bindN v) (bindD v) src.period.toNat || others || g.quads = 0 || srcKind src.cfg = 0 ||
    bindN v < fieldOf g.ctl 31 0 || s.bound r

/-- What INGEST_CFG keeps of a value for region `r`: enable reads 0 where the configuration breaks R48 (log 35). -/
def ingestKept (s : State) (r : Nat) (v : Dword) : Dword :=
  let g := s.regionAt r
  let v := v &&& 0xFFFFFFFFFFFF0001#64
  let c := ingestOf v
  let kind := srcKind (s.sourceAt (s.regionSource r)).cfg
  let ok := s.bound r && (kind = 5 || (kind = 4 && c.count = bindD g.bind)) && g.quads.getLsbD (quadOf c.core) &&
    4 ≤ c.slot && c.slot % 4 = 0 && 1 ≤ c.count && c.base + 2 * c.hsize ≤ sliceBytes
  if ok then v else v &&& 0xFFFFFFFFFFFFFFFE#64

/-- An accepted bind puts the region in RELOCKING with its clock gated and its counts cleared (log 35, 51). -/
def bindRegion (s : State) (r : Nat) (v : Dword) : State :=
  let s := s.modRegion r (fun g =>
    { bind := v &&& 0xFFFFFFFFFFFFC000#64, ctl := g.ctl, quads := g.quads, pwr := g.pwr, pol := g.pol, polNow := g.pol,
      st := .relocking, gated := true })
  s

/-- REGION_BIND with enable = 1 (log 34). -/
def writeBind (s : State) (r : Nat) (v : Dword) : State :=
  if s.bindRefused r v then s.modRegion r (fun g => { g with bind := g.bind ||| 0x2000#64 })
  else
    let cfg := (s.regionAt r).ingestCfg
    let s := s.bindRegion r v
    s.modRegion r (fun g => { g with ingestCfg := s.ingestKept r cfg })

/-- REGION_BIND with enable = 0: refused while any node is placed on the region (log 34). -/
def writeUnbind (s : State) (r : Nat) : State :=
  let placed := s.nodes.any (fun e => match e.2 with | some v => holdsQuads v && recRegion v.rcd = r | none => false)
  if placed || !s.bound r then s
  else s.modRegion r (fun g => { g with
    bind := g.bind &&& 0xFFFFFFFFFFFFBFFF#64, st := .unbound, gated := false, atEnd := false, realign := false })

/-- INGEST_CFG: an ingest that it enables begins with an empty half for the current frame (log 35). -/
def writeIngest (s : State) (r : Nat) (v : Dword) : State :=
  let kept := s.ingestKept r v
  s.modRegion r (fun g =>
    let h : Half := { frame := g.frameNo, complete := false }
    let o : Half := { frame := g.frameNo - 1 }
    { g with
      ingestCfg := kept
      half0 := if g.frameNo.toNat % 2 = 0 then h else o
      half1 := if g.frameNo.toNat % 2 = 0 then o else h })

end State

def execRegionBind (m : HostMsg) (s : State) : Out1 :=
  .next (s.regSet m (fun s => s.writeBind (m.arg.toNat / 64 % 32) (State.regValue m)))

def execRegionUnbind (m : HostMsg) (s : State) : Out1 :=
  .next (s.regSet m (fun s => s.writeUnbind (m.arg.toNat / 64 % 32)))

def execRegionQuadsWrite (m : HostMsg) (s : State) : Out1 :=
  let r := m.arg.toNat / 64 % 32
  .next (s.regSet m (fun s => if s.bound r then s else s.modRegion r (fun g => { g with quads := State.regValue m })))

def execIngestCfgWrite (m : HostMsg) (s : State) : Out1 :=
  .next (s.regSet m (fun s => s.writeIngest (m.arg.toNat / 64 % 32) (State.regValue m)))

/-- The policy takes effect at the region's next state change (R355). -/
def execRegionPolWrite (m : HostMsg) (s : State) : Out1 :=
  .next (s.regSet m (fun s => s.modRegion (m.arg.toNat / 64 % 32) (fun g => { g with
    pol := State.regValue m &&& 0xFFFFFFFF00000003#64 })))

/-! ## Crossings (02 R53, R54, R417) -/

namespace State

/-- XCFG: setting enable clears the ring and the kept outputs and counts an enabling; a policy or phase code that is not
assigned, or a zero period, leaves enable reading 0 (log 36). -/
def writeXcfg (s : State) (c : Nat) (v : Dword) : State :=
  s.modCrossing c (fun x =>
    let v := v &&& 0xFFFFFFFFFFFFFF80#64
    let bad := fieldOf v 30 29 = 3 || fieldOf v 28 26 = 7 || x.period = 0
    let v := if bad then v &&& 0xFFFFFFFF7FFFFFFF#64 else v
    if v.getLsbD 31 && !x.cfg.getLsbD 31 then { x with cfg := v, ring := [], last := [], enabled := x.enabled + 1 }
    else { x with cfg := v })

/-- XPERIOD or two weights, while the crossing is disabled. -/
def writeXperiod (s : State) (off : Nat) (v : Dword) : State :=
  let c := if 0x100000 ≤ off then (off - 0x100000) / 4096 % 64 else off / 64 % 64
  if (s.crossingAt c).cfg.getLsbD 31 then s
  else
    s.modCrossing c (fun x =>
      if 0x100000 ≤ off then
        let i := off % 4096 / 4
        { x with weights := (x.weights.put 0 i (v.setWidth 32)).put 0 (i + 1) (v.extractLsb' 32 32) }
      else { x with period := v })

end State

def execXcfgEnable (m : HostMsg) (s : State) : Out1 :=
  .next (s.regSet m (fun s => s.writeXcfg (m.arg.toNat / 64 % 64) (State.regValue m)))

def execXcfgDisable (m : HostMsg) (s : State) : Out1 :=
  .next (s.regSet m (fun s => s.writeXcfg (m.arg.toNat / 64 % 64) (State.regValue m)))

def execXperiodWrite (m : HostMsg) (s : State) : Out1 :=
  .next (s.regSet m (fun s => s.writeXperiod m.arg.toNat (State.regValue m)))

/-! ## Time and egress (02 R58, 09 R243) -/

/-- TIME_CFG is written only while every port bit is clear. -/
def execTimeCfgWrite (m : HostMsg) (s : State) : Out1 :=
  .next (s.regSet m (fun s =>
    if timePorts s.clock.cfg ≠ 0 then s
    else { s with clock := { s.clock with cfg := State.regValue m &&& 0x00000FFFFFFF1EFF#64, masters := 0 } }))

/-- PORT_EGR is written only while no EGR is pending on the port (09 R243); the message of another write is accepted, and its value
ignored (the model's choice, log 59). -/
def execPortEgrWrite (m : HostMsg) (s : State) : Out1 :=
  let p := m.arg.toNat / 16 % 4
  let v := State.regValue m
  .next (s.regSet m (fun s =>
    if (s.portAt p).queue ≠ [] then s
    else s.modPort p (fun q => if m.arg.toNat % 16 = 0 then { q with egr0 := v &&& 0x0000FFFFFFFFFFFF#64 } else { q with egr1 := v })))

/-! ## Power (17 R362) -/

def execThermReasonWrite (m : HostMsg) (s : State) : Out1 :=
  .next (s.regSet m (fun s => let p : Power := s.power; { s with power := { p with reason := 0, sensor := 0 } }))

/-! ## Queues and partitions (03 R75, R77; 04 R122, R124; 18 R378) -/

namespace State

/-- QUEUE_CFG takes effect only while the queue is closed and empty; a capacity that would raise the sum above 4,096 is
not taken (log 38). -/
def writeQueueCfg (s : State) (q : Nat) (v : Dword) : State :=
  let w := s.queueAt q
  let others := ((List.range 64).map (fun k => if k = q then 0 else (s.queueAt k).capacity.toNat)).sum
  if w.isOpen || w.teardown.isSome || s.openNodes (fun n => n.queue.toNat = q) ≠ [] then s
  else
    s.modQueue q (fun w => { w with
      slack := v.extractLsb' 32 32
      part := v.extractLsb' 28 4
      capacity := if others + fieldOf v 13 1 ≤ 4096 then v.extractLsb' 1 13 else w.capacity
      isOpen := v.getLsbD 0 })

/-- PART_TOKENS, its current count clamped to max. -/
def writeTokens (s : State) (p : Nat) (v : Dword) : State :=
  s.modPart p (fun w => { w with
    refill := v.extractLsb' 32 32
    max := v.extractLsb' 16 16
    current := BitVec.ofNat 16 (min (fieldOf v 15 0) (fieldOf v 31 16))
    refilled := s.clock.now })

/-- A node of the partition runs: dispatched, and neither stopped nor over (log 39). -/
def partRuns (s : State) (p : Nat) : Bool :=
  (s.openNodes (fun v => v.part.toNat = p && (match v.st with
    | .placed | .running | .stopping _ | .saving | .resuming => true
    | _ => false))) ≠ []

/-- A node of the partition is running or held (log 39). -/
def partBusy (s : State) (p : Nat) : Bool :=
  s.partRuns p || (s.openNodes (fun v => v.part.toNat = p && (v.st = .holding || v.st = .held))) ≠ []

/-- PART_ILV keeps its value where the write breaks R122, or names a stack with no usable channel (18 R378) (log 39). -/
def writeIlv (s : State) (p : Nat) (v : Dword) : State :=
  let v := v &&& 0xFF1FFFFF001FFFFF#64
  let dead := (ilvStacks v).any (fun k => (s.stackAt k).retired = BitVec.allOnes 160)
  if s.partRuns p || ilvStacks v = [] || dead || ilvCount v = 0 || 1638400 < ilvBase v + ilvCount v then s
  else s.modPart p (fun w => { w with ilv := v })

/-- CHAN_RETIRED, dword `k` of stack `t`, ignored while a partition whose PART_ILV names the stack has a running or held
node. -/
def writeRetired (s : State) (t k : Nat) (v : Dword) : State :=
  if (List.range 16).any (fun p => (ilvStacks (s.partAt p).ilv).contains t && s.partBusy p) then s
  else
    s.modStack t (fun w => { w with
      retired := match k with
        | 0 => setField w.retired 63 0 v.toNat
        | 1 => setField w.retired 127 64 v.toNat
        | _ => setField w.retired 159 128 v.toNat })

end State

def execQueueCfgWrite (m : HostMsg) (s : State) : Out1 :=
  .next (s.regSet m (fun s => s.writeQueueCfg ((m.arg.toNat - 0x70000) / 8 % 64) (State.regValue m)))

def execPartTokensWrite (m : HostMsg) (s : State) : Out1 :=
  .next (s.regSet m (fun s => s.writeTokens ((m.arg.toNat - 0x70200) / 8 % 16) (State.regValue m)))

def execPartPtbrWrite (m : HostMsg) (s : State) : Out1 :=
  let p := m.arg.toNat / 32 % 16
  .next (s.regSet m (fun s =>
    if s.partRuns p then s else s.modPart p (fun w => { w with ptbr := State.regValue m &&& 0x0000FFFFFFFFF001#64 })))

def execPartIlvWrite (m : HostMsg) (s : State) : Out1 :=
  .next (s.regSet m (fun s => s.writeIlv (m.arg.toNat / 32 % 16) (State.regValue m)))

/-- PART_INV: the removal of the partition's cached translations starts, and busy reads 1. -/
def execPartInv (m : HostMsg) (s : State) : Out1 :=
  .next (s.regSet m (fun s => s.modPart (m.arg.toNat / 32 % 16) (fun w => { w with busy := true })))

def execChanRetiredWrite (m : HostMsg) (s : State) : Out1 :=
  .next (s.regSet m (fun s => s.writeRetired ((m.arg.toNat - 0xB0000) / 32 % 8) (m.arg.toNat % 32 / 8) (State.regValue m)))

/-! ## Lockstep, journal, error injection (19 R397, R403; 20 R408) -/

/-- PAIR_CFG is written only while the package holds no accepted lockstep node. -/
def execPairCfgWrite (m : HostMsg) (s : State) : Out1 :=
  .next (s.regSet m (fun s =>
    if s.openNodes State.lockstep ≠ [] then s
    else { s with pair := { s.pair with cfg := (State.regValue m).setWidth 3 } }))

/-- JRNL_CFG is honoured only before the first accepted command. -/
def execJrnlCfgWrite (m : HostMsg) (s : State) : Out1 :=
  let c := fieldOf (State.regValue m) 31 0
  .next (s.regSet m (fun s =>
    if s.host.head = 1 && 4096 ≤ c && c ≤ 16777216 && isPow2 c then
      { s with host := { s.host with jrnlCfg := BitVec.ofNat 32 c } }
    else s))

namespace State

/-- The dwords of entry `n` as JRNL_DATA shows them (19 R404) (log 37). -/
def entryDwords (n : Nat) (e : JEntry) : List Dword :=
  [BitVec.ofNat 64 n, BitVec.ofNat 64 (e.kind + e.queue.toNat * 2 ^ 8 + e.fate.code * 2 ^ 16 + e.cls.toNat * 2 ^ 24),
   BitVec.ofNat 64 e.origin, BitVec.ofNat 64 e.accepted, BitVec.ofNat 64 e.dispatched, BitVec.ofNat 64 e.ended, e.history,
   e.completion, e.trap0, e.trap1, e.trap2, BitVec.ofNat 64 e.deadline]

/-- JRNL_SEL: the entry of the number is loaded into JRNL_DATA, all zero for one that is not held (log 37). -/
def writeSel (s : State) (v : Dword) : State :=
  let n := v.toNat
  let old := n + s.jrnlCap < s.host.head
  { s with host := { s.host with
    sel := v
    data := match s.entryAt n with | some e => if old then [] else entryDwords n e | none => [] } }

/-- ERR_INJ of quad `q`, ignored in RETIRED; a target of 3 reads back with arm = 0. -/
def writeErrInj (s : State) (q : Nat) (v : Dword) : State :=
  if s.lifecycle = 4 then s
  else s.modQuad q (fun w => { w with errInj :=
    { arm := v.getLsbD 63 && fieldOf v 62 61 ≠ 3, target := v.extractLsb' 61 2, fired := w.errInj.fired,
      row := v.extractLsb' 28 9, column := v.extractLsb' 20 8, bit := v.extractLsb' 0 5 } })

end State

def execJrnlSelWrite (m : HostMsg) (s : State) : Out1 := .next (s.regSet m (fun s => s.writeSel (State.regValue m)))

def execErrInjWrite (m : HostMsg) (s : State) : Out1 :=
  .next (s.regSet m (fun s => s.writeErrInj ((m.arg.toNat - 0xD0000) / 16 % 64) (State.regValue m)))

end Sys2Proof.Machine
end

