-- ==== Sys2Proof/Machine/Link.lean ====
section
/-! DEFINITION. Links and stacks as they fail and recover (18 R368, R374), the host link (19 R406), the debug port
(16 R343, 12 R314), and what reaches the package from outside: messages and time. -/

namespace Sys2Proof.Machine

/-! ## Scrubs (18 R368, R373) -/

/-- A scrub of one granule row: a correctable word is written back corrected, an uncorrectable one rewritten poisoned, and
both are counted (log 58). -/
def execHbmScrub (stack : BitVec 3) (channel : BitVec 8) (row : BitVec 21) (s : State) : Out1 :=
  let t := stack.toNat
  let keys := (List.range 8).map (fun i => hbmKey t channel.toNat row.toNat (32 * i))
  let bad := keys.filter (fun k => s.mem.flaw k = some .uncorrectable)
  let fixed := keys.filter (fun k => s.mem.flaw k = some .correctable)
  if !s.started then .next s
  else
    let s := s.modMem (fun m => bad.foldl (fun m k => m.setMark k .poisoned) { m with marks := m.marks.filter (fun e => !fixed.contains e.1) })
    .next (s.modStack t (fun v => { v with
      corrected := satNat 32 (v.corrected.toNat + fixed.length)
      uncorrectable := satNat 16 (v.uncorrectable.toNat + bad.length)
      poisoned := satNat 16 (v.poisoned.toNat + bad.length) }))

/-! ## Links (18 R374) -/

/-- An uncorrectable chunk is replayed from the sender's buffer: nothing is delivered, and no state changes (log 41). -/
def execFlitReplay (_link : LinkId) (s : State) : Out1 := .next s

/-- A link retrains, and is down no longer; the pair link is up again with its port (12 R310, 19 R402). -/
def execLinkRetrain (link : LinkId) (s : State) : Out1 :=
  if !s.started then .next s else
  let s := { s with down := s.down.filter (fun l => l ≠ link) }
  .next (match link with
    | .fabric p => if p.toNat = 22 || p.toNat = 23 then { s with pair := { s.pair with up := true } } else s
    | _ => s)

namespace State

/-- A request of a word, or of a load inside its bound, is held by a link: its way to one of its places uses the link. Which
of those that use it are held when it fails is a free choice (log 8). -/
def heldFlight (s : State) (l : LinkId) (core : Nat) (f : Flight) : Bool :=
  (s.flightPlaces core f).any (routeUses l (corePlace core)) && Config.raceNew s.freeCtr f.id

/-- A copy's engine has requests that the link holds (01 R21). -/
def heldCopy (s : State) (l : LinkId) (core : Nat) (y : Copy) : Bool :=
  y.st = .running && (s.copyPlaces core y).any (routeUses l (enginePlace (quadOf core))) && Config.raceNew s.freeCtr y.id

/-- What a failed mesh or die-to-die link holds of one core's requests ends in MCHECK at the core, unit 4. -/
def meshCore (s : State) (l : LinkId) (core : Nat) : State :=
  let c := s.coreAt core
  let words := c.cu.flights.filter (s.heldFlight l core)
  let loads := c.cu.again.filter (s.heldFlight l core)
  if words = [] && loads = [] && !c.cu.copies.any (s.heldCopy l core) then s
  else
    let t := words.foldl (fun t f => t.dropFlight core f) s
    let t := t.modCore core (fun c => { c with cu := { c.cu with again := c.cu.again.filter (fun f => !loads.contains f) } })
    t.machineCheck core (match words ++ loads with | f :: _ => f.unit | [] => .w) .uncorrectable 4 (linkRow l) 0

/-- A mesh or die-to-die link is down. -/
def meshDown (s : State) (l : LinkId) : State :=
  ((List.range 256).foldl (fun (t : State) c => t.meshCore l c) { s with down := l :: s.down }).fresh

/-- A copy that a failed fabric port carried: some of the items still to move are moved before the failure, the rest are
undefined, and the copy has failed with class MCHECK. -/
def failFabric (s : State) (core : Nat) (y : Copy) : State :=
  let items := s.copyItems y
  let k := y.done + (Config.freeBits s.freeCtr 32).toNat % (items.length - y.done + 1)
  (match s.runCopy core y items k with
   | .all a outs => s.failCopy core y items a outs k 0x0F
   | .stopped a outs j _ => s.failCopy core y items a outs j 0x0F).fresh

/-- Running copies to or from another package, by the fabric port that carries them. -/
def fabricCopies (s : State) (p : Nat) : List (Nat × Copy) :=
  s.cores.flatMap (fun e =>
    (e.2.cu.copies.filter (fun y => y.st = .running && (s.foreign (entOf y.src) || s.foreign (entOf y.dst)) && s.portOf y = p)).map (fun y => (e.1, y)))

/-- A fabric port is down: the copies through it fail. -/
def fabricDown (s : State) (p : BitVec 5) : State :=
  let t := (s.fabricCopies p.toNat).foldl (fun t e => t.failFabric e.1 e.2) s
  { t with down := .fabric p :: t.down }

end State

/-- A retrain fails: the link is down, what it held fails, and the host is told (01 R35). A copy that would use a port that
is down fails when its engine takes it. -/
def execLinkRetrainFail (link : LinkId) (s : State) : Out1 :=
  if !s.started || s.down.contains link then .next s
  else
    .next (match link with
      | .mesh r => (s.meshDown link).signal 5 (leBytes 8 (r.toNat * 2 ^ 8))
      | .dieToDie r => (s.meshDown link).signal 5 (leBytes 8 (1 + r.toNat * 2 ^ 8))
      | .fabric p => (s.fabricDown p).signal 5 (leBytes 8 (2 + p.toNat * 2 ^ 8)))

/-! ## The host link (01 R31, R33, R35; 19 R406) -/

/-- A message of the device as it stands on the host link: REPLY with the request's tag and the result, SIGNAL with tag 0
and its code, then the payload of at most 8,192 bytes (01 R31). What else leaves the package is no message. -/
def hostMessage : Out → Option (List Byte)
  | .reply tag result payload => some (header 0x8000 tag.toNat result payload)
  | .signal code payload => some (header 0x8001 0 code payload)
  | _ => none
where
  header (type tag arg : Nat) (payload : List Byte) : List Byte :=
    leBytes 2 type ++ leBytes 2 (payload.take 8192).length ++ leBytes 4 tag ++ leBytes 8 arg ++ payload.take 8192

def execHostLinkDown (s : State) : Out1 := .next { s with host := { s.host with up := false } }
def execHostLinkRetrain (s : State) : Out1 := .next { s with host := { s.host with up := true } }

/-! ## The debug port (16 R343, 12 R314) -/

namespace State

/-- The debug port is open for scope bit `i`; in MANUFACTURE it is open for all (log 42). -/
def debugScope (s : State) (i : Nat) : Bool :=
  if s.island.unlocked then (match s.island.scope with | some sc => sc.getLsbD i | none => false) else s.debugOpen

/-- The number of a sequencer. -/
def seqNo : Seq → Nat
  | .l => 1
  | .c => 2
  | .w => 3

/-- A register of a core as the port reads it. -/
def debugGet (s : State) (c : Nat) (r : DebugReg) : BitVec 4096 :=
  let k := s.coreAt c
  match r with
  | .x n => (k.x n).setWidth 4096
  | .q n => if k.q n then 1 else 0
  | .b n => (k.b n.toNat).setWidth 4096
  | .k n => (k.k n.toNat).setWidth 4096
  | .p u n => ((k.unit (seqNo u)).p.get 0 n.toNat).setWidth 4096
  | .v n => k.v n.toNat
  | .m n => if n = 0 then (BitVec.allOnes 1024).setWidth 4096 else (k.m n.toNat).setWidth 4096
  | .lt n => (k.lt n.toNat).setWidth 4096
  | .tk n => BitVec.ofNat 4096 (k.tk n)
  | .csr n => (s.csr c n.toNat).setWidth 4096

/-- A register of a core as the port writes it; a control register takes what CSRW would leave in it. -/
def debugSet (s : State) (c : Nat) (r : DebugReg) (v : BitVec 4096) : State :=
  s.modCore c (fun k =>
    match r with
    | .x n => k.setX n (v.setWidth 64)
    | .q n => k.setQ n (v.getLsbD 0)
    | .b n => k.setB n.toNat (v.setWidth 32)
    | .k n => k.setK n.toNat (v.setWidth 128)
    | .p u n => (k.modUnit (seqNo u) (fun d => { d with p := d.p.put 0 n.toNat (v.setWidth 64) })).good (.p (seqNo u) n.toNat)
    | .v n => k.setV n.toNat v
    | .m n => if n = 0 then k else k.setM n.toNat (v.setWidth 1024)
    | .lt n => ({ k with cu := { k.cu with lt := k.cu.lt.put 0 n.toNat (v.setWidth 256) } }).good (.lt n.toNat)
    | .tk n => (k.setTk n (v.toNat % 2 ^ 16)).good (.tk n.toNat)
    | .csr n =>
      match s.csrKept c n.toNat (v.setWidth 64) with
      | some w => applyCsrw k (n.toNat, w)
      | none => k)

end State

/-- One access of the open debug port: with scope bit 0 a halted core's registers, or its resume after the BRK; with
scope bit 1 a byte of a slice, or of HBM as its stack holds it, under a tenant key encrypted (12 R313); with scope bit 2 the
island's trace (01 R36). A closed port does nothing. -/
def execDebugPortAccess (core : BitVec 8) (op : DebugOp) (s : State) : Out1 :=
  let c := core.toNat
  let regs := s.debugScope 0 && (s.coreAt c).halted
  let bytes := s.debugScope 1
  let put (s : State) (key : Nat) (v : Byte) : State := s.modMem (fun m => m.put [(key, v)])
  .next (match op with
    | .read r => if regs then s.emit (.debug core (s.debugGet c r)) else s
    | .write r v => if regs then s.debugSet c r v else s
    | .resume => if regs then (s.modCore c (fun k => { k with halted := false })).refreshHolds (s.regionOf c) else s
    | .readSlice o => if bytes then s.emit (.debug core ((s.mem.byte (sliceKey c o.toNat)).setWidth 4096)) else s
    | .writeSlice o v => if bytes then put s (sliceKey c o.toNat) v else s
    | .readHbm t h r b =>
      if bytes then s.emit (.debug core ((s.rawByte (hbmKey t.toNat h.toNat r.toNat b.toNat)).setWidth 4096)) else s
    | .writeHbm t h r b v =>
      let k := hbmKey t.toNat h.toNat r.toNat b.toNat
      if bytes then put (s.rekey (k / 256) none) k v else s
    | .trace => if s.debugScope 2 then (s.emit (.trace (Config.islandTrace s.freeCtr))).fresh else s)

/-! ## What reaches the package from outside -/

namespace State

/-- A write of THERM_REASON, which the always-on domain takes without power (17 R362) (log 43). -/
def isThermWrite (i : Instr) : Bool := match i with | .thermReasonWrite _ => true | _ => false

/-- What a host message becomes: refused or lost (the state after it), or a step of the opcode table; none where the
bytes are no message (01 R31, R33). -/
def takeMessage (s : State) (bytes : List Byte) : Option (State ⊕ Instr) :=
  match parseMessage bytes with
  | .error _ => none
  | .ok (_, m) =>
    match decodeMessage bytes with
    | .ok i => if (s.powered || isThermWrite i) && s.host.up then some (.inr i) else some (.inl s)
    | .error e =>
      if !s.powered || !s.host.up then some (.inl s)
      else some (.inl (s.refuse m (if e = .unknownType then 0x20 else 0x21)))

end State
end Sys2Proof.Machine
end

