-- ==== Sys2Proof/Machine/Pair.lean ====
section
/-! DEFINITION. Lockstep pairs as one package sees them: the partner's records, launches and stops, and the loss of the
pair link (19 R397 to R402). -/

namespace Sys2Proof.Machine

namespace State

/-- The package's lockstep nodes without a final fate. -/
def lockNodes (s : State) : List (Nat × Node) := s.openNodes (fun v => lockstep v && !v.alone)

/-- The lockstep node that the pair link names by the primary's number. -/
def pairNode (s : State) (seq : Nat) : Option (Nat × Node) := s.lockNodes.find? (fun e => s.pairSeq e.1 = seq)

/-- Two records are of the same segment or NCMT. -/
def sameRecord (a b : PairRecord) : Bool :=
  a.seq = b.seq && a.rank = b.rank && a.sequencer = b.sequencer && a.ordinal = b.ordinal

/-- The unit whose word a record is about. -/
def pairUnit (k : Nat) : Slot := match k with | 1 => .l | 2 => .va | 3 => .w | _ => .s

/-- A divergence at a word of the core of a rank: PAIR is raised there, and the node is rolled back (R400). -/
def pairFault (s : State) (v : Node) (rank sequencer ordinal : Nat) : State :=
  let c := (nodeCores v).getD rank 0
  s.faultAt c (pairUnit sequencer) 0x13 (rank % 256 * 2 ^ 24 + sequencer % 256 * 2 ^ 16 + ordinal % 2 ^ 16)

end State

/-- The partner's record meets this side's of the same segment or NCMT. Equal, both are done; else PAIR is raised and the
node is rolled back (R399, R400). -/
def execPairRecordCompare (remote : PairRecord) (s : State) : Out1 :=
  match s.pair.waiting.find? (fun r => State.sameRecord r remote) with
  | none => .next s
  | some r =>
    let t := { s with pair := { s.pair with waiting := s.pair.waiting.filter (fun x => !State.sameRecord x remote) } }
    if r = remote then .next t
    else
      match s.pairNode remote.seq with
      | none => .next t
      | some (_, v) => .next (t.pairFault v remote.rank remote.sequencer remote.ordinal)

namespace State

/-- A fault that the partner of a lockstep pair has met alone (R398, R400): a machine check rolls both sides back, a
fault of an issued access's translation fails the node on both, and every other is a divergence (log 53). -/
def partnerFault (s : State) (primary : Nat) (cls : BitVec 8) (issued : Bool) (rank sequencer ordinal : Nat) : State :=
  match s.pairNode primary with
  | none => s
  | some (n, v) =>
    let c := (nodeCores v).headD 0
    match v.st with
    | .waiting | .checkpointed | .held | .ending _ _ | .ended _ => s
    | _ =>
      if cls = 0x0E || cls = 0x0F then s.rollback n c cls
      else if issued then s.failNode n c cls
      else s.pairFault v rank sequencer ordinal

/-- A predecessor of a forwarded record as this side numbers it: the copy of the same lockstep node; none for a node that
runs on the primary alone (log 40). -/
def pairPred (s : State) (primary p : Nat) : Nat :=
  if p = 0xFFFFFFFF then p
  else
    let k := predSeq primary p
    match s.host.journal.find? (fun e => match e.2 with | some j => j.kind = 7 && j.origin = k | none => false) with
    | some e => e.1 % 2 ^ 32
    | none => 0xFFFFFFFF

/-- A forwarded record with its predecessors in this side's numbers (log 40). -/
def pairRecordOf (s : State) (primary : Nat) (r : List Dword) : List Dword :=
  let two (i : Nat) : Dword :=
    BitVec.ofNat 64 (s.pairPred primary (bitsOf (recD r i) 63 32) * 2 ^ 32 + s.pairPred primary (bitsOf (recD r i) 31 0))
  (r.set 9 (two 9)).set 10 (two 10)

end State

/-- A secondary places the primary's forwarded record in the queue of the same number and journals it with kind 7 (R398); one
that is booting or retired takes none (12 R310, R316). -/
def execPairCopyReceive (primary : Nat) (queue : BitVec 6) (rec : List Byte) (s : State) : Out1 :=
  let r := s.pairRecordOf primary (recordOf rec)
  .next (if s.booted && s.lifecycle ≠ 4 && s.pair.cfg.toNat % 4 = 2 && s.pair.up && rec.length = 128 && recordOk r && !s.journalFull then
      (s.addNode r queue.toNat 7 primary id).1
    else s)

/-- A secondary takes the primary's decision to stop a lockstep node at the points that it names (R401) (log 53). -/
def execPairPreemptionReceive (primary : Nat) (kind : StopKind) (points : List (Nat × Nat)) (s : State) : Out1 :=
  match s.pairNode primary with
  | some (n, v) =>
    .next (if v.st = .running && s.foreignPair n v then s.modNode n (fun w => { w with st := .stopping kind, points := points }) else s)
  | none => .next s

/-- The pair link has been down for 100 µs: a secondary's lockstep nodes, and a primary's without solo, complete FAILED
with class PAIR; with solo they run on alone (R402) (log 40). -/
def execPairLinkLoss (s : State) : Out1 :=
  let role := s.pair.cfg.toNat % 4
  let nodes := s.lockNodes
  let s := { s with pair := { s.pair with up := false, waiting := [] } }
  if role = 1 && s.pair.cfg.getLsbD 2 then
    .next (nodes.foldl (fun s e => (s.modNode e.1 (fun v => { v with alone := true })).noteHistory e.1) s)
  else
    .next (nodes.foldl (fun s e =>
      match s.nodeAt e.1 with
      | some v =>
        match v.st with
        | .ending _ _ | .ended _ => s
        | _ => (s.modEntry e.1 (fun j => if j.cls = 0 then { j with cls := 0x13 } else j)).endNode e.1 v .failed 0x13
      | none => s) s)

end Sys2Proof.Machine
end

