-- ==== Sys2Proof/Machine/Power.lean ====
section
/-! DEFINITION. Power: samples and the predicate (02 R62, R66), injected freeze cycles (R67), stepped clocks (R68), the
package's hard limit (17 R361), the thermal cut, and power on and off (17 R362, 12 R310, 01 R36). -/

namespace Sys2Proof.Machine

/-- Device time of `us` microseconds. -/
def usFine (us : Nat) : Nat := us * 1000 * 2 ^ 16

/-- Current ceiling of a voltage class, in mA (R63). -/
def classCeiling (cls : Nat) : Nat := match cls with | 0 => 5000 | 1 => 7000 | 2 => 9000 | _ => 11000

namespace State

/-- A leased band of the region draws more than its class allows. -/
def overCurrent (s : State) (r : Nat) (currents : Tab Nat) : Bool :=
  (List.range 64).any (fun q =>
    (s.regionAt r).quads.getLsbD q &&
      (match (s.quadAt q).lease with
       | some l => (bandList l.bands.toNat).any (fun j =>
          classCeiling ((s.quadAt q).bands.get {} j).cls < currents.get 0 (4 * q + j))
       | none => false))

def modPower (s : State) (r : Nat) (f : RegionPower → RegionPower) : State :=
  s.modRegion r (fun g => { g with power := f g.power })

/-- The region's source is the reference, whose clock steps for power. -/
def onReference (s : State) (r : Nat) : Bool := srcKind (s.sourceAt (s.regionSource r)).cfg = 1

end State

/-- The package estimate: the sum of the bound regions' estimates and the fixed rails (R62). -/
def State.packageEstimate (s : State) (r regionEst rails : Nat) : Nat :=
  ((List.range 32).map (fun k => if k = r then regionEst else if s.bound k then (s.regionAt k).power.estimate.toNat else 0)).sum + rails

/-- A 32 ns sample of a region: `currents` by 4 quad + band in mA; its estimate and that of the fixed rails are 1 µs averages
in 0.1 W, as the governor reads them (R62, R66) (log 14). -/
def execPowerSample (region : BitVec 5) (currents : Tab Nat) (regionEst rails : Nat) (s : State) : Out1 :=
  let r := region.toNat
  let packageEst := s.packageEstimate r regionEst rails
  let budget := (s.regionAt r).pwr.toNat
  let exceeded := s.overCurrent r currents || (budget ≠ 0 && budget < regionEst) || s.power.soft.toNat < packageEst
  let now := s.clock.now
  let p : Power := s.power
  let s := { s with power := { p with
    estimate := BitVec.ofNat 32 packageEst, below := if packageEst < p.soft.toNat then p.below else now } }
  .next (s.modPower r (fun w =>
    let w := { w with estimate := BitVec.ofNat 32 regionEst }
    if exceeded then { w with predicate := true, since := if w.predicate then w.since else now, lastSet := now } else w))

/-- The predicate of region `n` clears after 10 µs in which no limit was exceeded (R66). -/
def execPowerPredicateClear (s : State) : Out1 :=
  let r := s.cur.n
  let w := (s.regionAt r).power
  .next (if w.predicate && w.lastSet + usFine 10 ≤ s.clock.now then
      s.modPower r (fun w => { w with predicate := false, since := s.clock.now })
    else s)

/-- Ten microseconds have passed with the predicate as it stands and since the last change. -/
def stepDue (w : RegionPower) (now : Nat) : Bool := w.since + usFine 10 ≤ now && w.changed + usFine 10 ≤ now

/-- The injected duty of a stream-locked region rises or falls by one (R67); it stays at 4 while the hard limit's measures
stand. -/
def execFreezeDutyStep (s : State) : Out1 :=
  let r := s.cur.n
  let w := (s.regionAt r).power
  if !s.bound r || s.onReference r || !stepDue w s.clock.now then .next s
  else if w.predicate then
    .next (if w.duty < 4 then s.modPower r (fun w => { w with duty := w.duty + 1, changed := s.clock.now }) else s)
  else
    .next (if w.duty = 0 || s.power.exceeded then s
      else s.modPower r (fun w => { w with duty := w.duty - 1, changed := s.clock.now }))

namespace State

/-- The cycle of a region's clock at a step: 16 / (16 - step) of the bound one (R68). -/
def stepCycle (s : State) (r step : Nat) : Nat × Nat :=
  let b := s.boundCycle r (s.sourceAt (s.regionSource r)).period.toNat
  (b.1 * 16, b.2 * (16 - step))

/-- A glide begins to a step: until it ends the clock lies between the two (R68). -/
def startGlide (s : State) (r target : Nat) : State :=
  let step := (s.regionAt r).power.step
  (s.modPower r (fun w => { w with glide := some target, changed := s.clock.now })).setPace r
    (s.stepCycle r (min step target)) (s.stepCycle r (max step target))

end State

/-- A reference-locked region begins to glide one step down, or back up (R68). -/
def execClockStep (s : State) : Out1 :=
  let r := s.cur.n
  let w := (s.regionAt r).power
  if !s.bound r || !s.onReference r || !stepDue w s.clock.now || w.glide.isSome then .next s
  else if w.predicate then
    .next (if w.step < 8 then s.startGlide r (w.step + 1) else s)
  else
    .next (if w.step = 0 || s.power.exceeded then s
      else s.startGlide r (w.step - 1))

/-- The glide ends: leased bands follow the lowest class that fits the new clock, a held boost apart, and what was
latched is delivered. At step 0 the next frame boundary realigns (17 R353). -/
def execClockGlideEnd (s : State) : Out1 :=
  let r := s.cur.n
  match (s.regionAt r).power.glide with
  | none => .next s
  | some t =>
    let s := (s.modPower r (fun w => { w with step := t, glide := none })).setPace r (s.stepCycle r t) (s.stepCycle r t)
    let s := if t = 0 then s.modRegion r (fun g => { g with realign := true }) else s
    let cls := s.clockClass r
    let s := (List.range 64).foldl (fun s q =>
      if (s.regionAt r).quads.getLsbD q && (s.quadAt q).lease.isSome then
        (s.modQuad q (fun v => { v with lease := v.lease.map (fun l => { l with cls := cls }) })).boundary q
      else s) s
    .next (s.endTransition r)

/-- The package estimate, as the governor reads it then (log 14), passes PKG_HARD: boosts end, stream-locked regions go to duty 4, reference-locked ones glide to
step 8, boosts are refused, and the host is told (17 R361). -/
def execHardLimitExceeded (estimate : Nat) (s : State) : Out1 :=
  if estimate ≤ s.power.hard.toNat || s.power.exceeded then .next s
  else
    let p : Power := s.power
    let s := { s with power := { p with exceeded := true, below := s.clock.now } }
    let s := (List.range 64).foldl (fun s q =>
      if (s.quadAt q).boost.isSome then (s.modQuad q (fun v => { v with boost := none })).boundary q else s) s
    let s := (List.range 32).foldl (fun s r =>
      if !s.bound r then s
      else if s.onReference r then
        (let w := (s.regionAt r).power
         if w.step = 8 && w.glide.isNone then s.modPower r (fun w => { w with changed := s.clock.now }) else s.startGlide r 8)
      else s.modPower r (fun w => { w with duty := 4, changed := s.clock.now })) s
    .next (s.signal 4 (leBytes 8 s.now))

/-- After 100 µs below the soft limit the governor returns to its rules (17 R361). -/
def execHardLimitRecovery (estimate : Nat) (s : State) : Out1 :=
  let p : Power := s.power
  .next (if p.exceeded && estimate < p.soft.toNat && p.below + usFine 100 ≤ s.clock.now then
      { s with power := { p with exceeded := false } }
    else s)

namespace State

/-- What the package holds without power: its fuses, its place on the fabric and its always-on domain. Host memory and what
has left the package are not the device's. The agenda and the fresh counter are the model's own (log 12, 43). -/
def unpowered (s : State) : State :=
  { State.reset with
    agenda := s.agenda
    freeCtr := s.freeCtr
    powered := false
    packageNo := s.packageNo
    mem := { cells := s.mem.cells.filter (fun e => hostBase ≤ e.1), marks := s.mem.marks.filter (fun e => hostBase ≤ e.1) }
    host := { outbox := s.host.outbox }
    power := { (State.reset).power with
      reason := s.power.reason, sensor := s.power.sensor, count := s.power.count, thermTime := s.power.thermTime }
    island := { (State.reset).island with
      burned0 := s.island.burned0, burned1 := s.island.burned1, seedErased := s.island.seedErased } }

end State

/-- The thermal comparator removes package power and the always-on domain records why (17 R362). -/
def execThermalCut (reason sensor : BitVec 8) (s : State) : Out1 :=
  let p : Power := s.power
  if !s.powered then .next s
  else
    let s := { s with power := { p with
      reason := reason, sensor := sensor, count := satNat 16 (p.count.toNat + 1), thermTime := BitVec.ofNat 64 s.now } }
    .next s.unpowered

/-- Package power is removed from outside. -/
def execPackagePowerLoss (s : State) : Out1 := .next (if s.powered then s.unpowered else s)

/-- Package power-on: every register at its default, and the measured boot begins (12 R310). Reason 4 permits none. -/
def execPackagePowerOn (s : State) : Out1 :=
  .next (if s.powered || s.power.reason = 4 then s else { s with powered := true })

end Sys2Proof.Machine
end

