-- ==== Sys2Proof/Machine/Segment.lean ====
section
/-! DEFINITION. Segments start and retire (03 R86 to R89, 16 R337, R342), the freeze watchdog (16 R338), latched events
(17 R360), operand chains (04 R133, R134). -/

namespace Sys2Proof.Machine

/-! ## Headers (R86, R195) -/

/-- The section of a sequencer in a core's code store. -/
def CodeStore.section (c : CodeStore) (seq : Nat) : List Byte :=
  match seq with
  | 0 => c.s
  | 1 => c.l
  | 2 => c.c
  | _ => c.w

def kindOf (seq : Nat) : Nat := match seq with | 1 => 0xA5 | 2 => 0xC5 | _ => 0xD5

/-- Counter and amount at a take field's low bit, and of the give. -/
def hdrTake (h : BitVec 128) (lo : Nat) : BitVec 5 × Nat := (BitVec.ofNat 5 (fieldOf h (lo + 6) (lo + 2)), fieldOf h (lo + 1) lo)
def hdrTakes (h : BitVec 128) : Takes := [hdrTake h 33, hdrTake h 26, hdrTake h 19]
def hdrGive (h : BitVec 128) : BitVec 5 × BitVec 3 := (BitVec.ofNat 5 (fieldOf h 18 14), BitVec.ofNat 3 (fieldOf h 13 11))
def hdrLength (h : BitVec 128) : Nat := fieldOf h 119 104

/-- A header that R195 admits for a sequencer. -/
def hdrOk (h : BitVec 128) (seq : Nat) : Bool :=
  fieldOf h 127 120 = kindOf seq && hdrLength h ≠ 0 && fieldOf h 10 0 = 0 &&
    (hdrTakes h).all (fun t => t.2 ≠ 0 || t.1 = 0) && ((hdrGive h).2 ≠ 0 || (hdrGive h).1 = 0)

/-- The issue offsets of a segment's words (R89): `last` the offset of each column's previous word, `prev` that of the
word before. A word that R337 rejects ends the list. -/
def todoList (seq : Nat) : List (BitVec 64) → Tab (Option Nat) → Option Nat → List Todo
  | [], _, _ => []
  | w :: t, last, prev =>
    let col := if seq = 2 then fieldOf w 63 60 else 0
    let delay := if seq = 2 then fieldOf w 59 56 else fieldOf w 55 52
    let off := match last.get none col with | none => delay | some p => p + 1 + delay
    if 6 ≤ col || off < prev.getD 0 then [{ offset := prev.getD 0, col := col, word := w, bad := true }]
    else { offset := off, col := col, word := w, bad := false } :: todoList seq t (last.ins col (some off)) (some off)

/-- The 64-bit words of a section from a byte offset. -/
def wordsAt (bs : List Byte) (off n : Nat) : List (BitVec 64) := (List.range n).map (fun i => BitVec.ofNat 64 (leNat ((bs.drop (off + 8 * i)).take 8)))

namespace State

/-- A segment begins: its takes are made, and its first word issues in the next cycle. What happens before its SEG, and the
gives that its header takes, happen before every word of it (06 R163). -/
def beginSegment (s : State) (seq : Nat) (h : BitVec 128) (words : List (BitVec 64)) (past : List Nat) : State :=
  ((s.modMem (fun m => m.tell past [{ core := s.here, seq := seq, cls := 0 }])).takesTell (hdrTakes h) 0).modCore s.here (fun c =>
    (c.makeTakes (hdrTakes h)).modUnit seq (fun u =>
      { u with
        cmdq := u.cmdq.drop 1, loaded := false, ordinal := u.ordinal + 1
        seg := some { ordinal := u.ordinal, cycles := BitVec.ofNat 32 (fieldOf h 103 72), signature := BitVec.ofNat 32 (fieldOf h 71 40)
                      gc := (hdrGive h).1, ga := (hdrGive h).2, todo := todoList seq words [] none } }))

/-- p0 to p7 take the values of the command at the head (R87), as good code words (18 R369). -/
def loadParams (s : State) (seq : Nat) (xs : List Dword) : State :=
  s.modCore s.here (fun c =>
    let c := if c.bad = [] then c else { c with bad := c.bad.filter (fun b => match b.reg with | .p u _ => u ≠ seq | _ => true) }
    c.modUnit seq (fun u => { u with loaded := true, p := (List.range 8).foldl (fun t i => t.put 0 i (xs.getD i 0)) [] }))

/-- A bad code word among the 16-byte words of a range of a section (18 R370). -/
def badCode (s : State) (seq off n : Nat) : Bool :=
  s.me.bad.any (fun b => b.reg = .code seq && off / 16 ≤ b.word && b.word * 16 < off + n)

end State

/-- The command at the head of a sequencer's queue: p0 to p7 are loaded, its header is checked and its takes waited for
(R87); a header fault names the segment that would have started (R337). -/
def execSegmentStart (s : State) : Out1 :=
  let seq := seqOf s.slotHere
  let u := s.me.unit seq
  match u.cmdq with
  | [] => .next s
  | cmd :: _ =>
    if u.seg.isSome then .next s
    else
      let s := s.loadParams seq cmd.xs
      let bs := (s.code.get {} s.here).section seq
      let off := cmd.off.toNat * 16
      if bs.length < off + 16 then .next (s.operandFault s.here s.slotHere 8)
      else if s.badCode seq off 16 then .next (s.machineCheck s.here s.slotHere .uncorrectable 6 seq 0)
      else
        let h := BitVec.ofNat 128 (leNat ((bs.drop off).take 16))
        let n := hdrLength h
        if !hdrOk h seq then .next (s.faultAt s.here s.slotHere 0x01 (fieldOf h 127 96))
        else if bs.length < off + 16 + 8 * n then .next (s.operandFault s.here s.slotHere 8)
        else if s.badCode seq off (16 + 8 * n) then .next (s.machineCheck s.here s.slotHere .uncorrectable 6 seq 0)
        else .next (s.consuming (State.takeRegs (hdrTakes h))
          (if s.me.takesMet (hdrTakes h) then s.beginSegment seq h (wordsAt bs (off + 16) n) cmd.past else s))

namespace State

/-- The segment that the cursor names, among those whose last word has issued. -/
def retiringHere (s : State) : Option Seg := s.unitHere.retiring.find? (fun g => g.ordinal = s.cur.n)

/-- A segment of the C sequencer that retires has landed: its windows and its scratchpad accesses close (R88) (log 18). -/
def closeSegment (s : State) (seq ordinal : Nat) : State :=
  if seq ≠ 2 then s
  else
    let s := s.modCore s.here (fun c => { c with cu := { c.cu with
      windows := c.cu.windows.filter (fun w => w.ordinal ≠ ordinal), vlWords := c.cu.vlWords.filter (fun w => w.ordinal ≠ ordinal) } })
    s.modMem (fun m => { m with recent := m.recent.map (fun r =>
      if r.core.toNat = s.here && seqOf r.slot = 2 && r.ordinal = ordinal then { r with until_ := min r.until_ (s.cycleOf s.here) } else r) })

/-- The record of a segment's retirement goes to a lockstep node's partner, with what the segment was observed to do (19 R399). -/
def sendRecord (s : State) (seq : Nat) (g : Seg) : State :=
  match s.nodeOn s.here with
  | none => s
  | some (n, v) =>
    if s.pastFaults s.here then s
    else s.pairSend n v
      { seq := n, rank := s.me.rank, sequencer := seq, ordinal := g.ordinal, cycles := g.count, signature := ~~~ g.crc
        digest := if irrevocable v then 0 else g.digest }

/-- A segment retires: its record goes to a lockstep node's partner. A wrong count or signature raises CHECK; otherwise the
header's give is added, which all accesses of the segment happen before (R88, R342, 06 R163, 19 R399) (log 18). -/
def retire (s : State) (seq : Nat) (g : Seg) : State :=
  let s := s.modCore s.here (fun c => c.modUnit seq (fun u => { u with retiring := u.retiring.filter (fun x => x.ordinal ≠ g.ordinal) }))
  let s := (s.closeSegment seq g.ordinal).sendRecord seq g
  let sig := ~~~ g.crc
  if g.count ≠ g.cycles.toNat || sig ≠ g.signature then
    let f := s.faultRec s.here s.slotHere 0x0D sig
    s.raise s.here { f with column := 0, index := BitVec.ofNat 32 g.ordinal, position := BitVec.ofNat 32 g.count }
  else
    s.modCore s.here (fun c => c.addToken
      { counter := g.gc, amount := g.ga.toNat, order := (match seq with | 1 => 1 | 3 => 8 | _ => 2)
        index := BitVec.ofNat 32 g.ordinal, position := 0xFFFFFFFF#32, past := s.mem.known s.here seq (fun _ => true) })

end State

/-- A segment retires; none does while the region's clock is gated (17 R348). -/
def execSegmentRetire (s : State) : Out1 :=
  match s.retiringHere with
  | none => .next s
  | some g => .next (if (s.regionAt (s.regionOf s.here)).gated then s else s.retire (seqOf s.slotHere) g)

/-! ## Watchdog and latched events -/

/-- The order of R336. -/
def slotOrder : Slot → Nat
  | .s => 0
  | .l => 1
  | .va => 2
  | .vm => 3
  | .vx => 4
  | .vl => 5
  | .mc => 6
  | .ct => 7
  | .w => 8

namespace State

/-- A core's run of frozen cycles exceeds the least limit among the late cores of its domain (R338). -/
def watchdogDue (s : State) (core : Nat) : Bool :=
  let c := s.coreAt core
  c.run && c.late ≠ [] &&
    ((s.domainOf core).any (fun d => let k := s.coreAt d; k.late ≠ [] && k.csr.wdog.toNat < c.frozenCount))

end State

/-- The LATE record of a core: its first late word in the order of R336. -/
def State.lateRec (s : State) (core : Nat) : Option (Nat × FaultRec) :=
  (sortBy (fun (a b : LateWord) => slotOrder a.slot ≤ slotOrder b.slot) (s.coreAt core).late).head?.map (fun w =>
    (core, { s.faultRec core w.slot 0x05 (BitVec.ofNat 32 (s.coreAt core).frozenCount) with index := w.index, position := w.position }))

/-- Every late core of the core's freeze domain raises LATE in one cycle (R338) (log 44). -/
def execFreezeWatchdog (s : State) : Out1 :=
  let due := ((s.domainOf s.here).filter s.watchdogDue).filterMap s.lateRec
  if !s.watchdogDue s.here then .next s
  else .next (due.foldl (fun t d => (t.modCore d.1 (fun c => { c with late := [] })).raise d.1 d.2) s)

/-- The first region cycle after a transition: the event that R336 picks is delivered (R360). -/
def execLatchedDelivery (s : State) : Out1 :=
  let core := s.here
  match sortBy (fun (a b : FaultRec) => State.recOrder a ≤ State.recOrder b) s.me.latched with
  | [] => .next s
  | f :: _ =>
    if s.transition core then .next s
    else .next (((s.modCore core (fun c => { c with latched := [] })).deliver core f).refreshHolds (s.regionOf core))

/-! ## Operand chains (R133, R134) -/

/-- The oldest entry of lane `n` of the core reaches its operand queue; a full one raises OQ_FULL there (R339). -/
def execOqEntryArrive (s : State) : Out1 :=
  match s.chains.find? (fun c => c.source.toNat = s.here && c.lane = s.cur.n) with
  | none => .next s
  | some c =>
    let target := c.target.toNat
    if s.cycleOf target < c.due then .next s
    else
      let s := { s with chains := removeFirst (fun d => d.source = c.source && d.lane = c.lane) s.chains }
      let q := (s.coreAt target).cu.opq.get [] c.queue
      if 16 ≤ q.length then
        let f := s.faultRec target .vl 0x07 (BitVec.ofNat 32 (2 * 2 ^ 24 + stripOf c.source.toNat * 2 ^ 8 + c.queue))
        .next (s.raise target f)
      else .next (s.modCore target (fun k => { k with cu := { k.cu with
        opq := k.cu.opq.put [] c.queue (q ++ [{ source := c.source, lane := c.lane, data := c.data, ready := s.cycleOf target + 1 }]) } }))

/-- A credit of lane `n` is back at its result queue. -/
def execOqCreditReturn (s : State) : Out1 :=
  match s.credits.find? (fun c => c.source.toNat = s.here && c.lane = s.cur.n) with
  | none => .next s
  | some c =>
    if s.cycleOf s.here < c.due then .next s
    else
      let s := { s with credits := removeFirst (fun d => d.source = c.source && d.lane = c.lane) s.credits }
      .next (s.modCore s.here (fun k => { k with cu := { k.cu with used := k.cu.used.put 0 c.lane (k.cu.used.get 0 c.lane - 1) } }))

end Sys2Proof.Machine
end

