-- ==== Sys2Proof/Machine/Special.lean ====
section
/-! DEFINITION. The functions of 05 R156, each rounded once from its exact value.

The exact value is irrational wherever it is not a special case, so a fixed-point value below it, with its last bit
set, rounds as the exact value does unless that lies within the error of a rounding boundary. 640 fraction bits leave
that error more than 400 bits below the last place of any result. DEDUCED (log 15). -/

namespace Sys2Proof.Machine

/-- Fraction bits of the fixed point. -/
def spBits : Nat := 640

/-- floor(ln 2 × 2^720). -/
def ln2Fixed : Nat :=
  0xb17217f7d1cf79abc9e3b39803f2f6af40f343267298b62d8a0d175b8baafa2be7b876206debac98559552fb4afa1b10ed2eae35c138214427573b291169b8253e96ca16224ae8c51acbda11317c387eb9ea9bc3b136603b256f

/-- ln 2 at `spBits`. -/
def ln2Sp : Nat := ln2Fixed >>> 80

/-- Taylor terms of e^r from term k on, at `spBits`: r in [0, 1). -/
def expTerms : Nat → Nat → Nat → Nat → Nat
  | 0, _, _, _ => 0
  | fuel + 1, r, k, term =>
    if term = 0 then 0 else term + expTerms fuel r (k + 1) (((term * r) >>> spBits) / (k + 1))

/-- e^r for r at `spBits` in [0, 1). -/
def expFrac (r : Nat) : Nat := expTerms 200 r 0 (2 ^ spBits)

/-- Terms z^(2k+1) / (2k+1) of the inverse hyperbolic tangent. -/
def atanhTerms : Nat → Nat → Nat → Nat → Nat
  | 0, _, _, _ => 0
  | fuel + 1, z2, k, pow =>
    if pow = 0 then 0 else pow / (2 * k + 1) + atanhTerms fuel z2 (k + 1) ((pow * z2) >>> spBits)

/-- ln m for m at `spBits` in [1, 2). -/
def lnFrac (m : Nat) : Nat :=
  let one := 2 ^ spBits
  let z := ((m - one) <<< spBits) / (m + one)
  2 * atanhTerms 240 ((z * z) >>> spBits) 0 z

/-- A fixed-point value with its sticky bit set. -/
def sticky (neg : Bool) (v : Nat) (exp : Int) : Num := .fin neg (2 * v + 1) (exp - 1)

/-- A finite nonzero magnitude at `spBits`, rounded down. -/
def fixedOf (man : Nat) (exp : Int) : Nat :=
  let s := exp + spBits
  if 0 ≤ s then man <<< s.toNat else man >>> (-s).toNat

/-- e^y for y at `spBits`, y ≥ 0: the fraction in [1, 2) at `spBits` and its binary exponent. -/
def expPos (y : Nat) : Nat × Nat := (expFrac (y % ln2Sp), y / ln2Sp)

/-- e^-y at `spBits` for y ≥ 0 at `spBits`. -/
def expNeg (y : Nat) : Nat :=
  let (f, n) := expPos y
  (2 ^ (2 * spBits) / f) >>> n

/-- exp2 of a finite nonzero value. -/
def exp2Num (neg : Bool) (man : Nat) (exp : Int) : Num :=
  -- beyond every range: far above or far below all formats
  if 12 ≤ exp + log2 man then (if neg then sticky false 1 (-2000) else .fin false 1 2000)
  else
    let whole : Int := if 0 ≤ exp then (man <<< exp.toNat : Nat) else (man >>> (-exp).toNat : Nat)
    let frac : Nat := if 0 ≤ exp then 0 else man % 2 ^ (-exp).toNat
    if frac = 0 then .fin false 1 (if neg then -whole else whole)
    else
      let f := fixedOf frac exp
      if neg then
        let g := 2 ^ spBits - f
        sticky false (expFrac ((g * ln2Sp) >>> spBits)) (-whole - 1 - spBits)
      else sticky false (expFrac ((f * ln2Sp) >>> spBits)) (whole - spBits)

/-- log2 of a finite positive value. -/
def log2Num (man : Nat) (exp : Int) : Num :=
  let l := log2 man
  let n : Int := exp + l
  if man = 2 ^ l then .ofInt n
  else
    let lg := ((lnFrac (man <<< (spBits - l))) <<< spBits) / ln2Sp
    let v : Int := n * (2 ^ spBits : Nat) + lg
    if v < 0 then sticky true (v.natAbs - 1) (-spBits) else sticky false v.natAbs (-spBits)

/-- The reciprocal of a finite nonzero value: 400 quotient bits and a sticky bit. -/
def recipNum (neg : Bool) (man : Nat) (exp : Int) : Num :=
  let l := log2 man
  if man = 2 ^ l then .fin neg 1 (-exp - l)
  else sticky neg (2 ^ (400 + l) / man) (-exp - (400 + l : Nat))

/-- floor(sqrt n), by bits from the highest. -/
def isqrtGo : Nat → Nat → Nat → Nat
  | 0, _, r => r
  | k + 1, n, r =>
    let c := r + 2 ^ k
    isqrtGo k n (if c * c ≤ n then c else r)

/-- The reciprocal square root of a finite positive value. -/
def rsqrtNum (man : Nat) (exp : Int) : Num :=
  -- 1 / sqrt(man 2^exp) with an even exponent
  let (m, e) := if exp % 2 = 0 then (man, exp) else (2 * man, exp - 1)
  let q := 2 ^ 600 / m
  let r := isqrtGo 301 q 0
  if r * r * m = 2 ^ 600 then .fin false r (-300 - e / 2) else sticky false r (-300 - e / 2)

/-- tanh of a finite nonzero value. -/
def tanhNum (neg : Bool) (man : Nat) (exp : Int) : Num :=
  if 8 ≤ exp + log2 man then sticky neg (2 ^ spBits - 1) (-spBits)
  else
    -- (1 - t) / (1 + t) with t = e^(-2 x)
    let t := expNeg (2 * fixedOf man exp)
    let one := 2 ^ spBits
    sticky neg (((one - t) <<< spBits) / (one + t)) (-spBits)

/-- The sigmoid of a finite nonzero value. -/
def sigmNum (neg : Bool) (man : Nat) (exp : Int) : Num :=
  if 8 ≤ exp + log2 man then (if neg then sticky false 1 (-300) else sticky false (2 ^ spBits - 1) (-spBits))
  else
    let t := expNeg (fixedOf man exp)
    let one := 2 ^ spBits
    if neg then sticky false ((t <<< spBits) / (one + t)) (-spBits)
    else sticky false ((one <<< spBits) / (one + t)) (-spBits)

/-- VSFN function `fn` at floating type `t` (R156). -/
def special (t fn : Nat) (b : Nat) : Nat × Flags :=
  match fn, numOf t b with
  | _, .nan => (nanOf t, 0)
  | 0, .inf neg => if neg then rne t (.fin false 0 0) else rne t (.inf false)
  | 0, .fin neg man exp => if man = 0 then rne t (.fin false 1 0) else rne t (exp2Num neg man exp)
  | 1, .inf neg => if neg then (nanOf t, flInvalid) else rne t (.inf false)
  | 1, .fin neg man exp =>
    if man = 0 then ((rne t (.inf true)).1, flDivzero)
    else if neg then (nanOf t, flInvalid) else rne t (log2Num man exp)
  | 2, .inf neg => rne t (.fin neg 0 0)
  | 2, .fin neg man exp => if man = 0 then ((rne t (.inf neg)).1, flDivzero) else rne t (recipNum neg man exp)
  | 3, .inf neg => if neg then (nanOf t, flInvalid) else rne t (.fin false 0 0)
  | 3, .fin neg man exp =>
    if man = 0 then ((rne t (.inf neg)).1, flDivzero)
    else if neg then (nanOf t, flInvalid) else rne t (rsqrtNum man exp)
  | 4, .inf neg => rne t (.fin neg 1 0)
  | 4, .fin neg man exp => if man = 0 then rne t (.fin neg 0 0) else rne t (tanhNum neg man exp)
  | _, .inf neg => if neg then rne t (.fin false 0 0) else rne t (.fin false 1 0)
  | _, .fin neg man exp => if man = 0 then rne t (.fin false 1 (-1)) else rne t (sigmNum neg man exp)

end Sys2Proof.Machine
end

