-- ==== Sys2Proof/Machine/VecX.lean ====
section
/-! DEFINITION. The VX column: lane moves, reductions, special functions, random draws, the sieve, counts, compression
and sorting (10 R267 to R274). -/

namespace Sys2Proof.Machine

/-! ## Lane moves (R267) -/

def execVperm (w : VArgs) (s : State) : Out1 :=
  let a := s.vRead w.va.toNat
  let b := s.vRead w.vb.toNat
  let c := s.vRead w.vc.toNat
  let pick (j : Nat) : Nat := if j < w.n then elemAt a w.bits j else elemAt c w.bits (j - w.n)
  s.vLanes w w.bits (src3 w) [] 3 (lanes w.n (s.vMask w) (fun i => (pick (elemAt b w.bits i % (2 * w.n)), 0)))

/-- Which source (true: b) and element a pattern of VSHUF takes for element i of n. -/
def shufPick (pat n i : Nat) : Bool × Nat :=
  match pat with
  | 0 => (i % 2 = 1, i / 2)
  | 1 => (i % 2 = 1, n / 2 + i / 2)
  | 2 => if i < n / 2 then (false, 2 * i) else (true, 2 * (i - n / 2))
  | 3 => if i < n / 2 then (false, 2 * i + 1) else (true, 2 * (i - n / 2) + 1)
  | 4 => (false, n - 1 - i)
  | _ => (false, i ^^^ 1)

def execVshuf (w : VArgs) (s : State) : Out1 :=
  let a := s.vRead w.va.toNat
  let b := s.vRead w.vb.toNat
  let pat := w.immf 3 0
  let pick (i : Nat) : Nat := let p := shufPick pat w.n i; elemAt (if p.1 then b else a) w.bits p.2
  s.vLanes w w.bits (if pat < 4 then src2 w else src1 w) [] 2 (lanes w.n (s.vMask w) (fun i => (pick i, 0)))

def execVrot (w : VArgs) (s : State) : Out1 :=
  let a := s.vRead w.va.toNat
  s.vLanes w w.bits (src1 w) [] 2 (lanes w.n (s.vMask w) (fun i => (elemAt a w.bits ((i + w.immf 9 0) % w.n), 0)))

def execVbc (w : VArgs) (s : State) : Out1 :=
  let a := s.vRead w.va.toNat
  s.vLanes w w.bits (src1 w) [] 2 (lanes w.n (s.vMask w) (fun _ => (elemAt a w.bits (w.immf 9 0), 0)))

/-! ## Reductions (R268) -/

/-- The inputs of a reduction: a masked-off element counts as the identity. -/
def State.redInputs (s : State) (w : VArgs) : List Nat :=
  let a := s.vRead w.va.toNat
  let mask := s.vMask w
  (List.range w.n).map (fun i => if mask.getLsbD i then elemAt a w.bits i else identityOf w.t (w.immf 2 0))

def execVred (w : VArgs) (s : State) : Out1 :=
  let r := treeOf (combine w.t (w.immf 2 0)) 11 (s.redInputs w)
  s.vLanes w w.bits (src1 w) [] 12 [some r]

/-- The inclusive prefix from a value `y` on (05 R155). -/
def scanFrom (op : Nat → Nat → Nat × Flags) (y : Nat) : List Nat → List Lane
  | [] => []
  | x :: t => let r := op y x; some r :: scanFrom op r.1 t

def execVscan (w : VArgs) (s : State) : Out1 :=
  let op := w.immf 2 0
  s.vLanes w w.bits (src1 w) [] 12 (scanFrom (combine w.t op) (identityOf w.t op) (s.redInputs w))

def execVsfn (w : VArgs) (s : State) : Out1 := s.vEach w (src1 w) 10 (fun a _ _ => special w.t (w.immf 2 0) a)

/-! ## Random draws (R270) -/

/-- H of element i: the index is exact. -/
def State.draw (s : State) (w : VArgs) (i : Nat) : BitVec 64 :=
  whisk s.me.csr.rngSeed s.me.csr.rngStep (fieldOf (s.pHere (w.vb.setWidth 3)) 63 32 + i)

def execVrng (w : VArgs) (s : State) : Out1 :=
  let also := s.pWord (w.vb.toNat % 8) :: State.rngRegs
  match w.immf 1 0 with
  | 0 => s.vLanes w w.bits [] [] 6 (lanes w.n (s.vMask w) (fun i => ((s.draw w i).toNat / 2 ^ (64 - w.bits), 0))) also
  | 1 =>
    let thr := fieldOf (s.pHere (w.vb.setWidth 3)) 31 0
    s.vMaskWord w [] 6 (fun i => thr ≤ (s.draw w i).toNat / 2 ^ 32) also
  | _ =>
    s.vLanes w w.bits [] [] 6
      (lanes w.n (s.vMask w) (fun i => ((rne 12 (.fin false ((s.draw w i).toNat / 2 ^ 40) (-24))).1, 0))) also

/-! ## The sieve (R271, R272) -/

/-- Entries of a path, and appends reserved for it. -/
def Core.sieveUse (c : Core) (path : Nat) : Nat :=
  (c.cu.sieve.get [] path).length + ((c.cu.appends.filter (fun a => a.path = path)).map (fun a => a.entries.length)).sum

/-- VSIEV: a path without room raises OQ_FULL before the takes are considered; the appends stand at the end of issue + 3. -/
def execVsiev (w : VArgs) (s : State) : Out1 :=
  let path := w.immf 1 0
  let live := ([w.vb, w.vc, w.vd].take (w.immf 3 2)).map (fun r => r.toNat)
  let x := fieldOf (s.pHere (BitVec.ofNat 3 (w.immf 6 4))) 63 32
  let a := s.vRead w.va.toNat
  let mask := s.vMask w
  let imgs := live.map s.vRead
  let picked := (List.range w.n).filter (fun i => mask.getLsbD i)
  let entries : List SieveEntry := picked.map (fun i =>
    { index := BitVec.ofNat 32 (x + i), elem := BitVec.ofNat 32 (elemAt a w.bits i)
      live := imgs.map (fun v => BitVec.ofNat 32 (elemAt v w.bits i)) })
  let cap := elemAt s.me.csr.sieveCfg 12 path
  let full := cap < s.me.sieveUse path + entries.length
  s.vWord (w.va.toNat :: live) [] [w.mask.toNat] (also := [s.pWord (w.immf 6 4), .csr 4]) (if full then .error (7, 3 * 2 ^ 24 + path) else .ok false)
    (s.vIssues 4 {} (fun c =>
      if entries = [] then c
      else { c with cu := { c.cu with appends := c.cu.appends ++ [{ path := path, due := s.cycleOf s.here + 3, entries := entries }] } }))

/-- Lanes 0 to k - 1 from entries, every other lane zero. -/
def drainLanes (n : Nat) (vals : List Nat) : List Lane := allLanes n (fun i => vals.getD i 0)

def execVsdrn (w : VArgs) (s : State) : Out1 :=
  let path := w.immf 1 0
  let nl := w.immf 3 2
  let mk := w.immf 7 4
  let vd := w.vd.toNat
  let q := s.me.cu.sieve.get [] path
  let got := q.take 128
  let elems : BitVec 4096 := laneImage w.bits 0 (drainLanes w.n (got.map (fun e => e.elem.toNat % 2 ^ w.bits)))
  let idxs : BitVec 4096 := laneImage 32 0 (drainLanes 128 (got.map (fun e => e.index.toNat)))
  let lives := (List.range nl).map (fun l =>
    ({ reg := vd + 2 + l, image := laneImage w.bits 0 (drainLanes w.n (got.map (fun e => (e.live.getD l 0).toNat % 2 ^ w.bits))) } : Put 4096))
  s.vWord [] (vd :: (vd + 1) :: lives.map (fun l => l.reg)) [] (.ok false)
    (s.vIssues 6 { vs := [{ reg := vd, image := elems }, { reg := vd + 1, image := idxs }] ++ lives,
                    ms := [{ reg := mk, image := BitVec.ofNat 1024 (2 ^ got.length - 1) }] }
      (fun c => { c with cu := { c.cu with sieve := c.cu.sieve.put [] path (q.drop 128) } }))

/-! ## Counts, compression, indices, sorting (R273, R274) -/

/-- pop, clz and ctz at a width. -/
def elemCnt (w op a : Nat) : Nat :=
  match op with
  | 0 => popNat w a
  | 1 => if a = 0 then w else w - 1 - a.log2
  | _ => if a = 0 then w else ((List.range w).find? (fun i => bitOf a i)).getD w

def execVcnt (w : VArgs) (s : State) : Out1 := s.vEach w (src1 w) 2 (fun a _ _ => (elemCnt w.bits (w.immf 1 0) a, 0))

def execVcmpr (w : VArgs) (s : State) : Out1 :=
  let a := s.vRead w.va.toNat
  let mc := s.mRead w.vc.toNat
  let got := ((List.range w.n).filter (fun i => mc.getLsbD i)).map (elemAt a w.bits)
  s.vLanes w w.bits (src1 w) [w.vc.toNat] 4 (drainLanes w.n got)

/-- Elements for set selector bits in turn from element `r` on, zero elsewhere. -/
def expandFrom (f : Nat → Nat) (sel : Nat → Bool) : List Nat → Nat → List Lane
  | [], _ => []
  | i :: t, r => if sel i then some (f r, 0) :: expandFrom f sel t (r + 1) else some (0, 0) :: expandFrom f sel t r

def execVexpd (w : VArgs) (s : State) : Out1 :=
  let a := s.vRead w.va.toNat
  let mc := s.mRead w.vc.toNat
  s.vLanes w w.bits (src1 w) [w.vc.toNat] 4 (expandFrom (elemAt a w.bits) (fun i => mc.getLsbD i) (List.range w.n) 0)

def execVidx (w : VArgs) (s : State) : Out1 :=
  s.vLanes w w.bits [] [] 1 (lanes w.n (s.vMask w) (fun i => (wrapTo w.t (w.imm.toInt + i), 0)))

/-- Sorted places: real keys ascending, then masked-off places, each stable. -/
def sortPlaces (mask : BitVec 1024) (keys : List Nat) : List Nat :=
  let live := keys.zipIdx.filter (fun p => mask.getLsbD p.2)
  let rest := keys.zipIdx.filter (fun p => !mask.getLsbD p.2)
  (sortBy (fun (p q : Nat × Nat) => p.1 < q.1 || (p.1 = q.1 && p.2 ≤ q.2)) live ++ rest).map (fun p => p.2)

def execVksrt (w : VArgs) (s : State) : Out1 :=
  let wide := w.immf 0 0 = 1
  let va := w.va.toNat
  let vd := w.vd.toNat
  let lo := elemsOf (s.vRead va) 32 128
  let hi := if wide then elemsOf (s.vRead (va + 1)) 32 128 else []
  let pay := elemsOf (s.vRead w.vb.toNat) 32 128
  let keys := if wide then (lo.zip hi).map (fun p => p.1 + p.2 * 2 ^ 32) else lo
  let order := sortPlaces (s.vMask w) keys
  let place (xs : List Nat) : BitVec 4096 := BitVec.ofNat 4096 (packElems 32 (order.map (fun i => xs.getD i 0)))
  let outs := if wide then [(vd, place lo), (vd + 1, place hi), (vd + 2, place pay)] else [(vd, place lo), (vd + 1, place pay)]
  s.vWord (src2 w ++ (if wide then [va + 1] else [])) (outs.map (fun o => o.1)) [w.mask.toNat] (.ok false)
    (s.vIssues (if wide then 40 else 24) { vs := outs.map (fun o => { reg := o.1, image := o.2 }) } id)

end Sys2Proof.Machine
end

