-- ==== Sys2Proof/Machine/Dispatch.lean ====
section
/-! DEFINITION. One arm for each constructor of Instr: the meaning it calls. -/

namespace Sys2Proof.Machine

def exec (i : Instr) (s : State) : Host.Outcome State Fault Refusal :=
  match i with
  | .launch m => Sys2Proof.Machine.execLaunch m s
  | .queueCtlDrain m => Sys2Proof.Machine.execQueueCtlDrain m s
  | .queueCtlAbort m => Sys2Proof.Machine.execQueueCtlAbort m s
  | .nodeResume m => Sys2Proof.Machine.execNodeResume m s
  | .nodeAbort m => Sys2Proof.Machine.execNodeAbort m s
  | .tokenAdd m => Sys2Proof.Machine.execTokenAdd m s
  | .secLoad m => Sys2Proof.Machine.execSecLoad m s
  | .secGetid m => Sys2Proof.Machine.execSecGetid m s
  | .secQuote m => Sys2Proof.Machine.execSecQuote m s
  | .secExtend m => Sys2Proof.Machine.execSecExtend m s
  | .secKeyset m => Sys2Proof.Machine.execSecKeyset m s
  | .secKeydel m => Sys2Proof.Machine.execSecKeydel m s
  | .secChal m => Sys2Proof.Machine.execSecChal m s
  | .secUnlock m => Sys2Proof.Machine.execSecUnlock m s
  | .secSecure m => Sys2Proof.Machine.execSecSecure m s
  | .secRetire m => Sys2Proof.Machine.execSecRetire m s
  | .regRead m => Sys2Proof.Machine.execRegRead m s
  | .regWrite m => Sys2Proof.Machine.execRegWrite m s
  | .sourceCfgWrite m => Sys2Proof.Machine.execSourceCfgWrite m s
  | .regionBind m => Sys2Proof.Machine.execRegionBind m s
  | .regionUnbind m => Sys2Proof.Machine.execRegionUnbind m s
  | .ingestCfgWrite m => Sys2Proof.Machine.execIngestCfgWrite m s
  | .regionPolWrite m => Sys2Proof.Machine.execRegionPolWrite m s
  | .xcfgEnable m => Sys2Proof.Machine.execXcfgEnable m s
  | .xcfgDisable m => Sys2Proof.Machine.execXcfgDisable m s
  | .queueCfgWrite m => Sys2Proof.Machine.execQueueCfgWrite m s
  | .partTokensWrite m => Sys2Proof.Machine.execPartTokensWrite m s
  | .partIlvWrite m => Sys2Proof.Machine.execPartIlvWrite m s
  | .partInv m => Sys2Proof.Machine.execPartInv m s
  | .chanRetiredWrite m => Sys2Proof.Machine.execChanRetiredWrite m s
  | .jrnlCfgWrite m => Sys2Proof.Machine.execJrnlCfgWrite m s
  | .jrnlSelWrite m => Sys2Proof.Machine.execJrnlSelWrite m s
  | .errInjWrite m => Sys2Proof.Machine.execErrInjWrite m s
  | .thermReasonWrite m => Sys2Proof.Machine.execThermReasonWrite m s
  | .eccStatRead m => Sys2Proof.Machine.execEccStatRead m s
  | .boostDecision quad estimate => Sys2Proof.Machine.execBoostDecision quad estimate s
  | .powerSample region currents estimate rails => Sys2Proof.Machine.execPowerSample region currents estimate rails s
  | .hardLimitExceeded estimate => Sys2Proof.Machine.execHardLimitExceeded estimate s
  | .hardLimitRecovery estimate => Sys2Proof.Machine.execHardLimitRecovery estimate s
  | .thermalCut reason sensor => Sys2Proof.Machine.execThermalCut reason sensor s
  | .sourceTick region err ask => Sys2Proof.Machine.execSourceTick region err ask s
  | .realignResume region frame => Sys2Proof.Machine.execRealignResume region frame s
  | .streamPacketReceive port f => Sys2Proof.Machine.execStreamPacketReceive port f s
  | .ptpMessageReceive kind domain port offset best => Sys2Proof.Machine.execPtpMessageReceive kind domain port offset best s
  | .hbmScrub stack channel row => Sys2Proof.Machine.execHbmScrub stack channel row s
  | .flitReplay link => Sys2Proof.Machine.execFlitReplay link s
  | .linkRetrain link => Sys2Proof.Machine.execLinkRetrain link s
  | .linkRetrainFail link => Sys2Proof.Machine.execLinkRetrainFail link s
  | .pairRecordCompare remote => Sys2Proof.Machine.execPairRecordCompare remote s
  | .debugPortAccess core op => Sys2Proof.Machine.execDebugPortAccess core op s
  | .add d a b => Sys2Proof.Machine.execAdd d a b s
  | .sub d a b => Sys2Proof.Machine.execSub d a b s
  | .mul d a b => Sys2Proof.Machine.execMul d a b s
  | .mulh d a b => Sys2Proof.Machine.execMulh d a b s
  | .mulhn d a b => Sys2Proof.Machine.execMulhn d a b s
  | .div d a b => Sys2Proof.Machine.execDiv d a b s
  | .divn d a b => Sys2Proof.Machine.execDivn d a b s
  | .rem d a b => Sys2Proof.Machine.execRem d a b s
  | .remn d a b => Sys2Proof.Machine.execRemn d a b s
  | .and d a b => Sys2Proof.Machine.execAnd d a b s
  | .or d a b => Sys2Proof.Machine.execOr d a b s
  | .xor d a b => Sys2Proof.Machine.execXor d a b s
  | .andn d a b => Sys2Proof.Machine.execAndn d a b s
  | .shl d a b => Sys2Proof.Machine.execShl d a b s
  | .shr d a b => Sys2Proof.Machine.execShr d a b s
  | .sar d a b => Sys2Proof.Machine.execSar d a b s
  | .min d a b => Sys2Proof.Machine.execMin d a b s
  | .max d a b => Sys2Proof.Machine.execMax d a b s
  | .clz d a => Sys2Proof.Machine.execClz d a s
  | .popc d a => Sys2Proof.Machine.execPopc d a s
  | .sel d a b q => Sys2Proof.Machine.execSel d a b q s
  | .ceq d a b => Sys2Proof.Machine.execCeq d a b s
  | .cne d a b => Sys2Proof.Machine.execCne d a b s
  | .clt d a b => Sys2Proof.Machine.execClt d a b s
  | .cle d a b => Sys2Proof.Machine.execCle d a b s
  | .cltn d a b => Sys2Proof.Machine.execCltn d a b s
  | .clen d a b => Sys2Proof.Machine.execClen d a b s
  | .qand d a b => Sys2Proof.Machine.execQand d a b s
  | .qor d a b => Sys2Proof.Machine.execQor d a b s
  | .qnot d a => Sys2Proof.Machine.execQnot d a s
  | .kset d a b => Sys2Proof.Machine.execKset d a b s
  | .kpack d a => Sys2Proof.Machine.execKpack d a s
  | .kunpk d a => Sys2Proof.Machine.execKunpk d a s
  | .kadd d a b => Sys2Proof.Machine.execKadd d a b s
  | .ksub d a b => Sys2Proof.Machine.execKsub d a b s
  | .kcmp d a b => Sys2Proof.Machine.execKcmp d a b s
  | .ksplit d a b q => Sys2Proof.Machine.execKsplit d a b q s
  | .kpfx d a b => Sys2Proof.Machine.execKpfx d a b s
  | .lds d a b c => Sys2Proof.Machine.execLds d a b c s
  | .ldsK d a b c => Sys2Proof.Machine.execLdsK d a b c s
  | .sts d a b c => Sys2Proof.Machine.execSts d a b c s
  | .stsK d a b c => Sys2Proof.Machine.execStsK d a b c s
  | .ltset d a c => Sys2Proof.Machine.execLtset d a c s
  | .aadd d a b c => Sys2Proof.Machine.execAadd d a b c s
  | .aaddK d a b c => Sys2Proof.Machine.execAaddK d a b c s
  | .amin d a b c => Sys2Proof.Machine.execAmin d a b c s
  | .aminK d a b c => Sys2Proof.Machine.execAminK d a b c s
  | .amax d a b c => Sys2Proof.Machine.execAmax d a b c s
  | .amaxK d a b c => Sys2Proof.Machine.execAmaxK d a b c s
  | .axch d a b c => Sys2Proof.Machine.execAxch d a b c s
  | .axchK d a b c => Sys2Proof.Machine.execAxchK d a b c s
  | .acas d a b c => Sys2Proof.Machine.execAcas d a b c s
  | .acasK d a b c => Sys2Proof.Machine.execAcasK d a b c s
  | .tadd d a n => Sys2Proof.Machine.execTadd d a n s
  | .ttake d a n => Sys2Proof.Machine.execTtake d a n s
  | .twait d a n => Sys2Proof.Machine.execTwait d a n s
  | .tread d a => Sys2Proof.Machine.execTread d a s
  | .gbar tier => Sys2Proof.Machine.execGbar tier s
  | .fnc scope => Sys2Proof.Machine.execFnc scope s
  | .seg d a b => Sys2Proof.Machine.execSeg d a b s
  | .fmtq a => Sys2Proof.Machine.execFmtq a s
  | .qdep d code => Sys2Proof.Machine.execQdep d code s
  | .qflsh d code => Sys2Proof.Machine.execQflsh d code s
  | .time d => Sys2Proof.Machine.execTime d s
  | .waitt a => Sys2Proof.Machine.execWaitt a s
  | .pwrq d => Sys2Proof.Machine.execPwrq d s
  | .lnch d a q => Sys2Proof.Machine.execLnch d a q s
  | .trap n => Sys2Proof.Machine.execTrap n s
  | .csrr d n => Sys2Proof.Machine.execCsrr d n s
  | .csrw n a => Sys2Proof.Machine.execCsrw n a s
  | .brk n => Sys2Proof.Machine.execBrk n s
  | .addi d a imm => Sys2Proof.Machine.execAddi d a imm s
  | .andi d a imm => Sys2Proof.Machine.execAndi d a imm s
  | .ori d a imm => Sys2Proof.Machine.execOri d a imm s
  | .xori d a imm => Sys2Proof.Machine.execXori d a imm s
  | .shli d a imm => Sys2Proof.Machine.execShli d a imm s
  | .shri d a imm => Sys2Proof.Machine.execShri d a imm s
  | .sari d a imm => Sys2Proof.Machine.execSari d a imm s
  | .ceqi d a imm => Sys2Proof.Machine.execCeqi d a imm s
  | .clti d a imm => Sys2Proof.Machine.execClti d a imm s
  | .cltni d a imm => Sys2Proof.Machine.execCltni d a imm s
  | .liz d imm => Sys2Proof.Machine.execLiz d imm s
  | .lis d imm => Sys2Proof.Machine.execLis d imm s
  | .lic d imm => Sys2Proof.Machine.execLic d imm s
  | .pbr bt disp => Sys2Proof.Machine.execPbr bt disp s
  | .pbrLo bt disp => Sys2Proof.Machine.execPbrLo bt disp s
  | .pbrr bt a => Sys2Proof.Machine.execPbrr bt a s
  | .pbrrLo bt a => Sys2Proof.Machine.execPbrrLo bt a s
  | .br bt q inv => Sys2Proof.Machine.execBr bt q inv s
  | .brl bt q inv => Sys2Proof.Machine.execBrl bt q inv s
  | .loop bt q inv a => Sys2Proof.Machine.execLoop bt q inv a s
  | .tld w => Sys2Proof.Machine.execTld w s
  | .tst w => Sys2Proof.Machine.execTst w s
  | .tldr w => Sys2Proof.Machine.execTldr w s
  | .tstr w => Sys2Proof.Machine.execTstr w s
  | .tgr w => Sys2Proof.Machine.execTgr w s
  | .tbc w => Sys2Proof.Machine.execTbc w s
  | .gth w => Sys2Proof.Machine.execGth w s
  | .sct w => Sys2Proof.Machine.execSct w s
  | .scta w => Sys2Proof.Machine.execScta w s
  | .rgth w => Sys2Proof.Machine.execRgth w s
  | .fill w => Sys2Proof.Machine.execFill w s
  | .bcpy w => Sys2Proof.Machine.execBcpy w s
  | .bcan w => Sys2Proof.Machine.execBcan w s
  | .bstat w => Sys2Proof.Machine.execBstat w s
  | .ingt w => Sys2Proof.Machine.execIngt w s
  | .egr w => Sys2Proof.Machine.execEgr w s
  | .xwr w => Sys2Proof.Machine.execXwr w s
  | .xrd w => Sys2Proof.Machine.execXrd w s
  | .dnop w => Sys2Proof.Machine.execDnop w s
  | .vadd w => Sys2Proof.Machine.execVadd w s
  | .vsub w => Sys2Proof.Machine.execVsub w s
  | .vmin w => Sys2Proof.Machine.execVmin w s
  | .vmax w => Sys2Proof.Machine.execVmax w s
  | .vabs w => Sys2Proof.Machine.execVabs w s
  | .vneg w => Sys2Proof.Machine.execVneg w s
  | .vand w => Sys2Proof.Machine.execVand w s
  | .vor w => Sys2Proof.Machine.execVor w s
  | .vxor w => Sys2Proof.Machine.execVxor w s
  | .vshl w => Sys2Proof.Machine.execVshl w s
  | .vshr w => Sys2Proof.Machine.execVshr w s
  | .vsar w => Sys2Proof.Machine.execVsar w s
  | .vcmp w => Sys2Proof.Machine.execVcmp w s
  | .vsel w => Sys2Proof.Machine.execVsel w s
  | .vclmp w => Sys2Proof.Machine.execVclmp w s
  | .vcvt w => Sys2Proof.Machine.execVcvt w s
  | .vwid w => Sys2Proof.Machine.execVwid w s
  | .vnar w => Sys2Proof.Machine.execVnar w s
  | .vmul w => Sys2Proof.Machine.execVmul w s
  | .vfma w => Sys2Proof.Machine.execVfma w s
  | .vfms w => Sys2Proof.Machine.execVfms w s
  | .vfnma w => Sys2Proof.Machine.execVfnma w s
  | .vmulw w => Sys2Proof.Machine.execVmulw w s
  | .vdot w => Sys2Proof.Machine.execVdot w s
  | .vmulh w => Sys2Proof.Machine.execVmulh w s
  | .vscl w => Sys2Proof.Machine.execVscl w s
  | .vqnt w => Sys2Proof.Machine.execVqnt w s
  | .vperm w => Sys2Proof.Machine.execVperm w s
  | .vshuf w => Sys2Proof.Machine.execVshuf w s
  | .vrot w => Sys2Proof.Machine.execVrot w s
  | .vbc w => Sys2Proof.Machine.execVbc w s
  | .vred w => Sys2Proof.Machine.execVred w s
  | .vscan w => Sys2Proof.Machine.execVscan w s
  | .vsfn w => Sys2Proof.Machine.execVsfn w s
  | .vrng w => Sys2Proof.Machine.execVrng w s
  | .vsiev w => Sys2Proof.Machine.execVsiev w s
  | .vsdrn w => Sys2Proof.Machine.execVsdrn w s
  | .vcnt w => Sys2Proof.Machine.execVcnt w s
  | .vcmpr w => Sys2Proof.Machine.execVcmpr w s
  | .vexpd w => Sys2Proof.Machine.execVexpd w s
  | .vidx w => Sys2Proof.Machine.execVidx w s
  | .vksrt w => Sys2Proof.Machine.execVksrt w s
  | .vld w => Sys2Proof.Machine.execVld w s
  | .vst w => Sys2Proof.Machine.execVst w s
  | .vldg w => Sys2Proof.Machine.execVldg w s
  | .vstg w => Sys2Proof.Machine.execVstg w s
  | .vldb w => Sys2Proof.Machine.execVldb w s
  | .oqp w => Sys2Proof.Machine.execOqp w s
  | .oqg w => Sys2Proof.Machine.execOqg w s
  | .vlendLend w => Sys2Proof.Machine.execVlendLend w s
  | .vlendRet w => Sys2Proof.Machine.execVlendRet w s
  | .mlease w => Sys2Proof.Machine.execMlease w s
  | .mrel w => Sys2Proof.Machine.execMrel w s
  | .mshape w => Sys2Proof.Machine.execMshape w s
  | .mldw w => Sys2Proof.Machine.execMldw w s
  | .mswp w => Sys2Proof.Machine.execMswp w s
  | .mmul w => Sys2Proof.Machine.execMmul w s
  | .mzacc w => Sys2Proof.Machine.execMzacc w s
  | .mdrn w => Sys2Proof.Machine.execMdrn w s
  | .mocr w => Sys2Proof.Machine.execMocr w s
  | .mchk w => Sys2Proof.Machine.execMchk w s
  | .mbst w => Sys2Proof.Machine.execMbst w s
  | .cnop w => Sys2Proof.Machine.execCnop w s
  | .ctok w => Sys2Proof.Machine.execCtok w s
  | .peerCopyWrite package core offset bytes how => Sys2Proof.Machine.execPeerCopyWrite package core offset bytes how s
  | .ptpMessageTransmit kind port => Sys2Proof.Machine.execPtpMessageTransmit kind port s
  | .pairCopyReceive primary queue rec => Sys2Proof.Machine.execPairCopyReceive primary queue rec s
  | .pairPreemptionReceive primary kind points => Sys2Proof.Machine.execPairPreemptionReceive primary kind points s
  | .regionQuadsWrite m => Sys2Proof.Machine.execRegionQuadsWrite m s
  | .sourcePeriodWrite m => Sys2Proof.Machine.execSourcePeriodWrite m s
  | .xperiodWrite m => Sys2Proof.Machine.execXperiodWrite m s
  | .partPtbrWrite m => Sys2Proof.Machine.execPartPtbrWrite m s
  | .timeCfgWrite m => Sys2Proof.Machine.execTimeCfgWrite m s
  | .portEgrWrite m => Sys2Proof.Machine.execPortEgrWrite m s
  | .pairCfgWrite m => Sys2Proof.Machine.execPairCfgWrite m s
  | .tokenAddApply => Sys2Proof.Machine.execTokenAddApply s
  | .partTokenRefill => Sys2Proof.Machine.execPartTokenRefill s
  | .partInvComplete => Sys2Proof.Machine.execPartInvComplete s
  | .dispatchDecision => Sys2Proof.Machine.execDispatchDecision s
  | .launchCycle => Sys2Proof.Machine.execLaunchCycle s
  | .sectionLoadFailure => Sys2Proof.Machine.execSectionLoadFailure s
  | .deadlineExpiry => Sys2Proof.Machine.execDeadlineExpiry s
  | .stopCycle => Sys2Proof.Machine.execStopCycle s
  | .checkpointSaveEnd => Sys2Proof.Machine.execCheckpointSaveEnd s
  | .resumeCycle => Sys2Proof.Machine.execResumeCycle s
  | .completionRecordWrite => Sys2Proof.Machine.execCompletionRecordWrite s
  | .teardownComplete => Sys2Proof.Machine.execTeardownComplete s
  | .segmentStart => Sys2Proof.Machine.execSegmentStart s
  | .segmentRetire => Sys2Proof.Machine.execSegmentRetire s
  | .dWordLand => Sys2Proof.Machine.execDWordLand s
  | .matrixCommandDone => Sys2Proof.Machine.execMatrixCommandDone s
  | .freezeWatchdog => Sys2Proof.Machine.execFreezeWatchdog s
  | .latchedDelivery => Sys2Proof.Machine.execLatchedDelivery s
  | .leaseGrant => Sys2Proof.Machine.execLeaseGrant s
  | .leaseRunEnd => Sys2Proof.Machine.execLeaseRunEnd s
  | .boostExpiry => Sys2Proof.Machine.execBoostExpiry s
  | .bandIdleGate => Sys2Proof.Machine.execBandIdleGate s
  | .bandWakeComplete => Sys2Proof.Machine.execBandWakeComplete s
  | .powerPredicateClear => Sys2Proof.Machine.execPowerPredicateClear s
  | .freezeDutyStep => Sys2Proof.Machine.execFreezeDutyStep s
  | .clockStep => Sys2Proof.Machine.execClockStep s
  | .clockGlideEnd => Sys2Proof.Machine.execClockGlideEnd s
  | .trackingRelock => Sys2Proof.Machine.execTrackingRelock s
  | .frameBoundary => Sys2Proof.Machine.execFrameBoundary s
  | .sourceMissing => Sys2Proof.Machine.execSourceMissing s
  | .sourcePresent => Sys2Proof.Machine.execSourcePresent s
  | .frozenEntry => Sys2Proof.Machine.execFrozenEntry s
  | .flimitExpiry => Sys2Proof.Machine.execFlimitExpiry s
  | .ingestHalfComplete => Sys2Proof.Machine.execIngestHalfComplete s
  | .streamPortLinkLoss => Sys2Proof.Machine.execStreamPortLinkLoss s
  | .egrDepart => Sys2Proof.Machine.execEgrDepart s
  | .xwrApply => Sys2Proof.Machine.execXwrApply s
  | .xrdCompute => Sys2Proof.Machine.execXrdCompute s
  | .oqEntryArrive => Sys2Proof.Machine.execOqEntryArrive s
  | .oqCreditReturn => Sys2Proof.Machine.execOqCreditReturn s
  | .copyStart => Sys2Proof.Machine.execCopyStart s
  | .copyComplete => Sys2Proof.Machine.execCopyComplete s
  | .copyFailure => Sys2Proof.Machine.execCopyFailure s
  | .bcanAck => Sys2Proof.Machine.execBcanAck s
  | .walkComplete => Sys2Proof.Machine.execWalkComplete s
  | .translationFault => Sys2Proof.Machine.execTranslationFault s
  | .waittResume => Sys2Proof.Machine.execWaittResume s
  | .streamPortLinkUp => Sys2Proof.Machine.execStreamPortLinkUp s
  | .secCommandFinish => Sys2Proof.Machine.execSecCommandFinish s
  | .packagePowerOn => Sys2Proof.Machine.execPackagePowerOn s
  | .pairLinkLoss => Sys2Proof.Machine.execPairLinkLoss s
  | .hostLinkRetrain => Sys2Proof.Machine.execHostLinkRetrain s
  | .ncmt => Sys2Proof.Machine.execNcmt s
  | .ncmtEnd => Sys2Proof.Machine.execNcmtEnd s
  | .eret => Sys2Proof.Machine.execEret s
  | .nop => Sys2Proof.Machine.execNop s
  | .hostLinkDown => Sys2Proof.Machine.execHostLinkDown s
  | .packagePowerLoss => Sys2Proof.Machine.execPackagePowerLoss s

end Sys2Proof.Machine
end

