-- ==== Sys2Proof/Machine/Cycle.lean ====
section
/-! DEFINITION. One region cycle: whose turn it is, fetching and decoding, the freeze line, and the cycle's end
(03 R86 to R99, 05 R138, 16 R328 to R340). -/

namespace Sys2Proof.Machine

/-! ## Fetching -/

/-- The S word at a byte offset of a code store; zero at or beyond its end (08 R198). -/
def fetchS (code : List Byte) (pc : Nat) : BitVec 32 :=
  let bs := (code.drop pc).take 4
  if bs.length = 4 then BitVec.ofNat 32 (leNat bs) else 0

/-- What a unit of a core does with its turn, freeze lines apart: nothing, an instruction, or a change of state. -/
inductive Turn where
  | idle
  | run (i : Instr)
  | state (t : State)

namespace State

/-- A core may issue in this cycle, freeze lines apart. -/
def mayIssue (s : State) (core : Nat) : Bool :=
  let c := s.coreAt core
  c.run && !c.held && !c.halted && !s.injected (s.regionOf core)

/-- The word that R337 detects in this cycle, after every word before it. -/
def dueBad (s : State) (core : Nat) (slot : Slot) : Option Todo :=
  match ((s.coreAt core).unit (seqOf slot)).seg with
  | none => none
  | some g =>
    match g.clock with
    | none => none
    | some o => g.todo.find? (fun t => t.offset = o && t.bad)

/-- The point at which a pair stops a sequencer of a core, when one is named (19 R401) (log 53). -/
def pairPoint (s : State) (core seq : Nat) : Option Nat :=
  match s.nodeOn core with
  | some (_, v) => Tab.find v.points (4 * (s.coreAt core).rank + seq)
  | none => none

/-- L, C or W has a command and no segment with words to issue (03 R87), and no pair's stop point lies before it. -/
def mayStart (s : State) (core : Nat) (slot : Slot) : Bool :=
  let u := (s.coreAt core).unit (seqOf slot)
  (slot = .l || slot = .va || slot = .w) && u.seg.isNone && u.cmdq ≠ [] &&
    (match s.pairPoint core (seqOf slot) with | some k => u.ordinal ≤ k | none => true)

/-- ILLEGAL for a word of a segment: its high half is the status word (16 R332). -/
def illegalTodo (s : State) (core : Nat) (slot : Slot) (t : Todo) : State :=
  let f := s.faultRec core slot 0x01 (BitVec.ofNat 32 (t.word.toNat / 2 ^ 32))
  s.raise core (if t.bad && 6 ≤ t.col then { f with column := 15, engine := 2 }
    else if t.bad then
      { f with column := t.col, engine := if t.col = 4 then 4 else 2
               index := if t.col = 4 then BitVec.ofNat 32 (s.coreAt core).cu.mcIndex else f.index }
    else f)

/-- S's turn: a cycle lost, a word, or ILLEGAL (03 R99, 08 R196 to R198). -/
def turnS (s : State) (core : Nat) : Turn :=
  let c := s.coreAt core
  if c.ended || (match s.pairPoint core 0 with | some k => k ≤ c.su.index | none => false) then .idle
  else if c.su.stall ≠ 0 then .state (s.modCore core (fun c => { c with su := { c.su with stall := c.su.stall - 1 } }))
  else
    match c.bad.find? (fun b => b.reg = .code 0 && b.word = c.su.pc / 16) with
    | some _ => .state (s.machineCheck core .s .uncorrectable 6 0 0)
    | none =>
      let w := fetchS (s.code.get {} core).s c.su.pc
      match decodeS w with
      | .ok i => .run i
      | .error _ => .state (s.faultAt core .s 0x01 w.toNat)

/-- The turn of a data or compute slot. -/
def turnData (s : State) (core : Nat) (slot : Slot) : Turn :=
  match s.dueTodo core slot with
  | some t =>
    match decodeTodo slot t.word with
    | some i => .run i
    | none => .state (s.illegalTodo core slot t)
  | none =>
    if s.mayStart core slot then .run .segmentStart
    else if slot = .ct then
      match s.dueBad core slot with
      | some t => .state (s.illegalTodo core slot t)
      | none => .idle
    else .idle

/-- A unit's turn in the current cycle, its freeze line apart. -/
def turn (s : State) (core : Nat) (slot : Slot) : Turn :=
  if !s.mayIssue core then .idle
  else
    match slot with
    | .s => s.turnS core
    | u => s.turnData core u

/-- The state in which a unit's word issues. -/
def at_ (s : State) (core : Nat) (slot : Slot) : State :=
  { s with cur := { core := BitVec.ofNat 8 core, slot := slot, n := core } }

/-- A turn taken, as a state; a word that ends the model otherwise leaves the state. -/
def takeTurn (s : State) (core : Nat) (slot : Slot) : State :=
  match s.turn core slot with
  | .idle => s
  | .state t => t
  | .run i =>
    match exec i (s.at_ core slot) with
    | .next t => t
    | _ => s

/-- The turn of a core whose node a fault has stopped in the same cycle: its word does not issue, but a fault of the word is
still detected, recorded, and compared with that of the other core (16 R331, R335) (log 44). -/
def tieTurn (s : State) (core : Nat) (slot : Slot) : State :=
  match s.nodeOn core with
  | none => s
  | some (n, v) =>
    let c := s.coreAt core
    if v.faultAt.map (fun f => f.1) ≠ some (s.cycleOf core) || !(nodeCores v).contains core then s
    else
      let t := (s.modCore core (fun k => { k with run := true })).takeTurn core slot
      let d := t.coreAt core
      if d.recorded = c.recorded then s
      else
        { s.setCore core { c with
            recorded := d.recorded, mflog := d.mflog
            csr := { c.csr with trap0 := d.csr.trap0, trap1 := d.csr.trap1, trap2 := d.csr.trap2 } } with
          nodes := s.nodes.ins n (t.nodeAt n)
          host := { s.host with journal := s.host.journal.ins n (t.entryAt n) } }

/-! ## The freeze line (03 R95) -/

/-- The data and compute slots in the order of R92. CT has a second turn: a word after the due word of the last column may
be one that R337 rejects. -/
def dataSlots : List Slot := [.l, .va, .vm, .vx, .vl, .mc, .ct, .ct, .w]

/-- A turn detected a fault: the core records or latches one, or its node stops. -/
def detected (s t : State) (core : Nat) : Bool :=
  let c := s.coreAt core
  let d := t.coreAt core
  d.recorded ≠ c.recorded || d.latched ≠ c.latched || (c.run && !d.run)

/-- A set of turns tried on a copy of the state, core by core, takes in order; a word that faults makes none and changes
nothing (16 R328). The answer names the words that would fault. -/
def tryTurns (s : State) (turns : List (Nat × Slot)) : State × List (Nat × Slot) :=
  turns.foldl (fun (acc : State × List (Nat × Slot)) p =>
    let t := acc.1.takeTurn p.1 p.2
    if detected acc.1 t p.1 then (acc.1, acc.2 ++ [p]) else (t, acc.2)) (s, [])

/-- Some late core's freeze domain holds a core. -/
def inLateDomain (s : State) (late : List Nat) (core : Nat) : Bool := late.any (fun d => (s.domainOf d).contains core)

/-- At the start of a cycle: the frozen words of a region tried again; a domain whose late conditions are all met
resumes, as one (R95). In an injected freeze cycle none is tried, and no run of the watchdog breaks (16 R338). -/
def thawCores (s : State) (r : Nat) : State :=
  let cores := (s.regionCores r).filter (fun c => (s.coreAt c).frozen)
  if cores = [] || s.injected r then s
  else
    let clean := cores.foldl (fun t c => t.modCore c (fun k => { k with late := [], frozen := false })) s
    let turns := cores.flatMap (fun c =>
      let l := (s.coreAt c).late.map (fun w => w.slot)
      (if l.contains .s then [(c, Slot.s)] else []) ++ (if l = [] then [] else dataSlots.map (fun u => (c, u))))
    let tried := (clean.tryTurns turns).1
    let late := cores.filter (fun c => (tried.coreAt c).late ≠ [])
    -- a core whose node has just been launched into a frozen domain is frozen with it
    (s.regionCores r).foldl (fun t c => t.modCore c (fun k =>
      let f := s.inLateDomain late c
      { k with late := if k.frozen then (tried.coreAt c).late else k.late, frozen := f, frozenCount := if f then k.frozenCount else 0 })) s

/-- The start of a region's cycle: the holds that the last cycle's events bring, the nodes that start in it, the half that is
due by it, its tick, when the cycle has one, then the frozen words. -/
def thaw (s : State) (r : Nat) : State := ((((s.holdNow r).noteStarts r).halfDue r).tickStart r).thawCores r

/-- The data and compute words of a region that would issue now tried, those of unfrozen cores. -/
def tryData (s : State) (r : Nat) : State × List (Nat × Slot) :=
  s.tryTurns (((s.regionCores r).filter (fun c => !(s.coreAt c).frozen && s.mayIssue c)).flatMap (fun c => dataSlots.map (fun u => (c, u))))

/-- The freeze lines that late results assert: those of the words tried, and of S words of this cycle (R95). -/
def freezeLate (s tried : State) (r : Nat) : State :=
  let cores := (s.regionCores r).filter (fun c => !(s.coreAt c).frozen && s.mayIssue c)
  let found := cores.filter (fun c => (tried.coreAt c).late ≠ [])
  let late := found ++ (s.regionCores r).filter (fun c => (s.coreAt c).late ≠ [])
  if late = [] then s
  else
    (s.regionCores r).foldl (fun t c => t.modCore c (fun k =>
      { k with late := if found.contains c then (tried.coreAt c).late else k.late
               frozen := k.frozen || s.inLateDomain late c })) s

/-- The faults of words that are due in this cycle and not frozen, in the order of R92: they are detected before any data or
compute word of the cycle issues, since a fault stops, or in a transition holds, all issue of its freeze domain in its
detection cycle (16 R335, 17 R360). -/
def detectFaults (s : State) (r : Nat) (ws : List (Nat × Slot)) : State :=
  (ws.foldl (fun (t : State) p =>
    if (t.coreAt p.1).frozen then t
    else if !(t.coreAt p.1).run then t.tieTurn p.1 p.2
    else
      let u := t.takeTurn p.1 p.2
      if detected t u p.1 then u else t) s).holdNow r

/-- After S's turns, the holds of the cycle's S words stand, and the due words of the region's unfrozen cores are tried. A late
result, or that of an S word of this cycle, freezes its domain before any data or compute word of the cycle issues (R95); the
faults of the others are detected (R328). -/
def lateCheck (s : State) (r : Nat) : State :=
  let s := s.holdNow r
  let tried := s.tryData r
  (s.freezeLate tried.1 r).detectFaults r tried.2

/-! ## Bounds that end (00 R8) -/

/-- A word in flight has come to the end of its worst case; an S access whose walk faults, to that of the walk. -/
def overdue (s : State) (core : Nat) (f : Flight) : Bool :=
  if f.unit = .s then f.issued + 2800 + walkCycles ≤ s.cycleOf core else !f.blocked && f.since + f.worst ≤ s.cycleOf core

/-- The events by which the accesses of a word are over, for a later one whose worst case ends first (R126, R227). -/
def applyMoves (core : Nat) (f : Flight) : List Move :=
  let e (i : Instr) : Move := .event { core := BitVec.ofNat 8 core, slot := f.unit, n := f.id } i
  let all : Move := .part (BitVec.ofNat 8 core) f.id wholeWord
  match f.word with
  | .xrd _ => [e .xrdCompute, all]
  | .xwr _ => [e .dWordLand]
  | _ => [all]

/-- The events by which a word in flight ends. -/
def flightMoves (core : Nat) (f : Flight) : List Move :=
  let e (i : Instr) : Move := .event { core := BitVec.ofNat 8 core, slot := f.unit, n := f.id } i
  match f.word with
  | .bcan _ => [e .bcanAck]
  | .xrd _ => [e .xrdCompute, e .dWordLand]
  | .xwr _ => [e .dWordLand, e .xwrApply]
  | _ => if f.unit = .s then [e .translationFault] else [e .dWordLand, e .translationFault]

/-- The request of a BCAN reaches the engine by now at the latest, 40 cycles after its issue (09 R240). -/
def cancelDue (s : State) (core : Nat) (f : Flight) : Bool :=
  (match f.word with | .bcan _ => true | _ => false) && !f.applied && f.issued + 40 ≤ s.cycleOf core

/-- The events by which a copy ends that has come to the end of its worst case (09 R239). -/
def copyMoves (s : State) (core : Nat) (y : Copy) : List Move :=
  let e (i : Instr) : Move := .event { core := BitVec.ofNat 8 core, n := y.n } i
  if y.due = 0 || s.clock.now < y.due || y.suspended then []
  else
    match y.st with
    | .queued => [.event { n := quadOf core } .copyStart]
    | .running => if y.cancel then [e .bcanAck] else [e .copyComplete, e .copyFailure]
    | _ => []

/-- What lands in a region's cycle at the latest: words in flight in their order, copies and matrix commands (00 R8, 09 R227,
11 R288, R303) (log 1). -/
def landings (s : State) (r : Nat) : List Move :=
  (s.regionCores r).flatMap (fun c =>
    let k := s.coreAt c
    if k.node.isNone then []
    else
      let sorted := sortBy (fun (a b : Flight) => a.id ≤ b.id) k.cu.flights
      (sorted.filter (s.overdue c)).flatMap (fun f => (sorted.filter (behindOf f)).flatMap (applyMoves c) ++ flightMoves c f) ++
      (sorted.filter (s.cancelDue c)).map (fun f => Move.part (BitVec.ofNat 8 c) f.id wholeWord) ++
        k.cu.copies.flatMap (s.copyMoves c)) ++
  ((List.range 64).filter (fun q => (s.regionAt r).quads.getLsbD q)).flatMap (fun q =>
    ((s.dueNow (s.quadAt q).cmds).filter (fun m => m.2 ≤ (s.regionAt r).cycles)).flatMap (fun m =>
      (if m.1.boost.isSome then [Move.event { n := q } (.boostDecision (BitVec.ofNat 6 q) s.power.estimate.toNat)] else
        [Move.event { core := BitVec.ofNat 8 (4 * q), slot := .mc, n := m.1.id } .matrixCommandDone])) ++ s.grantMoves q)

/-- What comes at the start of a region's cycle: chain entries, at one queue that from the north first, credits, and egress
packets whose cycle it is (04 R133, R134; 09 R242). -/
def arrivals (s : State) (r : Nat) : List Move :=
  let cyc := (s.regionAt r).cycles
  let here (core : BitVec 8) : Bool := s.regionOf core.toNat = r
  (sortBy (fun (a b : Chain) => stripOf a.source.toNat ≤ stripOf b.source.toNat)
    (s.chains.filter (fun e => here e.target && e.due ≤ cyc))).map (fun e => Move.event { core := e.source, slot := .vl, n := e.lane } .oqEntryArrive) ++
  (s.credits.filter (fun e => here e.source && e.due ≤ cyc)).map (fun e => Move.event { core := e.source, slot := .vl, n := e.lane } .oqCreditReturn) ++
  ((List.range 4).filter (fun p => (s.portAt p).queue.any (fun k => k.region = r && k.due ≤ cyc))).map (fun p => Move.event { n := p } .egrDepart)

/-- A node of a region whose launch cycle the coming cycle is at the latest: its loads have had their time, and its start-at
time has come (02 R61, 03 R83, R418). -/
def launchDue (s : State) (r : Nat) : Option Move :=
  s.nodes.findSome? (fun e =>
    match e.2 with
    | some v =>
      if v.st = .placed && recRegion v.rcd = r && recStart v.rcd ≤ s.now && v.placedAt + 20000 ≤ s.now then
        some (.event { n := e.1 } (match s.loadCode v with | .ok _ => .launchCycle | .error _ => .sectionLoadFailure))
      else none
    | none => none)

/-! ## The end of a cycle -/

/-- A segment is ready to retire: its last word has issued and every result of its words has landed (R88). -/
def readyToRetire (s : State) (core seq : Nat) (g : Seg) : Bool :=
  let c := s.coreAt core
  g.landed ≤ s.cycleOf core &&
    !c.cu.flights.any (fun f => seqOf f.unit = seq && f.ordinal = g.ordinal) &&
    !(s.quadAt (quadOf core)).cmds.any (fun m => seq = 2 && m.core.toNat = core && m.ordinal = g.ordinal) &&
    !(s.quadAt (quadOf core)).requests.any (fun m => seq = 2 && m.core.toNat = core && m.ordinal = g.ordinal)

/-- The slot that stands for a sequencer in an event's cursor. -/
def seqSlot : Nat → Slot
  | 1 => .l
  | 3 => .w
  | _ => .va

/-- The retirements due at the end of a region's cycle, those of stopped cores too: issued words land, and gives are
still added (16 R328, 19 R385). -/
def retirements (s : State) (r : Nat) : List Move :=
  ((s.regionCores r).filter (fun c => (s.coreAt c).node.isSome)).flatMap (fun c =>
    [1, 2, 3].flatMap (fun q =>
      (((s.coreAt c).unit q).retiring.filter (s.readyToRetire c q)).map (fun g =>
        Move.event { core := BitVec.ofNat 8 c, slot := seqSlot q, n := g.ordinal } .segmentRetire)))

/-- One addition of R340: none when an earlier addition to the counter failed this cycle. The answer tells whether it
raises TOKEN_OVF. -/
def addOne (c : Core) (failed : List (BitVec 5)) (a : TokAdd) : Core × Bool :=
  if failed.contains a.counter then (c, false)
  else if 65535 < c.tk a.counter + a.amount then (c, true)
  else (c.setTk a.counter (c.tk a.counter + a.amount), false)

/-- The record of a TOKEN_OVF: it names the producer of the addition (R340). -/
def overflowRec (s : State) (core : Nat) (a : TokAdd) (before : Nat) : FaultRec :=
  { cls := 0x08
    engine := match a.order with | 0 => 0 | 1 => 1 | 8 => 3 | 9 => 4 | 10 => 5 | _ => 2
    column := match a.order with | 9 => 4 | n => if 2 ≤ n && n ≤ 7 then n - 2 else 0
    status := BitVec.ofNat 32 (a.counter.toNat * 2 ^ 24 + before)
    index := a.index, position := a.position
    frame := (s.frameNo core).setWidth 32, sched := (s.coreAt core).csr.schedCy.setWidth 32 }

/-- All additions of a core's cycle, in the order S, L, C, W, matrix, copy (R92, R340). -/
def applyAdds (s : State) (core : Nat) : State :=
  let adds := sortBy (fun (a b : TokAdd) => a.order ≤ b.order) (s.coreAt core).adds
  let s := s.modCore core (fun c => { c with adds := [] })
  (adds.foldl (fun (acc : State × List (BitVec 5)) a =>
    let c := acc.1.coreAt core
    let r := addOne c acc.2 a
    if r.2 then (acc.1.raise core (acc.1.overflowRec core a (c.tk a.counter)), a.counter :: acc.2)
    else if acc.2.contains a.counter then acc
    else ((acc.1.setCore core r.1).noteGiven core a.counter (c.tk a.counter) a.amount a.past, acc.2)) (s, [])).1

/-- The issue offsets of the running segments of an unfrozen core move on (R88). -/
def tick (u : DUnit) : DUnit :=
  { u with seg := u.seg.map (fun g => { g with clock := some (match g.clock with | none => 0 | some o => o + 1) }) }

/-- Register effects of a cycle's end: CSRW, then the flags that landed in it, then LTSET (05 R138, 04 R109). -/
def closeRegs (c : Core) (cyc : Nat) : Core :=
  let c : Core := c.csrw.foldl applyCsrw { c with csrw := [] }
  let landed := ((c.flagsDue.filter (fun f => f.1 ≤ cyc)).map (fun f => f.2)).foldl (· ||| ·) c.flags
  let c : Core := { c with csr := { c.csr with flags := c.csr.flags ||| landed }, flags := 0
                           flagsDue := c.flagsDue.filter (fun f => cyc < f.1) }
  c.ltset.foldl (fun (c : Core) e => ({ c with cu := { c.cu with lt := c.cu.lt.put 0 e.1 e.2 } }).good (.lt e.1)) { c with ltset := [] }

/-- Sieve appends that land at the end of cycle `cyc`, and landing windows and pending results that close (10 R271,
05 R90, 08 R196). -/
def closeLandings (c : Core) (cyc : Nat) : Core :=
  let ready := c.cu.appends.filter (fun a => a.due ≤ cyc)
  { c with
    cu := { c.cu with
      sieve := ready.foldl (fun t a => t.put [] a.path (t.get [] a.path ++ a.entries)) c.cu.sieve
      appends := c.cu.appends.filter (fun a => cyc < a.due)
      windows := c.cu.windows.filter (fun w => cyc + 1 < w.bound)
      again := c.cu.again.filter (fun f => cyc + 1 < f.stamp)
      vlWords := c.cu.vlWords.filter (fun w => cyc + 1 < w.bound) }
    su := { c.su with pend := c.su.pend.filter (fun p => cyc + 1 < p.2) } }

/-- Banks on their way back come one offset nearer (10 R278). -/
def bankBack (b : Lent) : Option Lent :=
  match b.back with
  | none => some b
  | some n => if n ≤ 1 then none else some { b with back := some (n - 1) }

/-- The schedule counter, the issue offsets and returning banks of an unfrozen cycle (02 R46, 03 R88). -/
def closeClocks (c : Core) : Core :=
  { c with
    csr := { c.csr with schedCy := c.csr.schedCy + 1 }
    l := tick c.l, c := tick c.c, w := tick c.w
    cu := { c.cu with lent := c.cu.lent.filterMap bankBack } }

/-- Format words pushed in the cycle stand in their queue at its end; a QFLSH of the cycle discards what has not started
or been popped by then (08 R217, R218). -/
def closeQueues (c : Core) : Core :=
  let c : Core := { c with cu := { c.cu with fmtq := c.cu.fmtq ++ c.cu.fmtNew, fmtNew := [] } }
  match c.flush with
  | none => c
  | some (code, d) =>
    let c := { c with flush := none }
    if code = 4 then
      ({ c with cu := { c.cu with fmtq := [] } }).setX d (BitVec.ofNat 64 c.cu.fmtq.length)
    else
      let u := c.unit code.toNat
      (c.setUnit code.toNat { u with cmdq := [], loaded := false }).setX d (BitVec.ofNat 64 u.cmdq.length)

/-- Commands of a core that use a lent bank whose return takes effect: what they have not read or written there by now they
do not (10 R278, 11 R287). -/
def banksGone (s : State) (core : Nat) (before after : List Lent) : State :=
  let gone := (before.filter (fun b => !after.any (fun a => a.bank = b.bank))).map (fun b => b.bank)
  if gone = [] then s
  else s.modQuad (quadOf core) (fun q => { q with cmds := q.cmds.map (fun m =>
    if m.core.toNat = core && gone.any (fun b => m.lent = some b) then { m with gone := true } else m) })

/-- A core's end of cycle. The additions of the cycle, and a TOKEN_OVF among them, belong to it: the counters of schedule
and offset move on after them (R340). The watchdog counts cycles frozen by a late result of the domain, injected ones apart
(16 R338). -/
def closeCore (s : State) (core : Nat) (injected : Bool) : State :=
  let cyc := s.cycleOf core
  let k := s.coreAt core
  let go := k.run && !(k.frozen || k.held || k.halted || injected)
  let s := (s.modCore core (fun c =>
    let c := closeLandings (closeQueues (closeRegs c cyc)) cyc
    if c.run && c.frozen && !injected then { c with frozenCount := c.frozenCount + 1 } else c)).applyAdds core
  if go then (s.modCore core closeClocks).banksGone core k.cu.lent (k.cu.lent.filterMap bankBack) else s

/-- The watchdogs of a region that pass their limit in this cycle (16 R338). -/
def watchdogs (s : State) (r : Nat) : List Move :=
  ((s.regionCores r).filter (fun c => s.watchdogDue c)).map (fun c => Move.event { core := BitVec.ofNat 8 c, n := c } .freezeWatchdog)

/-- An entry on its way through the strip latch of a core in lane `j`, in the direction of `target`, holds the lane there in
cycle `t`: it entered before, at another strip, and leaves the lane at a later one (R133) (log 59). -/
def laneHeld (s : State) (core j target t : Nat) : Bool :=
  s.chains.any (fun e =>
    let a := e.source.toNat
    let b := e.target.toNat
    let k := t - e.sent
    e.lane = j && a ≠ core && dieOf a = dieOf core && columnOf a = columnOf core && s.regionOf a = s.regionOf core &&
      (stripOf b < stripOf a) = (stripOf target < stripOf core) && e.sent < t && k < stripGap a b &&
      (if stripOf b < stripOf a then stripOf a - k else stripOf a + k) = stripOf core)

/-- The head of a result queue enters its lane in the next cycle when the queue is bound, its credits allow, and no passing
entry holds the lane (04 R132 to R134). -/
def sendOne (s : State) (core j : Nat) : State :=
  let c := s.coreAt core
  let b := elemAt c.csr.oqbind 8 j
  let (target, queue) := bindTarget core b
  match c.cu.resq.get [] j with
  | [] => s
  | x :: rest =>
    if bitOf b 7 && c.cu.used.get 0 j < 16 && !s.laneHeld core j target (s.cycleOf core + 1) then
      let s := s.modCore core (fun c => { c with cu := { c.cu with
        resq := c.cu.resq.put [] j rest, used := c.cu.used.put 0 j (c.cu.used.get 0 j + 1) } })
      let e : Chain :=
        { source := BitVec.ofNat 8 core, lane := j, target := BitVec.ofNat 8 target, queue := queue, data := x
          sent := s.cycleOf core + 1, due := s.cycleOf core + stripGap core target + 3 }
      { s with chains := s.chains ++ [e] }
    else s

/-- Every result queue of a region's cores. -/
def sendQueues (s : State) (r : Nat) : State :=
  (s.regionCores r).foldl (fun s c =>
    if (s.coreAt c).cu.resq = [] then s else [0, 1, 2, 3].foldl (fun s j => s.sendOne c j) s) s

/-- The lease runs of a region's quads that end with this cycle (03 R98). -/
def runEnds (s : State) (r : Nat) : List Move :=
  ((List.range 64).filter (fun q => (s.regionAt r).quads.getLsbD q && s.runOver q)).map (fun q => Move.event { n := q } .leaseRunEnd)

/-- The end of a region's cycle: every core's, then the region's counters or its frame boundary (R46). -/
def closeRegion (s : State) (r : Nat) : State :=
  let inj := s.injected r
  let s := ((s.regionCores r).foldl (fun s c => s.closeCore c inj) s).sendQueues r
  let dogs := s.watchdogs r
  let g := s.regionAt r
  let n := fieldOf g.bind 63 32
  let wraps := n ≤ g.frameCy + 1
  let s := s.setRegion r { g with cycles := g.cycles + 1, frameCy := if wraps then g.frameCy else g.frameCy + 1, atEnd := wraps }
  let s := s.expire
  { s with agenda := s.runEnds r ++ dogs ++ (if wraps then [.event { n := r } .frameBoundary] else []) ++ s.agenda }

/-- Device time runs on by `dt` units of 2^-16 ns; it stands still without power (log 43, 55). -/
def pass (s : State) (dt : Nat) : State :=
  if s.powered then { s with clock := { s.clock with now := s.clock.now + dt } } else s

/-- What cannot come later than a device time, with that time: the next cycle of a region whose clock runs, or the boundary of
its frame; the end of a glide, after 2 µs; and a dispatcher's decision over a node that is ready, in each 32 ns (02 R44, R68;
03 R81). -/
def deadlines (s : State) : List (Nat × Move) :=
  (List.range 2).filterMap (fun d =>
    if s.candidates d = [] then none
    else some ((max (s.decidedTo d) s.decisionSlot + 1) * (32 * 65536) - 1, Move.event { n := d } .dispatchDecision)) ++
  (List.range 32).filterMap (fun r =>
    if (s.regionAt r).power.glide.isSome then some ((s.regionAt r).power.changed + usFine 2, Move.event { n := r } .clockGlideEnd) else none) ++
  (List.range 32).filterMap (fun r =>
    let g := s.regionAt r
    if s.bound r && !g.gated then
      (s.nextCycle r).map (fun w => (w.2, if g.atEnd then Move.event { n := r } .frameBoundary else Move.cycle (BitVec.ofNat 5 r)))
    else none)

/-- The earlier of two deadlines, the first where neither is. -/
def sooner (b e : Nat × Move) : Nat × Move := if e.1 < b.1 then e else b

/-- The earliest deadline. -/
def nextDue (s : State) : Option (Nat × Move) :=
  match s.deadlines with
  | [] => none
  | e :: t => some (t.foldl sooner e)

/-- Device time runs on by `dt`, but not past what is due: that comes first, then the rest of the time (log 1, 55). It stands
still without power. -/
def runTime (s : State) (dt : Nat) : State :=
  match if s.powered then s.nextDue else none with
  | some (t, m) =>
    let d := t - s.clock.now
    if d ≤ dt then let s := s.pass d; { s with agenda := m :: .time (dt - d) :: s.agenda } else s.pass dt
  | none => s.pass dt

/-- The parts of one region cycle, in the order of R92 and R95. -/
def cycleParts (s : State) (r : BitVec 5) : List Move :=
  let cores := (s.regionCores r.toNat).filter (fun c => (s.coreAt c).run)
  let turns (u : Slot) : List Move := cores.map (fun c => Move.slot (BitVec.ofNat 8 c) u)
  let due := cores.filter (fun c => match (s.coreAt c).su.wait with | some (.time t) => t.toNat ≤ s.now | _ => false)
  let resumes := due.map (fun c => Move.event { core := BitVec.ofNat 8 c, n := c } .waittResume)
  s.arrivals r.toNat ++ [.thaw r] ++ resumes ++ turns .s ++ [.late r] ++ dataSlots.flatMap turns ++ [.land r, .endCycle r]

end State
end Sys2Proof.Machine
end

