-- ==== Sys2Proof/Machine/Step.lean ====
section
/-! DEFINITION. One step: the next entry of the agenda (log 1), and the placing of a word where step fetches next. -/

namespace Sys2Proof.Machine

namespace State

/-- A part of what has issued performs inside its bound: of a word, a load or a copy of a core, or a matrix command of its
quad, with those before it, unless the clock is gated (00 R8, 11 R289, 17 R348) (log 6, 7). -/
def performIn (s : State) (core id k : Nat) : State :=
  let q := quadOf core
  if (s.quadAt q).cmds.any (fun m => m.id = id) then
    (if (s.regionAt (s.regionOfQuad q 32)).gated then s else s.performSome q (fun m => m.id = id))
  else s.performPart core id k

/-- A stored code word changes by itself (log 58). -/
def inject (s : State) (f : Flaw) : State :=
  match f with
  | .memory k m => s.modMem (fun x => x.setMark k m)
  | .staged n k m => s.modNode n (fun v => { v with stagedBad := Tab.ins v.stagedBad (bufferWord k) m })
  | .core c w => s.modCore c.toNat (fun k => if k.bad.contains w then k else { k with bad := k.bad ++ [w] })
  | .operand c q i m => s.modCore c.toNat (fun k => { k with cu := { k.cu with
      opq := k.cu.opq.put [] q ((k.cu.opq.get [] q).modify i (fun e => { e with bad := some m })) } })
  | .accumulators q w m => s.modQuad q (fun v => { v with accBad := Tab.ins v.accBad w m })
  | .plane q j shadow w m => s.modQuad q (fun v =>
      let mark (p : Plane) : Plane := { p with bad := Tab.ins p.bad w m }
      if shadow then { v with shadow := v.shadow.ins j (mark (v.shadowAt j)) } else { v with active := v.active.ins j (mark (v.activeAt j)) })
  | .record n => s.modNode n (fun v => { v with badRecord := true })
  | .ring c i m => s.modCrossing c (fun x => { x with ring := x.ring.ins i ((x.ring.get none i).map (fun e => { e with bad := some m })) })

end State

/-- One step of the machine. With nothing on the agenda, device time runs on by 1 ns (log 1, 56). The turn of a frozen core's
unit is skipped: the header takes of a segment that waits at the head of its queue are made when the core thaws (the model's
choice, log 59). A region's cycle comes after the launches that are due at it. -/
def step (s : State) : Host.Outcome State Fault Refusal :=
  match s.agenda with
  | [] => .next (s.runTime 65536)
  | m :: rest =>
    let s := { s with agenda := rest }
    match m with
    | .time dt => .next (s.runTime dt)
    | .event place i => exec i { s with cur := place }
    | .host bytes =>
      match s.takeMessage bytes with
      | .none => .fault .notAMessage
      | .some (.inl t) => .next t
      | .some (.inr i) => exec i s
    | .slot core u =>
      if (s.coreAt core.toNat).frozen then .next s
      else if !(s.coreAt core.toNat).run then .next (s.tieTurn core.toNat u)
      else
        match s.turn core.toNat u with
        | .idle => .next s
        | .state t => .next t
        | .run i => exec i (s.at_ core.toNat u)
    | .cycle r =>
      .next (if s.clockRuns r.toNat then
          { s with agenda := match s.launchDue r.toNat with | some l => l :: .cycle r :: rest | none => s.cycleParts r ++ rest }
        else s)
    | .thaw r => .next (s.thaw r.toNat)
    | .late r => .next (s.lateCheck r.toNat)
    | .land r => .next { s with agenda := s.landings r.toNat ++ rest }
    | .part core id k => .next (s.performIn core.toNat id k)
    | .flaw f => .next (s.inject f)
    | .partner n cls issued rank q k => .next (s.partnerFault n cls issued rank q k)
    | .endCycle r => .next { s with agenda := s.retirements r.toNat ++ .close r :: rest }
    | .close r => .next (s.closeRegion r.toNat)

/-- The bytes of a word, zeros above it, at byte `pc` of a code section that holds nothing else (log 3). -/
def codeAt (pc n w : Nat) : List Byte := List.replicate pc 0 ++ leBytes n w

/-- A core whose units may issue: it runs, and nothing holds, stalls or delays it (log 3). -/
def issuingCore (c : Core) : Core :=
  { c with run := true, ended := false, frozen := false, held := false, halted := false, bad := [],
           su := { c.su with stall := 0, wait := none } }

/-- A segment whose one word is due now (log 3). -/
def dueSeg (col w : Nat) : Seg :=
  { ordinal := 1, cycles := 1, signature := 0, gc := 0, ga := 0, clock := some 0
    todo := [{ offset := 0, col := col, word := BitVec.ofNat 64 w, bad := false }] }

/-- The unit that runs a 64-bit word: its column of C where it decodes as a column word, else L. -/
def wordSlot (w : Nat) : Slot :=
  match decodeC (BitVec.ofNat 64 w) with
  | .ok _ =>
    match w / 2 ^ 60 % 16 with
    | 0 => .va
    | 1 => .vm
    | 2 => .vx
    | 3 => .vl
    | 4 => .mc
    | _ => .ct
  | .error _ => .l

/-- `s` with one instruction word where the next step fetches: core 0 runs, and its turn is the head of the agenda. A
word of 32 bits stands at S's program counter; a word of 64 bits is due in a running segment (log 3). -/
def State.withFetchWord (s : State) (nbits w : Nat) : State :=
  let c := issuingCore (s.coreAt 0)
  let u := if nbits ≤ 32 then Slot.s else wordSlot w
  let region := s.regionOf 0
  let t := if nbits ≤ 32 then { s.setCore 0 c with code := s.code.ins 0 { s.code.get {} 0 with s := codeAt c.su.pc 4 w } }
    else s.setCore 0 (c.modUnit (seqOf u) (fun d => { d with seg := some (dueSeg (todoCol u) w) }))
  let t := if (s.regionAt region).power.duty = 0 then t
    else t.modRegion region (fun g => { g with power := { g.power with duty := 0 } })
  let t := match c.node with
    | none => t
    | some n => t.modNode n (fun v => { v with points := [] })
  { t with agenda := [.slot 0 u] }

end Sys2Proof.Machine
end

