-- ==== Sys2Proof/Safety.lean ====
section
/-! DEFINITION. The terms that statements about the machine are written in: a safe step, and what a word of S, a unit's
word or an event leaves alone. -/

namespace Sys2Proof.Machine

/-- The step answers a next state, and that state has a property. -/
def Answers (o : Out1) (P : State → Prop) : Prop := ∃ t, o = .next t ∧ P t

/-- A safe step: it neither faults nor refuses. -/
def Safe (s : State) : Prop := Answers (step s) (fun _ => True)

/-- `t` is `s` but for one core, which is `c`, and the model's own fresh counter: every byte and tag of memory, every other
core, every quad, region and queue, and everything else of the machine stands as it stood. -/
def OnlyCore (s t : State) (i : Nat) (c : Core) : Prop := t = { s with cores := s.cores.ins i c, freeCtr := t.freeCtr }

/-- `t` is `s` but for what the S sequencer of the issuing core holds, and the registers `ws`, written whole, whose code
words are good (18 R369): in that core too every register of the data sequencers, the vector engine, every flag, special
register, token counter and layout entry stands as it stood. -/
def OnlyS (s t : State) (ws : List BadReg) : Prop :=
  ∃ u : SUnit, OnlyCore s t s.here { s.me with su := u, bad := s.me.bad.filter (fun b => !ws.contains b.reg) }

/-- The code words of a register of the issuing core are good (18 R364, R370). -/
def GoodReg (s : State) (r : BadReg) : Prop := ∀ b ∈ s.me.bad, b.reg ≠ r

/-- The same of several. -/
def GoodRegs (s : State) (rs : List BadReg) : Prop := ∀ r ∈ rs, GoodReg s r

/-- The register that a write of x[d] writes: none for x0 (07 R179). -/
def xWord (d : BitVec 5) : List BadReg := if d = 0 then [] else [.x d.toNat]

/-- S has gone on to the next word: 4 bytes further, one more word issued. -/
def WentOn (s t : State) : Prop :=
  t.me.su.pc = s.me.su.pc + 4 ∧ t.me.su.index = s.me.su.index + 1 ∧ t.me.su.wait = none ∧ t.me.su.stall = s.me.su.stall

/-- Register by register, x reads as before but for x[d], which reads `v`; a write to x0 changes nothing. -/
def XBecomes (s t : State) (d : BitVec 5) (v : Dword) : Prop := ∀ r, t.me.x r = if r = d ∧ d ≠ 0 then v else s.me.x r

/-- The same of q; q0 reads true. -/
def QBecomes (s t : State) (d : BitVec 3) (v : Bool) : Prop := ∀ r, t.me.q r = if r = d ∧ d ≠ 0 then v else s.me.q r

def SameX (s t : State) : Prop := ∀ r, t.me.x r = s.me.x r
def SameQ (s t : State) : Prop := ∀ r, t.me.q r = s.me.q r
def SameB (s t : State) : Prop := t.me.su.b = s.me.su.b ∧ t.me.su.loads = s.me.su.loads
def SameK (s t : State) : Prop := ∀ r, t.me.k r = s.me.k r

/-- A word of S that writes one x register: its result and its frame. -/
def SetsX (s t : State) (d : BitVec 5) (v : Dword) : Prop :=
  OnlyS s t (xWord d) ∧ WentOn s t ∧ XBecomes s t d v ∧ SameQ s t ∧ SameB s t ∧ SameK s t

/-- A word of S that writes one predicate: its result and its frame. -/
def SetsQ (s t : State) (d : BitVec 3) (v : Bool) : Prop :=
  OnlyS s t [] ∧ WentOn s t ∧ QBecomes s t d v ∧ SameX s t ∧ SameB s t ∧ SameK s t

/-- A word of S that writes one curve register: its result and its frame. -/
def SetsK (s t : State) (d : Nat) (v : BitVec 128) : Prop :=
  OnlyS s t [.k d] ∧ WentOn s t ∧ (∀ r, t.me.k r = if r = d then v else s.me.k r) ∧ SameX s t ∧ SameQ s t ∧ SameB s t

/-- A word of S that loads a branch target register, with or without the fetch of its target (03 R99). -/
def SetsB (s t : State) (bt : BitVec 3) (v : BitVec 32) (fetch : Bool) : Prop :=
  OnlyS s t [.b bt.toNat] ∧ WentOn s t ∧ (∀ r, t.me.b r = if r = bt.toNat then v else s.me.b r) ∧
    (∀ r, t.me.su.loads.get none r = if r = bt.toNat then some { index := s.me.su.index, fetch := fetch } else s.me.su.loads.get none r) ∧
    SameX s t ∧ SameQ s t ∧ SameK s t

/-- `t` is `s` gone past the word of S: its core is `c` at the next word with some registers perhaps still pending, the
loads `again` may still perform their reads, memory is `m`, and everything else of the machine stands as it stood. -/
def GoesOnWith (s t : State) (m : Memory) (c : Core) (again : List Flight) : Prop := ∃ p n, t = { s with
  mem := m
  cores := s.cores.ins s.here { c with
    su := { c.su with pc := s.me.su.pc + 4, index := s.me.su.index + 1, wait := none, pend := p }
    cu := { c.cu with again := again } }
  freeCtr := n }

/-- The same of a word that performs no access. -/
def GoesOn (s t : State) (m : Memory) (c : Core) : Prop := GoesOnWith s t m c c.cu.again

/-- The same of a word that performs an access or fences: earlier loads of S may have performed their reads, and a load may
still perform its own (00 R8). -/
def Accessed (s t : State) (m : Memory) (c : Core) : Prop := ∃ again, GoesOnWith s t m c again

/-- S waits at its word: its core is `c`, and everything else stands as it stood. -/
def WaitsIn (s t : State) (c : Core) : Prop := t = { s with cores := s.cores.ins s.here c }

/-- Memory after a fence of the issuing core at a scope: no byte changes; the stores that happen before some access of S
happen before all that follow, and those whose place the scope covers are visible to every observer (06 R163, R167). -/
def State.fenced (s : State) (scope : Nat) : Memory :=
  { s.mem with recent := s.mem.recent.map (fun r =>
      if r.seen.any (fun x => x.core = s.here && x.seq = 0) then
        { r.tell [{ core := s.here, seq := 0, cls := 0 }] with until_ := if State.scopeCovers scope s.here r.key then 0 else r.until_ }
      else r) }

/-- A k register of the header of `like`, with the axes `axis` and the overflow bits `ovf` (04 R112): bit j of axis i is
code bit j × dims + i, and the overflow bits of axes there are not, the zero field and the code beyond dims × w are zero. -/
def CurveIs (v like : BitVec 128) (axis : Nat → Nat) (ovf : Nat → Bool) : Prop :=
  kDims v = kDims like ∧ kWidth v = kWidth like ∧
  (∀ i < 8, v.getLsbD (112 + i) = (decide (i < kDims like) && ovf i)) ∧
  (∀ i < kDims like, ∀ j < kWidth like, v.getLsbD (j * kDims like + i) = (axis i).testBit j) ∧
  (∀ n, kDims like * kWidth like ≤ n → n < 112 → v.getLsbD n = false)

/-- Axis i of a k register. -/
def curveAxis (k : BitVec 128) (i : Nat) : Nat := axisOf (kDims k) (kWidth k) (kCode k) i

/-- Code `c` lies in the box whose corners are the axes of `lo` and `hi` (08 R221). -/
def InBox (lo hi : BitVec 128) (c : Nat) : Prop :=
  ∀ i < kDims lo, curveAxis lo i ≤ axisOf (kDims lo) (kWidth lo) c i ∧ axisOf (kDims lo) (kWidth lo) c i ≤ curveAxis hi i

/-- Ranges in ascending order with at least one code between neighbours. -/
def Apart : List (Nat × Nat) → Prop
  | [] => True
  | [a] => a.1 ≤ a.2
  | a :: b :: t => a.1 ≤ a.2 ∧ a.2 + 1 < b.1 ∧ Apart (b :: t)

/-- The bits of one element as memory `m` holds them in a core's slice; an element outside reads zero (04 R111). -/
def elementIn (m : Memory) (core : Nat) (e : Ent) (x : Elem) : Nat :=
  if x.outside then 0 else Acc.elemOf e x ((elemBytes e x).map (fun o => m.byte (sliceKey core o)))

/-- The elements of an S access of a slice, packed little-endian: the value that its n bytes hold (08 R207). -/
def valueIn (m : Memory) (core : Nat) (e : Ent) (coord : Nat) : Nat := packElems e.esize ((sElems e coord).map (elementIn m core e))

/-- The keys of the bytes that elements name in a core's slice. -/
def elementKeys (core : Nat) (e : Ent) (xs : List Elem) : List Nat :=
  (xs.filter (fun x => !x.outside)).flatMap (fun x => (elemBytes e x).map (sliceKey core))

/-- Memory `m` holds `v` in the elements `xs` of a core's slice, every other byte as `old` does, and the tags of the lines
they touch as a store through the entry in frame `frame` sets them (08 R207, 04 R116). -/
def HoldsIn (old m : Memory) (core : Nat) (e : Ent) (frame : BitVec 64) (xs : List Elem) (v : Nat) : Prop :=
  (∀ k, k ∉ elementKeys core e xs → m.byte k = old.byte k) ∧
  (∀ j (h : j < xs.length), (xs[j]).outside = false → elementIn m core e xs[j] = v / 2 ^ (e.esize * j) % 2 ^ e.esize) ∧
  (∀ c l, l < 4096 → m.tag c l = if e.tagged = true ∧ c = core ∧ l ∈ linesOf e xs then e.expect frame else old.tag c l)

/-- An S access of n bytes of a slice of the node that no check of R207, R109, R111 or R117 stops, with no other access
under way, no bad code word, and no watchpoint on the slice. -/
def SliceAccess (s : State) (e : Ent) (coord n : Nat) : Prop :=
  e.loaded = true ∧ (e.space = 0 ∨ e.space = 1 ∧ e.peer = false ∧ s.inPlacement s.here e.target = true) ∧
  (n = 1 ∨ n = 2 ∨ n = 4 ∨ n = 8) ∧ sSize e = n ∧ sAddr e coord % n = 0 ∧ firstPast e (sElems e coord) = none ∧
  s.mem.recent = [] ∧ s.mem.tagNews = [] ∧ s.mem.marks = [] ∧ (∀ k, s.markAt s.here k = none) ∧ s.mem.wf = true ∧ s.down = [] ∧ (s.coreAt (e.sliceOf s.here)).csr.watch = []

/-- The tags that a read looks at are the expected one (04 R116). -/
def TagsMatch (s : State) (e : Ent) (coord : Nat) : Prop :=
  e.tagged = false ∨ ∀ l ∈ linesOf e (sElems e coord), s.mem.tag (e.sliceOf s.here) l = e.expect (s.frameNo s.here)

/-- The core's node runs, not as one of a pair, and no transition of the region's clock holds events back: a fault of the
core is delivered in the cycle that detects it (16 R331, 17 R360). -/
def Steady (s : State) : Prop :=
  s.transition s.here = false ∧
  ∃ n v, s.nodeOn s.here = some (n, v) ∧ v.st = .running ∧ State.lockstep v = false ∧ (State.nodeCores v).contains s.here = true

/-! ## Words of a segment -/

/-- Memory with every byte, tag and mark as it was: only what other observers may not see yet may differ. -/
def SameMemory (m n : Memory) : Prop :=
  n.cells = m.cells ∧ n.tags = m.tags ∧ n.marks = m.marks ∧ n.keys = m.keys ∧ n.lastPart = m.lastPart

/-- Each counter loses the sum of a word's amounts on it, and no other changes (03 R91). -/
def TakesMade (s t : State) (ts : Takes) : Prop :=
  ∀ r, t.me.tk r = s.me.tk r - ((ts.filter (fun u => u.1 = r)).map (fun u => u.2)).sum

/-- The unit's segment `g` whose due word is `x` moves past it: the word is gone, the count is its offset plus 1, the
signature takes the offset and the word, and with its last word the segment waits to retire (03 R88). -/
def MovesOn (u u' : DUnit) (g : Seg) (x : Todo) (slot : Slot) : Prop :=
  ∃ g' : Seg, g' = { g with
      todo := removeFirst (fun t => t.offset = g.clock.getD 0 && !t.bad && t.col = todoCol slot) g.todo
      count := g.clock.getD 0 + 1
      crc := crcBytes g.crc (leBytes 4 (g.clock.getD 0) ++ leBytes 8 x.word.toNat)
      landed := g'.landed
      bankDue := g'.bankDue } ∧ g.landed ≤ g'.landed ∧
    u' = (if g'.todo = [] then { u with seg := none, retiring := u.retiring ++ [g'] } else { u with seg := some g' })

/-- A word `x` of segment `g` is due in the unit whose turn it is, and its takes are met, from counters of good code words
(03 R89, R91, 18 R370). -/
def WordDue (s : State) (g : Seg) (x : Todo) (ts : Takes) : Prop :=
  s.unitHere.seg = some g ∧
  g.todo.find? (fun t => t.offset = g.clock.getD 0 && !t.bad && t.col = todoCol s.slotHere) = some x ∧
  (∀ r, ((ts.filter (fun u => u.1 = r)).map (fun u => u.2)).sum ≤ s.me.tk r) ∧ GoodRegs s (State.takeRegs ts)

/-- A word has met a late result: it does not issue and makes no take, and the freeze line of its core's domain is asserted
(03 R94, R95). -/
def Freezes (s t : State) : Prop :=
  t.mem = s.mem ∧ t.me.cu = s.me.cu ∧ t.me.unit = s.me.unit ∧ (∀ c ∈ s.domainOf s.here, (t.coreAt c).frozen = true) ∧
    ∀ c ∉ s.domainOf s.here, t.coreAt c = s.coreAt c

/-- A word of L, C or W has issued: its takes are made, its segment moves on, memory is `m`, its core is otherwise `c`, and
everything else of the machine stands as it stood. -/
def IssuedWith (s t : State) (g : Seg) (x : Todo) (ts : Takes) (m : Memory) (c : Core) : Prop :=
  ∃ tk n u, t = { s with
      mem := m
      cores := s.cores.ins s.here (({ c with cu := { c.cu with tk := tk } }).setUnit (seqOf s.slotHere) u)
      freeCtr := n } ∧ TakesMade s t ts ∧ MovesOn s.unitHere u g x s.slotHere

/-- The same of a word that changes no byte, tag or mark of memory. -/
def IssuedAs (s t : State) (g : Seg) (x : Todo) (ts : Takes) (c : Core) : Prop :=
  ∃ m, SameMemory s.mem m ∧ IssuedWith s t g x ts m c

/-- A core with one more word in flight. -/
def Core.flying (c : Core) (f : Flight) : Core := { c with cu := { c.cu with flights := c.cu.flights ++ [f] } }

/-- Elements that share no byte, or for 4-bit types no nibble. -/
def Separate (e : Ent) (xs : List Elem) : Prop :=
  xs.Pairwise (fun x y => x.outside = true ∨ y.outside = true ∨
    (if e.esize = 4 then x.addr ≠ y.addr ∨ x.high ≠ y.high else ∀ o ∈ elemBytes e x, o ∉ elemBytes e y))

/-- Memory `m` holds `val j` in element j of `xs` in a core's slice, every other byte as `old` does, and the tags of the
lines they touch as a write through the entry in frame `frame` sets them. -/
def HoldsEach (old m : Memory) (core : Nat) (e : Ent) (frame : BitVec 64) (xs : List Elem) (val : Nat → Nat) : Prop :=
  (∀ k, k ∉ elementKeys core e xs → m.byte k = old.byte k) ∧
  (∀ j (h : j < xs.length), (xs[j]).outside = false → elementIn m core e xs[j] = val j) ∧
  (∀ c l, l < 4096 → m.tag c l = if e.tagged = true ∧ e.space < 3 ∧ c = core ∧ l ∈ linesOf e xs then e.expect frame else old.tag c l)

/-- Byte `o` of the address space of a core's partition lies at the home `k`, by a translation that its quad holds and that
admits the access (04 R122 to R125). -/
def Translates (s : State) (core o : Nat) (wr : Bool) (k : Nat) : Prop :=
  (s.partAt (s.partOf core)).ptbr.getLsbD 0 = true ∧ hbmBase ≤ k ∧ k < hostBase ∧
  ∃ y, s.cached (quadOf core) (s.partOf core) o = some y ∧ (if wr then y.write else y.read) = true ∧
    s.homeOf (s.partOf core) (y.pma + o % 2 ^ y.size) = some k

/-- The bytes that elements name through a global entry all have their homes, each its own (04 R108). -/
def Homes (s : State) (core : Nat) (e : Ent) (xs : List Elem) (wr : Bool) (home : Nat → Nat) : Prop :=
  let offs := (xs.filter (fun x => !x.outside)).flatMap (elemBytes e)
  (∀ o ∈ offs, Translates s core o wr (home o)) ∧ ∀ o ∈ offs, ∀ u ∈ offs, home o = home u → o = u

/-- The bits of one element through a global entry, as `get` gives the bytes of its homes. -/
def globalIn (get : Nat → Byte) (e : Ent) (home : Nat → Nat) (x : Elem) : Nat :=
  if x.outside then 0 else Acc.elemOf e x ((elemBytes e x).map (fun o => get (home o)))

/-- Global memory stands plain to a core: nothing of its node is staged, its partition has no key and no watchpoint. -/
def PlainGlobal (s : State) (core : Nat) : Prop :=
  s.mem.keys = [] ∧ (s.partAt (s.partOf core)).key = none ∧ (s.partAt (s.partOf core)).watch = [] ∧
    ∀ n v, s.nodeOn core = some (n, v) → v.staged = [] ∧ v.stagedBad = [] ∧ (State.nodeCores v).contains core = true ∧ v.st = .running

/-- The homes of elements hold the values `val`, as `get` gives bytes, and elsewhere `get` is `old`. -/
def HoldsGlobal {α : Type} (old get : Nat → α) (byte : α → Byte) (e : Ent) (home : Nat → Nat) (xs : List Elem) (val : Nat → Nat) : Prop :=
  (∀ k, (∀ x ∈ xs, x.outside = false → ∀ o ∈ elemBytes e x, k ≠ home o) → get k = old k) ∧
  ∀ j (h : j < xs.length), (xs[j]).outside = false → globalIn (fun k => byte (get k)) e home xs[j] = val j

/-- The state in which the node of a core has staged the values `val` of elements, and memory is as it was; an irrevocable
node's memory holds them itself (03 R103). -/
def StoredGlobal (s u : State) (core : Nat) (e : Ent) (home : Nat → Nat) (xs : List Elem) (val : Nat → Nat) : Prop :=
  ∃ n v, s.nodeOn core = some (n, v) ∧
    (State.irrevocable v = true → u = { s with mem := u.mem } ∧ u.mem.tags = s.mem.tags ∧
      HoldsGlobal s.mem.byte u.mem.byte id e home xs val) ∧
    (State.irrevocable v = false → ∃ st, u = { s with mem := u.mem, nodes := s.nodes.ins n (some { v with staged := st }) } ∧
      SameMemory s.mem u.mem ∧ HoldsGlobal (fun _ => none) (Tab.find st) (fun y => y.getD 0) e home xs val)

/-- A store of so many bytes stays within the staging budget of a core's node (03 R103). -/
def InBudget (s : State) (core bytes : Nat) : Prop :=
  ∀ n v, s.nodeOn core = some (n, v) → State.irrevocable v = false → bytes * 256 ≤ State.rcd v 12 % 2 ^ 32 * 4096

/-- Nothing else is under way in memory: no store that is still spreading, no marked code word, no watchpoint on a slice, and
no link is down. -/
def Quiet (s : State) : Prop :=
  s.mem.wf = true ∧ s.mem.recent = [] ∧ s.mem.tagNews = [] ∧ s.mem.marks = [] ∧ s.down = [] ∧ (∀ c, (s.coreAt c).csr.watch = []) ∧
    ∀ n v, s.nodeAt n = some v → v.stagedBad = [] ∧ State.lockstep v = false

/-- An entry of a core's own slice or of another's (04 R108). -/
def InSlice (e : Ent) : Prop := e.space = 0 ∨ e.space = 1 ∧ e.peer = false

/-- The flight that the cursor names may land: it is in flight, not blocked, none of its accesses has been made, and it
follows no earlier word (09 R227). -/
def MayLand (s : State) (f : Flight) : Prop :=
  s.flightHere = some f ∧ f.blocked = false ∧ f.done = 0 ∧ f.applied = false ∧ f.got = [] ∧ s.mayLand s.here f = true ∧ (f.unit = .l ∨ f.unit = .w)

/-- A flight `g` as the landing of `f` leaves it: a later one that program order relates to it may count its latency from
now, which is for the words that share a byte (09 R227); any other stands as it stood. -/
def Restarted (s : State) (core : Nat) (f g h : Flight) : Prop :=
  h = g ∨ f.id < g.id ∧ State.related f g = true ∧ ∃ n, h = { g with since := max g.since (s.cycleOf core), worst := n }

/-- The flight `f` of a core has landed: memory is `m`, the flight has left its core, later words may count their latency
from now, its give is to be added, earlier loads may have performed their reads, `c` is what else it makes of its core, and
everything else stands as it stood (09 R227). -/
def LandedWith (s t : State) (core : Nat) (f : Flight) (w : DArgs) (m : Memory) (c : Core) : Prop :=
  ∃ n past again h, (∀ g, Restarted s core f g (h g)) ∧ t = { s with
    mem := m
    cores := s.cores.ins core (({ c with cu := { c.cu with
        flights := (c.cu.flights.filter (fun (g : Flight) => g.id ≠ f.id)).map h, again := again } }).addToken
      { counter := w.gc, amount := w.ga.toNat, order := if f.unit = Slot.l then 1 else 8,
        index := BitVec.ofNat 32 f.ordinal, position := BitVec.ofNat 32 f.offset, past := past })
    freeCtr := n }

/-- The same of a flight that changes nothing else of its core. -/
def LandedAt (s t : State) (core : Nat) (f : Flight) (w : DArgs) (m : Memory) : Prop := LandedWith s t core f w m (s.coreAt core)

/-- The same of a flight of the cursor's core. -/
def Landed (s t : State) (f : Flight) (w : DArgs) (m : Memory) : Prop := LandedAt s t s.here f w m

/-! ## Vector words -/

/-- No result is still landing in a register, no bank is lent or lent now, and no register word is bad: what a vector word
reads is what its registers hold (03 R90, 10 R250, R278, 18 R370). -/
def Clear (s : State) : Prop :=
  s.me.cu.windows = [] ∧ s.me.cu.lent = [] ∧ (∀ b, s.lendsNow b = false) ∧ s.me.bad = [] ∧ seqOf s.slotHere = 2

/-- A mask bit as a word reads it: m0 is all true (07 R179). -/
def maskBit (s : State) (m : Nat) (i : Nat) : Bool := m = 0 || (s.me.m m).getLsbD i

/-- `c` is `a` but for vector and mask registers, the landing windows that its results open, the flags `fl` that land with
them, and the loads `again` that may still perform their reads (03 R90, 10 R251). -/
def OnlyVectorWith (a c : Core) (fl : Flags) (again : List Flight) : Prop := ∃ v m win vl fd, c = { a with
    cu := { a.cu with v := v, m := m, windows := win, vlWords := vl, again := again }
    flagsDue := fd } ∧
  (fl = 0 → fd = a.flagsDue) ∧ (fl ≠ 0 → ∃ due, fd = a.flagsDue ++ [(due, fl)])

/-- The same of a word that performs no access. -/
def OnlyVector (a c : Core) (fl : Flags) : Prop := OnlyVectorWith a c fl a.cu.again

/-- The same of an access word `i`: earlier loads may have performed their reads, and a load may still perform its own. -/
def OnlyVectorAccess (a c : Core) (i : Instr) : Prop := ∃ again, OnlyVectorWith a c 0 again ∧ ∀ f ∈ again, f ∈ a.cu.again ∨ f.word = i

/-- A vector word has written elements 0 to n - 1, `el i`, of width `bits` of v[d], raising `fl`: the rest of v[d], every
other register and everything else stand as they stood. -/
def SetsElements (s t : State) (g : Seg) (x : Todo) (d bits n : Nat) (el : Nat → Nat) (fl : Flags) : Prop :=
  ∃ c, IssuedAs s t g x [] c ∧ OnlyVector s.me c fl ∧ (∀ r, c.m r = s.me.m r) ∧ (∀ r, r ≠ d → c.v r = s.me.v r) ∧
    ∀ i, i * bits < 4096 → elemAt (c.v d) bits i = if i < n then el i else elemAt (s.me.v d) bits i

/-- The same over a group of k registers from v[d] on: element i lies in register i mod k at place i div k (10 R249). -/
def SetsGroup (s t : State) (g : Seg) (x : Todo) (d k bits n : Nat) (el : Nat → Nat) (fl : Flags) : Prop :=
  ∃ c, IssuedAs s t g x [] c ∧ OnlyVector s.me c fl ∧ (∀ r, c.m r = s.me.m r) ∧ (∀ r, (r < d ∨ d + k ≤ r) → c.v r = s.me.v r) ∧
    ∀ i < n, elemAt (c.v (d + i % k)) bits (i / k) = el i

/-- A word has written mask m[d], `bit i` for i below n and zero from there on; a write to m0 is discarded. -/
def SetsMask (s t : State) (g : Seg) (x : Todo) (d n : Nat) (bit : Nat → Bool) : Prop :=
  ∃ c, IssuedAs s t g x [] c ∧ OnlyVector s.me c 0 ∧ (∀ r, c.v r = s.me.v r) ∧ (∀ r, r ≠ d ∨ d = 0 → c.m r = s.me.m r) ∧
    (d ≠ 0 → ∀ i < 1024, (c.m d).getLsbD i = (decide (i < n) && bit i))

/-- The flags of the elements that a mask admits (10 R251). -/
def flagsOf (n : Nat) (m : Nat → Bool) (f : Nat → Nat × Flags) : Flags := orFlags ((List.range n).map (fun i => if m i then (f i).2 else 0))

/-! ## Matrix words -/

/-- One more word in the run of the lease that the issuing core holds, and the bands `bands` that the word names used now
(03 R98, 02 R64). -/
def Counted (s : State) (bands : Nat) (q r : Quad) : Prop := ∃ bs, r = { q with
    lease := q.lease.map (fun l => if l.core.toNat = s.here then { l with count := l.count + 1 } else l), bands := bs } ∧
  ∀ j, bs.get {} j = if j ∈ bandList bands then { q.bands.get {} j with used := s.now } else q.bands.get {} j

/-- A word of the matrix column has issued: it counts in its core and, when the core holds the lease, in the lease's run;
its quad is otherwise `q` and its core `c`. -/
def IssuedMatrix (s t : State) (g : Seg) (x : Todo) (ts : Takes) (bands : Nat) (q : Quad) (c : Core) : Prop :=
  ∃ r, Counted s bands q r ∧ IssuedAs { s with quads := s.quads.ins (quadOf s.here) r } t g x ts
    { c with cu := { c.cu with mcIndex := s.me.cu.mcIndex + 1 } }

/-- The same where the word releases or asks for the lease itself: then its quad is `q`. -/
def IssuedLease (s t : State) (g : Seg) (x : Todo) (ts : Takes) (q : Quad) : Prop :=
  IssuedAs { s with quads := s.quads.ins (quadOf s.here) q } t g x ts { s.me with cu := { s.me.cu with mcIndex := s.me.cu.mcIndex + 1 } }

/-- A matrix command `i` as the issuing word leaves it in the pipeline: whose it is, what it gives, what it has captured,
that it has done nothing yet, and that its worst case is `lat` cycles or more from now (11 R287, R288, R303). -/
def CommandOf (s : State) (w : MArgs) (i : Instr) (lat : Nat) (boost : Option Nat) (k : MatCmd) : Prop :=
  k.id = s.freeCtr ∧ k.core = BitVec.ofNat 8 s.here ∧ k.ordinal = s.ordinalHere ∧ k.offset = s.offsetHere ∧ k.index = s.me.cu.mcIndex ∧
  k.gc = w.gc ∧ k.ga = w.ga ∧ k.issued = s.cycleOf s.here ∧ s.cycleOf s.here + lat ≤ k.due ∧ k.word = i ∧ k.ctx = s.mctx w ∧
  k.done = false ∧ k.flags = 0 ∧ k.bank = none ∧ k.gone = false ∧ k.boost = boost

/-- A matrix word may issue: it is due and its bands lie within the core's lease (11 R290). -/
def MatrixDue (s : State) (w : MArgs) (g : Seg) (x : Todo) (bands : Nat) : Prop :=
  WordDue s g x w.takes ∧ s.slotHere = .mc ∧ ∃ b, s.leaseBands w = some b ∧ ∀ j ∈ bandList bands, bitOf b j = true

/-- An operand, and the scale bytes or list behind it, that no check of R284 to R286 and R328 stops. -/
def OperandOk (s : State) (w : MArgs) (code count : Nat) (xs : List Elem) (soff nsc : Nat) : Prop :=
  s.opCheck w code count = .ok false ∧ s.opSpace w xs = .ok false ∧ s.opTags w xs = .ok false ∧ soff + nsc ≤ 2 ^ 21

/-- The command that the cursor names is the next of the order, of a core of the cursor's quad; the clock runs, nothing else
is under way in memory, and no code word that it may read is bad. -/
def CommandNext (s : State) (k : MatCmd) : Prop :=
  quadOf k.core.toNat = quadOf s.here ∧ s.quadHere.cmds.find? (fun m => m.id = s.cur.n) = some k ∧ k.boost = none ∧
  (∀ c ∈ s.quadHere.cmds, c.id < k.id → c.before k = false) ∧ (s.regionAt (s.regionOfQuad (quadOf s.here) 32)).gated = false ∧
  (∀ l, s.quadHere.lease = some l → l.ending = false) ∧ Quiet s ∧ (s.coreAt k.core.toNat).bad = [] ∧ (s.coreAt k.core.toNat).cu.windows = [] ∧ s.quadHere.accBad = [] ∧
  ∀ j, (s.quadHere.activeAt j).bad = []

/-- The command `k` has left the array: its quad is otherwise `r`, its core otherwise `c`, memory `m`; its flags `fl` are
raised and its give is to be added; those that it held up count their latency from now (11 R288), and with the last command
gone the leased bands may change their class (02 R64). -/
def LeftArray (s t : State) (k : MatCmd) (r : Quad) (m : Memory) (c : Core) (fl : Flags) : Prop :=
  let cmds := (s.quadHere.cmds.filter (fun y => y.id ≠ k.id)).map (fun y =>
    if k.id < y.id && k.before y then { y with start := max y.start (s.cycleOf k.core.toNat) } else y)
  ∃ n past again bs, (cmds ≠ [] → bs = r.bands) ∧ t = { s with
    mem := m
    quads := s.quads.ins (quadOf s.here) { r with cmds := cmds, bands := bs }
    cores := s.cores.ins k.core.toNat (({ c with cu := { c.cu with again := again }, flags := c.flags ||| fl }).addToken
      { counter := k.gc, amount := k.ga.toNat, order := 9, index := BitVec.ofNat 32 k.index, position := BitVec.ofNat 32 k.offset, past := past })
    freeCtr := n }

/-- Value j of a matrix operand: an element of its entry, or of its lent bank (11 R284). -/
def operandValue (s : State) (k : MatCmd) (code : Nat) (xs : List Elem) (j : Nat) : Nat :=
  let per := 4096 / widthOf code
  if isBank k.ctx.w then elemAt ((s.coreAt k.core.toNat).v (16 * opBank k.ctx.w + j / per)) (widthOf code) (j % per)
  else elementIn s.mem k.core.toNat k.ctx.ent' (xs.getD j { addr := 0, high := false, outside := true })

/-- A scale byte of a core's slice; 127, a factor of one, where the format has no block scales. -/
def scaleAt (s : State) (core : Nat) (block : Bool) (off : Nat) : Nat :=
  if block then (s.mem.byte (sliceKey core off)).toNat else 0x7F

/-! ## Events -/

/-- Only the node of number `n` changed in the node table, and it is `v`. -/
def OnlyNode (s t : State) (n : Nat) (v : Node) : Prop := t.nodes = s.nodes.ins n (some v)

/-- The journal is as it was but for the entry of number `n`. -/
def OnlyEntry (s t : State) (n : Nat) : Prop := ∀ m, m ≠ n → t.entryAt m = s.entryAt m

/-- The copies of a core with copy `y` in a new state, not being cancelled, `d` of its items moved. -/
def copyNow (l : List Copy) (y : Copy) (st : CopySt) (d : Nat) : List Copy :=
  l.map (fun z => if z.n = y.n then { y with st := st, cancel := false, done := d } else z)

/-- A copy's give, at its end (04 R130): the stores `past` happen before it. -/
def copyGive (y : Copy) (past : List Nat) : TokAdd :=
  { counter := y.gc, amount := y.ga.toNat, order := 10, index := BitVec.ofNat 32 (y.home.toNat * 2 ^ 24 + y.n % 2 ^ 24), position := 0, past := past }

/-- The copy `y` of the cursor's core is over. -/
def Core.copyOver (c : Core) (y : Copy) (st : CopySt) (d : Nat) (past : List Nat) : Core :=
  ({ c with cu := { c.cu with copies := copyNow c.cu.copies y st d } }).addToken (copyGive y past)

/-- The fields of a core that a launch sets (03 R84): everything else of it is zero or empty. -/
def Launched (c : Core) (n : Nat) (v : Node) (rank count : Nat) : Prop :=
  (∃ x, c = { node := some n, rank := rank, run := true, su := { x := x }, cu := { m := [(0, BitVec.allOnes 1024)] }
              csr := { remain := BitVec.ofNat 64 (State.rcd v 7) } }) ∧
  ∀ r, c.x r = if r = 1 then recArgs v.rcd else if r = 2 then BitVec.ofNat 64 rank else if r = 3 then BitVec.ofNat 64 count else 0

/-- The die whose dispatcher decides a run of quads (03 R81). -/
def runDieIs (r : List Nat) (die : Nat) : Prop := die = if ∀ q ∈ r, 32 ≤ q then 1 else 0

/-! ## The host -/

/-- The host's side once a message has been accepted (01 R33). -/
def State.replied (s : State) (m : HostMsg) (payload : List Byte) : HostSide :=
  { s.host with outbox := s.host.outbox ++ [.reply m.tag 0 payload] }

/-- The same where the command also took the next number of the journal (19 R403, R404). -/
def State.journaled (s : State) (m : HostMsg) (e : JEntry) (payload : List Byte) : HostSide :=
  let n := s.host.head
  { s.host with
    head := n + 1
    journal := (if s.jrnlCap < n then s.host.journal.del (n - s.jrnlCap) else s.host.journal).ins n (some { e with accepted := s.now })
    outbox := s.host.outbox ++ [.reply m.tag 0 payload] }

/-- A REG_WRITE of value `v` at an offset of the device register space (01 R33, R38). -/
def RegWrite (m : HostMsg) (off : Nat) (v : Dword) : Prop :=
  m.arg.toNat = off ∧ off % 8 = 0 ∧ off < 0x140000 ∧ m.payload.length = 8 ∧ BitVec.ofNat 64 (leNat m.payload) = v

end Sys2Proof.Machine
end

