-- ==== Sys2Proof/Certificates/Slice0/Obligations.lean ====
section
/-! DEFINITION. The statements for the provers. A statement about a free value (log 2, 5, 8) holds for every value of it. -/

open Sys2Proof Sys2Proof.Machine

/-! ## S words on registers -/

/-- 08 R200, R196: what each of the 21 integer words leaves in x[d] when no register it names has a result pending, and
that it leaves everything else as it was: x0 stays zero, no flag is set, no byte of memory changes. -/
def Obligations.IntegerResults : Prop :=
  ∀ (s : State) (d a b : BitVec 5) (q : BitVec 3), ∀ (x y : Dword), s.me.x a = x → s.me.x b = y →
    (s.me.ready [.x a.toNat, .x b.toNat] [.x d.toNat] = true →
      Answers (exec (.add d a b) s) (fun t => SetsX s t d (x + y)) ∧
      Answers (exec (.sub d a b) s) (fun t => SetsX s t d (x - y)) ∧
      Answers (exec (.mul d a b) s) (fun t => SetsX s t d (BitVec.ofNat 64 (x.toNat * y.toNat))) ∧
      Answers (exec (.mulh d a b) s) (fun t => SetsX s t d (BitVec.ofInt 64 (Int.fdiv (x.toInt * y.toInt) (2 ^ 64)))) ∧
      Answers (exec (.mulhn d a b) s) (fun t => SetsX s t d (BitVec.ofNat 64 (x.toNat * y.toNat / 2 ^ 64))) ∧
      Answers (exec (.div d a b) s) (fun t =>
        SetsX s t d (if y = 0 then BitVec.allOnes 64 else BitVec.ofInt 64 (Int.tdiv x.toInt y.toInt))) ∧
      Answers (exec (.divn d a b) s) (fun t =>
        SetsX s t d (if y = 0 then BitVec.allOnes 64 else BitVec.ofNat 64 (x.toNat / y.toNat))) ∧
      Answers (exec (.rem d a b) s) (fun t =>
        SetsX s t d (if y = 0 then x else BitVec.ofInt 64 (Int.tmod x.toInt y.toInt))) ∧
      Answers (exec (.remn d a b) s) (fun t =>
        SetsX s t d (if y = 0 then x else BitVec.ofNat 64 (x.toNat % y.toNat))) ∧
      Answers (exec (.and d a b) s) (fun t => SetsX s t d (x &&& y)) ∧
      Answers (exec (.or d a b) s) (fun t => SetsX s t d (x ||| y)) ∧
      Answers (exec (.xor d a b) s) (fun t => SetsX s t d (x ^^^ y)) ∧
      Answers (exec (.andn d a b) s) (fun t => SetsX s t d (x &&& ~~~y)) ∧
      Answers (exec (.shl d a b) s) (fun t => SetsX s t d (BitVec.ofNat 64 (x.toNat * 2 ^ (y.toNat % 64)))) ∧
      Answers (exec (.shr d a b) s) (fun t => SetsX s t d (BitVec.ofNat 64 (x.toNat / 2 ^ (y.toNat % 64)))) ∧
      Answers (exec (.sar d a b) s) (fun t =>
        SetsX s t d (BitVec.ofInt 64 (Int.fdiv x.toInt (2 ^ (y.toNat % 64))))) ∧
      Answers (exec (.min d a b) s) (fun t => SetsX s t d (if x.toInt ≤ y.toInt then x else y)) ∧
      Answers (exec (.max d a b) s) (fun t => SetsX s t d (if y.toInt ≤ x.toInt then x else y))) ∧
    (s.me.ready [.x a.toNat] [.x d.toNat] = true →
      Answers (exec (.clz d a) s) (fun t => SetsX s t d (BitVec.ofNat 64 (if x = 0 then 64 else 63 - x.toNat.log2))) ∧
      Answers (exec (.popc d a) s) (fun t =>
        SetsX s t d (BitVec.ofNat 64 ((List.range 64).filter (fun i => x.getLsbD i)).length))) ∧
    (s.me.ready [.x a.toNat, .x b.toNat, .q q.toNat] [.x d.toNat] = true →
      Answers (exec (.sel d a b q) s) (fun t => SetsX s t d (if s.me.q q then x else y)))

/-- 08 R201, R202: the immediate words and the three constants. 08 R203: the compares and the words on predicates; a write to q0 is discarded. -/
def Obligations.ImmediateAndCompareResults : Prop :=
 (∀ (s : State) (d a : BitVec 5) (i : BitVec 15) (j : BitVec 20), ∀ x : Dword, s.me.x a = x →
    (s.me.ready [.x a.toNat] [.x d.toNat] = true →
      Answers (exec (.addi d a i) s) (fun t => SetsX s t d (x + i.signExtend 64)) ∧
      Answers (exec (.andi d a i) s) (fun t => SetsX s t d (x &&& i.signExtend 64)) ∧
      Answers (exec (.ori d a i) s) (fun t => SetsX s t d (x ||| i.signExtend 64)) ∧
      Answers (exec (.xori d a i) s) (fun t => SetsX s t d (x ^^^ i.signExtend 64)) ∧
      (i.toNat < 64 →
        Answers (exec (.shli d a i) s) (fun t => SetsX s t d (BitVec.ofNat 64 (x.toNat * 2 ^ i.toNat))) ∧
        Answers (exec (.shri d a i) s) (fun t => SetsX s t d (BitVec.ofNat 64 (x.toNat / 2 ^ i.toNat))) ∧
        Answers (exec (.sari d a i) s) (fun t => SetsX s t d (BitVec.ofInt 64 (Int.fdiv x.toInt (2 ^ i.toNat)))))) ∧
    (s.me.ready [.x a.toNat] [.q d.toNat] = true → ∀ e : BitVec 3, d = e.setWidth 5 →
      Answers (exec (.ceqi d a i) s) (fun t => SetsQ s t e (decide (x.toInt = i.toInt))) ∧
      Answers (exec (.clti d a i) s) (fun t => SetsQ s t e (decide (x.toInt < i.toInt))) ∧
      Answers (exec (.cltni d a i) s) (fun t => SetsQ s t e (decide (x.toNat < (i.signExtend 64).toNat)))) ∧
    (s.me.ready [] [.x d.toNat] = true →
      Answers (exec (.liz d j) s) (fun t => SetsX s t d (BitVec.ofNat 64 j.toNat)) ∧
      Answers (exec (.lis d j) s) (fun t => SetsX s t d (BitVec.ofInt 64 j.toInt))) ∧
    (s.me.ready [.x d.toNat] [] = true →
      Answers (exec (.lic d j) s) (fun t =>
        SetsX s t d (BitVec.ofNat 64 ((s.me.x d).toNat * 2 ^ 20) ||| BitVec.ofNat 64 j.toNat)))) ∧
 (∀ (s : State) (d a b : BitVec 5) (e f g : BitVec 3), ∀ (x y : Dword), s.me.x a = x → s.me.x b = y → d = e.setWidth 5 →
    (s.me.ready [.x a.toNat, .x b.toNat] [.q d.toNat] = true →
      Answers (exec (.ceq d a b) s) (fun t => SetsQ s t e (decide (x = y))) ∧
      Answers (exec (.cne d a b) s) (fun t => SetsQ s t e (decide (x ≠ y))) ∧
      Answers (exec (.clt d a b) s) (fun t => SetsQ s t e (decide (x.toInt < y.toInt))) ∧
      Answers (exec (.cle d a b) s) (fun t => SetsQ s t e (decide (x.toInt ≤ y.toInt))) ∧
      Answers (exec (.cltn d a b) s) (fun t => SetsQ s t e (decide (x.toNat < y.toNat))) ∧
      Answers (exec (.clen d a b) s) (fun t => SetsQ s t e (decide (x.toNat ≤ y.toNat)))) ∧
    (a = f.setWidth 5 → b = g.setWidth 5 → s.me.ready [.q a.toNat, .q b.toNat] [.q d.toNat] = true →
      Answers (exec (.qand d a b) s) (fun t => SetsQ s t e (s.me.q f && s.me.q g)) ∧
      Answers (exec (.qor d a b) s) (fun t => SetsQ s t e (s.me.q f || s.me.q g))) ∧
    (a = f.setWidth 5 → s.me.ready [.q a.toNat] [.q d.toNat] = true →
      Answers (exec (.qnot d a) s) (fun t => SetsQ s t e (!s.me.q f))))

/-! ## Branches -/

/-- 08 R204, R206: PBR and PBRR load b[bt], whatever value it is, and only mode 0 starts the fetch. 08 R204, 03 R99: a branch whose condition holds continues at b[bt], and loses no cycle when a mode 0 load of b[bt] was
issued at least four words earlier, 4 - w cycles when it was issued w words earlier, and 4 when no fetch was started; one
whose condition does not hold falls through. BRL leaves the link in b7, LOOP decrements x[a] either way. 08 R205: a taken branch to a b[bt] that is not a multiple of 4 or not below the section's size raises OPERAND, reason 8,
and does not issue: no link is written and no register decremented. -/
def Obligations.BranchWords : Prop :=
 (∀ (s : State) (bt : BitVec 3) (disp : BitVec 20) (a : BitVec 5),
    (s.me.ready [] [.b bt.toNat] = true →
      Answers (exec (.pbr bt disp) s) (fun t => SetsB s t bt (BitVec.ofInt 32 (s.me.su.pc + 4 * disp.toInt)) true) ∧
      Answers (exec (.pbrLo bt disp) s) (fun t => SetsB s t bt (BitVec.ofInt 32 (s.me.su.pc + 4 * disp.toInt)) false)) ∧
    (s.me.ready [.x a.toNat] [.b bt.toNat] = true →
      Answers (exec (.pbrr bt a) s) (fun t => SetsB s t bt (BitVec.ofNat 32 (s.me.x a).toNat) true) ∧
      Answers (exec (.pbrrLo bt a) s) (fun t => SetsB s t bt (BitVec.ofNat 32 (s.me.x a).toNat) false))) ∧
 (∀ (s : State) (bt q : BitVec 3) (inv : BitVec 1) (a : BitVec 5) (lost : Nat),
    (s.me.b bt.toNat).toNat % 4 = 0 → (s.me.b bt.toNat).toNat < (s.code.get {} s.here).s.length →
    (match s.me.su.loads.get none bt.toNat with
      | some l => lost = if !l.fetch then 4 else if l.index + 4 ≤ s.me.su.index then 0 else 4 - (s.me.su.index - l.index)
      | none => lost = 4) →
    let c := s.me.q q != (inv == 1)
    let jump (t : State) (ws : List BadReg) : Prop :=
      OnlyS s t ws ∧ t.me.su.pc = (s.me.b bt.toNat).toNat ∧ t.me.su.index = s.me.su.index + 1 ∧ t.me.su.stall = lost ∧
        t.me.su.wait = none ∧ SameQ s t ∧ SameK s t
    let fall (t : State) (ws : List BadReg) : Prop := OnlyS s t ws ∧ WentOn s t ∧ SameQ s t ∧ SameK s t ∧ SameB s t
    (s.me.ready [.b bt.toNat, .q q.toNat] [] = true →
      (c = true → Answers (exec (.br bt q inv) s) (fun t => jump t [] ∧ SameX s t ∧ SameB s t)) ∧
      (c = false → Answers (exec (.br bt q inv) s) (fun t => fall t [] ∧ SameX s t))) ∧
    (s.me.ready [.b bt.toNat, .q q.toNat] [.b 7] = true →
      (c = true → Answers (exec (.brl bt q inv) s) (fun t => jump t [.b 7] ∧ SameX s t ∧
        (∀ r, t.me.b r = if r = 7 then BitVec.ofNat 32 (s.me.su.pc + 4) else s.me.b r) ∧
        t.me.su.loads.get none 7 = some { index := s.me.su.index, fetch := true })) ∧
      (c = false → Answers (exec (.brl bt q inv) s) (fun t => fall t [] ∧ SameX s t))) ∧
    (s.me.ready [.b bt.toNat, .q q.toNat, .x a.toNat] [] = true →
      (c = true ∧ s.me.x a ≠ 1 →
        Answers (exec (.loop bt q inv a) s) (fun t => jump t (xWord a) ∧ SameB s t ∧ XBecomes s t a (s.me.x a - 1))) ∧
      (c = false ∨ s.me.x a = 1 →
        Answers (exec (.loop bt q inv a) s) (fun t => fall t (xWord a) ∧ XBecomes s t a (s.me.x a - 1))))) ∧
 (∀ (s : State) (bt q : BitVec 3) (inv : BitVec 1) (a : BitVec 5),
    ((s.me.b bt.toNat).toNat % 4 ≠ 0 ∨ (s.code.get {} s.here).s.length ≤ (s.me.b bt.toNat).toNat) →
    (s.me.q q != (inv == 1)) = true →
    (s.me.ready [.b bt.toNat, .q q.toNat] [] = true → exec (.br bt q inv) s = .next (s.operandFault s.here .s 8)) ∧
    (s.me.ready [.b bt.toNat, .q q.toNat] [.b 7] = true → exec (.brl bt q inv) s = .next (s.operandFault s.here .s 8)) ∧
    (s.me.ready [.b bt.toNat, .q q.toNat, .x a.toNat] [] = true → s.me.x a ≠ 1 →
      exec (.loop bt q inv a) s = .next (s.operandFault s.here .s 8)))

/-! ## Curve words -/

/-- 08 R219, R220: the curve words on k registers with valid headers, axis by axis. 08 R221: KSPLIT merges the closest pair, lowest first, until at most max ranges are left, writes them to the list,
leaves their count in x[d] and whether they are exact in q[c]; nothing else changes. -/
def Obligations.CurveWords : Prop :=
 (∀ (s : State) (d a b : BitVec 5), d.toNat < 16 → ∀ (x y : BitVec 128), s.me.k a.toNat = x → s.me.k b.toNat = y →
    (∀ (dims w v : Nat), dims ≤ 8 → dims ≠ 0 → w ≠ 0 → dims * w ≤ 96 → v < 2 ^ 64 → v < 2 ^ (dims * w) → w < 32 →
      s.me.x a = BitVec.ofNat 64 (dims - 1 + 8 * w) → s.me.x b = BitVec.ofNat 64 v →
      s.me.ready [.x a.toNat, .x b.toNat] [.k d.toNat] = true →
      Answers (exec (.kset d a b) s) (fun t => SetsK s t d.toNat
        (BitVec.ofNat 3 (dims - 1) ++ BitVec.ofNat 5 w ++ 0#8 ++ 0#16 ++ BitVec.ofNat 96 v))) ∧
    (kOk (s.me.k d.toNat) = true → a.toNat + (kDims (s.me.k d.toNat) + 1) / 2 ≤ 32 →
      s.me.ready ((List.range ((kDims (s.me.k d.toNat) + 1) / 2)).map (fun i => .x (a.toNat + i)) ++ [.k d.toNat]) [] = true →
      let held (i : Nat) : Nat := (s.me.x (BitVec.ofNat 5 (a.toNat + i / 2))).toNat / 2 ^ (32 * (i % 2)) % 2 ^ 32
      Answers (exec (.kpack d a) s) (fun t => ∃ v, SetsK s t d.toNat v ∧
        CurveIs v (s.me.k d.toNat) (fun i => held i % 2 ^ kWidth (s.me.k d.toNat)) (fun i => 2 ^ kWidth (s.me.k d.toNat) ≤ held i))) ∧
    (kOk x = true → d.toNat + (kDims x + 1) / 2 ≤ 32 →
      s.me.ready [.k a.toNat] ((List.range ((kDims x + 1) / 2)).map (fun i => .x (d.toNat + i))) = true →
      Answers (exec (.kunpk d a) s) (fun t =>
        OnlyS s t ((List.range ((kDims x + 1) / 2)).flatMap (fun i => xWord (BitVec.ofNat 5 (d.toNat + i)))) ∧ WentOn s t ∧ SameQ s t ∧ SameB s t ∧ SameK s t ∧
        ∀ r : BitVec 5, t.me.x r =
          if r ≠ 0 ∧ d.toNat ≤ r.toNat ∧ r.toNat < d.toNat + (kDims x + 1) / 2 then
            BitVec.ofNat 64 (curveAxis x (2 * (r.toNat - d.toNat)) +
              (if 2 * (r.toNat - d.toNat) + 1 < kDims x then curveAxis x (2 * (r.toNat - d.toNat) + 1) else 0) * 2 ^ 32)
          else s.me.x r)) ∧
    (kSame x y = true →
      (s.me.ready [.k a.toNat, .k b.toNat] [.k d.toNat] = true →
        Answers (exec (.kadd d a b) s) (fun t => ∃ v, SetsK s t d.toNat v ∧
          CurveIs v x (fun i => (curveAxis x i + curveAxis y i) % 2 ^ kWidth x) (fun i => 2 ^ kWidth x ≤ curveAxis x i + curveAxis y i)) ∧
        Answers (exec (.ksub d a b) s) (fun t => ∃ v, SetsK s t d.toNat v ∧
          CurveIs v x (fun i => (curveAxis x i + 2 ^ kWidth x - curveAxis y i) % 2 ^ kWidth x) (fun i => curveAxis x i < curveAxis y i))) ∧
      (∀ e : BitVec 3, d = e.setWidth 5 → s.me.ready [.k a.toNat, .k b.toNat] [.q d.toNat] = true →
        Answers (exec (.kcmp d a b) s) (fun t => SetsQ s t e (decide ((x.setWidth 96).toNat < (y.setWidth 96).toNat)))) ∧
      (s.me.ready [.k a.toNat, .k b.toNat] [.x d.toNat] = true →
        Answers (exec (.kpfx d a b) s) (fun t => ∃ l ≤ kWidth x, SetsX s t d (BitVec.ofNat 64 l) ∧
          (∀ n, kDims x * (kWidth x - l) ≤ n → n < kDims x * kWidth x → x.getLsbD n = y.getLsbD n) ∧
          (l < kWidth x → ∃ n, kDims x * (kWidth x - (l + 1)) ≤ n ∧ n < kDims x * (kWidth x - l) ∧ x.getLsbD n ≠ y.getLsbD n))))) ∧
 (∀ (s : State) (d a b : BitVec 5) (q : BitVec 3) (off most : Nat), d ≠ 0 →
    kSame (s.me.k a.toNat) (s.me.k b.toNat) = true → kDims (s.me.k a.toNat) * kWidth (s.me.k a.toNat) ≤ 64 →
    off < 2 ^ 21 → off % 16 = 0 → most ≠ 0 → most ≤ 4096 → s.me.x d = BitVec.ofNat 64 (off + most * 2 ^ 32) →
    s.me.csr.watch = [] → s.mem.recent = [] → s.mem.wf = true →
    s.me.ready [.k a.toNat, .k b.toNat, .x d.toNat] [.q q.toNat] = true →
    let runs := joinRuns (boxRuns (kDims (s.me.k a.toNat)) (kWidth (s.me.k a.toNat)) 0
      (List.zip (kAxes (s.me.k a.toNat)) (kAxes (s.me.k b.toNat))))
    let kept := mergeRuns most runs.length runs
    kept.length ≤ most ∧ (runs.length ≤ most → kept = runs) ∧
    (off + 16 * kept.length ≤ 2 ^ 21 →
      Answers (exec (.ksplit d a b q) s) (fun t => ∃ m, Accessed s t m ((s.me.setX d (BitVec.ofNat 64 kept.length)).setQ q (runs.length ≤ most)) ∧
        m.tags = s.mem.tags ∧
        (∀ k, (k < sliceKey s.here off ∨ sliceKey s.here (off + 16 * kept.length) ≤ k) → m.byte k = s.mem.byte k) ∧
        ∀ j (h : j < kept.length), ∀ i < 8,
          m.byte (sliceKey s.here (off + 16 * j + i)) = BitVec.ofNat 8 ((kept[j]).1 / 2 ^ (8 * i)) ∧
          m.byte (sliceKey s.here (off + 16 * j + 8 + i)) = BitVec.ofNat 8 ((kept[j]).2 / 2 ^ (8 * i)))))

/-- 08 R221: the ranges that KSPLIT starts from are the maximal runs of the codes in the box, ascending; each merge joins the
pair with the least gap, the lowest of several, into one range; so the ranges that it writes stand apart and every code of the
box lies in one of them. -/
def Obligations.SplitRunsAreTheBox : Prop :=
 (∀ lo hi : BitVec 128, kSame lo hi = true →
    let runs := joinRuns (boxRuns (kDims lo) (kWidth lo) 0 (List.zip (kAxes lo) (kAxes hi)))
    Apart runs ∧
    (∀ c < 2 ^ (kDims lo * kWidth lo), InBox lo hi c ↔ ∃ r ∈ runs, r.1 ≤ c ∧ c ≤ r.2) ∧
    ∀ most : Nat, let kept := mergeRuns most runs.length runs
      Apart kept ∧ (0 < most → kept.length ≤ most) ∧
      ∀ c < 2 ^ (kDims lo * kWidth lo), InBox lo hi c → ∃ r ∈ kept, r.1 ≤ c ∧ c ≤ r.2) ∧
 (∀ (l : List (Nat × Nat)) (most fuel : Nat), Apart l → 0 < most → most < l.length →
    let gap (j : Nat) : Nat := (l.getD (j + 1) (0, 0)).1 - (l.getD j (0, 0)).2 - 1
    ∃ i, i + 1 < l.length ∧ (∀ j, j + 1 < l.length → gap i ≤ gap j ∧ (gap j = gap i → i ≤ j)) ∧
      mergeRuns most (fuel + 1) l =
        mergeRuns most fuel (l.take i ++ ((l.getD i (0, 0)).1, (l.getD (i + 1) (0, 0)).2) :: l.drop (i + 2)))

/-! ## S memory words -/

/-- 08 R207, R208: LDS through a dense or curve entry of any core of the node, with an x or a k coordinate, leaves LD(n) in
x[d] and changes no byte. 08 R207, R208: STS writes the n bytes of x[d], skips elements that are outside, and changes no other byte and no
register. 08 R208, R209: each atomic word leaves LD of the old value in x[d] and stores the value that its operation gives, from a
value `v` of x[d] and `w` of x[d + 1]; AMIN and AMAX compare as signed for i32 and as unsigned for n32. 03 R103, 04 R122 to R125:
through a global entry whose pages its quad has translated, LDS reads and STS writes the elements at their homes, an
irrevocable node's in memory and another's staged. -/
def Obligations.ScalarMemoryWords : Prop :=
 (∀ (s : State) (d a b : BitVec 5) (c : BitVec 4) (n : Nat) (e : Ent), entOf (s.me.lt b.toNat) = e → GoodReg s (.lt b.toNat) →
    (SliceAccess s e (s.me.x a).toNat n → TagsMatch s e (s.me.x a).toNat → s.me.ready [.x a.toNat] [.x d.toNat] = true →
      Answers (exec (.lds d a b c) s) (fun t => Accessed s t s.mem
        (s.me.setX d (sExtend e n (valueIn s.mem (e.sliceOf s.here) e (s.me.x a).toNat))))) ∧
    (SliceAccess s e (fieldOf (s.me.k a.toNat) 95 0) n → TagsMatch s e (fieldOf (s.me.k a.toNat) 95 0) → e.curve = true →
      s.me.ready [.k a.toNat] [.x d.toNat] = true →
      Answers (exec (.ldsK d a b c) s) (fun t => Accessed s t s.mem
        (s.me.setX d (sExtend e n (valueIn s.mem (e.sliceOf s.here) e (fieldOf (s.me.k a.toNat) 95 0))))))) ∧
 (∀ (s : State) (d a b : BitVec 5) (c : BitVec 4) (n : Nat) (e : Ent), entOf (s.me.lt b.toNat) = e → GoodReg s (.lt b.toNat) →
    (SliceAccess s e (s.me.x a).toNat n → s.me.ready [.x a.toNat, .x d.toNat] [] = true →
      Answers (exec (.sts d a b c) s) (fun t => ∃ m, Accessed s t m s.me ∧
        HoldsIn s.mem m (e.sliceOf s.here) e (s.frameNo s.here) (sElems e (s.me.x a).toNat) (s.me.x d).toNat)) ∧
    (SliceAccess s e (fieldOf (s.me.k a.toNat) 95 0) n → e.curve = true → s.me.ready [.k a.toNat, .x d.toNat] [] = true →
      Answers (exec (.stsK d a b c) s) (fun t => ∃ m, Accessed s t m s.me ∧
        HoldsIn s.mem m (e.sliceOf s.here) e (s.frameNo s.here) (sElems e (fieldOf (s.me.k a.toNat) 95 0)) (s.me.x d).toNat))) ∧
 (∀ (s : State) (d a b : BitVec 5) (c : BitVec 4) (n coord : Nat) (e : Ent) (k : Bool), entOf (s.me.lt b.toNat) = e → GoodReg s (.lt b.toNat) →
    (if k then e.curve = true ∧ coord = fieldOf (s.me.k a.toNat) 95 0 else coord = (s.me.x a).toNat) →
    SliceAccess s e coord n → TagsMatch s e coord → (e.ty = 3 ∨ e.ty = 7) → (n = 4 ∨ n = 8) →
    (∀ x ∈ sElems e coord, x.outside = false) →
    let r : SReg := if k then .k a.toNat else .x a.toNat
    let old := valueIn s.mem (e.sliceOf s.here) e coord
    let v := (s.me.x d).toNat % 2 ^ (8 * n)
    let less (x y : Nat) : Prop := if e.ty = 3 then exts x (8 * n) < exts y (8 * n) else x < y
    let leaves (i : Instr) (new : Nat) : Prop := Answers (exec i s) (fun t => ∃ m,
      Accessed s t m (s.me.setX d (sExtend e n old)) ∧ HoldsIn s.mem m (e.sliceOf s.here) e (s.frameNo s.here) (sElems e coord) new)
    (s.me.ready [r, .x d.toNat] [] = true →
      leaves (if k then .aaddK d a b c else .aadd d a b c) ((old + v) % 2 ^ (8 * n)) ∧
      (less v old → leaves (if k then .aminK d a b c else .amin d a b c) v) ∧
      (¬ less v old → leaves (if k then .aminK d a b c else .amin d a b c) old) ∧
      (less old v → leaves (if k then .amaxK d a b c else .amax d a b c) v) ∧
      (¬ less old v → leaves (if k then .amaxK d a b c else .amax d a b c) old) ∧
      leaves (if k then .axchK d a b c else .axch d a b c) v) ∧
    (s.me.ready [r, .x d.toNat, .x (d.toNat + 1)] [] = true →
      (old = v → leaves (if k then .acasK d a b c else .acas d a b c) ((s.me.x (d + 1)).toNat % 2 ^ (8 * n))) ∧
      (old ≠ v → leaves (if k then .acasK d a b c else .acas d a b c) old))) ∧
 (∀ (s : State) (d a b : BitVec 5) (c : BitVec 4) (n : Nat) (e : Ent) (home : Nat → Nat), entOf (s.me.lt b.toNat) = e → GoodReg s (.lt b.toNat) →
    e.loaded = true → e.space = 3 → e.peer = false → e.tagged = false → (n = 1 ∨ n = 2 ∨ n = 4 ∨ n = 8) → sSize e = n → Quiet s →
    PlainGlobal s s.here →
    let xs := sElems e (s.me.x a).toNat
    sAddr e (s.me.x a).toNat % n = 0 → firstPast e xs = none →
    (Homes s s.here e xs false home → s.me.ready [.x a.toNat] [.x d.toNat] = true →
      Answers (exec (.lds d a b c) s) (fun t => Accessed s t s.mem
        (s.me.setX d (sExtend e n (packElems e.esize (xs.map (globalIn s.mem.byte e home))))))) ∧
    (Homes s s.here e xs true home → Separate e xs → InBudget s s.here n → (s.nodeOn s.here).isSome = true →
      s.me.ready [.x a.toNat, .x d.toNat] [] = true →
      Answers (exec (.sts d a b c) s) (fun t => ∃ u, Accessed u t u.mem s.me ∧
        StoredGlobal s u s.here e home xs (fun j => (s.me.x d).toNat / 2 ^ (e.esize * j) % 2 ^ e.esize))))

/-- 08 R207, R209: an S memory word raises OPERAND for a space that is not allowed, a k form with a dense entry, a size
other than 1, 2, 4 or 8, and an atomic whose type or size is not admitted; ACCESS for an address that is not a multiple
of the size, and for an atomic of an element that is outside. -/
def Obligations.ScalarMemoryFaults : Prop :=
  ∀ (s : State) (d a b : BitVec 5) (c : BitVec 4) (e : Ent), entOf (s.me.lt b.toNat) = e → GoodReg s (.lt b.toNat) → e.loaded = true →
    s.me.ready [.x a.toNat, .x d.toNat, .x (d.toNat + 1)] [] = true → s.me.ready [.k a.toNat, .x d.toNat, .x (d.toNat + 1)] [] = true →
    let atomics : List Instr := [.aadd d a b c, .amin d a b c, .amax d a b c, .axch d a b c, .acas d a b c]
    let words : List Instr := [.lds d a b c, .sts d a b c] ++ atomics
    let atomicsK : List Instr := [.aaddK d a b c, .aminK d a b c, .amaxK d a b c, .axchK d a b c, .acasK d a b c]
    let wordsK : List Instr := [.ldsK d a b c, .stsK d a b c] ++ atomicsK
    let operand (l : List Instr) (reason : Nat) : Prop := ∀ i ∈ l, exec i s = .next (s.operandFault s.here .s reason)
    let access (l : List Instr) (coord : Nat) : Prop := ∀ i ∈ l, exec i s = .next (s.faultAt s.here .s 0x0B (sAddr e coord % 2 ^ 32))
    let n := sSize e
    let typed : Prop := (e.ty = 3 ∨ e.ty = 7) ∧ (n = 4 ∨ n = 8)
    let code := fieldOf (s.me.k a.toNat) 95 0
    ((e.space = 2 ∨ e.space = 4 ∨ e.peer = true) → operand words 1 ∧ operand wordsK 1) ∧
    (e.peer = false → (e.space = 0 ∨ e.space = 3) →
      (e.curve = false → operand wordsK 2) ∧
      (n ≠ 1 → n ≠ 2 → n ≠ 4 → n ≠ 8 → operand words 3 ∧ (e.curve = true → operand wordsK 3)) ∧
      ((n = 1 ∨ n = 2 ∨ n = 4 ∨ n = 8) → ¬ typed → operand atomics 3 ∧ (e.curve = true → operand atomicsK 3)) ∧
      ((n = 2 ∨ n = 4 ∨ n = 8) → sAddr e (s.me.x a).toNat % n ≠ 0 →
        access [.lds d a b c, .sts d a b c] (s.me.x a).toNat ∧ (typed → access atomics (s.me.x a).toNat)) ∧
      ((n = 2 ∨ n = 4 ∨ n = 8) → e.curve = true → sAddr e code % n ≠ 0 →
        access [.ldsK d a b c, .stsK d a b c] code ∧ (typed → access atomicsK code)) ∧
      (typed → sAddr e (s.me.x a).toNat % n = 0 → (∃ x ∈ sElems e (s.me.x a).toNat, x.outside = true) → access atomics (s.me.x a).toNat) ∧
      (typed → e.curve = true → sAddr e code % n = 0 → (∃ x ∈ sElems e code, x.outside = true) → access atomicsK code))

/-- 03 R103: whatever an S memory word through a global entry does, a node that is not irrevocable changes no byte of
memory with it before its commit. 03 R103, R104, 08 R224: when every core of the placement has reached a commit, the node's staged bytes are written all
at once and S goes on; in an irrevocable node nothing is released. When every core has reached `ncmt.end`, that
release is the final one: no core of the node issues anything more, and the node is about to end: DONE, or LATE when its
deadline has passed. -/
def Obligations.StagedWritesAndCommits : Prop :=
 (∀ (s t : State) (d a b : BitVec 5) (c : BitVec 4), (entOf (s.me.lt b.toNat)).space = 3 →
    (∀ n v, s.nodeOn s.here = some (n, v) → State.irrevocable v = false) →
    ∀ i ∈ ([.sts d a b c, .stsK d a b c, .aadd d a b c, .aaddK d a b c, .amin d a b c, .aminK d a b c, .amax d a b c,
        .amaxK d a b c, .axch d a b c, .axchK d a b c, .acas d a b c, .acasK d a b c] : List Instr),
      exec i s = .next t → ∀ k, t.mem.byte k = s.mem.byte k) ∧
 (∀ (s : State) (n k : Nat) (v : Node), s.nodeOn s.here = some (n, v) → (State.nodeCores v).contains s.here = true →
    (∀ f ∈ s.me.cu.flights, f.unit ≠ .s) → State.lockstep v = false → v.commits < k →
    (∀ b ∈ v.staged, hbmBase ≤ b.1) → (∀ b ∈ v.staged, b.1 < hostBase → Tab.find s.mem.keys (b.1 / 256) = s.keyOf v.part.toNat b.1) →
    s.me.ended = false → s.mem.wf = true → (v.staged.map (fun b => b.1)).Nodup →
    let released (t : State) : Prop := ∀ key, t.mem.byte key =
      if State.irrevocable v then s.mem.byte key else (Tab.find v.staged key).getD (s.mem.byte key)
    ((∃ mark, s.me.su.wait = some (.ncmt k false mark)) → (State.nodeCores v).all (s.commitReady k) = true →
      Answers (exec .ncmt s) (fun t => released t ∧ WentOn s t ∧ t.me.x = s.me.x ∧
        ∃ w, t.nodeAt n = some w ∧ w.commits = k ∧ (State.irrevocable v = false → w.staged = []))) ∧
    ((∃ mark, s.me.su.wait = some (.ncmt k true mark)) → (State.nodeCores v).all (s.commitReady k) = true →
      (∀ c ∈ State.nodeCores v, c ≠ s.here → (s.coreAt c).ended = true ∨ ∃ o mark, (s.coreAt c).su.wait = some (.ncmt o true mark)) →
      Answers (exec .ncmtEnd s) (fun t => released t ∧ (∀ c ∈ State.nodeCores v, (t.coreAt c).ended = true) ∧ t.me.run = false ∧
        ∃ w, t.nodeAt n = some w ∧
          w.st = .ending (if recDeadline v.rcd ≠ 0 ∧ recDeadline v.rcd < s.now then .late else .done) 0)))

/-- 08 R210, 04 R109: LTSET of 32 bytes at a multiple of 32 leaves a valid entry to take effect at the end of the cycle;
any other offset raises ACCESS, an invalid entry OPERAND, reason 2. 08 R212, 03 R92, R93: the amount is (x[a] + n) mod 2^16. TADD is added at the end of the cycle, and
an addition that fits then raises its counter by its amount; TTAKE and TWAIT go on when the counter holds the amount, TTAKE with it
taken, and otherwise wait with it, S alone; TREAD reads the counter. -/
def Obligations.LayoutAndTokenWords : Prop :=
 (∀ (s : State) (d a : BitVec 5) (c : BitVec 4) (off : Nat) (v : BitVec 256), (s.me.x a).toNat = off →
    s.me.ready [.x a.toNat] [] = true →
    ((off % 32 ≠ 0 ∨ 2 ^ 21 ≤ off) → exec (.ltset d a c) s = .next (s.faultAt s.here .s 0x0B (off % 2 ^ 32))) ∧
    (off % 32 = 0 → off < 2 ^ 21 → s.mem.recent = [] → s.mem.marks = [] → s.me.csr.watch = [] →
      (∀ i < 32, v.extractLsb' (8 * i) 8 = s.mem.byte (sliceKey s.here (off + i))) →
      ((entOf v).ok v = true → Answers (exec (.ltset d a c) s) (fun t =>
        Accessed s t s.mem { s.me with ltset := s.me.ltset ++ [(d.toNat, v)] })) ∧
      ((entOf v).ok v = false → exec (.ltset d a c) s = .next (s.operandFault s.here .s 2)))) ∧
 (∀ (s : State) (d a n : BitVec 5) (m : Nat), m = ((s.me.x a).toNat + n.toNat) % 2 ^ 16 →
    (s.me.ready [.x a.toNat] [] = true →
      (m ≠ 0 → Answers (exec (.tadd d a n) s) (fun t => GoesOn s t s.mem { s.me with adds := s.me.adds ++
        [{ counter := d, amount := m, order := 0, index := BitVec.ofNat 32 s.me.su.index, position := BitVec.ofNat 32 s.me.su.pc
           past := s.mem.known s.here 0 (fun k => k = 0 || k = noClass) }] })) ∧
      (m = 0 → Answers (exec (.tadd d a n) s) (fun t => GoesOn s t s.mem s.me)) ∧
      ((s.me.su.wait = none ∨ s.me.su.wait = some (.token m)) → GoodReg s (.tk d.toNat) →
        (m ≤ s.me.tk d →
          Answers (exec (.ttake d a n) s) (fun t =>
            ∃ k, SameMemory s.mem k ∧ GoesOn s t k (s.me.setTk d (s.me.tk d - m)) ∧ ∀ r, t.me.tk r = if r = d then s.me.tk d - m else s.me.tk r) ∧
          Answers (exec (.twait d a n) s) (fun t => ∃ k, SameMemory s.mem k ∧ GoesOn s t k s.me)) ∧
        (s.me.tk d < m →
          Answers (exec (.ttake d a n) s) (fun t => WaitsIn s t { s.me with su := { s.me.su with wait := some (.token m) } }) ∧
          Answers (exec (.twait d a n) s) (fun t => WaitsIn s t { s.me with su := { s.me.su with wait := some (.token m) } })))) ∧
    (s.me.ready [] [.x d.toNat] = true → GoodReg s (.tk a.toNat) →
      Answers (exec (.tread d a) s) (fun t => SetsX s t d (BitVec.ofNat 64 (s.me.tk a))))) ∧
 (∀ (s : State) (k : Nat) (y : TokAdd), let c := s.coreAt k
    c.adds = [y] → c.tk y.counter + y.amount ≤ 65535 →
    ∃ m, SameMemory s.mem m ∧ (y.past = [] → m = s.mem) ∧
      s.applyAdds k = { s with mem := m, cores := s.cores.ins k ({ c with adds := [] }.setTk y.counter (c.tk y.counter + y.amount)) })

/-! ## Tokens, fences, barriers, queue commands -/

/-- 06 R163, R167, R168, 08 R213: FNC orders every store that happens before it before all that follows it, makes it visible
where the scope covers its place, and goes on. GBAR counts an ordinal of its tier; it goes on when every other member of
the group in the placement has come to that ordinal or ended, and then every store that happens before any member's GBAR
happens before every S access that follows any member's; until then S waits in it, fenced. 02 R60: TIME reads device time, PWRQ the region's power predicate; WAITT goes on when its time has passed and else
waits, until the first unfrozen cycle at or after that time. -/
def Obligations.OrderTimeAndPowerWords : Prop :=
 (∀ (s : State) (x : BitVec 5), (∀ f ∈ s.me.cu.flights, f.unit ≠ .s) →
    Answers (exec (.fnc x) s) (fun t => ∃ again, GoesOnWith s t (s.fenced x.toNat) s.me again ∧ ∀ f ∈ again, f.unit ≠ .s) ∧
    (s.me.su.wait = none → x.toNat ≤ 4 →
      let n := s.me.gbar.get 0 x.toNat + 1
      let c : Core := { s.me with gbar := s.me.gbar.ins x.toNat n }
      let members := (groupCores x.toNat (groupOf x.toNat s.here)).filter (fun k => k ≠ s.here ∧ s.inPlacement s.here k = true)
      let there (k : Nat) : Prop := (s.coreAt k).su.wait = some (.gbar x.toNat n)
      let past (k : Nat) : Prop := ¬ there k ∧ n ≤ (s.coreAt k).gbar.get 0 x.toNat
      let all : Prop := ∀ k ∈ members, (there k ∧ ∀ f ∈ (s.coreAt k).cu.flights, f.unit ≠ .s) ∨
        (¬ there k ∧ ((s.coreAt k).ended = true ∨ ∃ o m, (s.coreAt k).su.wait = some (.ncmt o true m))) ∨ past k
      (all → s.inPlacement s.here s.here = true → Answers (exec (.gbar x) s) (fun t =>
        t = { s with mem := t.mem, cores := t.cores, freeCtr := t.freeCtr } ∧ SameMemory s.mem t.mem ∧
        (∃ again, t.me = { c with su := { c.su with pc := c.su.pc + 4, index := c.su.index + 1, wait := none }
                                  cu := { c.cu with again := again } }) ∧
        (∀ k, k ≠ s.here → ∃ again, t.coreAt k = { s.coreAt k with cu := { (s.coreAt k).cu with again := again } }) ∧
        ((∀ k ∈ members, ¬ past k) →
          ∀ k, (k = s.here ∨ k ∈ members ∧ there k) → ∀ q ∈ s.mem.recent, (q.seen.any (fun y => y.core = k && y.seq = 0)) = true →
            ∃ q' ∈ t.mem.recent, q'.no = q.no ∧ q'.key = q.key ∧ (State.scopeCovers x.toNat k q.key = true → q'.until_ = 0) ∧
              ∀ w : Who, w.unit = .s → w.copy = 0 → (w.core = s.here ∨ w.core ∈ members ∧ there w.core) → q'.before w = true))) ∧
      (¬ all → Answers (exec (.gbar x) s) (fun t => ∃ again, t = { s with
        mem := s.fenced x.toNat
        cores := s.cores.ins s.here { c with su := { c.su with wait := some (.gbar x.toNat n) }, cu := { c.cu with again := again } } })))) ∧
 (∀ (s : State) (d a : BitVec 5) (e : BitVec 3) (w : Dword),
    (s.me.ready [] [.x d.toNat] = true →
      Answers (exec (.time d) s) (fun t => SetsX s t d (BitVec.ofNat 64 (s.clock.now / 2 ^ 16)))) ∧
    (d = e.setWidth 5 → s.me.ready [] [.q d.toNat] = true →
      Answers (exec (.pwrq d) s) (fun t => SetsQ s t e (s.regionAt (s.regionOf s.here)).power.predicate)) ∧
    (s.me.su.wait = none → s.me.ready [.x a.toNat] [] = true →
      ((s.me.x a).toNat ≤ s.now → Answers (exec (.waitt a) s) (fun t => GoesOn s t s.mem s.me)) ∧
      (s.now < (s.me.x a).toNat → Answers (exec (.waitt a) s) (fun t =>
        WaitsIn s t { s.me with su := { s.me.su with wait := some (.time (s.me.x a)) } }))) ∧
    (s.me.su.wait = some (.time w) → w.toNat ≤ s.now → s.me.run = true → s.me.frozen = false → s.me.held = false →
      s.me.halted = false → (s.regionAt (s.regionOf s.here)).gated = false → s.injected (s.regionOf s.here) = false →
      Answers (exec .waittResume s) (fun t => GoesOn s t s.mem s.me)))

/-- 08 R215 to R218, 03 R87: SEG and FMTQ push while there is room and otherwise wait with what they read; QDEP reads a
depth as it was at the start of the cycle; QFLSH is left for the end of the cycle. 03 R79, 08 R223: LNCH takes the record at a multiple of 128 below 2^21. Accepted, it becomes a node of the parent's
queue and partition in the pool, journaled with origin and kind 2, and x[d] is its number and q[c] true. Refused, x[d] is
2^64 less the reason, the first in the order 17, 2, 3 to 7, 16, 8, q[c] is false, and nothing else changes. -/
def Obligations.CommandsAndLaunches : Prop :=
 (∀ (s : State) (d a b : BitVec 5), s.me.su.wait = none →
    (∀ u : DUnit, (match d.toNat with | 1 => u = s.me.l | 2 => u = s.me.c | 3 => u = s.me.w | _ => False) →
      let xs := (List.range 8).map (fun i => s.me.x (a + BitVec.ofNat 5 i))
      s.me.ready ((List.range 8).map (fun i => SReg.x (a.toNat + i)) ++ [.x b.toNat]) [] = true →
      (u.cmdq.length < 16 → Answers (exec (.seg d a b) s) (fun t => ∃ m again, SameMemory s.mem m ∧
        GoesOnWith s t m (s.me.setUnit d.toNat { u with cmdq := u.cmdq ++
          [{ off := s.me.x b, xs := xs, past := s.beforeS s.here }] }) again ∧ ∀ f ∈ again, f.unit ≠ .s)) ∧
      (16 ≤ u.cmdq.length → Answers (exec (.seg d a b) s) (fun t =>
        WaitsIn s t { s.me with su := { s.me.su with wait := some (.seg (s.me.x b) xs) } }))) ∧
    (s.me.ready [.x a.toNat] [] = true →
      (s.me.cu.fmtq.length < 16 → Answers (exec (.fmtq a) s) (fun t =>
        GoesOn s t s.mem { s.me with cu := { s.me.cu with fmtNew := s.me.cu.fmtNew ++ [s.me.x a] } })) ∧
      (16 ≤ s.me.cu.fmtq.length → Answers (exec (.fmtq a) s) (fun t =>
        WaitsIn s t { s.me with su := { s.me.su with wait := some (.fmtq (s.me.x a)) } }))) ∧
    (s.me.ready [] [.x d.toNat] = true →
      (∀ depth, (match b.toNat with
          | 1 => depth = s.me.l.cmdq.length
          | 2 => depth = s.me.c.cmdq.length
          | 3 => depth = s.me.w.cmdq.length
          | 4 => depth = s.me.cu.fmtq.length
          | k => if 8 ≤ k ∧ k < 12 then depth = (s.me.cu.resq.get [] (k - 8)).length
              else if 12 ≤ k ∧ k < 16 then depth = ((s.me.cu.opq.get [] (k - 12)).filter (fun e => e.ready ≤ s.cycleOf s.here)).length
              else 16 ≤ k ∧ k < 20 ∧ depth = (s.me.cu.sieve.get [] (k - 16)).length) →
        Answers (exec (.qdep d b) s) (fun t => SetsX s t d (BitVec.ofNat 64 depth))) ∧
      Answers (exec (.qflsh d b) s) (fun t => GoesOn s t s.mem { s.me with flush := some (b, d) }))) ∧
 (∀ (s : State) (d a : BitVec 5) (q : BitVec 3) (off n : Nat) (v : Node) (r : List Dword), (s.me.x a).toNat = off →
    s.me.ready [.x a.toNat] [.x d.toNat, .q q.toNat] = true → s.nodeOn s.here = some (n, v) → s.mem.recent = [] →
    s.mem.marks = [] → s.me.csr.watch = [] →
    r = (List.range 16).map (fun i => BitVec.ofNat 64 (leNat ((List.range 8).map (fun j => s.mem.byte (sliceKey s.here (off + 8 * i + j)))))) →
    let gives (x : Nat) (ok : Bool) (t : State) : Prop := Accessed s t s.mem ((s.me.setX d (BitVec.ofNat 64 x)).setQ q ok)
    ((off % 128 ≠ 0 ∨ 2 ^ 21 ≤ off) → Answers (exec (.lnch d a q) s) (gives (2 ^ 64 - 17) false)) ∧
    (off % 128 = 0 → off < 2 ^ 21 →
      (s.queueOpen v.queue.toNat = false → Answers (exec (.lnch d a q) s) (gives (2 ^ 64 - 2) false)) ∧
      (s.queueOpen v.queue.toNat = true →
        (s.recordReason r ≠ 0 → Answers (exec (.lnch d a q) s) (gives (2 ^ 64 - s.recordReason r) false)) ∧
        (s.recordReason r = 0 →
          (s.poolFree ≤ 64 → (v.pool = false ∨ v.spent = true) → Answers (exec (.lnch d a q) s) (gives (2 ^ 64 - 16) false)) ∧
          (64 < s.poolFree → s.journalFull = true → Answers (exec (.lnch d a q) s) (gives (2 ^ 64 - 8) false)) ∧
          (64 < s.poolFree → s.journalFull = false → Answers (exec (.lnch d a q) s) (fun t =>
            t.mem = s.mem ∧ t.host.head = s.host.head + 1 ∧ XBecomes s t d (BitVec.ofNat 64 s.host.head) ∧ QBecomes s t q true ∧
            (∃ w, t.nodeAt s.host.head = some w ∧ w.rcd = r ∧ w.queue = v.queue ∧ w.part = (s.queueAt v.queue.toNat).part ∧
              w.parent = some n ∧ w.st = .waiting ∧ w.pool = true ∧ w.inQueue = false) ∧
            (∃ e, t.entryAt s.host.head = some e ∧ e.kind = 2 ∧ e.origin = n ∧ e.fate = .queued ∧ e.queue = v.queue) ∧
            (∀ k, k ≠ s.host.head → t.nodeAt k = s.nodeAt k)))))))

/-! ## Time, commit, launches, control registers, traps -/

/-- 08 R225, 07 R191: CSRR reads the registers, each as its own rule says; a CSRW of a read-only register is ignored, one
of a register with zero fields drops them, and a write stands from the end of the issue cycle. 02 R47, R69 (the boost
left in whole microseconds, rounded down, is log 59), 01 R38 (the ordering code is log 11), 18 R379: REGION_ID, PWRSTAT,
DEVINFO, CAPS and the watch registers. 04 R132, 03 R101: OQBIND keeps the enables of targets in the core's region and node,
unless a result queue holds an entry; SIEVE_CFG takes capacities of 2,048 in all while no path holds or awaits an entry. 08 R225, 05 R138: at the end of the cycle a written register reads the value written, FLAGS then with the flags raised
in that cycle added. -/
def Obligations.ControlRegisters : Prop :=
 (∀ (s : State) (d n a : BitVec 5),
    (s.me.ready [] [.x d.toNat] = true → GoodReg s (.csr n.toNat) →
      ∀ v : Dword,
        let g := s.regionAt (s.regionOf s.here)
        let left := match (s.quadAt (quadOf s.here)).boost with | some at_ => at_ - s.now | none => 0
        (match n.toNat with
          | 0 => v = BitVec.ofNat 64 (s.packageNo.toNat * 2 ^ 32 + s.here / 128 * 2 ^ 24 + s.here % 16 * 2 ^ 20 +
              s.here % 128 / 16 * 2 ^ 17 + (4 * (s.here / 128) + s.here % 128 / 32) * 2 ^ 14 + s.here / 4 * 2 ^ 8 + s.here)
          | 1 => v = s.me.csr.flags.setWidth 64
          | 2 => v = s.me.csr.ashape
          | 3 => v = s.me.csr.oqbind.setWidth 64
          | 4 => v = s.me.csr.sieveCfg.setWidth 64
          | 5 => v = BitVec.ofNat 64 (fieldOf g.bind 63 32 * 2 ^ 32 + s.regionOf s.here + 2 ^ 5 * (match g.st with
              | .unbound | .locked => 0 | .tracking => 1 | .ceiling => 2 | .holdover => 3 | .frozen => 4 | .relocking => 5))
          | 6 => v = (s.regionAt (s.regionOf s.here)).frameNo
          | 7 => v = BitVec.ofNat 64 ((s.regionAt (s.regionOf s.here)).frameCy % 2 ^ 32)
          | 8 => v = BitVec.ofNat 64 ((s.regionAt (s.regionOf s.here)).frameNo.toNat % 2 ^ 32 * 2 ^ 32 +
              (s.regionAt (s.regionOf s.here)).frameCy % 2 ^ 32)
          | 9 => v = s.me.csr.schedCy
          | 10 => v = s.me.csr.remain
          | 11 => v = s.me.csr.trap0
          | 12 => v = s.me.csr.trap1
          | 13 => v = s.me.csr.trap2
          | 14 => v = s.me.csr.gwstat
          | 15 => v = s.me.csr.rngSeed
          | 16 => v = s.me.csr.rngStep.setWidth 64
          | 17 => v = BitVec.ofNat 64 (g.power.estimate.toNat * 2 ^ 32 + left / 1000 % 2 ^ 16 * 2 ^ 16 + g.power.duty % 16 * 2 ^ 8 +
              g.power.step % 16 * 2 ^ 4 + (if left = 0 then 0 else 8) + (if g.power.predicate then 1 else 0))
          | 18 => v = (if Config.isModule then 0xFA15025601010000#64 else 0xFA15025601020000#64)
          | 19 => v = 0xFF0010000258C800#64 + BitVec.ofNat 64 (2 ^ 45 * ((List.range 8).map (fun k =>
              ((List.range 160).filter (fun i => !(s.stackAt k).retired.getLsbD i)).length)).sum)
          | 20 => v = BitVec.allOnes 64
          | 21 => v = s.me.csr.trapVec
          | 22 => v = s.me.csr.trapPc
          | 23 => v = s.me.csr.wdog.setWidth 64
          | k => v = s.me.csr.watch.get 0 (k - 24)) →
        Answers (exec (.csrr d n) s) (fun t => SetsX s t d v)) ∧
    (s.me.ready [.x a.toNat] [] = true →
      ((n = 0 ∨ n = 2 ∨ n = 5 ∨ n = 6 ∨ n = 7 ∨ n = 8 ∨ n = 9 ∨ n = 11 ∨ n = 12 ∨ n = 13 ∨ n = 14 ∨ n = 17 ∨ n = 18 ∨ n = 19 ∨ n = 20) →
        Answers (exec (.csrw n a) s) (fun t => GoesOn s t s.mem s.me)) ∧
      (∀ kept : Dword,
        (match n.toNat with
          | 1 => kept = s.me.x a &&& 0x7F#64
          | 10 | 15 => kept = s.me.x a
          | 16 => kept = s.me.x a &&& 0xFFFFFFFF#64
          | 21 => kept = s.me.x a &&& 0xFFFFFFFD#64
          | 22 => kept = s.me.x a &&& 0xFFFFFFFC#64
          | 23 => kept = s.me.x a ∧ 1 ≤ (s.me.x a).toNat ∧ (s.me.x a).toNat ≤ 2 ^ 24
          | k => 24 ≤ k ∧ kept = s.me.x a &&& 0xF0F80000001FFFFF#64) →
        Answers (exec (.csrw n a) s) (fun t => GoesOn s t s.mem { s.me with csrw := s.me.csrw ++ [(n.toNat, kept)] })) ∧
      (n = 23 → (s.me.x a = 0 ∨ 2 ^ 24 < (s.me.x a).toNat) → Answers (exec (.csrw n a) s) (fun t => GoesOn s t s.mem s.me)) ∧
      (let binds (j : Nat) : Prop :=
         let t := s.here / 128 * 128 + (s.me.x a).toNat / 2 ^ (8 * j + 4) % 8 * 16 + s.here % 16
         (s.me.x a).getLsbD (8 * j + 7) = true ∧ s.regionOf t = s.regionOf s.here ∧ s.inPlacement s.here t = true
       n = 3 →
        ((∃ j < 4, s.me.cu.resq.get [] j ≠ []) → Answers (exec (.csrw n a) s) (fun t => GoesOn s t s.mem s.me)) ∧
        ((∀ j < 4, s.me.cu.resq.get [] j = []) → Answers (exec (.csrw n a) s) (fun t => ∃ kept : Dword, kept.toNat < 2 ^ 32 ∧
          (∀ j < 4, (kept.getLsbD (8 * j + 7) = true ↔ binds j) ∧ kept.toNat / 2 ^ (8 * j) % 128 = (s.me.x a).toNat / 2 ^ (8 * j + 2) % 32 * 4) ∧
          GoesOn s t s.mem { s.me with csrw := s.me.csrw ++ [(3, kept)] }))) ∧
      (let busy : Prop := 2048 < ((List.range 4).map (fun p => (s.me.x a).toNat / 2 ^ (12 * p) % 2 ^ 12)).sum ∨
         (∃ p < 4, s.me.cu.sieve.get [] p ≠ []) ∨ s.me.cu.appends ≠ []
       n = 4 → (busy → Answers (exec (.csrw n a) s) (fun t => GoesOn s t s.mem s.me)) ∧
        (¬ busy → Answers (exec (.csrw n a) s) (fun t => GoesOn s t s.mem { s.me with csrw := s.me.csrw ++ [(4, s.me.x a &&& 0xFFFFFFFFFFFF#64)] }))))) ∧
 (∀ (c : Core) (v : Dword) (f : BitVec 7) (cyc : Nat), c.csrw = [] → c.flagsDue = [] →
    (State.closeRegs { c with csrw := [(1, v &&& 0x7F#64)], flags := f } cyc).csr.flags = v.setWidth 7 ||| f ∧
    (State.closeRegs { c with csrw := [(3, v)] } cyc).csr.oqbind = v.setWidth 32 ∧
    (State.closeRegs { c with csrw := [(4, v)] } cyc).csr.sieveCfg = v.setWidth 48 ∧
    (State.closeRegs { c with csrw := [(10, v)] } cyc).csr.remain = v ∧
    (State.closeRegs { c with csrw := [(15, v)] } cyc).csr.rngSeed = v ∧
    (State.closeRegs { c with csrw := [(16, v &&& 0xFFFFFFFF#64)] } cyc).csr.rngStep = v.setWidth 32 ∧
    (State.closeRegs { c with csrw := [(21, v &&& 0xFFFFFFFD#64)] } cyc).csr.trapVec = v &&& 0xFFFFFFFD#64 ∧
    (State.closeRegs { c with csrw := [(22, v &&& 0xFFFFFFFC#64)] } cyc).csr.trapPc = v &&& 0xFFFFFFFC#64 ∧
    (∀ (i : Nat) (e : BitVec 256) (j : Nat), (State.closeRegs { c with ltset := [(i, e)] } cyc).lt j = if j = i then e else c.lt j))

/-- 16 R331, R334, 08 R225: with TRAPVEC enabled and no handler running, TRAP and BRK of the S of a running node enter the
handler: TRAPPC takes the next word's offset, the trap record the class, core, number, word index and offset, frame and
schedule cycle with handler = 1, S stands at TRAPVEC's offset and loses three more cycles, and nothing else changes.
ERET in the handler clears handler, stands S at TRAPPC, and loses the same. NOP does nothing. 16 R335, R336: a fault that no handler takes, in a node that no one else stops, fails the node: its record is the
journal's, every core that runs it stops, and it is about to end FAILED with the class (log 46: the journal's record and the
stop come in the cycle of the fault). -/
def Obligations.TrapsFaultsAndReturns : Prop :=
 (∀ (s : State) (n : BitVec 5), Steady s → (∀ o, s.me.recorded ≠ some (s.cycleOf s.here, o)) →
    (s.me.csr.trapVec.getLsbD 0 = true → s.me.csr.trap0.getLsbD 52 = false → s.me.su.pc < 2 ^ 32 - 4 → s.me.su.pc % 4 = 0 →
      let entered (cls : BitVec 8) (t : State) : Prop := WaitsIn s t { s.me with
        recorded := some (s.cycleOf s.here, 0)
        csr := { s.me.csr with
          trap0 := cls ++ 0#3 ++ 1#1 ++ 0#4 ++ s.cur.core ++ 0#8 ++ n.setWidth 32
          trap1 := BitVec.ofNat 32 s.me.su.index ++ BitVec.ofNat 32 s.me.su.pc
          trap2 := (s.frameNo s.here).setWidth 32 ++ s.me.csr.schedCy.setWidth 32
          trapPc := BitVec.ofNat 64 (s.me.su.pc + 4) }
        su := { s.me.su with pc := fieldOf s.me.csr.trapVec 31 2 * 4, stall := 3, wait := none } }
      Answers (exec (.trap n) s) (entered 0x11) ∧ Answers (exec (.brk n) s) (entered 0x12)) ∧
    (s.me.csr.trap0.getLsbD 52 = true → Answers (exec .eret s) (fun t => WaitsIn s t { s.me with
      csr := { s.me.csr with trap0 := s.me.csr.trap0 &&& 0xFFEFFFFFFFFFFFFF#64 }
      su := { s.me.su with pc := fieldOf s.me.csr.trapPc 31 2 * 4, stall := 3, index := s.me.su.index + 1, wait := none } })) ∧
    Answers (exec .nop s) (fun t => GoesOn s t s.mem s.me)) ∧
 (∀ (s : State) (n : Nat) (v : Node) (unit : Slot) (cls : Nat) (status : Nat), Steady s → s.nodeOn s.here = some (n, v) →
    (∀ o, s.me.recorded ≠ some (s.cycleOf s.here, o)) → cls < 256 → cls ≠ 0x0D → cls ≠ 0x0E → cls ≠ 0x0F → cls ≠ 0x13 → cls ≠ 0x12 →
    (unit ≠ .s ∨ s.me.csr.trapVec.getLsbD 0 = false ∨ s.me.csr.trap0.getLsbD 52 = true ∨ State.handled (BitVec.ofNat 8 cls) = false) →
    (∀ e, s.entryAt n = some e → e.cls = 0) →
    let t := s.faultAt s.here unit cls status
    SameMemory s.mem t.mem ∧ t.me.run = false ∧ (∀ c ∈ State.nodeCores v, (s.coreAt c).node = some n → (t.coreAt c).run = false) ∧
    (s.coreAt s.here).csr.trapPc = t.me.csr.trapPc ∧ fieldOf t.me.csr.trap0 63 56 = cls ∧ fieldOf t.me.csr.trap0 31 0 = status % 2 ^ 32 ∧
    (∃ w, t.nodeAt n = some w ∧ w.st = .ending .failed (BitVec.ofNat 8 cls) ∧ w.staged = []) ∧
    (∀ e, s.entryAt n = some e → ∃ f, t.entryAt n = some f ∧ f.cls = BitVec.ofNat 8 cls ∧ f.trap0 = t.me.csr.trap0))

/-! ## D words -/

/-- 09 R226 to R245: a D word that its checks admit, whose takes are met and whose registers hold good code words issues: it
captures its entries, its coordinates, its parameter, FRAME_NO, the cycle and its worst-case latency, and is in flight; nothing it names is read or written yet. 09 R241 to R245, 09 R238: INGT, XRD and XWR issue likewise when their configuration checks hold; EGR also waits at its
port, or at a full one is discarded, counted and gives; BCPY takes the next handle, and an empty box is complete and gives
at once; DNOP, and an RGTH without a range, give at once. That the far rows of GTH, SCT, SCTA and RGTH are checked at the issue only where
the list can no longer change, and else as they are moved, is the model's reading, not a rule's (log 23). -/
def Obligations.DataWordsIssue : Prop :=
 (∀ (s : State) (w : DArgs) (g : Seg) (x : Todo), WordDue s g x w.takes → (s.slotHere = .l ∨ s.slotHere = .w) →
    let fly (i : Instr) (par : Dword) : Flight :=
      { id := s.freeCtr, unit := s.slotHere, ordinal := g.ordinal, offset := g.clock.getD 0, word := i, src := s.me.lt w.se.toNat
        dst := s.me.lt w.de.toNat, sc := s.pHere w.sp, dc := s.pHere w.dp, par := par, frame := s.frameNo s.here
        issued := s.cycleOf s.here, since := s.cycleOf s.here, worst := s.worstD i w + (if s.walksD i w then walkCycles else 0) }
    let clean (i : Instr) : Prop := GoodRegs s (s.regsD i w)
    let issues (i : Instr) (par : Dword) : Prop := clean i → Answers (exec i s) (fun t => IssuedAs s t g x w.takes (s.me.flying (fly i par)))
    let rows (i : Instr) : Prop := clean i → Answers (exec i s) (fun t =>
      IssuedAs s t g x w.takes (s.me.flying { fly i (s.pHere w.ext) with stamp := if s.listKnown w then 1 else 0 }))
    (s.moveCheck w [0] [0, 3] (.ok false) = .ok false → issues (.tld w) (s.pHere w.ext)) ∧
    (s.moveCheck w [0, 3] [0] (.ok false) = .ok false → issues (.tst w) (s.pHere w.ext)) ∧
    (s.moveCheck w [0] [1] (.ok false) = .ok false → issues (.tldr w) (s.pHere w.ext)) ∧
    (s.moveCheck w [1] [0] (.ok false) = .ok false → issues (.tstr w) (s.pHere w.ext)) ∧
    (s.moveCheck w [2] [0] (.ok false) = .ok false →
      ((s.dstEnt w).ty = 3 ∨ (s.dstEnt w).ty = 7 ∨ (s.dstEnt w).ty = 10 ∨ (s.dstEnt w).ty = 12) → issues (.tbc w) (s.pHere w.ext)) ∧
    (s.slotHere = .l → s.moveCheck w [0] [2] (.ok false) = .ok false → (s.srcEnt w).ty = (s.dstEnt w).ty → (s.srcEnt w).tagged = false →
      issues (.tgr w) (s.pHere w.ext)) ∧
    (s.gatherCheck (s.dstEnt w) (s.srcEnt w) (s.dstCoord w) (s.pHere w.ext) (gthOk (s.pHere w.ext) false) 8 (gthN (s.pHere w.ext)) true true false true (s.knownRows w (s.farRows w (s.srcEnt w))) = .ok false →
      rows (.gth w)) ∧
    (s.gatherCheck (s.srcEnt w) (s.dstEnt w) (s.srcCoord w) (s.pHere w.ext) (gthOk (s.pHere w.ext) false) 8 (gthN (s.pHere w.ext)) true true true false (s.knownRows w (s.farRows w (s.dstEnt w))) = .ok false →
      rows (.sct w)) ∧
    (s.gatherCheck (s.srcEnt w) (s.dstEnt w) (s.srcCoord w) (s.pHere w.ext) (gthOk (s.pHere w.ext) true) 8 (gthN (s.pHere w.ext)) true true true true (s.knownRows w (s.farRows w (s.dstEnt w))) = .ok false →
      ((s.dstEnt w).ty = 3 ∨ (s.dstEnt w).ty = 7 ∨ (s.dstEnt w).ty = 10 ∨ (s.dstEnt w).ty = 12) → rows (.scta w)) ∧
    (let codes := if s.listKnown w then s.rangeCodes w (gthOff (s.pHere w.ext)) (List.range (gthN (s.pHere w.ext))) (rgthMax (s.pHere w.ext)) else []
     s.gatherCheck (s.dstEnt w) (s.srcEnt w) (s.dstCoord w) (s.pHere w.ext) (rgthOk (s.pHere w.ext)) 16 codes.length (s.srcEnt w).curve true
       false true (codes.flatMap (rowOf (s.srcEnt w))) = .ok false →
      gthN (s.pHere w.ext) ≠ 0 → rows (.rgth w)) ∧
    ((s.dstEnt w).loaded = true → ((s.dstEnt w).space = 0 ∨ (s.dstEnt w).space = 3) → firstPast (s.dstEnt w) (tileOf (s.dstEnt w) (s.dstCoord w)) = none →
      issues (.fill w) (s.pHere w.sp)) ∧
    (fieldOf (s.pHere w.sp) 63 32 = 0 → issues (.bcan w) (s.pHere w.sp)) ∧
    (fieldOf (s.pHere w.sp) 63 32 = 0 → (s.dstEnt w).loaded = true → (s.dstEnt w).space = 0 → (statElem (s.dstEnt w) (s.dstCoord w)).addr % 8 = 0 →
      (statElem (s.dstEnt w) (s.dstCoord w)).addr + 8 ≤ 2 ^ 21 → issues (.bstat w) (s.pHere w.sp))) ∧
 (∀ (s : State) (w : DArgs) (g : Seg) (x : Todo), WordDue s g x w.takes → (s.slotHere = .l ∨ s.slotHere = .w) →
    let fly (i : Instr) (par : Dword) : Flight :=
      { id := s.freeCtr, unit := s.slotHere, ordinal := g.ordinal, offset := g.clock.getD 0, word := i, src := s.me.lt w.se.toNat
        dst := s.me.lt w.de.toNat, sc := s.pHere w.sp, dc := s.pHere w.dp, par := par, frame := s.frameNo s.here
        issued := s.cycleOf s.here, since := s.cycleOf s.here, worst := s.worstD i w + (if s.walksD i w then walkCycles else 0) }
    let clean (i : Instr) : Prop := GoodRegs s (s.regsD i w)
    let give : TokAdd := { counter := w.gc, amount := w.ga.toNat, order := if s.slotHere = .l then 1 else 8,
                           index := BitVec.ofNat 32 g.ordinal, position := BitVec.ofNat 32 (g.clock.getD 0) }
    let cfg (p : Dword) : XCfg := xcfgOf (s.crossingAt (fieldOf p 5 0)).cfg
    (let p := s.pHere w.sp
     let h := ingestOf (s.regionAt (s.regionOf s.here)).ingestCfg
     s.slotHere = .l → (s.dstEnt w).loaded = true → (s.dstEnt w).space = 0 → (s.dstEnt w).curve = false → fieldOf p 63 40 = 0 →
       1 ≤ fieldOf p 31 16 → fieldOf p 31 16 ≤ 4096 → h.on = true → h.core = s.here → fieldOf p 15 0 + fieldOf p 31 16 ≤ h.count →
       (statElem (s.dstEnt w) (s.dstCoord w)).addr + fieldOf p 31 16 * h.slot ≤ 2 ^ 21 → s.mem.tagNews = [] →
       (∀ l, s.mem.tag s.here l = (frameDelta (s.frameNo s.here) (fieldOf p 39 32)).setWidth 8) →
       clean (.ingt w) → Answers (exec (.ingt w) s) (fun t => IssuedAs s t g x w.takes (s.me.flying (fly (.ingt w) p)))) ∧
    (∀ tick, s.slotHere = .l → s.crossingTick (s.pHere w.sp) false = some tick → (s.dstEnt w).loaded = true → (s.dstEnt w).space = 0 →
      (s.dstEnt w).ty = 12 → (statElem (s.dstEnt w) (s.dstCoord w)).addr % 4 = 0 →
      (statElem (s.dstEnt w) (s.dstCoord w)).addr + 4 * (cfg (s.pHere w.sp)).chans + 4 ≤ 2 ^ 21 →
      clean (.xrd w) → Answers (exec (.xrd w) s) (fun t => IssuedAs s t g x w.takes (s.me.flying
        { fly (.xrd w) (s.pHere w.sp) with enab := (s.crossingAt (fieldOf (s.pHere w.sp) 5 0)).enabled, stamp := tick }))) ∧
    (∀ tick, s.slotHere = .w → s.crossingTick (s.pHere w.dp) true = some tick → (s.srcEnt w).loaded = true → (s.srcEnt w).space = 0 →
      (s.srcEnt w).ty = 12 → (s.srcEnt w).tagged = false → ((s.srcEnt w).curve = true ∨ (cfg (s.pHere w.dp)).chans ≤ (s.srcEnt w).t0) →
      let l := (rowOf (s.srcEnt w) (s.srcCoord w)).take (cfg (s.pHere w.dp)).chans
      firstPast (s.srcEnt w) l = none → clean (.xwr w) →
      Answers (exec (.xwr w) s) (fun t => IssuedAs s t g x w.takes (s.me.flying
        { fly (.xwr w) (s.pHere w.dp) with enab := (s.crossingAt (fieldOf (s.pHere w.dp) 5 0)).enabled, stamp := tick
                                           dc := BitVec.ofNat 64 (cfg (s.pHere w.dp)).chans }))) ∧
    (let p := s.pHere w.dp
     let e := s.srcEnt w
     let r := s.regionAt (s.regionOf s.here)
     s.slotHere = .w → e.loaded = true → e.space = 0 → e.tagged = false → fieldOf p 45 32 = 0 →
       (if e.curve then e.cell else e.t0 * e.t1 * e.esize / 8) ≤ 8192 → fieldOf p 31 0 < fieldOf r.bind 63 32 →
       firstPast e (tileOf e (s.srcCoord w)) = none → clean (.egr w) →
       ((s.portAt (fieldOf p 63 62)).queue.length < 64 → Answers (exec (.egr w) s) (fun t => ∃ k : EgrPacket,
          IssuedAs (s.modPort (fieldOf p 63 62) (fun q => { q with queue := q.queue ++ [k] })) t g x w.takes (s.me.flying (fly (.egr w) p)) ∧
          k.core.toNat = s.here ∧ k.stream.toNat = fieldOf p 61 46 ∧ k.bytes = none ∧ k.frame = r.frameNo ∧
          r.cycles + 64 ≤ k.due ∧ k.due < r.cycles + 64 + fieldOf r.bind 63 32 ∧
          (r.frameCy + (k.due - r.cycles)) % fieldOf r.bind 63 32 = fieldOf p 31 0)) ∧
       (64 ≤ (s.portAt (fieldOf p 63 62)).queue.length → Answers (exec (.egr w) s) (fun t =>
          IssuedAs (s.modPort (fieldOf p 63 62) (fun q => { q with discards := q.discards + 1 })) t g x w.takes (s.me.addToken give)))) ∧
    (let a := s.srcEnt w
     let b := s.dstEnt w
     let n := s.me.cu.copyCount
     let empty : Prop := a.e0 ≤ bitsOf (s.srcCoord w) 15 0 ∨ a.e1 ≤ bitsOf (s.srcCoord w) 31 16 ∨ a.e2 ≤ bitsOf (s.srcCoord w) 47 32 ∨
       a.e3 ≤ bitsOf (s.srcCoord w) 63 48
     let copy (st : CopySt) (y : Copy) : Prop := y.n = n ∧ y.home.toNat = s.here ∧ y.st = st ∧ y.src = s.me.lt w.se.toNat ∧
       y.dst = s.me.lt w.de.toNat ∧ y.sc = s.pHere w.sp ∧ y.dc = s.pHere w.dp ∧ y.gc = w.gc ∧ y.ga = w.ga ∧ y.frame = s.frameNo s.here
     let holding (y : Copy) (c : Core) : Core := { c with cu := { c.cu with copies := c.cu.copies ++ [y], copyCount := n + 1 } }
     a.loaded = true → b.loaded = true → a.space ≠ 2 → b.space ≠ 2 → a.curve = false → b.curve = false → a.esize = b.esize →
       s.copiesOpen s.here < 1024 → (∀ y ∈ s.me.cu.copies, n < y.n + 1024) → clean (.bcpy w) →
       (¬ empty → Answers (exec (.bcpy w) s) (fun t => ∃ y, copy .queued y ∧ IssuedAs s t g x w.takes (holding y s.me))) ∧
       (empty → Answers (exec (.bcpy w) s) (fun t => ∃ y, copy .done y ∧ IssuedAs s t g x w.takes ((holding y s.me).addToken
          { counter := w.gc, amount := w.ga.toNat, order := 10, index := BitVec.ofNat 32 (s.here * 2 ^ 24 + n % 2 ^ 24), position := 0 })))) ∧
    Answers (exec (.dnop w) s) (fun t => IssuedAs s t g x w.takes (s.me.addToken give)) ∧
    (let codes := if s.listKnown w then s.rangeCodes w (gthOff (s.pHere w.ext)) (List.range (gthN (s.pHere w.ext))) (rgthMax (s.pHere w.ext)) else []
     s.gatherCheck (s.dstEnt w) (s.srcEnt w) (s.dstCoord w) (s.pHere w.ext) (rgthOk (s.pHere w.ext)) 16 codes.length (s.srcEnt w).curve true
       false true (codes.flatMap (rowOf (s.srcEnt w))) = .ok false →
      gthN (s.pHere w.ext) = 0 → clean (.rgth w) → Answers (exec (.rgth w) s) (fun t => IssuedAs s t g x w.takes (s.me.addToken give))))

/-- 03 R91, R94, R95: a word of L, W or the MC column whose takes are not met does not issue: it makes no take, and the freeze
line of its node's domain is asserted, unless a check of R329 stops it first. DNOP, CTOK and CNOP, which have no check, freeze. -/
def Obligations.ShortTakesFreezeTheDomain : Prop :=
  ∀ (s : State) (w : DArgs) (v : MArgs), (s.domainOf s.here).contains s.here = true →
    let freezes (i : Instr) : Prop := Answers (exec i s) (Freezes s)
    let stays (i : Instr) : Prop := Answers (exec i s) (fun t => Freezes s t ∨
      ∃ u cls st, (u = s ∨ ∃ m, u = s.logMemory s.here m 0) ∧ t = u.faultAt s.here s.slotHere cls st)
    ((s.slotHere = .l ∨ s.slotHere = .w) → (∃ u ∈ w.takes, s.me.tk u.1 < ((w.takes.filter (fun r => r.1 = u.1)).map (fun r => r.2)).sum) →
      GoodRegs s (State.takeRegs w.takes) →
      freezes (.dnop w) ∧
      ∀ i ∈ ([.tld w, .tst w, .tldr w, .tstr w, .tgr w, .tbc w, .gth w, .sct w, .scta w, .rgth w, .fill w, .bcpy w, .bcan w, .bstat w,
        .ingt w, .egr w, .xwr w, .xrd w] : List Instr), stays i) ∧
    (s.slotHere ≠ .s → (∃ u ∈ v.takes, s.me.tk u.1 < ((v.takes.filter (fun r => r.1 = u.1)).map (fun r => r.2)).sum) →
      GoodRegs s (State.takeRegs v.takes) →
      freezes (.ctok v) ∧ freezes (.cnop v) ∧
      ∀ i ∈ ([.mlease v, .mrel v, .mbst v, .mshape v, .mldw v, .mswp v, .mmul v, .mzacc v, .mdrn v, .mocr v, .mchk v] : List Instr), stays i)

/-- 09 R227, R228, R237: a tile move, or a FILL, lands: each destination element holds the source element, or the constant;
elements outside are skipped, a source element outside reads zero; every other byte stands, the lines written take the
expected tag, and the word's give is to be added. Through a global entry (04 R108, 03 R103) a node that is not irrevocable
stages what it writes. 09 R233 to R235: a gather lands: row j of the near tile holds the row of the far entry that the j-th
8-byte index of the list names, or the j-th code of its ranges, bit for bit; a scatter the other way about; SCTA combines the
far element, as operand a, with the near one, and raises the flags. The far entry's cell is a whole number of its elements,
as in every entry that LTSET loads (04 R109). 04 R118, R119, R121: TGR leaves the tree over the members of its window, absent
ones giving the identity; TBC writes its source to every present member; GWSTAT counts the absent ones. 09 R241: INGT copies
its slots (by INGEST_CFG as it stands then, log 59); 09 R240, 04 R129: BSTAT writes the status of its handle's copy. -/
def Obligations.DataWordsLand : Prop :=
 (∀ (s : State) (f : Flight) (w : DArgs) (a b : Ent) (home : Nat → Nat), entOf f.src = a → entOf f.dst = b → Quiet s → MayLand s f →
    let none_ : Elem := { addr := 0, high := false, outside := true }
    let srcs := tileOf a f.sc.toNat
    let outs := tileOf b f.dc.toNat
    Separate b outs → firstPast b outs = none →
    let slice (val : Nat → Nat) : Prop := InSlice b → Answers (exec .dWordLand s) (fun t => ∃ m, Landed s t f w m ∧
      HoldsEach s.mem m (b.sliceOf s.here) b f.frame outs val)
    let global (val : Nat → Nat) : Prop := b.space = 3 → PlainGlobal s s.here → (s.nodeOn s.here).isSome = true → Homes s s.here b outs true home →
      InBudget s s.here ((outs.filter (fun x => !x.outside)).flatMap (elemBytes b)).length →
      Answers (exec .dWordLand s) (fun t => ∃ u, StoredGlobal s u s.here b home outs val ∧ Landed u t f w u.mem)
    ((f.word = .tld w ∨ f.word = .tst w ∨ f.word = .tldr w ∨ f.word = .tstr w) → State.sameShape a b = true → firstPast a srcs = none →
      (InSlice a → (b.space = 3 ∨ ∀ k ∈ elementKeys (a.sliceOf s.here) a srcs, k ∉ elementKeys (b.sliceOf s.here) b outs) →
        slice (fun j => elementIn s.mem (a.sliceOf s.here) a (srcs.getD j none_)) ∧
        global (fun j => elementIn s.mem (a.sliceOf s.here) a (srcs.getD j none_))) ∧
      (a.space = 3 → PlainGlobal s s.here → Homes s s.here a srcs false home → slice (fun j => globalIn s.mem.byte a home (srcs.getD j none_)))) ∧
    (f.word = .fill w → slice (fun _ => f.par.toNat % 2 ^ b.esize) ∧ global (fun _ => f.par.toNat % 2 ^ b.esize))) ∧
 (∀ (s : State) (f : Flight) (w : DArgs) (near far : Ent) (idx home : Nat → Nat), Quiet s → MayLand s f → near.space = 0 →
    near.curve = false → near.t0 * near.esize = rowBits far → rowBits far % far.esize = 0 →
    (∀ j < gthN f.par, idx j = leNat ((List.range 8).map (fun i => s.mem.byte (sliceKey s.here (gthOff f.par + 8 * j + i))))) →
    let none_ : Elem := { addr := 0, high := false, outside := true }
    let list (size : Nat) := (List.range (size * gthN f.par)).map (fun i => sliceKey s.here (gthOff f.par + i))
    let bound (j : Nat) (at_ : Nat) : Nat := leNat ((List.range 8).map (fun i => s.mem.byte (sliceKey s.here (gthOff f.par + 16 * j + at_ + i))))
    let codes := ((List.range (gthN f.par)).flatMap (fun j =>
      (List.range (bound j 8 + 1 - bound j 0)).map (fun i => bound j 0 + i))).take (rgthMax f.par)
    let rows (c : Dword) (n : Nat) := (List.range n).flatMap (nearRow near c.toNat)
    let pieces := (List.range (gthN f.par)).flatMap (fun j => rowOf far (idx j))
    let cells := codes.flatMap (rowOf far)
    let nk (c : Dword) (n : Nat) := elementKeys s.here near (rows c n)
    let fk (xs : List Elem) := if far.space = 0 then elementKeys s.here far xs else []
    let bits (e : Ent) (x : Elem) : Nat := if e.space = 0 then elementIn s.mem s.here e x else globalIn s.mem.byte e home x
    let bitsFrom (dst src : Ent) (xs : List Elem) (j : Nat) : Nat :=
      packElems src.esize (xs.map (bits src)) / 2 ^ (dst.esize * j) % 2 ^ dst.esize
    let reached (xs : List Elem) (wr : Bool) : Prop := firstPast far xs = none ∧
      (far.space = 0 ∨ far.space = 3 ∧ PlainGlobal s s.here ∧ (s.nodeOn s.here).isSome = true ∧ Homes s s.here far xs wr home)
    let gathers (xs : List Elem) (n size : Nat) : Prop := (f.stamp = 1 ∨ far.tagged = false) → entOf f.dst = near → entOf f.src = far →
      gthOff f.par + size * gthN f.par ≤ 2 ^ 21 → firstPast near (rows f.dc n) = none → Separate near (rows f.dc n) → reached xs false →
      (∀ k ∈ nk f.dc n, k ∉ fk xs ∧ k ∉ list size) →
      Answers (exec .dWordLand s) (fun t => ∃ m, Landed s t f w m ∧ HoldsEach s.mem m s.here near f.frame (rows f.dc n) (bitsFrom near far xs))
    let scatters (val : Nat → Nat) (c : Core) : Prop := entOf f.src = near → entOf f.dst = far → gthOff f.par + 8 * gthN f.par ≤ 2 ^ 21 →
      firstPast near (rows f.sc (gthN f.par)) = none → Separate far pieces → reached pieces true →
      (∀ k ∈ fk pieces, k ∉ nk f.sc (gthN f.par) ∧ k ∉ list 8) →
      (far.space = 0 → Answers (exec .dWordLand s) (fun t => ∃ m, LandedWith s t s.here f w m c ∧ HoldsEach s.mem m s.here far f.frame pieces val)) ∧
      (far.space = 3 → InBudget s s.here ((pieces.filter (fun x => !x.outside)).flatMap (elemBytes far)).length →
        Answers (exec .dWordLand s) (fun t => ∃ u, StoredGlobal s u s.here far home pieces val ∧ LandedWith u t s.here f w u.mem c))
    let moved := bitsFrom far near (rows f.sc (gthN f.par))
    (f.word = .gth w → gathers pieces (gthN f.par) 8) ∧
    (f.word = .rgth w → far.curve = true → gathers cells codes.length 16) ∧
    (f.word = .sct w → scatters moved s.me) ∧
    (f.word = .scta w → (f.stamp = 1 ∨ far.tagged = false) → (far.ty = 3 ∨ far.ty = 7 ∨ far.ty = 10 ∨ far.ty = 12) →
      (far.space = 3 → Homes s s.here far pieces false home) →
      let both (j : Nat) := combine far.ty (gthOp f.par) (bits far (pieces.getD j none_)) (moved j)
      scatters (fun j => (both j).1 % 2 ^ far.esize) (s.me.raiseFlags (orFlags ((List.range pieces.length).map (fun j =>
        if (pieces.getD j none_).outside then 0 else (both j).2)))))) ∧
 (∀ (s : State) (f : Flight) (w : DArgs) (a b : Ent), entOf f.src = a → entOf f.dst = b → Quiet s → MayLand s f →
    let none_ : Elem := { addr := 0, high := false, outside := true }
    let srcs := tileOf a f.sc.toNat
    let outs := tileOf b f.dc.toNat
    let present (e : Ent) := (State.members e).filter (s.inPlacement s.here)
    let counted (e : Ent) (fl : Flags) : Core :=
      let absent := (State.members e).length - (present e).length
      let hi := fieldOf s.me.csr.gwstat 63 32
      let word := (if absent = 0 then hi else min (hi + 1) (2 ^ 32 - 1)) * 2 ^ 32 + absent
      let k : Core := s.me.raiseFlags fl
      let k : Core := { k with csr := { s.me.csr with gwstat := BitVec.ofNat 64 word } }
      k
    (f.word = .tgr w → b.space = 0 → State.sameShape a b = true → Separate b outs → firstPast b outs = none →
      let one (j : Nat) := treeOf (combine a.ty a.op) 9 ((State.members a).map (fun m =>
        if s.inPlacement s.here m then elementIn s.mem m (State.asMember a m) (srcs.getD j none_) else identityOf a.ty a.op))
      let value (j : Nat) : Nat × Flags := if (srcs.getD j none_).outside then (0, 0) else one j
      Answers (exec .dWordLand s) (fun t => ∃ m,
        LandedWith s t s.here f w m (counted a (orFlags ((List.range srcs.length).map (fun j => (value j).2)))) ∧
        HoldsEach s.mem m s.here b f.frame outs (fun j => (value j).1 % 2 ^ b.esize))) ∧
    (f.word = .tbc w → a.space = 0 → State.sameShape a b = true → Separate b outs → firstPast b outs = none → firstPast a srcs = none →
      Answers (exec .dWordLand s) (fun t => ∃ m, LandedWith s t s.here f w m (counted b 0) ∧
        (∀ c ∈ present b, ∀ j (h : j < outs.length), (outs[j]).outside = false →
          elementIn m c (State.asMember b c) outs[j] = elementIn s.mem s.here a (srcs.getD j none_)) ∧
        (∀ k, (∀ c ∈ present b, k ∉ elementKeys c (State.asMember b c) outs) → m.byte k = s.mem.byte k) ∧
        (∀ c l, l < 4096 → m.tag c l =
          if b.tagged = true ∧ c ∈ present b ∧ l ∈ linesOf b outs then b.expect f.frame else s.mem.tag c l))) ∧
    (b.space = 0 →
      let addr := (statElem b f.dc.toNat).addr
      let bytes (n : Nat) (val : Nat → Nat) : Prop :=
        let xs := (List.range n).map (State.byteElem addr)
        Separate (State.asBytes b) xs → firstPast (State.asBytes b) xs = none →
          Answers (exec .dWordLand s) (fun t => ∃ m, Landed s t f w m ∧ HoldsEach s.mem m s.here (State.asBytes b) f.frame xs val)
      (f.word = .ingt w →
        let g := ingestOf (s.regionAt (s.regionOf s.here)).ingestCfg
        let n := fieldOf f.par 31 16 * g.slot
        let off := g.half ((frameDelta f.frame (fieldOf f.par 39 32)).toNat % 2) + fieldOf f.par 15 0 * g.slot
        off + n ≤ 2 ^ 21 → (∀ i < n, sliceKey s.here (off + i) ∉ elementKeys s.here (State.asBytes b) ((List.range n).map (State.byteElem addr))) →
          bytes n (fun i => (s.mem.byte (sliceKey s.here (off + i))).toNat)) ∧
      (f.word = .bstat w →
        let h := fieldOf f.par 31 0
        let status : Nat := match s.me.cu.copies.find? (fun y => y.home.toNat = h / 2 ^ 24 && y.n % 2 ^ 24 = h % 2 ^ 24) with
          | none => 0
          | some y => if y.n + 1025 ≤ s.me.cu.copyCount then 0 else
            match y.st with | .queued => 1 | .running => 2 | .done => 3 | .cancelled => 4 | .failed c => 5 + c.toNat * 256
        bytes 8 (fun i => status / 2 ^ (8 * i) % 2 ^ 8))))

/-! ## Vector words -/

/-- 10 R253 to R257, R262 to R265, R267, R269, R273, R274: the words that write one register element by element. An element
whose mask bit is false keeps its value and raises no flag. -/
def Obligations.VectorElementResults : Prop :=
  ∀ (s : State) (w : VArgs) (g : Seg) (x : Todo), WordDue s g x [] → Clear s →
    let mk := maskBit s w.mask.toNat
    let mc := maskBit s w.vc.toNat
    let a := elemAt (s.me.v w.va.toNat) w.bits
    let b := elemAt (s.me.v w.vb.toNat) w.bits
    let c := elemAt (s.me.v w.vc.toNat) w.bits
    let old (bits : Nat) := elemAt (s.me.v w.vd.toNat) bits
    let sets (i : Instr) (f : Nat → Nat × Flags) : Prop := Answers (exec i s) (fun t => SetsElements s t g x w.vd.toNat w.bits w.n
      (fun k => if mk k then (f k).1 % 2 ^ w.bits else old w.bits k) (flagsOf w.n mk f))
    let plain (i : Instr) (f : Nat → Nat) : Prop := sets i (fun k => (f k, 0))
    let count (k : Nat) : Nat := (if w.immf 15 15 = 1 then w.immf 4 0 else b k) % w.bits
    sets (.vadd w) (fun k => elemAdd w.t (a k) (b k)) ∧ sets (.vsub w) (fun k => elemSub w.t (a k) (b k)) ∧
    plain (.vmin w) (fun k => elemMin w.t (a k) (b k)) ∧ plain (.vmax w) (fun k => elemMax w.t (a k) (b k)) ∧
    plain (.vabs w) (fun k => elemAbs w.t (a k)) ∧ plain (.vneg w) (fun k => elemNeg w.t (a k)) ∧
    plain (.vand w) (fun k => a k &&& b k) ∧ plain (.vor w) (fun k => a k ||| b k) ∧ plain (.vxor w) (fun k => a k ^^^ b k) ∧
    plain (.vshl w) (fun k => a k * 2 ^ count k) ∧ plain (.vshr w) (fun k => a k / 2 ^ count k) ∧
    plain (.vsar w) (fun k => if isSigned w.t then (intOf w.t (a k) / (2 ^ count k : Nat) % (2 ^ w.bits : Nat)).toNat else a k / 2 ^ count k) ∧
    plain (.vsel w) (fun k => if mc k then a k else b k) ∧ sets (.vclmp w) (fun k => elemClamp w.t (a k) (b k) (c k)) ∧
    sets (.vmul w) (fun k => elemMul w.t (a k) (b k)) ∧ sets (.vfma w) (fun k => elemFma w.t false false (a k) (b k) (c k)) ∧
    sets (.vfms w) (fun k => elemFma w.t false true (a k) (b k) (c k)) ∧ sets (.vfnma w) (fun k => elemFma w.t true false (a k) (b k) (c k)) ∧
    plain (.vmulh w) (fun k => (intOf w.t (a k) * intOf w.t (b k) / (2 ^ w.bits : Nat) % (2 ^ w.bits : Nat)).toNat) ∧
    sets (.vscl w) (fun k => elemScale w.t (a k) (elemAt (s.me.v w.vb.toNat) 8 (k / 32))) ∧
    plain (.vperm w) (fun k => if b k % (2 * w.n) < w.n then a (b k % (2 * w.n)) else c (b k % (2 * w.n) - w.n)) ∧
    plain (.vshuf w) (fun k => match w.immf 3 0 with
      | 0 => if k % 2 = 1 then b (k / 2) else a (k / 2)
      | 1 => if k % 2 = 1 then b (w.n / 2 + k / 2) else a (w.n / 2 + k / 2)
      | 2 => if k < w.n / 2 then a (2 * k) else b (2 * (k - w.n / 2))
      | 3 => if k < w.n / 2 then a (2 * k + 1) else b (2 * (k - w.n / 2) + 1)
      | 4 => a (w.n - 1 - k)
      | _ => a (k ^^^ 1)) ∧
    plain (.vrot w) (fun k => a ((k + w.immf 9 0) % w.n)) ∧ plain (.vbc w) (fun _ => a (w.immf 9 0)) ∧
    sets (.vsfn w) (fun k => special w.t (w.immf 2 0) (a k)) ∧
    plain (.vcnt w) (fun k => elemCnt w.bits (w.immf 1 0) (a k)) ∧
    plain (.vidx w) (fun k => ((w.imm.toInt + k) % (2 ^ w.bits : Nat)).toNat) ∧
    Answers (exec (.vdot w) s) (fun t =>
      let part (v : BitVec 4096) (j : Nat) : List Nat := (List.range (32 / w.bits)).map (fun i => elemAt v w.bits (32 / w.bits * j + i))
      let f (j : Nat) := dotLane w.t (part (s.me.v w.va.toNat) j) (part (s.me.v w.vb.toNat) j) (elemAt (s.me.v w.vc.toNat) 32 j)
      SetsElements s t g x w.vd.toNat 32 128 (fun j => if mk j then (f j).1 % 2 ^ 32 else old 32 j) (flagsOf 128 mk f))

/-- 05 R135 to R137, 10 R253: the element operations at integer types, exactly: sums, differences and products wrap, the
lesser and greater compare as the type's integers, and no flag is raised. 05 R137 to R139: a result that is rounded to the nearest
and stays finite is as near as any finite value of the type, and of two that are equally near it is the one whose last bit is
zero; inexact tells that it differs, underflow that it does and lies below the smallest normal, and what rounds beyond every
finite value raises overflow and inexact. 05 R137, R153, 10 R253, R262: at f32, f16 and bf16 a sum, a difference, a product and
the fused forms round the exact result once; a zero sum of operands of opposite sign is +0; a NaN operand gives the canonical
NaN and no flag; infinities of opposite sign in a sum, and an infinity times a zero, give it and invalid, the latter beside a
NaN addend too. -/
def Obligations.ElementArithmetic : Prop :=
 (∀ (t a b c : Nat), t < 8 → a < 2 ^ widthOf t → b < 2 ^ widthOf t → c < 2 ^ widthOf t →
    let m : Int := (2 ^ widthOf t : Nat)
    let v (x : Nat) : Int := if t < 4 ∧ 2 ^ (widthOf t - 1) ≤ x then x - m else x
    (elemAdd t a b).2 = 0 ∧ ((elemAdd t a b).1 : Int) = ((a : Int) + b) % m ∧
    (elemSub t a b).2 = 0 ∧ ((elemSub t a b).1 : Int) = ((a : Int) - b) % m ∧
    (elemMul t a b).2 = 0 ∧ ((elemMul t a b).1 : Int) = ((a : Int) * b) % m ∧
    (elemFma t false false a b c).2 = 0 ∧ ((elemFma t false false a b c).1 : Int) = ((a : Int) * b + c) % m ∧
    ((elemFma t false true a b c).1 : Int) = ((a : Int) * b - c) % m ∧ ((elemFma t true false a b c).1 : Int) = (c - (a : Int) * b) % m ∧
    elemMin t a b = (if v b < v a then b else a) ∧ elemMax t a b = (if v a < v b then b else a) ∧
    ((elemNeg t a : Nat) : Int) = (-(a : Int)) % m ∧ ((elemAbs t a : Nat) : Int) = |v a| % m) ∧
 (∀ (t : Nat), t = 8 ∨ t = 9 ∨ t = 10 ∨ t = 11 ∨ t = 12 → ∀ (neg : Bool) (man : Nat) (exp : Int) (q : Nat), q < 2 ^ widthOf t →
    let val (y : Machine.Num) : Option ℚ := match y with | .fin n m e => some ((if n then -1 else 1) * (m : ℚ) * (2 : ℚ) ^ e) | _ => none
    let r := (rne t (.fin neg man exp)).1
    let fl := (rne t (.fin neg man exp)).2
    let least : Int := if t = 8 then -6 else if t = 9 ∨ t = 11 then -14 else -126
    ∀ (vx vq : ℚ), val (.fin neg man exp) = some vx → val (numOf t q) = some vq →
      (∀ vr : ℚ, val (numOf t r) = some vr →
        |vr - vx| ≤ |vq - vx| ∧ (|vr - vx| = |vq - vx| → vr = vq ∨ r % 2 = 0) ∧
        fl = flagIf (vr ≠ vx) flInexact ||| flagIf (vr ≠ vx ∧ |vx| < (2 : ℚ) ^ least) flUnderflow) ∧
      (val (numOf t r) = none → |vq| < |vx| ∧ fl = flOverflow ||| flInexact)) ∧
 (∀ (t : Nat), t = 10 ∨ t = 11 ∨ t = 12 → ∀ (a b c : Nat), a < 2 ^ widthOf t → b < 2 ^ widthOf t → c < 2 ^ widthOf t →
    let val (y : Machine.Num) : Option ℚ := match y with | .fin n m e => some ((if n then -1 else 1) * (m : ℚ) * (2 : ℚ) ^ e) | _ => none
    let mzero : Nat := 2 ^ (widthOf t - 1)
    let bad : Nat := if t = 10 then 0x7FC0 else if t = 11 then 0x7E00 else 0x7FC00000
    let rounds (r : Nat × Flags) (v : ℚ) : Prop := v ≠ 0 → ∃ n m e, val (.fin n m e) = some v ∧ r = rne t (.fin n m e)
    let nan (y : Nat) : Prop := (numOf t y).isNan = true
    let inf (y : Nat) : Prop := (numOf t y).isInf = true
    (∀ x y z : ℚ, val (numOf t a) = some x → val (numOf t b) = some y → val (numOf t c) = some z →
      rounds (elemAdd t a b) (x + y) ∧ rounds (elemSub t a b) (x - y) ∧ rounds (elemMul t a b) (x * y) ∧
      rounds (elemFma t false false a b c) (x * y + z) ∧ rounds (elemFma t false true a b c) (x * y - z) ∧
      rounds (elemFma t true false a b c) (z - x * y) ∧
      (x + y = 0 → elemAdd t a b = (if a = mzero ∧ b = mzero then mzero else 0, 0)) ∧
      (x - y = 0 → elemSub t a b = (if a = mzero ∧ b = 0 then mzero else 0, 0)) ∧
      (x * y = 0 → elemMul t a b = (if mzero ≤ a ↔ mzero ≤ b then 0 else mzero, 0)) ∧
      (x < y → elemMin t a b = a ∧ elemMax t a b = b) ∧ (y < x → elemMin t a b = b ∧ elemMax t a b = a)) ∧
    ((nan a ∨ nan b) → elemAdd t a b = (bad, 0) ∧ elemSub t a b = (bad, 0) ∧ elemMul t a b = (bad, 0) ∧ elemMin t a b = bad ∧ elemMax t a b = bad) ∧
    (inf a → (b = a ∨ val (numOf t b) ≠ none) → elemAdd t a b = (a, 0)) ∧
    (inf a → inf b → a ≠ b → elemAdd t a b = (bad, flInvalid)) ∧ (inf a → b = a → elemSub t a b = (bad, flInvalid)) ∧
    (inf a → (b = 0 ∨ b = mzero) → elemMul t a b = (bad, flInvalid) ∧ elemFma t false false a b c = (bad, flInvalid)) ∧
    (nan c → ¬ (inf a ∧ (b = 0 ∨ b = mzero)) → ¬ (inf b ∧ (a = 0 ∨ a = mzero)) → elemFma t false false a b c = (bad, 0)) ∧
    elemMin t 0 mzero = mzero ∧ elemMin t mzero 0 = mzero ∧ elemMax t 0 mzero = 0 ∧ elemMax t mzero 0 = 0)

/-- 10 R255, R270: VCMP and the dropout form of VRNG write a mask; an element whose own mask bit is false keeps its bit, and
bits from the count on are zero; the other forms of VRNG draw bits, and f32 values in [0, 1) exactly. 10 R268, R273, R274: VRED leaves the tree of its inputs in element 0 and keeps the rest; VSCAN the running results;
VCMPR the selected elements packed from element 0 and zeros; VEXPD the reverse; VKSRT the keys in ascending order with
their payload, masked-off places last, each order stable. -/
def Obligations.VectorMaskAndOrderResults : Prop :=
 (∀ (s : State) (w : VArgs) (g : Seg) (x : Todo), WordDue s g x [] → Clear s →
    let mk := maskBit s w.mask.toNat
    let a := elemAt (s.me.v w.va.toNat) w.bits
    let b := elemAt (s.me.v w.vb.toNat) w.bits
    let keeps (f : Nat → Bool) (i : Nat) : Bool := if mk i then f i else (s.me.m w.vd.toNat).getLsbD i
    let h (i : Nat) : Nat := (whisk s.me.csr.rngSeed s.me.csr.rngStep (fieldOf (s.pHere (w.vb.setWidth 3)) 63 32 + i)).toNat
    Answers (exec (.vcmp w) s) (fun t => SetsMask s t g x w.vd.toNat w.n (keeps (fun i => elemCmp w.t (w.immf 2 0) (a i) (b i)))) ∧
    (w.immf 1 0 = 1 → Answers (exec (.vrng w) s) (fun t =>
      SetsMask s t g x w.vd.toNat w.n (keeps (fun i => fieldOf (s.pHere (w.vb.setWidth 3)) 31 0 ≤ h i / 2 ^ 32)))) ∧
    (w.immf 1 0 = 0 → Answers (exec (.vrng w) s) (fun t => SetsElements s t g x w.vd.toNat w.bits w.n
      (fun i => if mk i then h i / 2 ^ (64 - w.bits) % 2 ^ w.bits else elemAt (s.me.v w.vd.toNat) w.bits i) 0)) ∧
    (w.immf 1 0 = 2 → w.t = 12 → Answers (exec (.vrng w) s) (fun t => ∃ y : Nat → Nat,
      (∀ i, (h i / 2 ^ 40 = 0 → y i = 0) ∧ (h i / 2 ^ 40 ≠ 0 → ∃ man exp, numOf 12 (y i) = .fin false man exp ∧ y i < 2 ^ 32 ∧
        (man : ℚ) * (2 : ℚ) ^ exp = (h i / 2 ^ 40 : Nat) * (2 : ℚ) ^ (-24 : Int))) ∧
      SetsElements s t g x w.vd.toNat 32 128 (fun i => if mk i then y i else elemAt (s.me.v w.vd.toNat) 32 i) 0))) ∧
 (∀ (s : State) (w : VArgs) (g : Seg) (x : Todo), WordDue s g x [] → Clear s →
    let mk := maskBit s w.mask.toNat
    let mc := maskBit s w.vc.toNat
    let op := combine w.t (w.immf 2 0)
    let id_ := identityOf w.t (w.immf 2 0)
    let a := elemAt (s.me.v w.va.toNat) w.bits
    let ins := (List.range w.n).map (fun i => if mk i then a i else id_)
    Answers (exec (.vred w) s) (fun t => SetsElements s t g x w.vd.toNat w.bits 1 (fun _ => (treeOf op 11 ins).1 % 2 ^ w.bits) (treeOf op 11 ins).2) ∧
    Answers (exec (.vscan w) s) (fun t => ∃ (y : Nat → Nat) (fl : Flags), y 0 = (op id_ (ins.getD 0 0)).1 ∧
      (∀ i, i + 1 < w.n → y (i + 1) = (op (y i) (ins.getD (i + 1) 0)).1) ∧
      fl = orFlags ((List.range w.n).map (fun i => (op (if i = 0 then id_ else y (i - 1)) (ins.getD i 0)).2)) ∧
      SetsElements s t g x w.vd.toNat w.bits w.n (fun i => y i % 2 ^ w.bits) fl) ∧
    Answers (exec (.vcmpr w) s) (fun t => SetsElements s t g x w.vd.toNat w.bits w.n
      (fun i => (((List.range w.n).filter mc).map a).getD i 0) 0) ∧
    Answers (exec (.vexpd w) s) (fun t => SetsElements s t g x w.vd.toNat w.bits w.n
      (fun i => if mc i then a ((List.range i).filter mc).length else 0) 0) ∧
    (let wide : Bool := w.immf 0 0 = 1
     let lo := elemAt (s.me.v w.va.toNat) 32
     let key (i : Nat) : Nat := if wide then lo i + elemAt (s.me.v (w.va.toNat + 1)) 32 i * 2 ^ 32 else lo i
     Answers (exec (.vksrt w) s) (fun t => ∃ (c : Core) (p : Nat → Nat), IssuedAs s t g x [] c ∧ OnlyVector s.me c 0 ∧ (∀ r, c.m r = s.me.m r) ∧
       (∀ r, r < w.vd.toNat ∨ w.vd.toNat + (if wide then 3 else 2) ≤ r → c.v r = s.me.v r) ∧
       (∀ i < 128, p i < 128) ∧ (∀ i < 128, ∀ j < 128, p i = p j → i = j) ∧
       (∀ i j, i < j → j < 128 → (mk (p j) = true → mk (p i) = true) ∧
         (mk (p i) = mk (p j) → (mk (p i) = true → key (p i) ≤ key (p j)) ∧ (mk (p i) = false ∨ key (p i) = key (p j) → p i < p j))) ∧
       ∀ i < 128, elemAt (c.v w.vd.toNat) 32 i = lo (p i) ∧
         (wide = true → elemAt (c.v (w.vd.toNat + 1)) 32 i = elemAt (s.me.v (w.va.toNat + 1)) 32 (p i)) ∧
         elemAt (c.v (w.vd.toNat + (if wide then 2 else 1))) 32 i = elemAt (s.me.v w.vb.toNat) 32 (p i))))

/-- 10 R249, R258 to R264: conversions without outlier mode, equal types copied; VWID and VMULW spread over a group of
registers, VNAR gathers one. 10 R266: VQNT scales each block of 32 by a power of two, writes the scale bytes to v[vc] and the quantised elements to
v[vd]. 05 R150, R151: in outlier mode an infinity, and a value that overflows the target, is written as +0, raises outlier and
is appended with its index to the list, in ascending order, while the list has room; every one raises the list's count. -/
def Obligations.VectorConversionsAndScales : Prop :=
 (∀ (s : State) (w : VArgs) (g : Seg) (x : Todo), WordDue s g x [] → Clear s → w.outl = false →
    let mk := maskBit s w.mask.toNat
    let ws := widthOf w.srcT
    let h (i : Nat) : Nat := if w.mode = 2 then whiskHigh s.me.csr.rngSeed s.me.csr.rngStep
      ((fieldOf (s.pHere (w.vb.setWidth 3)) 63 32 + i) % 2 ^ 32) else 0
    let conv (i e : Nat) : Nat × Flags := if w.srcT = w.t then (sameType w.t e, 0) else convertPlain w.t w.mode w.sat (h i) (numOf w.srcT e)
    let keep (f : Nat → Nat × Flags) (old : Nat → Nat) (bits i : Nat) : Nat := if mk i then (f i).1 % 2 ^ bits else old i
    (let f (i : Nat) := conv i (elemAt (s.me.v w.va.toNat) ws i)
     Answers (exec (.vcvt w) s) (fun t => SetsElements s t g x w.vd.toNat w.bits (4096 / max ws w.bits)
       (keep f (elemAt (s.me.v w.vd.toNat) w.bits) w.bits) (flagsOf (4096 / max ws w.bits) mk f))) ∧
    (∀ k, 0 < k → w.bits = k * ws →
      let f (i : Nat) := conv i (elemAt (s.me.v w.va.toNat) ws i)
      Answers (exec (.vwid w) s) (fun t => SetsGroup s t g x w.vd.toNat k w.bits (4096 / ws)
        (keep f (fun i => elemAt (s.me.v (w.vd.toNat + i % k)) w.bits (i / k)) w.bits) (flagsOf (4096 / ws) mk f))) ∧
    (∀ k, 0 < k → ws = k * w.bits →
      let e (i : Nat) := elemAt (s.me.v (w.va.toNat + i % k)) ws (i / k)
      let f (i : Nat) := if w.wrap then (e i % 2 ^ w.bits, (0 : Flags)) else conv i (e i)
      Answers (exec (.vnar w) s) (fun t => SetsElements s t g x w.vd.toNat w.bits w.n
        (keep f (elemAt (s.me.v w.vd.toNat) w.bits) w.bits) (flagsOf w.n mk f))) ∧
    (let f (i : Nat) := elemMulw w.t (elemAt (s.me.v w.va.toNat) w.bits i) (elemAt (s.me.v w.vb.toNat) w.bits i)
     Answers (exec (.vmulw w) s) (fun t => SetsGroup s t g x w.vd.toNat 2 (2 * w.bits) w.n
       (keep f (fun i => elemAt (s.me.v (w.vd.toNat + i % 2)) (2 * w.bits) (i / 2)) (2 * w.bits)) (flagsOf w.n mk f)))) ∧
 (∀ (s : State) (w : VArgs) (g : Seg) (x : Todo), WordDue s g x [] → Clear s → w.outl = false → w.vd ≠ w.vc →
    let mk := maskBit s w.mask.toNat
    let ws := widthOf w.srcT
    let n := 4096 / max ws w.bits
    let a (i : Nat) : Machine.Num := numOf w.srcT (elemAt (s.me.v w.va.toNat) ws i)
    let es (k : Nat) : Int := blockShift w.t (((List.range 32).filter (fun i => mk (32 * k + i))).map (fun i => a (32 * k + i)))
    let conv (i : Nat) := convertPlain w.t w.mode w.sat (if w.mode = 2 then whiskHigh s.me.csr.rngSeed s.me.csr.rngStep
      ((fieldOf (s.pHere (w.vb.setWidth 3)) 63 32 + i) % 2 ^ 32) else 0) ((a i).scale (-(es (i / 32))))
    Answers (exec (.vqnt w) s) (fun t => ∃ c, IssuedAs s t g x [] c ∧ OnlyVector s.me c (flagsOf n mk conv) ∧ (∀ r, c.m r = s.me.m r) ∧
      (∀ r, r ≠ w.vd.toNat → r ≠ w.vc.toNat → c.v r = s.me.v r) ∧
      (∀ k < n / 32, elemAt (c.v w.vc.toNat) 8 k = (es k + 127).toNat) ∧
      (∀ i < n, elemAt (c.v w.vd.toNat) w.bits i = if mk i then (conv i).1 % 2 ^ w.bits else elemAt (s.me.v w.vd.toNat) w.bits i))) ∧
 (∀ (s : State) (w : VArgs) (g : Seg) (x : Todo) (off : Nat), WordDue s g x [] → Clear s → Quiet s → w.outl = true → w.wrap = false →
    off = fieldOf (s.pHere (w.vb.setWidth 3)) 20 0 →
    let field (at_ : Nat) : Nat := leNat ((List.range 4).map (fun i => s.mem.byte (sliceKey s.here (off + at_ + i))))
    let index (i : Nat) : Nat := (fieldOf (s.pHere (w.vb.setWidth 3)) 63 32 + i) % 2 ^ 32
    let h (i : Nat) : Nat := if w.mode = 2 then whiskHigh s.me.csr.rngSeed s.me.csr.rngStep (index i) else 0
    off % 8 = 0 → off + 8 + 8 * field 4 ≤ 2 ^ 21 →
    let mk := maskBit s w.mask.toNat
    let ws := widthOf w.srcT
    let outlier (i : Nat) (y : Machine.Num) : Bool := match y with
      | .nan => false
      | .inf _ => true
      | _ => (convertPlain w.t w.mode false (h i) y).2 &&& (if w.t < 8 ∨ w.t = 14 then flSaturated else flOverflow) ≠ 0
    let conv (y : Nat → Machine.Num) (i : Nat) : Nat × Flags := if outlier i (y i) then (0, flOutlier) else convertPlain w.t w.mode w.sat (h i) (y i)
    let lost (y : Nat → Machine.Num) (n : Nat) : List Nat := (List.range n).filter (fun i => mk i && outlier i (y i))
    let word (n value : Nat) (at_ : Nat) (m : Memory) : Prop := ∀ i < n, m.byte (sliceKey s.here (off + at_ + i)) = BitVec.ofNat 8 (value / 2 ^ (8 * i))
    let entry (j : Nat) : Nat := (field 0 + j) % 2 ^ 32
    let appended (y : Nat → Machine.Num) (n : Nat) (m : Memory) : Prop := m.tags = s.mem.tags ∧ word 4 ((field 0 + (lost y n).length) % 2 ^ 32) 0 m ∧
      (∀ j (k : j < (lost y n).length), entry j < field 4 → word 8 (index (lost y n)[j] + (rne 12 (y (lost y n)[j])).1 * 2 ^ 32) (8 + 8 * entry j) m) ∧
      ∀ k, (∀ i < 4, k ≠ sliceKey s.here (off + i)) →
        (∀ j < (lost y n).length, entry j < field 4 → ∀ i < 8, k ≠ sliceKey s.here (off + 8 + 8 * entry j + i)) → m.byte k = s.mem.byte k
    let writes (i : Instr) (n : Nat) (y : Nat → Machine.Num) (at_ : Core → Nat → Nat) (rest : Core → Prop) : Prop :=
      Answers (exec i s) (fun t => ∃ m c again, IssuedWith s t g x [] m c ∧ OnlyVectorWith s.me c (flagsOf n mk (conv y)) again ∧ appended y n m ∧
        (∀ r, c.m r = s.me.m r) ∧ rest c ∧ ∀ k < n, at_ c k = if mk k then (conv y k).1 % 2 ^ w.bits else at_ s.me k)
    let plain (c : Core) (k : Nat) : Nat := elemAt (c.v w.vd.toNat) w.bits k
    let only (d k : Nat) (c : Core) : Prop := ∀ r, r < d ∨ d + k ≤ r → c.v r = s.me.v r
    let a (i : Nat) : Machine.Num := numOf w.srcT (elemAt (s.me.v w.va.toNat) ws i)
    (w.srcT ≠ w.t → writes (.vcvt w) (4096 / max ws w.bits) a plain (only w.vd.toNat 1)) ∧
    (∀ k, 0 < k → w.srcT ≠ w.t → w.bits = k * ws → writes (.vwid w) (4096 / ws) a
      (fun c i => elemAt (c.v (w.vd.toNat + i % k)) w.bits (i / k)) (only w.vd.toNat k)) ∧
    (∀ k, 0 < k → w.srcT ≠ w.t → ws = k * w.bits → writes (.vnar w) w.n
      (fun i => numOf w.srcT (elemAt (s.me.v (w.va.toNat + i % k)) ws (i / k))) plain (only w.vd.toNat 1)) ∧
    (w.vd ≠ w.vc →
      let n := 4096 / max ws w.bits
      let es (k : Nat) : Int := blockShift w.t (((List.range 32).filter (fun i => mk (32 * k + i))).map (fun i => a (32 * k + i)))
      writes (.vqnt w) n (fun i => (a i).scale (-(es (i / 32)))) plain (fun c =>
        (∀ r, r ≠ w.vd.toNat → r ≠ w.vc.toNat → c.v r = s.me.v r) ∧ ∀ k < n / 32, elemAt (c.v w.vc.toNat) 8 k = (es k + 127).toNat)))

/-- 10 R271, R272, R277, R278, 04 R132 to R134: VSIEV reserves its appends while its path has room and else raises OQ_FULL;
VSDRN takes up to 128 entries; OQP queues a register, OQG pops an operand that arrived in an earlier cycle and returns its
credit, and freezes where there is none; VLEND moves a bank away
and back. -/
def Obligations.SieveQueueAndBankWords : Prop :=
  ∀ (s : State) (w : VArgs) (g : Seg) (x : Todo), WordDue s g x [] → Clear s →
    let mk := maskBit s w.mask.toNat
    let k := w.immf 1 0
    let opened (c : Core) (win : List Window) : Core := { c with cu := { c.cu with windows := win } }
    (let live := (([w.vb, w.vc, w.vd] : List (BitVec 6)).take (w.immf 3 2)).map (fun r => r.toNat)
     let base := fieldOf (s.pHere (BitVec.ofNat 3 (w.immf 6 4))) 63 32
     let news : List SieveEntry := ((List.range w.n).filter mk).map (fun i =>
       { index := BitVec.ofNat 32 (base + i), elem := BitVec.ofNat 32 (elemAt (s.me.v w.va.toNat) w.bits i)
         live := live.map (fun r => BitVec.ofNat 32 (elemAt (s.me.v r) w.bits i)) })
     let cap := fieldOf s.me.csr.sieveCfg (12 * k + 11) (12 * k)
     (s.me.sieveUse k + news.length ≤ cap → Answers (exec (.vsiev w) s) (fun t => IssuedAs s t g x [] (if news = [] then s.me else
       { s.me with cu := { s.me.cu with appends := s.me.cu.appends ++ [{ path := k, due := s.cycleOf s.here + 3, entries := news }] } }))) ∧
     (cap < s.me.sieveUse k + news.length → exec (.vsiev w) s = .next (s.faultAt s.here s.slotHere 7 (3 * 2 ^ 24 + k)))) ∧
    (let q := s.me.cu.sieve.get [] k
     let got := q.take 128
     let m := w.immf 7 4
     Answers (exec (.vsdrn w) s) (fun t => ∃ c, IssuedAs s t g x [] c ∧
       OnlyVector { s.me with cu := { s.me.cu with sieve := s.me.cu.sieve.put [] k (q.drop 128) } } c 0 ∧
       (∀ r, r < w.vd.toNat ∨ w.vd.toNat + 2 + w.immf 3 2 ≤ r → c.v r = s.me.v r) ∧ (∀ r, r ≠ m ∨ m = 0 → c.m r = s.me.m r) ∧
       (m ≠ 0 → ∀ i < 1024, (c.m m).getLsbD i = decide (i < got.length)) ∧
       (∀ i < 128, elemAt (c.v (w.vd.toNat + 1)) 32 i = (match got[i]? with | some e => e.index.toNat | none => 0)) ∧
       (∀ i < w.n, elemAt (c.v w.vd.toNat) w.bits i = (match got[i]? with | some e => e.elem.toNat % 2 ^ w.bits | none => 0)) ∧
       ∀ l < w.immf 3 2, ∀ i < w.n, elemAt (c.v (w.vd.toNat + 2 + l)) w.bits i =
         (match got[i]? with | some e => (e.live.getD l 0).toNat % 2 ^ w.bits | none => 0))) ∧
    ((s.me.cu.resq.get [] k).length < 16 → Answers (exec (.oqp w) s) (fun t => IssuedAs s t g x []
       { s.me with cu := { s.me.cu with resq := s.me.cu.resq.put [] k (s.me.cu.resq.get [] k ++ [s.me.v w.vd.toNat]) } })) ∧
    (16 ≤ (s.me.cu.resq.get [] k).length → exec (.oqp w) s = .next (s.faultAt s.here s.slotHere 7 (2 ^ 24 + k))) ∧
    (∀ e rest, s.me.cu.opq.get [] k = e :: rest → e.ready ≤ s.cycleOf s.here → (e.bad = none ∨ e.bad = some .correctable) → let strips := max (stripOf s.here) (stripOf e.source.toNat) - min (stripOf s.here) (stripOf e.source.toNat)
       Answers (exec (.oqg w) s) (fun t => ∃ c, IssuedAs { s with
         credits := s.credits ++ [{ source := e.source, lane := e.lane, due := s.cycleOf s.here + strips + 3 }] } t g x [] c ∧
       OnlyVector { s.me with cu := { s.me.cu with opq := s.me.cu.opq.put [] k rest } } c 0 ∧ (∀ r, c.m r = s.me.m r) ∧
       (∀ r, r ≠ w.vd.toNat → c.v r = s.me.v r) ∧
       ∀ i < w.n, elemAt (c.v w.vd.toNat) w.bits i = if mk i then elemAt e.data w.bits i else elemAt (s.me.v w.vd.toNat) w.bits i)) ∧
    ((∀ e rest, s.me.cu.opq.get [] k = e :: rest → s.cycleOf s.here < e.ready) → exec (.oqg w) s = .next (s.freeze s.here s.slotHere)) ∧
    (g.bankDue.get 0 k ≤ g.clock.getD 0 → Answers (exec (.vlendLend w) s) (fun t => ∃ win, (∀ r < 16, ∃ y ∈ win, y.reg = .v (16 * k + r)) ∧
       IssuedAs s t g x [] (opened { s.me with cu := { s.me.cu with lent := [{ bank := k }] } } win))) ∧
    exec (.vlendRet w) s = .next (s.operandFault s.here s.slotHere 4) ∧
    (∀ rest : List Lent, Answers (exec (.vlendRet w) (s.modCore s.here (fun c => { c with cu := { c.cu with lent := { bank := k } :: rest } }))) (fun t =>
       ∃ l, t.me.cu.lent = { bank := k, back := some l } :: t.me.cu.lent.drop 1 ∧ l = 64))

/-- 10 R252, R275, R276: VLD, VLDB and VLDG read the elements they name where the mask is set; VST and VSTG write them. An
element outside loads zero and is not stored. -/
def Obligations.VectorMemoryWords : Prop :=
  ∀ (s : State) (w : VArgs) (g : Seg) (x : Todo) (e : Ent), WordDue s g x [] → Clear s → Quiet s → (s.quadAt (quadOf s.here)).cmds = [] →
    entOf (s.me.lt w.va.toNat) = e → e.loaded = true → e.space = 0 → w.bits = e.esize → e.tagged = false →
    let mk := maskBit s w.mask.toNat
    let co := (s.pHere (w.vb.setWidth 3)).toNat
    let old := elemAt (s.me.v w.vd.toNat) w.bits
    let none_ : Elem := { addr := 0, high := false, outside := true }
    let fits : Prop := if e.curve then e.cell ≤ 512 else e.t0 * e.t1 * e.esize ≤ 4096
    let idx (i : Nat) : Elem := denseElem e (bitsOf co 15 0 + elemAt (s.me.v w.vc.toNat) w.bits i : Nat) (bitsOf co 31 16) (bitsOf co 47 32) (bitsOf co 63 48)
    let picked := (List.range w.n).filter mk
    let sets (i : Instr) (el : Nat → Elem) : Prop := Answers (exec i s) (fun t => ∃ c, IssuedAs s t g x [] c ∧
      OnlyVectorAccess s.me c i ∧ (∀ r, c.m r = s.me.m r) ∧ (∀ r, r ≠ w.vd.toNat → c.v r = s.me.v r) ∧
      ∀ k, k * w.bits < 4096 → elemAt (c.v w.vd.toNat) w.bits k = if k < w.n ∧ mk k then elementIn s.mem s.here e (el k) else old k)
    let stores (i : Instr) (xs : List Elem) (el : Nat → Nat) : Prop := Answers (exec i s) (fun t => ∃ m c, IssuedWith s t g x [] m c ∧
      OnlyVectorAccess s.me c i ∧ c.cu.v = s.me.cu.v ∧ c.cu.m = s.me.cu.m ∧ HoldsEach s.mem m s.here e (s.frameNo s.here) xs el)
    (fits → firstPast e (tileOf e co) = none → sets (.vld w) (fun k => (tileOf e co).getD k none_)) ∧
    (fits → firstPast e (rowOf e co) = none → sets (.vldb w) (fun k => (rowOf e co).getD (k % (rowOf e co).length) none_)) ∧
    (e.curve = false → firstPast e (picked.map idx) = none → sets (.vldg w) idx) ∧
    (fits → firstPast e (tileOf e co) = none → Separate e (tileOf e co) →
      let at_ := (List.range (tileOf e co).length).filter mk
      stores (.vst w) (at_.map (fun k => (tileOf e co).getD k none_)) (fun j => old (at_.getD j 0))) ∧
    (e.curve = false → firstPast e (picked.map idx) = none → Separate e (picked.map idx) →
      stores (.vstg w) (picked.map idx) (fun j => old (picked.getD j 0)))

/-! ## Matrix words -/

/-- 11 R292 to R294, 02 R64, 03 R97: MLEASE joins the queue of its quad's lease, giving up one the core holds; MREL takes its
request back or gives the lease up; MBST asks the governor; what waits behind a free lease begins to wake. CNOP does
nothing and CTOK gives in its cycle. -/
def Obligations.LeaseAndControlWords : Prop :=
  ∀ (s : State) (w : MArgs) (g : Seg) (x : Todo), WordDue s g x w.takes →
    let held : Prop := ∃ l, s.quadHere.lease = some l ∧ l.core.toNat = s.here
    let others := s.quadHere.requests.filter (fun r => r.core.toNat ≠ s.here)
    let wakes (q : Quad) : Prop := ∀ r rest, q.lease = none → q.requests = r :: rest → ∀ j, r.bands.getLsbD j = true →
      let b := q.bands.get {} j
      let cls := s.grantClass (quadOf s.here) r
      State.bandReady b cls = true ∨ b.next = cls ∧ ∃ t, b.waking = some t ∧ (t = s.now + 600 ∨ (s.quadHere.bands.get {} j).waking = some t)
    (s.slotHere = .mc → Answers (exec (.mlease w) s) (fun t => ∃ (q : Quad) (r : LeaseReq) (bs : Tab Band), IssuedLease s t g x w.takes q ∧
      q = { s.quadHere with lease := q.lease, requests := s.quadHere.requests ++ [r], bands := bs } ∧ wakes q ∧
      (held → q.lease = none) ∧ (¬ held → q.lease = s.quadHere.lease) ∧
      r.core = BitVec.ofNat 8 s.here ∧ r.bands = BitVec.ofNat 4 (w.opf 3 0) ∧ r.cls = w.opf 5 4 ∧ r.gc = w.gc ∧ r.ga = w.ga)) ∧
    (s.slotHere = .mc → Answers (exec (.mrel w) s) (fun t => ∃ (q : Quad) (k : MatCmd) (bs : Tab Band), IssuedLease s t g x w.takes q ∧
      q = { s.quadHere with lease := q.lease, requests := others, bands := bs, cmds := s.quadHere.cmds ++ [k] } ∧ wakes q ∧
      (held → q.lease = none) ∧ (¬ held → q.lease = s.quadHere.lease) ∧ CommandOf s w (.mrel w) 2 none k)) ∧
    (MatrixDue s w g x 0 → Answers (exec (.mbst w) s) (fun t => ∃ k : MatCmd,
      IssuedMatrix s t g x w.takes 0 { s.quadHere with cmds := s.quadHere.cmds ++ [k] } s.me ∧
      CommandOf s w (.mbst w) 4 (some (w.opf 15 0)) k)) ∧
    Answers (exec (.cnop w) s) (fun t => IssuedAs s t g x w.takes s.me) ∧
    Answers (exec (.ctok w) s) (fun t => ∃ past, (s.mem.recent = [] → past = []) ∧ IssuedAs s t g x w.takes (s.me.addToken
      { counter := w.gc, amount := w.ga.toNat, order := 7, index := BitVec.ofNat 32 s.ordinalHere
        position := BitVec.ofNat 32 s.offsetHere, past := past }))

/-- 11 R290, 16 R341: a matrix word of a core whose quad's lease it does not hold raises LEASE, reason 1, or 2 when its run
passed to a waiter, and does not issue; one that names a band outside the lease, reason 3. 11 R287, R288, R295 to R303: a matrix word whose checks hold enters the pipeline of its quad with what it has captured, its give and
its worst case, and pops its format word; nothing it names is read or written yet. A drain to a bank opens its landing windows.
MSHAPE writes ASHAPE when it leaves the array; later words of its core find the new shape from its issue on. -/
def Obligations.MatrixPlanesAndLeases : Prop :=
 (∀ (s : State) (w : MArgs),
    let b := s.bandsHere
    let stops (i : Instr) (bands : Nat) : Prop := exec i s = .next (s.faultAt s.here s.slotHere 9
      ((if BitVec.ofNat 8 s.here ∈ s.quadHere.passed then 2 else 1) * 2 ^ 24 + bands))
    let outside (i : Instr) (bands : Nat) : Prop := exec i s = .next (s.faultAt s.here s.slotHere 9 (3 * 2 ^ 24 + bands))
    (s.leaseBands w = none → stops (.mshape w) (w.opf 3 0) ∧ stops (.mldw w) b ∧ stops (.mswp w) b ∧ stops (.mmul w) b ∧
      stops (.mzacc w) b ∧ stops (.mdrn w) b ∧ stops (.mocr w) b ∧ stops (.mchk w) b ∧ stops (.mbst w) b) ∧
    (∀ l j, s.leaseBands w = some l → bitOf l j = false → j < 4 → (bitOf (w.opf 3 0) j = true → outside (.mshape w) (w.opf 3 0)) ∧
      (bitOf b j = true → outside (.mldw w) b ∧ outside (.mmul w) b ∧ outside (.mdrn w) b ∧ outside (.mocr w) b))) ∧
 (∀ (s : State) (w : MArgs) (g : Seg) (x : Todo),
    let y := s.mctx w
    let d := y.desc
    let nc := y.ncols
    let rows := dRows d
    let nb := y.nb
    let soff := dSoff d
    let bank := isBank w
    let enters (i : Instr) (bands lat : Nat) (c : Core) : Prop := Answers (exec i s) (fun t => ∃ k : MatCmd,
      IssuedMatrix s t g x w.takes bands { s.quadHere with cmds := s.quadHere.cmds ++ [k] } c ∧ CommandOf s w i lat none k)
    let good (regs : List BadReg) : Prop := GoodRegs s regs
    (MatrixDue s w g x (w.opf 3 0) → enters (.mshape w) (w.opf 3 0) 1 s.me) ∧
    (MatrixDue s w g x 0 → good [.csr 2] → enters (.mswp w) s.bandsHere 2 s.me) ∧
    (MatrixDue s w g x 0 → good (s.descReg w) → State.descOk d false true 1 = true → enters (.mzacc w) 0 (4 + (rows + 63) / 64) s.me) ∧
    (MatrixDue s w g x 0 → good (.csr 2 :: s.descReg w ++ [s.pWord (w.opf 12 10)]) → State.descOk d true false 16 = true →
      (let tau := numOf 12 (y.coord % 2 ^ 32)
       tau.isNan = false ∧ tau.isInf = false ∧ (tau.isNeg = false ∨ tau.isZero = true)) →
      soff + (4 * (rows + nc) + 15) / 16 * 16 + 16 ≤ 2 ^ 21 → enters (.mchk w) 0 (24 + 2 * rows) s.me) ∧
    (∀ rest, s.me.cu.fmtq = y.fmt :: rest → fieldOf y.fmt 13 0 = 0 → MatrixDue s w g x s.bandsHere →
      let popped : Core := { s.me with cu := { s.me.cu with fmtq := rest } }
      (good (.csr 2 :: s.opRegs w) → mpcOf y.bfmt ≠ 0 → fieldOf d 63 41 = 0 → fieldOf d 19 0 = 0 →
        OperandOk s w y.bfmt (32 * nb * nc) (y.elems nc (32 * nb)) soff (if y.block then nb * nc else 0) →
        enters (.mldw w) s.bandsHere (if bank then 4 + 32 * y.bands.length else 8 + 64 * y.bands.length) popped) ∧
      (good (.csr 2 :: s.opRegs w) → State.pairOk y.afmt y.bfmt = true → State.descOk d true false 1 = true →
        recordsOk (State.planned s.quadHere) y.bands y.bfmt y.block nc y.cs = true →
        OperandOk s w y.afmt (32 * nb * rows) (y.elems (32 * nb) rows) soff (if y.block then rows * nb else 0) →
        enters (.mmul w) s.bandsHere ((if bank then 13 + rows else 16 + 2 * rows) + (if y.cs then 2 else 0)) popped) ∧
      (good (.csr 2 :: s.descReg w) → mpcOf y.bfmt ≠ 0 → State.descOk d true false 8 = true →
        recordsOk (State.planned s.quadHere) y.bands y.bfmt y.block nc false = true → s.listCheck soff = .ok false →
        enters (.mocr w) s.bandsHere (10 + 2 * s.listCap soff) popped) ∧
      (good (.csr 2 :: s.opRegs w ++ (if fieldOf y.fmt 19 18 = 2 then [.csr 15, .csr 16] else [])) → State.outFmtOk y.ofmt = true → State.descOk d true true (if y.outl then 8 else 1) = true →
        s.opCheck w y.ofmt (nc * rows) = .ok false → s.opSpace w (y.elems nc rows) = .ok false →
        (y.outl = true → s.listCheck soff = .ok false) →
        let lat := (if bank then 6 + rows else 8 + 2 * rows) + (if y.outl then 2 * (nc * rows) else 0)
        (bank = false → enters (.mdrn w) s.bandsHere lat popped) ∧
        (bank = true → Answers (exec (.mdrn w) s) (fun t => ∃ (k : MatCmd) (win : List Window),
          IssuedMatrix s t g x w.takes s.bandsHere { s.quadHere with cmds := s.quadHere.cmds ++ [k] }
            { popped with cu := { popped.cu with windows := s.me.cu.windows ++ win } } ∧
          CommandOf s w (.mdrn w) lat none k ∧ (∀ v ∈ win, v.bound = k.due) ∧ ∀ r < 16, ∃ v ∈ win, v.reg = .v (16 * opBank w + r)))))) ∧
 (∀ (s : State) (k : MatCmd) (w : MArgs), CommandNext s k → k.done = false → k.word = .mshape w → k.bank = none →
    let c := s.coreAt k.core.toNat
    Answers (exec .matrixCommandDone s) (fun t => LeftArray s t k s.quadHere s.mem
      { c with csr := { c.csr with ashape := BitVec.ofNat 64 (256 * w.opf 11 4 + w.opf 3 0) } } k.flags))

/-- 11 R298, 05 R158, R159: MMUL adds to each accumulator of its rows, block by block in ascending order, the exact block sum
times the two block scales, rounded to f32 once a block; with the checksum flag it carries the row and column checksums
along by the same rule. Every other accumulator, and every byte of memory, stands. -/
def Obligations.MatrixMultiplies : Prop :=
  ∀ (s : State) (k : MatCmd) (w : MArgs), CommandNext s k → k.done = false → k.gone = false → k.word = .mmul w → k.bank = none →
    let q := s.quadHere
    let x := k.ctx
    let bl := x.bands
    let nc := x.ncols
    let ta := x.afmt
    let tb := x.bfmt
    let mpc := mpcOf tb
    let nb := x.nb
    let rows := dRows x.desc
    let arow := dArow x.desc
    let a (m i : Nat) : Nat := operandValue s k ta (x.elems (32 * nb) rows) (32 * nb * m + i)
    let sa (m b : Nat) : Nat := scaleAt s k.core.toNat x.block (dSoff x.desc + nb * m + b)
    let plane (b : Nat) : Plane := q.activeAt (bl.getD (b / mpc) 0)
    let bv (b i n : Nat) : Nat := (plane b).cell (32 * (b % mpc) + i) n
    let sb (b n : Nat) : Nat := (plane b).scale (b % mpc) n
    let sum (b m n : Nat) : Machine.Num := (sumNums ((List.range 32).map (fun i => (macMul ta tb (a m (32 * b + i)) (bv b i n)).1))).1
    let blocks (z : BitVec 32) (f : Nat → Machine.Num) : BitVec 32 := (List.range nb).foldl (fun z b => (accumulate z (f b)).1) z
    mpc ≠ 0 → dSoff x.desc + (if x.block then rows * nb else 0) ≤ 2 ^ 21 →
    Answers (exec .matrixCommandDone s) (fun t => ∃ (r : Quad) (acc rc cc : Tab (BitVec 32)) (fl : Flags),
      LeftArray s t k r s.mem (s.coreAt k.core.toNat) fl ∧ r = { q with acc := acc, rc := rc, cc := cc } ∧
      (∀ m < rows, ∀ n < nc, r.accAt (arow + m) n = blocks (q.accAt (arow + m) n) (fun b => scaleBy (sb b n) (scaleBy (sa m b) (sum b m n)))) ∧
      (∀ i n, n < 256 → (i < arow ∨ arow + rows ≤ i ∨ nc ≤ n) → r.accAt i n = q.accAt i n) ∧
      (x.cs = false → rc = q.rc ∧ cc = q.cc) ∧
      (x.cs = true →
        (∀ m < rows, rc.get 0 (arow + m) = blocks (q.rc.get 0 (arow + m)) (fun b => (sumNums ((List.range 32).map (fun i =>
          ((scaleBy (sa m b) (numOf ta (a m (32 * b + i)))).mul ((plane b).eb.get (.fin false 0 0) (32 * (b % mpc) + i))).1))).1)) ∧
        (∀ n < nc, cc.get 0 n = blocks (q.cc.get 0 n) (fun b => (sumNums ((List.range rows).flatMap (fun m => (List.range 32).map (fun i =>
          scaleBy (sb b n) (scaleBy (sa m b) (macMul ta tb (a m (32 * b + i)) (bv b i n)).1))))).1)) ∧
        (∀ i, (i < arow ∨ arow + rows ≤ i) → rc.get 0 i = q.rc.get 0 i) ∧ ∀ n, nc ≤ n → cc.get 0 n = q.cc.get 0 n))

/-- 11 R300, 05 R160, 20 R409: MDRN converts the accumulators of its rows, each times the tensor scale, to the output format,
writes them through its entry with the tags of the lines or to its lent bank, and raises their flags; an armed injection
that names one of them first flips its bit. With the clear flag the rows are zero afterwards. -/
def Obligations.MatrixDrains : Prop :=
  ∀ (s : State) (k : MatCmd) (w : MArgs), CommandNext s k → k.done = false → k.gone = false → k.word = .mdrn w → k.ctx.outl = false →
    k.bank = none →
    let q := s.quadHere
    let core := k.core.toNat
    let x := k.ctx
    let nc := x.ncols
    let fmt := x.ofmt
    let mode := fieldOf x.fmt 19 18
    let rows := dRows x.desc
    let arow := dArow x.desc
    let e := x.ent'
    let xs := x.elems nc rows
    let hit : Bool := q.errInj.arm && q.errInj.target = 0 && arow ≤ q.errInj.row.toNat && q.errInj.row.toNat < arow + rows &&
      q.errInj.column.toNat < nc
    let acc (i n : Nat) : BitVec 32 :=
      if hit && i = q.errInj.row.toNat && n = q.errInj.column.toNat then q.accAt i n ^^^ (1#32 <<< q.errInj.bit.toNat) else q.accAt i n
    let made (i n : Nat) : Conv := convert fmt mode (x.fmt.getLsbD 17) false
      (if mode = 2 then whiskHigh x.seed x.rstep (256 * i + n) else 0) (numOf 12 (elemMul 12 (acc i n).toNat (fieldOf x.fmt 63 32)).1)
    let out := (List.range rows).flatMap (fun m => (List.range nc).map (fun n => (made (arow + m) n).bits))
    let flags := orFlags ((List.range rows).flatMap (fun m => (List.range nc).map (fun n =>
      (made (arow + m) n).flags ||| (elemMul 12 (acc (arow + m) n).toNat (fieldOf x.fmt 63 32)).2)))
    let drains (m : Memory) (c : Core) : Prop := Answers (exec .matrixCommandDone s) (fun t => ∃ (r : Quad) (a b : Tab (BitVec 32)),
      LeftArray s t k r m c flags ∧
      r = { q with acc := a, rc := b, errInj := if hit then { q.errInj with
        arm := false, fired := satNat 8 (q.errInj.fired.toNat + 1) } else q.errInj } ∧
      (∀ i n, n < 256 → r.accAt i n = if dFlag x.desc ∧ arow ≤ i ∧ i < arow + rows then 0 else acc i n) ∧
      ∀ i, r.rc.get 0 i = if dFlag x.desc ∧ arow ≤ i ∧ i < arow + rows then 0 else q.rc.get 0 i)
    nc ≤ 256 →
    (isBank x.w = true → [1, 2, 3, 8, 9, 10, 11, 12, 13].contains fmt = true → nc * rows * widthOf fmt ≤ 65536 →
      ∃ (v : Tab (BitVec 4096)) (win : List Window),
        let c : Core := { s.coreAt core with cu := { (s.coreAt core).cu with v := v, windows := win } }
        drains s.mem c ∧
        (∀ j < nc * rows, elemAt (c.v (16 * opBank x.w + j / (4096 / widthOf fmt))) (widthOf fmt) (j % (4096 / widthOf fmt)) = out.getD j 0) ∧
        ∀ n, n / 16 ≠ opBank x.w → c.v n = (s.coreAt core).v n) ∧
    (isBank x.w = false → e.space = 0 → Separate e xs →
      ∃ m, drains m (s.coreAt core) ∧ HoldsEach s.mem m core e x.frame xs (fun j => out.getD j 0))

/-- 11 R301, 05 R161: MOCR adds each entry of an outlier list, in list order, to its accumulator row: the entry's value times
the element of B at its position, times that block's scale, rounded to f32. 11 R302: MCHK writes the residue of each row and column checksum against the sum of its accumulators, then
how many are beyond the tolerance and the first of each; the quad's accumulators and checksums stand, and every other byte. -/
def Obligations.MatrixCorrectionsAndChecks : Prop :=
 (∀ (s : State) (k : MatCmd) (w : MArgs), CommandNext s k → k.done = false → k.word = .mocr w → k.bank = none →
    let q := s.quadHere
    let core := k.core.toNat
    let x := k.ctx
    let bl := x.bands
    let nc := x.ncols
    let fmt := x.bfmt
    let mpc := mpcOf fmt
    let d := x.desc
    let word (o : Nat) : Nat := leNat ((List.range 4).map (fun i => s.mem.byte (sliceKey core (dSoff d + o + i))))
    let all := (List.range (min (word 0) (word 4))).map (fun i => (word (8 + 8 * i), word (12 + 8 * i)))
    let entries := all.filter (fun y => y.1 / 512 < dRows d && y.1 % 512 < 32 * x.nb)
    let plane (y : Nat × Nat) : Plane := q.activeAt (bl.getD (y.1 % 512 / 32 / mpc) 0)
    let at_ (y : Nat × Nat) : Nat := y.1 % 512 % (32 * mpc)
    let term (n : Nat) (y : Nat × Nat) : Machine.Num :=
      scaleBy ((plane y).scale (at_ y / 32) n) ((numOf 12 y.2).mul (numOf fmt ((plane y).cell (at_ y) n))).1
    let checked (y : Nat × Nat) : Bool := match (plane y).info with | some r => r.cs | none => false
    mpc ≠ 0 → nc ≤ 256 → dSoff d + 8 + 8 * word 4 ≤ 2 ^ 21 →
    Answers (exec .matrixCommandDone s) (fun t => ∃ (r : Quad) (acc rc cc : Tab (BitVec 32)) (fl : Flags),
      LeftArray s t k r s.mem (s.coreAt core) fl ∧ r = { q with acc := acc, rc := rc, cc := cc } ∧
      (∀ i, ∀ n < 256, r.accAt i n = if nc ≤ n then q.accAt i n else
        (entries.filter (fun y => dArow d + y.1 / 512 = i)).foldl (fun z y => (accumulate z (term n y)).1) (q.accAt i n)) ∧
      (∀ i, rc.get 0 i = (entries.filter (fun y => checked y && dArow d + y.1 / 512 = i)).foldl (fun z y =>
        (accumulate z ((numOf 12 y.2).mul ((plane y).eb.get (.fin false 0 0) (at_ y))).1).1) (q.rc.get 0 i)) ∧
      ∀ n, cc.get 0 n = if nc ≤ n then q.cc.get 0 n else
        (entries.filter checked).foldl (fun z y => (accumulate z (term n y)).1) (q.cc.get 0 n))) ∧
 (∀ (s : State) (k : MatCmd) (w : MArgs), CommandNext s k → k.done = false → k.word = .mchk w → k.bank = none →
    s.quadHere.errInj.arm = false →
    let q := s.quadHere
    let core := k.core.toNat
    let nc := k.ctx.ncols
    let d := k.ctx.desc
    let rows := dRows d
    let arow := dArow d
    let tau := k.ctx.coord % 2 ^ 32
    let after := (4 * (rows + nc) + 15) / 16 * 16
    let value (y : Nat) : Machine.Num := numOf 12 y
    let big (y : Nat) : Bool := (value y).isNan || (value tau).lt (value y).abs
    let row (m : Nat) : Nat := (elemSub 12 (q.rc.get 0 (arow + m)).toNat (addTree ((List.range nc).map (fun n => (q.accAt (arow + m) n).toNat)))).1
    let col (n : Nat) : Nat := (elemSub 12 (q.cc.get 0 n).toNat (addTree ((List.range rows).map (fun m => (q.accAt (arow + m) n).toNat)))).1
    let first (k : Nat) (f : Nat → Nat) : Nat := ((List.range k).find? (fun i => big (f i))).getD 0xFFFFFFFF
    let many (k : Nat) (f : Nat → Nat) : Nat := ((List.range k).filter (fun i => big (f i))).length
    let words : List (Nat × Nat) := (List.range rows).map (fun m => (4 * m, row m)) ++ (List.range nc).map (fun n => (4 * (rows + n), col n)) ++
      [(after, many rows row), (after + 4, many nc col), (after + 8, first rows row), (after + 12, first nc col)]
    Answers (exec .matrixCommandDone s) (fun t => ∃ m, LeftArray s t k q m (s.coreAt core) k.flags ∧ m.tags = s.mem.tags ∧
      (∀ y ∈ words, ∀ i < 4, m.byte (sliceKey core (dSoff d + y.1 + i)) = BitVec.ofNat 8 (y.2 / 2 ^ (8 * i))) ∧
      ∀ key, (∀ y ∈ words, ∀ i < 4, key ≠ sliceKey core (dSoff d + y.1 + i)) → m.byte key = s.mem.byte key))

/-! ## Events of a quad and of segments -/

/-- 03 R97, R98, 02 R64: the first request of a free lease is granted when its bands are awake at its class, with its give, and
until then they wake within 600 ns; a run of 64 commands or 16,384 cycles ends, and the lease passes to a waiter if there is one. 02 R63 to R65, 11 R294: the governor's decision on a boost request, the end of a boost, an idle band's gate and the end of a
band's wake or class change. -/
def Obligations.QuadEvents : Prop :=
 (∀ (s : State), let q := s.cur.n
    let v := s.quadAt q
    (∀ r rest, v.lease = none → v.requests = r :: rest →
      let c := s.coreAt r.core.toNat
      let cls := s.grantClass q r
      let ready : Prop := (∀ j, r.bands.getLsbD j = true → State.bandReady (v.bands.get {} j) cls = true) ∧
        (v.cmds = [] ∨ ∀ j, r.bands.getLsbD j = true → (v.bands.get {} j).cls = cls)
      (ready → Answers (exec .leaseGrant s) (fun t => ∃ (u : Quad) (bs : Tab Band), t = { s with
          cores := s.cores.ins r.core.toNat (c.addToken { counter := r.gc, amount := r.ga.toNat, order := 9, index := r.index, position := r.position })
          quads := s.quads.ins q u } ∧
        u = { v with
          lease := some { core := r.core, bands := r.bands, cls := max (min r.cls 2) (s.clockClass (s.regionOfQuad q 32)), count := 1,
                          start := s.cycleOf r.core.toNat }
          requests := rest
          passed := v.passed.filter (fun c => c ≠ r.core)
          boost := if v.boostCore = r.core then v.boost else none
          bands := bs } ∧
        ∀ j, (r.bands.getLsbD j = true → (bs.get {} j).awake = true ∧ (bs.get {} j).used = s.now) ∧
          (r.bands.getLsbD j = false → bs.get {} j = v.bands.get {} j))) ∧
      (¬ ready → Answers (exec .leaseGrant s) (fun t => ∃ bs : Tab Band, t = s.setQuad q { v with bands := bs } ∧
        ∀ j, let a := v.bands.get {} j
          bs.get {} j = if r.bands.getLsbD j = true ∧ State.bandReady a cls = false ∧ ¬ (a.waking.isSome = true ∧ a.next = cls)
            then { a with waking := some (s.now + 600), next := cls } else a))) ∧
    (∀ l, v.lease = some l → l.ending = false → (64 ≤ l.count ∨ l.start + 16384 ≤ s.cycleOf l.core.toNat) →
      (v.requests = [] → Answers (exec .leaseRunEnd s) (fun t => t = s.setQuad q
        { v with lease := some { l with count := 0, start := s.cycleOf l.core.toNat } })) ∧
      (v.requests ≠ [] → Answers (exec .leaseRunEnd s) (fun t => ∃ bs : Tab Band, t = s.setQuad q
        { v with lease := none, passed := v.passed ++ [l.core], bands := bs } ∧ ∀ j, (bs.get {} j).awake = (v.bands.get {} j).awake)))) ∧
 (∀ (s : State), let q := s.cur.n
    let v := s.quadAt q
    (∀ (quad : BitVec 6) (estimate us : Nat) (m : MatCmd) (w : MArgs), let v := s.quadAt quad.toNat
      v.cmds.find? (fun m => m.boost.isSome) = some m → (∀ c ∈ v.cmds, c.id = m.id → c = m) → m.boost = some us →
      m.word = .mbst w → m.keys = [] → m.flags = 0 → m.bank = none → (∀ l, v.lease = some l → l.ending = false) →
      let granted : Prop := s.power.exceeded = false ∧ estimate + s.power.reserve.toNat + s.boostCharge < s.power.soft.toNat
      let runs : Prop := (s.coreAt m.core.toNat).run = true
      let until_ := s.now + min us s.power.boostMax.toNat * 1000
      let charges : Prop := granted ∧ ¬ runs ∧ s.savingOn m.core.toNat = true
      Answers (exec (.boostDecision quad estimate) s) (fun t => ∃ (u : Quad) (bs : Tab Band) (n : Nat), t = { s with
          cores := s.cores.ins m.core.toNat ((s.coreAt m.core.toNat).addToken
            { counter := m.gc, amount := m.ga.toNat, order := 9, index := BitVec.ofNat 32 m.index, position := BitVec.ofNat 32 m.offset, past := m.past })
          quads := s.quads.ins quad.toNat u
          freeCtr := n } ∧
        u = { v with
          cmds := (v.cmds.filter (fun k => k.id ≠ m.id)).map (fun y =>
            if m.id < y.id && m.before y then { y with start := max y.start (s.cycleOf m.core.toNat) } else y)
          bands := bs, boost := u.boost, boostCore := u.boostCore, charged := u.charged } ∧
        (granted ∧ runs → u.boost = some until_ ∧ u.boostCore = m.core) ∧ (¬ (granted ∧ runs) → u.boost = v.boost ∧ u.boostCore = v.boostCore) ∧
        (charges → u.charged = max v.charged until_) ∧ (¬ charges → u.charged = v.charged) ∧
        ∀ j l, v.lease = some l → u.cmds = [] → l.bands.getLsbD j = true → (bs.get {} j).cls = if u.boost.isSome then 3 else l.cls)) ∧
    (∀ until_, v.boost = some until_ → until_ ≤ s.now → Answers (exec .boostExpiry s) (fun t => ∃ bs : Tab Band,
      t = s.setQuad q { v with boost := none, bands := bs } ∧
      ∀ j, let a := v.bands.get {} j
        bs.get {} j = match v.lease with
          | some l => if v.cmds = [] ∧ l.bands.getLsbD j = true then { a with cls := l.cls, next := l.cls } else a
          | none => a)) ∧
    (let v := s.quadAt (q / 4)
     let j := q % 4
     let b := v.bands.get {} j
     let named : Prop := ∃ l, v.lease = some l ∧ l.bands.getLsbD j = true
     (b.awake = true → ¬ named → b.waking = none → v.idle ≠ 0 → b.used + v.idle.toNat ≤ s.now →
        Answers (exec .bandIdleGate s) (fun t =>
          t = s.setQuad (q / 4) { v with bands := v.bands.ins j { b with awake := false } })) ∧
     (∀ at_, b.waking = some at_ → (b.awake = true ∨ at_ ≤ s.now) → Answers (exec .bandWakeComplete s) (fun t =>
        t = s.setQuad (q / 4) { v with
          bands := v.bands.ins j { b with
            awake := true, cls := if b.awake then b.cls else b.next, waking := none, used := s.now } }))))

/-- 11 R288, R289, 17 R348: a matrix command that an earlier one of the order holds up, or whose clock is gated, stays; one
that has done its part leaves: its elements stand in the lent bank, unless that has gone back, its flags are raised, it gives,
and no observer may still read what its writes replaced. It may do its part earlier, and stays in the pipeline then.
11 R296, R297, R299: what MLDW, MSWP and MZACC do in their place of the order, by the time they leave: MLDW loads the shadow
planes of the bands that take part, with their scales and row sums; MSWP swaps active and shadow planes; MZACC clears
accumulators and checksums, and pops no format word when it issues. No byte of memory changes. That a command does its part in one piece, and may stay in the
pipeline after it, is the model's (log 7), as is that an event which may not act yet changes nothing (log 16). -/
def Obligations.MatrixCommandsLand : Prop :=
 (∀ (s : State) (k : MatCmd), let q := quadOf s.here
    let v := s.quadAt q
    let a := s.coreAt k.core.toNat
    let gated := (s.regionAt (s.regionOfQuad q 32)).gated
    v.cmds.find? (fun m => m.id = s.cur.n) = some k →
    ((k.boost.isSome = true ∨ (∃ c ∈ v.cmds, c.id < k.id ∧ c.before k = true) ∨ gated = true) →
      Answers (exec .matrixCommandDone s) (fun t => t = s)) ∧
    (k.done = true → k.boost = none → (∀ c ∈ v.cmds, c.id < k.id → c.before k = false) → gated = false →
      (∀ l, v.lease = some l → l.ending = false) →
      let lands (Q : Core → Prop) : Prop := Answers (exec .matrixCommandDone s) (fun t => ∃ m c, LeftArray s t k v m c k.flags ∧
        SameMemory s.mem m ∧ Q c ∧
        ∀ r ∈ m.recent, r.core = k.core → r.slot = .mc → r.key < hbmBase → r.key % 2 ^ 21 ∈ k.keys → r.until_ ≤ s.cycleOf k.core.toNat)
      (∀ w, k.word = .mshape w → (k.bank = none ∨ k.gone = true) → lands (fun c => ∃ bad, c = { a with
        csr := { a.csr with ashape := BitVec.ofNat 64 (256 * w.opf 11 4 + w.opf 3 0) }, bad := bad })) ∧
      ((∀ w, k.word ≠ .mshape w) → (k.bank = none ∨ k.gone = true) → lands (fun c => c = a)) ∧
      ∀ j wd vals, (∀ w, k.word ≠ .mshape w) → k.bank = some (j, wd, vals) → k.gone = false → (wd = 8 ∨ wd = 16 ∨ wd = 32) → vals.length * wd ≤ 65536 →
        lands (fun c => ∃ regs win bad, c = { a with cu := { a.cu with v := regs, windows := win }, bad := bad } ∧
          (∀ i (h : i < vals.length), elemAt (c.v (16 * j + i / (4096 / wd))) wd (i % (4096 / wd)) = vals[i] % 2 ^ wd) ∧
          ∀ r, (r < 16 * j ∨ 16 * j + (vals.length * wd + 4095) / 4096 ≤ r) → c.v r = a.v r))) ∧
 (∀ (s : State) (k : MatCmd) (w : MArgs) (later : List MatCmd) (n : Nat) (rest : List Move), let q := quadOf k.core.toNat
    let v := s.quadAt q
    v.cmds = k :: later → (∀ c ∈ later, c.id ≠ k.id) → k.word = .mswp w → k.done = false →
    (s.regionAt (s.regionOfQuad q 32)).gated = false → s.agenda = .part k.core k.id n :: rest →
    Answers (step s) (fun t => ∃ a b, t = { s with
        agenda := rest
        quads := s.quads.ins q { v with active := a, shadow := b, cmds := { k with done := true, entries := 0 } :: later } } ∧
      ∀ j, a.get {} j = (if j ∈ k.ctx.bands then v.shadowAt j else v.activeAt j) ∧
        b.get {} j = (if j ∈ k.ctx.bands then v.activeAt j else v.shadowAt j))) ∧
 (∀ (s : State) (k : MatCmd) (w : MArgs), CommandNext s k → k.done = false → k.gone = false →
    let q := s.quadHere
    let c := s.coreAt k.core.toNat
    let x := k.ctx
    let bl := x.bands
    let nc := x.ncols
    let leaves (Q : Quad → Prop) : Prop := Answers (exec .matrixCommandDone s) (fun t => ∃ r, LeftArray s t k r s.mem c k.flags ∧ Q r)
    (k.word = .mswp w → k.bank = none → leaves (fun r => ∃ a b, r = { q with active := a, shadow := b } ∧
      ∀ j, a.get {} j = (if j ∈ bl then q.shadowAt j else q.activeAt j) ∧ b.get {} j = (if j ∈ bl then q.activeAt j else q.shadowAt j))) ∧
    (k.word = .mzacc w → k.bank = none →
      let d := x.desc
      let inRows (r : Nat) : Prop := dArow d ≤ r ∧ r < dArow d + dRows d
      leaves (fun r => ∃ a b, r = { q with acc := a, rc := b, cc := if dFlag d then [] else q.cc } ∧
        (∀ m n, n < 256 → (inRows m → r.accAt m n = 0) ∧ (¬ inRows m → r.accAt m n = q.accAt m n)) ∧
        ∀ m, (inRows m → r.rc.get 0 m = 0) ∧ (¬ inRows m → r.rc.get 0 m = q.rc.get 0 m))) ∧
    (k.word = .mldw w → k.bank = none →
      let fmt := x.bfmt
      let mpc := mpcOf fmt
      let nb := x.nb
      let b (i n : Nat) : Nat := operandValue s k fmt (x.elems nc (32 * nb)) (i * nc + n) % (if fmt = 13 then 64 else 2 ^ 16)
      let sb (kb n : Nat) : Nat := scaleAt s k.core.toNat x.block (dSoff x.desc + kb * nc + n)
      mpc ≠ 0 → dSoff x.desc + (if x.block then nb * nc else 0) ≤ 2 ^ 21 →
      leaves (fun r => ∃ sh, r = { q with shadow := sh } ∧
        (∀ j, j ∉ bl → sh.get {} j = q.shadowAt j) ∧
        ∀ i j, bl[i]? = some j → let p := sh.get {} j
          p.info = some { fmt := BitVec.ofNat 4 fmt, block := x.block, cs := x.cs, nc := nc } ∧
          (∀ k < 32 * mpc, ∀ n < nc, p.cell k n = b (32 * mpc * i + k) n) ∧ (∀ kb < mpc, ∀ n < nc, p.scale kb n = sb (mpc * i + kb) n) ∧
          (x.cs = true → ∀ k < 32 * mpc, p.eb.get (.fin false 0 0) k =
            (sumNums ((List.range nc).map (fun n => scaleBy (sb (mpc * i + k / 32) n) (numOf fmt (b (32 * mpc * i + k) n))))).1)))) ∧
 (∀ (s : State) (w : MArgs) (g : Seg) (x : Todo), MatrixDue s w g x 0 → GoodRegs s (s.descReg w) →
    State.descOk (s.mctx w).desc false true 1 = true → Answers (exec (.mzacc w) s) (fun t => t.me.cu.fmtq = s.me.cu.fmtq))

/-- 03 R86 to R89: the command at the head of a queue whose header's takes are met starts its segment: p0 to p7 take its
values, each word its issue offset by the delays of its column, and the first word issues in the next cycle. While the takes
are not met, only the p registers are loaded. 03 R88, 16 R342: a segment whose count and signature are its header's retires with the header's give; one whose are not
raises CHECK, which rolls its node back. 17 R348: none retires while the region's clock is gated. -/
def Obligations.SegmentsStartAndRetire : Prop :=
 (∀ (s : State) (cmd : Cmd) (rest : List Cmd), let seq := seqOf s.slotHere
    let u := s.me.unit seq
    let bs := (s.code.get {} s.here).section seq
    let base := cmd.off.toNat * 16
    let h := BitVec.ofNat 128 (leNat ((bs.drop base).take 16))
    let n := hdrLength h
    let word (i : Nat) : BitVec 64 := BitVec.ofNat 64 (leNat ((bs.drop (base + 16 + 8 * i)).take 8))
    let col (i : Nat) : Nat := if seq = 2 then fieldOf (word i) 63 60 else 0
    let delay (i : Nat) : Nat := if seq = 2 then fieldOf (word i) 59 56 else fieldOf (word i) 55 52
    let loaded (p : Tab Dword) : Prop := ∀ i < 8, p.get 0 i = cmd.xs.getD i 0
    seq ≠ 0 → u.cmdq = cmd :: rest → u.seg = none → s.me.bad = [] → hdrOk h seq = true → base + 16 + 8 * n ≤ bs.length →
    ((∀ r, (((hdrTakes h).filter (fun y => y.1 = r)).map (fun y => y.2)).sum ≤ s.me.tk r) →
      ∀ off : Nat → Nat, (∀ i < n, col i < 6 ∧ (∀ j ≤ i, off j ≤ off i) ∧
        off i = delay i + (match (List.range i).reverse.find? (fun j => col j = col i) with | some j => off j + 1 | none => 0)) →
      Answers (exec .segmentStart s) (fun t => ∃ p tk m, SameMemory s.mem m ∧ t = { s with
          mem := m
          cores := s.cores.ins s.here (({ s.me with cu := { s.me.cu with tk := tk } }).setUnit seq { u with
            p := p, cmdq := rest, loaded := false, ordinal := u.ordinal + 1
            seg := some {
              ordinal := u.ordinal, cycles := BitVec.ofNat 32 (fieldOf h 103 72), signature := BitVec.ofNat 32 (fieldOf h 71 40)
              gc := BitVec.ofNat 5 (fieldOf h 18 14), ga := BitVec.ofNat 3 (fieldOf h 13 11)
              todo := (List.range n).map (fun i => { offset := off i, col := col i, word := word i, bad := false }) } }) } ∧
        loaded p ∧ TakesMade s t (hdrTakes h))) ∧
    ((∃ r, s.me.tk r < (((hdrTakes h).filter (fun y => y.1 = r)).map (fun y => y.2)).sum) →
      Answers (exec .segmentStart s) (fun t => ∃ p, t = { s with
        cores := s.cores.ins s.here (s.me.setUnit seq { u with p := p, loaded := true }) } ∧ loaded p))) ∧
 (∀ (s : State) (g : Seg) (n : Nat) (v : Node), Steady s → s.nodeOn s.here = some (n, v) → s.retiringHere = some g →
    let seq := seqOf s.slotHere
    ((s.regionAt (s.regionOf s.here)).gated = true → exec .segmentRetire s = .next s) ∧
    ((s.regionAt (s.regionOf s.here)).gated = false → seq ≠ 0 → (∀ o, s.me.recorded ≠ some (s.cycleOf s.here, o)) →
    (g.count = g.cycles.toNat → g.crc = ~~~g.signature → Answers (exec .segmentRetire s) (fun t => ∃ m c win vl past,
      SameMemory s.mem m ∧ t = { s with mem := m, cores := s.cores.ins s.here c } ∧
      c = ({ s.me with cu := { s.me.cu with windows := win, vlWords := vl } }.setUnit seq { s.me.unit seq with
        retiring := (s.me.unit seq).retiring.filter (fun y => y.ordinal ≠ g.ordinal) }).addToken
        { counter := g.gc, amount := g.ga.toNat, order := (if seq = 1 then 1 else if seq = 3 then 8 else 2)
          index := BitVec.ofNat 32 g.ordinal, position := 0xFFFFFFFF#32, past := past } ∧
      (seq ≠ 2 → win = s.me.cu.windows ∧ vl = s.me.cu.vlWords ∧ m = s.mem))) ∧
    ((g.count ≠ g.cycles.toNat ∨ g.crc ≠ ~~~g.signature) → State.irrevocable v = false → v.noRequeue = false →
      v.rollbacks + 1 ≤ s.rollCfg.toNat → Answers (exec .segmentRetire s) (fun t => t.me.run = false ∧
        fieldOf t.me.csr.trap0 63 56 = 0x0D ∧ fieldOf t.me.csr.trap0 31 0 = (~~~g.crc).toNat ∧
        fieldOf t.me.csr.trap1 63 32 = g.ordinal % 2 ^ 32 ∧ fieldOf t.me.csr.trap1 31 0 = g.count % 2 ^ 32 ∧
        ∃ w, t.nodeAt n = some w ∧ w.st = .waiting ∧ w.staged = [] ∧ w.rollbacks = v.rollbacks + 1 ∧ w.rcd = v.rcd))))

/-- 16 R338, 17 R360: a core frozen longer than a limit of its domain raises LATE, which fails its node; the first latched event
of a core is delivered after the transition, to the handler when it is one of S's and the handler is on. 04 R133, R134, 16 R339: the oldest entry of a lane reaches its operand queue when it is due, and raises OQ_FULL there when
16 entries stand in it; a credit that is back frees one entry of its result queue. -/
def Obligations.WatchdogsLatchesAndChains : Prop :=
 (∀ (s : State) (n : Nat) (v : Node), Steady s → s.nodeOn s.here = some (n, v) → (∀ o, s.me.recorded ≠ some (s.cycleOf s.here, o)) →
    (s.me.run = true → s.me.late ≠ [] → (∃ d ∈ s.domainOf s.here, (s.coreAt d).late ≠ [] ∧ (s.coreAt d).csr.wdog.toNat < s.me.frozenCount) →
      Answers (exec .freezeWatchdog s) (fun t => SameMemory s.mem t.mem ∧ t.me.run = false ∧ fieldOf t.me.csr.trap0 63 56 = 5 ∧
        ∃ w, t.nodeAt n = some w ∧ w.st = .ending .failed 5)) ∧
    (∀ f : FaultRec, s.me.latched = [f] → f.engine = 0 → State.handled f.cls = true → s.me.csr.trapVec.getLsbD 0 = true →
      s.me.csr.trap0.getLsbD 52 = false → Answers (exec .latchedDelivery s) (fun t => SameMemory s.mem t.mem ∧ t.me.latched = [] ∧
        t.me.su.pc = fieldOf s.me.csr.trapVec 31 2 * 4 ∧ fieldOf t.me.csr.trap0 63 56 = f.cls.toNat ∧ t.me.csr.trap0.getLsbD 52 = true ∧
        t.me.csr.trap1 = f.index ++ f.position ∧ t.me.run = s.me.run ∧ t.nodes = s.nodes)) ∧
    (∀ f : FaultRec, s.me.latched = [f] → f.engine ≠ 0 → f.cls ≠ 0x0D → f.cls ≠ 0x0E → f.cls ≠ 0x0F → f.cls ≠ 0x13 → f.cls ≠ 0x12 →
      Answers (exec .latchedDelivery s) (fun t => t.me.run = false ∧ fieldOf t.me.csr.trap0 63 56 = f.cls.toNat ∧
        ∃ w, t.nodeAt n = some w ∧ w.st = .ending .failed f.cls))) ∧
 (∀ (s : State),
    (∀ c, s.chains.find? (fun y => y.source.toNat = s.here && y.lane = s.cur.n) = some c → c.due ≤ s.cycleOf c.target.toNat →
      let k := s.coreAt c.target.toNat
      let rest := removeFirst (fun y => y.source = c.source && y.lane = c.lane) s.chains
      let q := k.cu.opq.get [] c.queue
      (q.length < 16 → Answers (exec .oqEntryArrive s) (fun t => t = { s with
        chains := rest
        cores := s.cores.ins c.target.toNat { k with cu := { k.cu with
          opq := k.cu.opq.put [] c.queue (q ++ [{ source := c.source, lane := c.lane, data := c.data, ready := s.cycleOf c.target.toNat + 1 }]) } } })) ∧
      (16 ≤ q.length → s.transition c.target.toNat = true → Answers (exec .oqEntryArrive s) (fun t =>
        t.chains = rest ∧ t.mem = s.mem ∧ ∃ f, (t.coreAt c.target.toNat).latched = k.latched ++ [f] ∧ f.cls = 7 ∧
          f.status = BitVec.ofNat 32 (2 * 2 ^ 24 + stripOf c.source.toNat * 2 ^ 8 + c.queue)))) ∧
    (∀ c, s.credits.find? (fun y => y.source.toNat = s.here && y.lane = s.cur.n) = some c → c.due ≤ s.cycleOf s.here →
      Answers (exec .oqCreditReturn s) (fun t => t = { s with
        credits := removeFirst (fun y => y.source = c.source && y.lane = c.lane) s.credits
        cores := s.cores.ins s.here { s.me with cu := { s.me.cu with used := s.me.cu.used.put 0 c.lane (s.me.cu.used.get 0 c.lane - 1) } } })))

/-! ## Engines beside the cores -/

/-- 18 R375, R376: a word in flight that reads global memory of a partition without translation raises TRANSLATE, reason 5, at its
first element: nothing of it is performed and its give is not added; a checkpointable node is held and NODE_FAULT sent, any
other fails. 04 R124: a walk that completes leaves its translation cached; an invalidation that completes leaves none of its partition
in any quad's cache or walks. -/
def Obligations.TranslationFaultsAndWalks : Prop :=
 (∀ (s : State) (f : Flight) (w : DArgs) (n : Nat) (v : Node) (y : Elem) (rest : List Elem), Steady s → s.nodeOn s.here = some (n, v) →
    (∀ o, s.me.recorded ≠ some (s.cycleOf s.here, o)) → (∀ a ∈ s.host.adds, a.node ≠ n) →
    MayLand s f → f.word = .tld w → (entOf f.src).space = 3 → (s.partAt v.part.toNat).ptbr.getLsbD 0 = false →
    tileOf (entOf f.src) f.sc.toNat = y :: rest → y.outside = false → (entOf f.dst).space = 0 → tileOf (entOf f.dst) f.dc.toNat ≠ [] →
    y.addr < 2 ^ 48 → firstPast (entOf f.src) (y :: rest) = none → firstPast (entOf f.dst) (tileOf (entOf f.dst) f.dc.toNat) = none →
    (entOf f.src).perm = false → s.host.up = true → (∀ e, s.entryAt n = some e → e.cls = 0) →
    Answers (exec .translationFault s) (fun t => SameMemory s.mem t.mem ∧ t.me.run = false ∧
      fieldOf t.me.csr.trap0 63 56 = 0x0A ∧ fieldOf t.me.csr.trap0 31 0 = 5 * 2 ^ 28 ∧ t.me.mflog.address = BitVec.ofNat 64 y.addr ∧
      (∃ u, t.nodeAt n = some u ∧
        (State.checkpointable v = true → u.st = .holding ∧ u.heldVa = BitVec.ofNat 64 y.addr ∧ t.me.adds = s.me.adds ∧
          (∃ g ∈ t.me.cu.flights, g.id = f.id ∧ g.blocked = true) ∧
          t.host.outbox = s.host.outbox ++ [.signal 1 (leBytes 8 n ++ leBytes 8 0x0A ++ leBytes 8 y.addr)]) ∧
        (State.checkpointable v = false → u.st = .ending .failed 0x0A ∧ ∀ g ∈ t.me.cu.flights, g.id ≠ f.id)))) ∧
 (∀ (s : State),
    (∀ w rest, (s.quadAt s.cur.n).walks = w :: rest → Answers (exec .walkComplete s) (fun t => ∃ l,
      t = s.setQuad s.cur.n { s.quadAt s.cur.n with walks := rest, cache := l } ∧ l.head? = some w ∧ l.length ≤ 2048 ∧
      ∀ y ∈ l, y = w ∨ y ∈ (s.quadAt s.cur.n).cache)) ∧
    ((s.partAt s.cur.n).busy = true → Answers (exec .partInvComplete s) (fun t => ∃ qs, t = { s with
        quads := qs
        parts := s.parts.ins s.cur.n { s.partAt s.cur.n with busy := false } } ∧
      ∀ q, t.quadAt q = { s.quadAt q with
        cache := (s.quadAt q).cache.filter (fun y => y.part.toNat ≠ s.cur.n)
        walks := (s.quadAt q).walks.filter (fun y => y.part.toNat ≠ s.cur.n) })))

/-- 02 R54, R55, R417, 17 R348, R358, R359: an XWR reads its channels, and its sample is put in the ring under the enabling it
was issued under, unless the clock is gated; an XRD under it
returns each channel's fused steps over the taps from the newest sample that is old enough; with a broken history, or an age of
four periods or more, it returns status 2 and what the policy gives: the last output, zeros, or that sample; where the ring
holds only newer samples LAST-MARKED gives zeros (the model's choice, log 52). One that is cut off returns status 2 and zeros. 02 R51, 09 R242, R243: an EGR reads its
tile; the first due packet of a port leaves with its headers and EGR's give, or is discarded, with the give, at a port
without a link. -/
def Obligations.CrossingsAndEgress : Prop :=
 (∀ (s : State) (f : Flight) (w : DArgs), s.flightHere = some f →
    let i := fieldOf f.par 5 0
    let x := s.crossingAt i
    let c := xcfgOf x.cfg
    let same : Prop := c.on = true ∧ x.enabled = f.enab
    (f.word = .xwr w → f.data ≠ [] →
      (∀ g ∈ s.me.cu.flights, g.id < f.id → fieldOf g.par 5 0 = i → ∀ u, g.word ≠ .xwr u) →
      let n := s.flightSample s.here f
      let gated := (s.regionAt (s.regionOf s.here)).gated
      (gated = true → Answers (exec .xwrApply s) (fun t => t = s)) ∧
      (gated = false → same → Answers (exec .xwrApply s) (fun t => Landed { s with
        crossings := s.crossings.ins i { x with ring := x.ring.ins (n % 64) (some { sample := n, ts := f.stamp, chans := f.data }) } } t f w s.mem)) ∧
      (gated = false → ¬ same → Answers (exec .xwrApply s) (fun t => Landed s t f w s.mem))) ∧
    (f.word = .xrd w → f.data = [] →
      let u : Int := f.stamp - c.lag * 65536
      let held (k : Int) : Option RingEntry := if k < 0 then none else
        match x.ring.get none (k.toNat % 64) with | some e => if e.sample = k then some e else none | none => none
      let out (ring : Crossing) (data : List (BitVec 32)) (t : State) : Prop := t = { s with
        crossings := s.crossings.ins i ring
        cores := s.cores.ins s.here { s.me with cu := { s.me.cu with
          flights := s.me.cu.flights.map (fun g => if g.id = f.id then { g with data := data } else g) } } }
      (¬ same → Answers (exec .xrdCompute s) (out x (2 :: 0 :: (List.range c.chans).map (fun _ => 0)))) ∧
      (same → (∀ k e, (k, some e) ∈ x.ring → e.bad = none) →
       (∀ e, (∃ k, (k, some e) ∈ x.ring) → e.ts ≤ u → (∀ k e', (k, some e') ∈ x.ring → e'.ts ≤ u → e' = e ∨ e'.sample < e.sample) →
        let age := (u - e.ts).toNat
        let p := x.period.toNat
        let phase := min (c.phases * age / p) (c.phases - 1)
        let steps (ch : Nat) : Nat × Flags := (List.range c.taps).foldl (fun (st : Nat × Flags) (j : Nat) =>
          let y := match held (e.sample - j) with | some r => (r.chans.getD ch 0).toNat | none => 0
          let r := elemFma 12 false false (x.weights.get 0 (16 * phase + j)).toNat y st.1
          (r.1, st.2 ||| r.2)) (0, 0)
        (∀ j : Nat, j < c.taps → (held (e.sample - j)).isSome = true) → age < 4 * p →
        (∀ j : Nat, j < c.taps → ∀ r, held (e.sample - j) = some r → r.bad = none) →
        Answers (exec .xrdCompute s) (fun t => ∃ last, out { x with last := last } (BitVec.ofNat 32 (if age < p then 0 else 1) ::
            (orFlags ((List.range c.chans).map (fun ch => (steps ch).2))).setWidth 32 ::
            (List.range c.chans).map (fun ch => BitVec.ofNat 32 (steps ch).1)) t ∧
          ∀ ch, last.get 0 ch = if ch < c.chans then BitVec.ofNat 32 (steps ch).1 else x.last.get 0 ch)) ∧
       (∀ e, (∃ k, (k, some e) ∈ x.ring) → e.ts ≤ u → (∀ k e', (k, some e') ∈ x.ring → e'.ts ≤ u → e' = e ∨ e'.sample < e.sample) →
        ((∃ j : Nat, j < c.taps ∧ held (e.sample - j) = none) ∨ 4 * x.period.toNat ≤ (u - e.ts).toNat) →
        (∀ j r, held j = some r → r.bad = none) →
        Answers (exec .xrdCompute s) (out x (2 :: 0 :: (List.range c.chans).map (fun ch =>
          if c.policy = 0 then x.last.get 0 ch else if c.policy = 1 then 0 else e.chans.getD ch 0)))) ∧
       ((∀ k e, (k, some e) ∈ x.ring → u < e.ts) → Answers (exec .xrdCompute s) (out x (2 :: 0 :: (List.range c.chans).map (fun ch =>
        if c.policy = 0 then x.last.get 0 ch else 0))))))) ∧
 (∀ (s : State) (f : Flight) (w : DArgs) (e : Ent), MayLand s f → Quiet s → entOf f.src = e → InSlice e →
    let value := elementIn s.mem (e.sliceOf s.here) e
    (f.word = .xwr w → f.data = [] →
      let xs := (rowOf e f.sc.toNat).take f.dc.toNat
      firstPast e xs = none → Answers (exec .dWordLand s) (fun t => ∃ m again n h, SameMemory s.mem m ∧
        (∀ g, Restarted s s.here f g (h g)) ∧ t = { s with
        mem := m
        cores := s.cores.ins s.here { s.me with cu := { s.me.cu with
          flights := (s.me.cu.flights.map (fun g => if g.id = f.id then { f with data := xs.map (fun x => BitVec.ofNat 32 (value x)) } else g)).map h
          again := again } }
        freeCtr := n })) ∧
    (f.word = .egr w →
      let p := fieldOf f.par 63 62
      let q := s.portAt p
      let mine (k : EgrPacket) : Bool := k.core.toNat = s.here && k.flight = f.id
      let xs := tileOf e f.sc.toNat
      firstPast e xs = none → (∃ k ∈ q.queue, mine k = true ∧ k.bytes = none) →
      Answers (exec .dWordLand s) (fun t => ∃ m again n, SameMemory s.mem m ∧ t = { s with
        mem := m
        ports := s.ports.ins p { q with queue := q.queue.map (fun k => if mine k then
          { k with bytes := some (leBytes (xs.length * e.esize / 8) (packElems e.esize (xs.map value))) } else k) }
        cores := s.cores.ins s.here { s.me with cu := { s.me.cu with again := again } }
        freeCtr := n }))) ∧
 (∀ (s : State) (k : EgrPacket) (f : Flight) (w : DArgs), let p := s.cur.n
    let q := s.portAt p
    let c := s.coreAt k.core.toNat
    s.dueFirst q = some k → c.cu.flights.find? (fun g => g.id = k.flight) = some f → f.word = .egr w → fieldOf f.par 63 62 = p →
    let left (discards : Nat) (t : State) (out : List Out) : Prop := LandedAt { s with
      ports := s.ports.ins p { q with queue := q.queue.filter (fun x => !(x.core = k.core && x.flight = k.flight)), discards := discards }
      host := { s.host with outbox := s.host.outbox ++ out } } t k.core.toNat f w s.mem
    (∀ bs, q.up = true → k.bytes = some bs → Answers (exec .egrDepart s) (fun t => ∃ l2, left q.discards t
        [.packet p (l2 ++ bytesOf 2 k.stream ++ [3, 0] ++ leBytes 4 k.count ++ bytesOf 8 k.frame ++ leBytes 8 s.now ++ leBytes 4 k.size ++
          leBytes 4 0 ++ bs)] ∧
      l2 = (leBytes 6 (fieldOf q.egr0 47 0)).reverse ++ (leBytes 6 (fieldOf q.egr1 47 0)).reverse ++
        (if q.egr1.getLsbD 60 then [0x81, 0x00] ++ (leBytes 2 (fieldOf q.egr1 63 61 * 2 ^ 13 + fieldOf q.egr1 59 48)).reverse else []) ++
        [0x88, 0xB5])) ∧
    (q.up = false → Answers (exec .egrDepart s) (fun t => left (q.discards + 1) t [])))

/-- 04 R128 to R131, 09 R238, 18 R377, 00 R10: an engine starts its oldest queued copy when it has fewer than eight; a copy between
slices completes with every element moved and its give; one whose source or destination lies outside the placement fails with
ACCESS: no byte outside its destination differs, and none at all where the destination lies outside the placement (the model's
reading, log 47). 04 R129, R131, 09 R239: BCAN of a queued copy, or of an unknown or finished one or one no
longer among its core's last 1,024, writes no byte: a queued copy is cancelled and
gives, any other stands, and BCAN gives. 04 R130, 18 R369: bytes, or halves of bytes, that a peer package's copy sends are
written in the slice named, with the tag they bring, and poisoned when they come so, once the package has started (log 26). -/
def Obligations.CopiesRunAndCancel : Prop :=
 (∀ (s : State) (y : Copy),
    (∀ c, c ∈ groupCores 1 s.cur.n → y ∈ (s.coreAt c).cu.copies → y.st = .queued → y.suspended = false →
      (∀ d ∈ groupCores 1 s.cur.n, ∀ z ∈ (s.coreAt d).cu.copies, z.st = .queued → z.suspended = false → y.id < z.id ∨ (z = y ∧ d = c)) →
      s.runningCopies s.cur.n < 8 → Answers (exec .copyStart s) (fun t => t = s.setCore c { s.coreAt c with cu := { (s.coreAt c).cu with
        copies := (s.coreAt c).cu.copies.map (fun z => if z.n = y.n then { z with st := .running } else z) } })) ∧
    (let a := entOf y.src
     let b := entOf y.dst
     let pairs := copyPairs a b y.sc.toNat y.dc.toNat
     let srcs := pairs.map (fun p => p.1)
     let outs := pairs.map (fun p => p.2)
     let ends (i : Instr) (st : CopySt) (Q : Memory → Prop) : Prop := Answers (exec i s) (fun t => ∃ m n d past again,
       let c := s.me.copyOver y st d past
       t = { s with mem := m, cores := s.cores.ins s.here { c with cu := { c.cu with again := again } }, freeCtr := n } ∧ Q m)
     s.copyAt s.here s.cur.n = some y → y.st = .running → y.suspended = false → Quiet s → InSlice a → InSlice b → a.esize = b.esize →
       (y.cancel = false → y.done = 0 → s.strayed s.here a = false → s.strayed s.here b = false → firstPast a srcs = none →
         firstPast b outs = none → Separate b outs →
         (∀ k ∈ elementKeys (a.sliceOf s.here) a srcs, k ∉ elementKeys (b.sliceOf s.here) b outs) →
         ends .copyComplete .done (fun m => HoldsEach s.mem m (b.sliceOf s.here) b y.frame outs
             (fun j => elementIn s.mem (a.sliceOf s.here) a (srcs.getD j { addr := 0, high := false, outside := true })))) ∧
       (s.strayed s.here b = true → ends .copyFailure (.failed 0x0B) (SameMemory s.mem)) ∧
       (s.strayed s.here a = true → s.strayed s.here b = false → ends .copyFailure (.failed 0x0B) (fun m => m.tags = s.mem.tags ∧
         ∀ k, k ∉ elementKeys (b.sliceOf s.here) b outs → m.byte k = s.mem.byte k)))) ∧
 (∀ (s : State) (f : Flight) (w : DArgs), s.flightHere = some f → f.word = .bcan w → s.slotHere ≠ .s → s.down = [] → f.applied = false →
    (s.regionAt (s.regionOf s.here)).gated = false →
    let h := fieldOf f.par 31 0
    let named (y : Copy) : Bool := y.home.toNat = h / 2 ^ 24 && y.n % 2 ^ 24 = h % 2 ^ 24
    (∀ y, s.me.cu.copies.find? named = some y → s.me.cu.copyCount < y.n + 1025 → y.st = .queued →
      Answers (exec .bcanAck s) (fun t => ∃ m past, SameMemory s.mem m ∧
        Landed (s.setCore s.here (s.me.copyOver y .cancelled y.done past)) t f w m)) ∧
    ((∀ y, s.me.cu.copies.find? named = some y → y.st ≠ .queued ∧ y.st ≠ .running ∨ y.n + 1025 ≤ s.me.cu.copyCount) →
      Answers (exec .bcanAck s) (fun t => Landed s t f w s.mem))) ∧
 (∀ (s : State) (package : BitVec 13) (core : BitVec 8) (offset : BitVec 21) (bytes : List Byte) (how : PeerHow),
    s.mem.wf = true → (s.coreAt core.toNat).csr.watch = [] → offset.toNat + bytes.length ≤ 2 ^ 21 →
    let at_ := sliceKey core.toNat offset.toNat
    let written (new old : Byte) : Byte := match how.half with
      | none => new
      | some true => new &&& 0xF0#8 ||| old &&& 0x0F#8
      | some false => new &&& 0x0F#8 ||| old &&& 0xF0#8
    (s.started = false → exec (.peerCopyWrite package core offset bytes how) s = .next s) ∧
    (s.started = true → Answers (exec (.peerCopyWrite package core offset bytes how) s) (fun t => ∃ m, t = { s with mem := m } ∧
      (∀ k, m.byte k = if h : at_ ≤ k ∧ k - at_ < bytes.length then written bytes[k - at_] (s.mem.byte k) else s.mem.byte k) ∧
      (how.poison = true → ∀ i < bytes.length, m.mark (at_ + i) = some .poisoned) ∧
      ∀ c l, l < 4096 → m.tag c l = match how.tag with
        | some x => if c = core.toNat ∧ offset.toNat / 512 ≤ l ∧ 512 * l < offset.toNat + bytes.length then x else s.mem.tag c l
        | none => s.mem.tag c l)))

/-! ## The dispatchers -/

/-- 03 R77, R82, 01 R34, 19 R394: a refill interval adds one priority token up to max; a late = 1 node whose written deadline passes before
its first dispatch is about to end DROPPED; a host's addition is made at a cycle's end, or is lost. 03 R80, R81, R84, R85: the one node that is ready, with a free run of quads, is dispatched: it takes the run and its reservation,
and its launch is to come; a die makes one decision in each 32 ns. 18 R371, log 50: a bad record in queue memory is found at
the decision, which completes its node FAILED with class MCHECK, unit 7 and the queue, without dispatch. -/
def Obligations.TokensDeadlinesAndDispatch : Prop :=
 (∀ (s : State), let n := s.cur.n
    (let v := s.partAt n
     v.refill ≠ 0 → v.refilled + v.refill.toNat * 2 ^ 16 ≤ s.clock.now → Answers (exec .partTokenRefill s) (fun t => t = { s with
       parts := s.parts.ins n { v with current := if v.current.toNat < v.max.toNat then v.current + 1 else v.current
                                       refilled := v.refilled + v.refill.toNat * 2 ^ 16 } })) ∧
    (∀ v, s.nodeAt n = some v → v.st = .waiting → v.dispatched = 0 → v.rollbacks = 0 → v.stops = 0 → recDeadline v.rcd ≠ 0 →
      recDeadline v.rcd < s.now → recLate v.rcd = true → (∀ a ∈ s.host.adds, a.node ≠ n) → Answers (exec .deadlineExpiry s) (fun t =>
        SameMemory s.mem t.mem ∧ t.host = s.host ∧ ∃ u, OnlyNode s t n u ∧ u.st = .ending .dropped 0 ∧ u.quads = [])) ∧
    (∀ a v, s.host.adds[n]? = some a → s.nodeAt a.node = some v → v.st = .running → v.quads ≠ [] → v.dispatched ≠ 0 →
      let c := (State.nodeCores v).getD a.rank 0
      let k := s.coreAt c
      let left : HostSide := { s.host with adds := s.host.adds.eraseIdx n }
      k.adds = [] →
      (k.tk a.counter + a.amount ≤ 65535 → Answers (exec .tokenAddApply s) (fun t => ∃ d, t = { s with
          host := left
          cores := s.cores.ins c d } ∧ (∃ l b, d = { k with cu := { k.cu with tk := l }, bad := b }) ∧
          ∀ r, d.tk r = if r = a.counter then k.tk r + a.amount else k.tk r)) ∧
      (65535 < k.tk a.counter + a.amount → s.host.up = true → Answers (exec .tokenAddApply s) (fun t => t = { s with
          host := { left with outbox := s.host.outbox ++ [.signal 6 (leBytes 8 a.node ++ a.payload)] } })))) ∧
 (∀ (s : State) (n : Nat) (v : Node) (r : List Nat), s.nodeAt n = some v → s.baseReady n v = true → v.cores = [] → s.freeRun n v = some r → r ≠ [] →
    runDieIs r s.cur.n → s.decidedTo s.cur.n ≤ s.decisionSlot → (n, some v) ∈ s.nodes →
    (∀ m w, (m, some w) ∈ s.nodes → (w.st = .waiting → s.orphan m w = false ∧ w.badRecord = false ∧ s.missed w = false) ∧ (m = n → w = v) ∧ (m ≠ n → s.baseReady m w = false)) →
    Answers (exec .dispatchDecision s) (fun t => OnlyNode s t n { v with
        st := .placed, quads := r, pool := v.pool || v.inQueue, inQueue := false, want := [], drained := false, placedAt := s.now } ∧
      t.cores = s.cores ∧ t.quads = s.quads ∧ t.mem = s.mem ∧ OnlyEntry s t n ∧
      (∀ e, s.entryAt n = some e → t.entryAt n = some { e with fate := .running }) ∧
      t.holds = s.holds.filter (fun e => e.2 ≠ some n))) ∧
 (∀ (s : State) (n : Nat) (v : Node), s.nodes = [(n, some v)] → v.st = .waiting → v.inQueue = true → v.badRecord = true → v.quads = [] →
    s.orphan n v = false → s.decidedTo s.cur.n ≤ s.decisionSlot → Answers (exec .dispatchDecision s) (fun t => SameMemory s.mem t.mem ∧ t.cores = s.cores ∧ OnlyEntry s t n ∧
      (∃ u, OnlyNode s t n u ∧ u.st = .ending .failed 0x0F ∧ u.quads = []) ∧
      ∀ e, s.entryAt n = some e → e.cls = 0 → ∃ d, t.entryAt n = some d ∧ d.cls = 0x0F ∧ fieldOf d.trap0 63 56 = 0x0F ∧
        fieldOf d.trap0 31 28 = 7 ∧ fieldOf d.trap0 27 16 = v.queue.toNat)) ∧
 (∀ (s : State), s.decisionSlot < s.decidedTo s.cur.n → exec .dispatchDecision s = .next s)

/-- 03 R83, R84, R105, 02 R61, 16 R418: at its launch cycle, in a region whose clock runs, a node whose sections load starts on
all its cores from the launch state; slices that another
partition used last are cleared and no other byte changes. One whose section does not load fails with its class. A node whose
loads have had their time, 20 µs after it was placed, is launched before the next cycle of its region at or after its start-at
time, by an event that the agenda then brings (log 1); an event that may not act changes nothing (log 16); and the time of its
first dispatch is that at which its first cycle begins. -/
def Obligations.NodesLaunch : Prop :=
  ∀ (s : State) (v : Node), let n := s.cur.n
    s.nodeAt n = some v → v.quads.Nodup → (∀ q ∈ v.quads, q < 64) → s.mem.wf = true →
    let cs := State.nodeCores v
    let g := s.regionAt (recRegion v.rcd)
    (∀ code, v.st = .placed → recStart v.rcd ≤ s.now → s.bound (recRegion v.rcd) = true → g.gated = false → s.loadCode v = .ok code →
      Answers (exec .launchCycle s) (fun t =>
      (∀ r c, cs[r]? = some c → Launched (t.coreAt c) n v r cs.length ∧ t.code.get {} c = code) ∧
      (∀ c, c ∉ cs → t.coreAt c = s.coreAt c ∧ t.code.get {} c = s.code.get {} c) ∧
      (∀ k, t.mem.byte k = if k < 2 ^ 29 ∧ k / 2 ^ 21 ∈ cs ∧ (∃ p, s.mem.lastPart.get none (k / 2 ^ 21) = some p ∧ p ≠ v.part) then 0 else s.mem.byte k) ∧
      (∀ q ∈ v.quads, (t.quadAt q).acc = [] ∧ (t.quadAt q).lease = none ∧ (t.quadAt q).requests = []) ∧
      OnlyNode s t n { v with st := .running, dispatched := if v.dispatched = 0 then s.now else v.dispatched
                              began := if v.dispatched = 0 then some g.cycles else none } ∧ OnlyEntry s t n)) ∧
    ((recStart v.rcd > s.now ∨ s.bound (recRegion v.rcd) = false ∨ g.gated = true) → Answers (exec .launchCycle s) (fun t => t = s)) ∧
    (∀ i f, v.st = .placed → s.loadCode v = .error (i, f) → f.cls < 256 → Answers (exec .sectionLoadFailure s) (fun t =>
      (∀ k, t.mem.byte k = s.mem.byte k) ∧ (∃ u, OnlyNode s t n u ∧ u.st = .ending .failed (BitVec.ofNat 8 f.cls)) ∧ OnlyEntry s t n ∧
      ∀ e, s.entryAt n = some e → e.cls = 0 → ∃ d, t.entryAt n = some d ∧ d.cls = BitVec.ofNat 8 f.cls ∧ fieldOf d.trap0 63 56 = f.cls ∧
        d.trap0.setWidth 32 = f.status)) ∧
    (∀ (region : BitVec 5) (rest : List Move), s.agenda = .cycle region :: rest → s.clockRuns region.toNat = true → (n, some v) ∈ s.nodes →
      v.st = .placed → recRegion v.rcd = region.toNat → recStart v.rcd ≤ s.now → v.placedAt + 20000 ≤ s.now →
      Answers (step s) (fun t => ∃ k i, t = { s with agenda := .event { n := k } i :: .cycle region :: rest } ∧
        (i = .launchCycle ∨ i = .sectionLoadFailure))) ∧
    ((n, some v) ∈ s.nodes → v.began = some g.cycles → ∃ w, (s.noteStarts (recRegion v.rcd)).nodeAt n = some w ∧ w.dispatched = s.now ∧
      w.began = none)

/-- 19 R385, R388, R389: at its stop cycle every core of the node stops and records PREEMPT with S's next word; a checkpointed node waits
for its words to land, a killed one returns to the ready set from its start, an aborted one is about to end ABORTED. -/
def Obligations.NodesStop : Prop :=
  ∀ (s : State) (v : Node) (k : StopKind), let n := s.cur.n
    s.nodeAt n = some v → v.st = .stopping k → s.atPoint v = true → v.noRequeue = false → State.lockstep v = false →
    (∀ c ∈ State.nodeCores v, (s.coreAt c).node = some n ∧ s.transition c = false ∧ ∀ o, (s.coreAt c).recorded ≠ some (s.cycleOf c, o)) →
    Answers (exec .stopCycle s) (fun t => SameMemory s.mem t.mem ∧
      (∀ c ∈ State.nodeCores v, (t.coreAt c).run = false ∧ fieldOf (t.coreAt c).csr.trap0 63 56 = 0x14 ∧
        fieldOf (t.coreAt c).csr.trap0 31 24 = (match k with | .checkpoint => 1 | .kill => 2 | .abort => 3) ∧
        (t.coreAt c).csr.trap1 = BitVec.ofNat 32 (s.coreAt c).su.index ++ BitVec.ofNat 32 (s.coreAt c).su.pc) ∧
      (∀ c, c ∉ State.nodeCores v → t.coreAt c = s.coreAt c) ∧
      ∃ w, t.nodeAt n = some w ∧ w.rcd = v.rcd ∧ match k with
        | .checkpoint => w = { v with st := .saving, points := [] }
        | .kill => w.st = .waiting ∧ w.staged = [] ∧ w.stops = v.stops + 1 ∧ w.rollbacks = v.rollbacks
        | .abort => w.st = .ending .aborted 0 ∧ w.staged = [])

/-- 19 R386, R387, 18 R376: when all has landed a stopped node's context is saved, core by core and slice by slice, and the node is
checkpointed, or held after a translation fault; at its resume cycle each core of its new placement has the context of its
rank and the slices hold the saved bytes. -/
def Obligations.ContextsAreSavedAndRestored : Prop :=
  ∀ (s : State) (v : Node), let n := s.cur.n
    let cs := State.nodeCores v
    s.nodeAt n = some v → v.quads.Nodup → s.mem.wf = true →
    ((v.st = .saving ∨ v.st = .holding) → s.landedAll v = true → s.savedLoss v = none → s.mem.marks = [] →
      (∀ e ∈ s.host.journal, ∀ j, e.2 = some j → j.kind ≠ 5) → Answers (exec .checkpointSaveEnd s) (fun t => t.mem = s.mem ∧
      ∃ w, t.nodeAt n = some w ∧ w.st = (if v.st = .saving then .checkpointed else .held) ∧ w.staged = v.staged ∧
        w.stops = (if v.st = .saving then v.stops + 1 else v.stops) ∧ w.cores.length = cs.length ∧ w.slices.length = cs.length ∧
        (∀ r c : Nat, cs[r]? = some c → ∃ (k : Core) (d : SavedSlice), w.cores[r]? = some k ∧ w.slices[r]? = some d ∧
          (∀ y, k.x y = (s.coreAt c).x y) ∧ (∀ y, k.v y = (s.coreAt c).v y) ∧ (∀ y, k.m y = (s.coreAt c).m y) ∧ (∀ y, k.tk y = (s.coreAt c).tk y) ∧
          k.su.pc = (s.coreAt c).su.pc ∧ k.csr.trapVec = (s.coreAt c).csr.trapVec ∧
          ∀ o < 2 ^ 21, s.ingestByte c o = false → getCell d.cells o = s.mem.byte (sliceKey c o)))) ∧
    (∀ code, v.st = .resuming → s.ticking v = true → s.loadCode v = .ok code → v.cores.length = cs.length → v.slices.length = cs.length →
      v.mats.length = v.quads.length → (∀ c ∈ cs, c < 256) →
      (∀ k ∈ v.cores, ∀ f ∈ k.cu.flights, f.blocked = false) → (∀ d ∈ v.slices, cellsAbove none d.cells = true ∧ ∀ e ∈ d.cells, e.1 < 2 ^ 21) →
      Answers (exec .resumeCycle s) (fun t =>
        (∀ r c : Nat, cs[r]? = some c → ∀ (k : Core) (d : SavedSlice), v.cores[r]? = some k → v.slices[r]? = some d → let u := t.coreAt c
          u.run = true ∧ u.node = some n ∧ (∀ y, u.x y = k.x y) ∧ (∀ y, u.v y = k.v y) ∧ (∀ y, u.m y = k.m y) ∧ (∀ y, u.tk y = k.tk y) ∧
          u.su.pc = k.su.pc ∧ u.csr.trapVec = k.csr.trapVec ∧ t.code.get {} c = code ∧
          ∀ o < 2 ^ 21, t.mem.byte (sliceKey c o) = if s.ingestByte c o then s.mem.byte (sliceKey c o) else getCell d.cells o) ∧
        (∀ c, c ∉ cs → t.coreAt c = s.coreAt c) ∧ (∀ k, (2 ^ 29 ≤ k ∨ k / 2 ^ 21 ∉ cs) → t.mem.byte k = s.mem.byte k) ∧
        ∃ w, t.nodeAt n = some w ∧ w.st = .running ∧ w.staged = v.staged ∧ w.cores = []))

/-- 03 R105, 01 R35: the completion record of a node that is about to end is written at its address, and the fate stands; where it cannot
be, RECORD_LOST says so. With no link down nothing but its translation can keep it from being written. The last node of a teardown brings QUEUE_DONE. -/
def Obligations.CompletionsAreRecorded : Prop :=
  ∀ (s : State),
    (∀ v f cls, let n := s.cur.n
      s.nodeAt n = some v → v.st = .ending f cls → s.mem.wf = true → (s.partAt v.part.toNat).key = none → s.mem.keys = [] →
      (s.partAt v.part.toNat).watch = [] → s.down = [] →
      let released : Prop := f = .done ∨ f = .late
      let bytes := leBytes 8 (f.status + (if f = .failed then cls.toNat else 0) * 2 ^ 8 + n % 2 ^ 32 * 2 ^ 32) ++
        leBytes 8 (if released then v.committed else 0) ++ leBytes 8 v.dispatched ++
        leBytes 8 (min v.rollbacks 65535 + min v.stops 65535 * 2 ^ 16 + (if v.alone then 1 else 0) * 2 ^ 32)
      let ends (t : State) : Prop := OnlyNode s t n { v with st := .ended f, pool := false, inQueue := false, want := [] } ∧ t.cores = s.cores ∧
        ∀ e, s.entryAt n = some e → e.kind ≠ 6 → ∃ d, t.entryAt n = some d ∧ d.fate = f ∧ d.ended = s.now
      (∀ pma key, s.dispatcherWalk v.part.toNat true (recCompletion v.rcd) = .ok (pma, key) → Answers (exec .completionRecordWrite s) (fun t => ends t ∧
        t.host.outbox = s.host.outbox ∧ ∀ k, t.mem.byte k = if h : key ≤ k ∧ k - key < bytes.length then bytes[k - key] else s.mem.byte k)) ∧
      (∀ x, s.dispatcherWalk v.part.toNat true (recCompletion v.rcd) = .error x → s.host.up = true → Answers (exec .completionRecordWrite s) (fun t =>
        ends t ∧ t.mem = s.mem ∧ t.host.outbox = s.host.outbox ++ [.signal 7 (leBytes 8 n ++
          leBytes 8 (f.status + x.cls.toNat * 2 ^ 8) ++ leBytes 8 (recCompletion v.rcd))]))) ∧
    (∀ d : Teardown, let q := s.cur.n
      (s.queueAt q).teardown = some d → (∀ m ∈ d.nodes, (s.fateOf m).isSome = true) → s.host.up = true →
      Answers (exec .teardownComplete s) (fun t => t.nodes = s.nodes ∧ t.mem = s.mem ∧
        t.queues = s.queues.ins q { s.queueAt q with teardown := none } ∧ t.host.outbox = s.host.outbox ++ [.signal 2 (leBytes 8 q ++
          ([Fate.done, .late, .dropped, .aborted, .abandoned, .failed, .withdrawn].flatMap (fun f =>
            leBytes 4 (d.nodes.filter (fun m => s.fateOf m = some f)).length)) ++ leBytes 4 0)]))

/-! ## Sources, regions and power -/

/-- 02 R41, R44, R45, 17 R348, R349, R351: a tick takes its index, and moves its regions between LOCKED, TRACKING and CEILING by their
phase errors, each the time between the tick and the start of the cycle aligned with it, and by the clock that their loops ask
for; an edge that has not come within the guard is late; 16 ticks within
the guard relock; a missing source puts its regions in HOLDOVER, a gated one at CEILING too, which then begins a frame; and one
present for 16 periods puts them in RELOCKING. That an edge may come in the guard after its cycle has begun, and the measure of
a gated region's error, are the model's (logs 45 and 14). -/
def Obligations.SourcesMoveTheirRegions : Prop :=
  ∀ (s : State),
    let enters (t : State) (r : Nat) (st : RegionSt) : Prop := (t.regionAt r).st = st ∧ (t.regionAt r).polNow = (s.regionAt r).pol ∧
      (t.regionAt r).ticksIn = 0 ∧ (t.regionAt r).frameNo = (s.regionAt r).frameNo ∧ (t.regionAt r).frameCy = (s.regionAt r).frameCy
    let onlyClocks (t : State) : Prop := t = { s with sources := t.sources, regions := t.regions, agenda := t.agenda }
    -- a tick that comes late within the guard corrects the stamps that crossing words took from its cycle, and nothing else of a core
    let onlyStamps (t : State) : Prop := t = { s with
        sources := t.sources, regions := t.regions, agenda := t.agenda, cores := t.cores, crossings := t.crossings, freeCtr := t.freeCtr } ∧
      ∀ c, t.coreAt c = { s.coreAt c with cu := { (s.coreAt c).cu with flights := (t.coreAt c).cu.flights } } ∧
        (t.coreAt c).cu.flights.map (fun f => { f with stamp := 0 }) = (s.coreAt c).cu.flights.map (fun f => { f with stamp := 0 })
    let after (t : State) (r : Nat) (within : Prop) [Decidable within] : Prop := let g := s.regionAt r
      (g.st = .locked → within → (t.regionAt r).st = .locked) ∧ (g.st = .locked → ¬ within → enters t r .tracking) ∧
      (g.st = .tracking → (t.regionAt r).st = .tracking ∧ (t.regionAt r).ticksIn = if within then g.ticksIn + 1 else 0)
    let guard (r : Nat) : Nat := srcGuard (s.sourceAt (bindSource (s.regionAt r).bind)).cfg * 65536
    (∀ (region : BitVec 5) (err ask : Nat), let r := region.toNat
      let i := bindSource (s.regionAt r).bind
      let v := s.sourceAt i
      let k := tickIndex v s.clock.now
      let at_ := if srcKind v.cfg = 1 ∨ srcKind v.cfg = 5 then k * v.period.toNat else s.clock.now
      let counts (t : State) : Prop := (t.sourceAt i).index = k ∧ (t.sourceAt i).tickAt = some s.clock.now ∧ ∀ j, j ≠ i → t.sourceAt j = s.sourceAt j
      (s.bound r = true → v.missing = true → v.tickAt ≠ some s.clock.now → Answers (exec (.sourceTick region err ask) s) (fun t =>
        counts t ∧ t = { s with sources := t.sources })) ∧
      (s.bound r = true → v.missing = false → v.tickAt = some s.clock.now → Answers (exec (.sourceTick region err ask) s) (fun t =>
        onlyStamps t ∧ (∀ j, t.sourceAt j = s.sourceAt j) ∧ t.agenda = s.agenda ∧ ∀ j, j ≠ r → t.regionAt j = s.regionAt j)) ∧
      (s.bound r = true → v.missing = false → v.tickAt ≠ some s.clock.now → Answers (exec (.sourceTick region err ask) s) (fun t =>
        onlyStamps t ∧ counts t ∧ (∀ j, j ∉ s.boundTo i → t.regionAt j = s.regionAt j) ∧
        t.agenda = ((s.boundTo i).filter (fun j => (s.regionAt j).gated && k % bindD (s.regionAt j).bind = 0)).map (fun j =>
          Move.event {} (.realignResume (BitVec.ofNat 5 j) (BitVec.ofNat 64 (k / bindD (s.regionAt j).bind)))) ++ s.agenda ∧
        ∀ j ∈ s.boundTo i, let g := s.regionAt j
          let d := bindD g.bind
          let asks := if j = r then ask else ask * bindN g.bind * bindD (s.regionAt r).bind / (d * bindN (s.regionAt r).bind)
          let hit := g.awaited.find? (fun a => a.1 = k / d && a.2.1 = k % d)
          (g.gated = true → (t.regionAt j).st = g.st ∧ (t.regionAt j).ticksIn = g.ticksIn ∧
            (j = r → (t.regionAt j).inGuard = if err ≤ srcGuard v.cfg then some s.clock.now else none)) ∧
          (g.gated = false → State.ownClock g = true → (t.regionAt j).st = g.st ∧ (t.regionAt j).ticksIn = g.ticksIn) ∧
          (g.gated = false → State.ownClock g = false →
            (hit = none → s.tickTime j (k / d) (k % d) = none → ¬ (State.maySkip g = true ∧ g.frameNo.toNat < k / d) →
              t.tickTime j (k / d) (k % d) = some at_) ∧
            (g.st = .tracking → 200000 < asks → enters t j .ceiling) ∧ (g.st = .ceiling → asks * 1000 ≤ 200000 * 999 → enters t j .tracking) ∧
            (g.st = .ceiling → 200000 * 999 < asks * 1000 → (t.regionAt j).st = .ceiling) ∧
            (hit = none → asks ≤ 200000 → (g.st = .locked ∨ g.st = .tracking) → (t.regionAt j).st = g.st ∧ (t.regionAt j).ticksIn = g.ticksIn) ∧
            ∀ a, hit = some a → asks ≤ 200000 → after t j (at_ - a.2.2 ≤ guard j) ∧
              (at_ - a.2.2 ≤ guard j → t.tickTime j (k / d) (k % d) = some at_))))) ∧
    (∀ n d c k : Nat, n ≠ 0 → (k ∈ State.ticksAtCycle n d c ↔ k < d ∧ k * n / d = c)) ∧
    (∀ r k : Nat, let g := s.regionAt r
      let v := s.sourceAt (bindSource g.bind)
      let f := g.frameNo.toNat
      let now := s.clock.now
      let come := s.tickTime r f k
      let exact_ : Prop := srcKind v.cfg = 1 ∨ srcKind v.cfg = 5
      let t := s.makeTick r k
      onlyClocks t ∧ t.sources = s.sources ∧ (∀ j, j ≠ r → t.regionAt j = s.regionAt j) ∧
      (State.ownClock g = true → t.tickTime r f k = some now ∧ (t.regionAt r).st = g.st) ∧
      (State.ownClock g = false → (∀ at_, (exact_ ∧ at_ = (f * bindD g.bind + k) * v.period.toNat ∨ ¬ exact_ ∧ come = some at_) →
          t.tickTime r f k = some at_ ∧ after t r (at_ ≤ now + guard r ∧ now ≤ at_ + guard r)) ∧
        ((srcKind v.cfg = 2 ∨ srcKind v.cfg = 3 ∨ srcKind v.cfg = 4) → come = none → t.tickTime r f k = some now ∧
          (t.regionAt r).awaited = g.awaited ++ [(f, k, now)] ∧ (t.regionAt r).st = g.st))) ∧
    (∀ r : Nat, let g := s.regionAt r
      let late (a : Nat × Nat × Nat) : Bool := a.2.2 + guard r < s.clock.now
      g.awaited.any late = true → after (s.lateTick r) r False ∧ ((s.lateTick r).regionAt r).awaited = g.awaited.filter (fun a => !late a)) ∧
    ((s.regionAt s.cur.n).st = .tracking → 16 ≤ (s.regionAt s.cur.n).ticksIn → Answers (exec .trackingRelock s) (fun t => onlyClocks t ∧
      t.sources = s.sources ∧ t.agenda = s.agenda ∧ enters t s.cur.n .locked ∧ ∀ j, j ≠ s.cur.n → t.regionAt j = s.regionAt j)) ∧
    (let i := s.cur.n
     let mine (r : Nat) : Prop := r < 32 ∧ s.bound r = true ∧ bindSource (s.regionAt r).bind = i
     ((s.sourceAt i).missing = false → s.isMissing i = true → Answers (exec .sourceMissing s) (fun t => (t.sourceAt i).missing = true ∧
       ((∀ r, (s.regionAt r).gated = false ∧ (s.regionAt r).half0.complete = true ∧ (s.regionAt r).half1.complete = true) →
         t = { s with sources := t.sources, regions := t.regions, freeCtr := t.freeCtr }) ∧
       ∀ r, let st := (s.regionAt r).st
         (mine r → (st = .locked ∨ st = .tracking ∨ st = .ceiling) → (t.regionAt r).st = .holdover ∧ (t.regionAt r).polNow = (s.regionAt r).pol ∧
           ((s.regionAt r).gated = false → enters t r .holdover ∧ (t.regionAt r).holdFrames = 0 ∧ (t.regionAt r).gated = false) ∧
           ((s.regionAt r).gated = true → fieldOf (s.regionAt r).ctl 63 48 ≠ 0 → (t.regionAt r).holdFrames = 1 ∧ (t.regionAt r).gated = false ∧
             (t.regionAt r).frameNo = (s.regionAt r).frameNo + 1 ∧ (t.regionAt r).frameCy = 0)) ∧
         (¬ mine r ∨ st = .holdover ∨ st = .frozen ∨ st = .relocking → t.regionAt r = s.regionAt r))) ∧
     (∀ at_, (s.sourceAt i).missing = true → s.isMissing i = false → (s.sourceAt i).present = some at_ →
       at_ + 16 * (s.sourceAt i).period.toNat ≤ s.clock.now → Answers (exec .sourcePresent s) (fun t => onlyClocks t ∧ (t.sourceAt i).missing = false ∧
       ∀ r, let st := (s.regionAt r).st
         (mine r → (st = .holdover ∨ st = .frozen) → enters t r .relocking) ∧
         (¬ mine r ∨ st = .locked ∨ st = .tracking ∨ st = .ceiling ∨ st = .relocking → t.regionAt r = s.regionAt r))))

/-- 02 R46, 17 R348, R351 to R355, 21 R416: at a frame's end a region begins the next frame, is gated, or in HOLDOVER counts a held
frame and after H of them enters FROZEN, where its policy may fail its nodes, at once or after flimit; a gated region resumes
at the frame boundary of its source. The model's own here: that the first frame after a bind skips none (log 51), which value SCHED_CY
keeps across a gate (log 45), and that the agenda brings the entry into FROZEN (log 1). -/
def Obligations.RegionsChangeFrames : Prop :=
  ∀ (s : State), let r := s.cur.n
    let g := s.regionAt r
    let next := g.frameNo + 1
    let ran (c : Nat) : Prop := c ∈ s.regionCores r ∧ s.injected r = false ∧ (s.coreAt c).run = true ∧ (s.coreAt c).frozen = false ∧
      (s.coreAt c).held = false ∧ (s.coreAt c).halted = false
    let gates (t : State) : Prop := (t.regionAt r).gated = true ∧ (t.regionAt r).frameNo = g.frameNo ∧ (t.regionAt r).frameCy = g.frameCy ∧
      (∀ j, j ≠ r → t.regionAt j = s.regionAt j) ∧ t.mem = s.mem ∧ t.nodes = s.nodes ∧
      ∀ c, (ran c → t.coreAt c = { s.coreAt c with csr := { (s.coreAt c).csr with schedCy := (s.coreAt c).csr.schedCy - 1 } }) ∧
        (¬ ran c → t.coreAt c = s.coreAt c)
    let opens := State.halfOf g (next.toNat % 2)
    let begins (t : State) (held : Nat) (count : BitVec 16) : Prop := ∃ h : Half, t = s.setRegion r { g with
        frameNo := next, frameCy := 0, atEnd := false, gated := false, ahead := [], holdFrames := held, heldCount := count
        half0 := if next.toNat % 2 = 0 then h else g.half0, half1 := if next.toNat % 2 = 0 then g.half1 else h } ∧
      h = if opens.complete then { frame := next, complete := false } else opens
    (s.bound r = true → g.atEnd = true → g.gated = false →
      ((g.st = .ceiling ∨ g.st = .relocking) → Answers (exec .frameBoundary s) (fun t => gates t ∧ (t.regionAt r).st = g.st)) ∧
      ((g.st = .locked ∨ g.st = .tracking ∨ g.st = .frozen) → g.realign = true → Answers (exec .frameBoundary s) (fun t => gates t ∧
        (t.regionAt r).st = .relocking)) ∧
      (g.ahead = [] → (opens.complete = true ∨ opens.frame = next) →
        ((g.st = .locked ∨ g.st = .tracking ∨ g.st = .frozen) → g.realign = false →
          Answers (exec .frameBoundary s) (fun t => begins t g.holdFrames g.heldCount)) ∧
        (g.st = .holdover → g.holdFrames < fieldOf g.ctl 63 48 → (State.halfOf g (g.frameNo.toNat % 2)).complete = true →
          Answers (exec .frameBoundary s) (fun t => begins t (g.holdFrames + 1) (satNat 16 (g.heldCount.toNat + 1))))) ∧
      (g.st = .holdover → fieldOf g.ctl 63 48 ≤ g.holdFrames → g.half0.complete = true → g.half1.complete = true →
        Answers (exec .frameBoundary s) (fun t => t = { s with agenda := .event { n := r } .frozenEntry :: s.agenda }))) ∧
    (let fails (t : State) (n : Nat) : Prop := ∃ w, t.nodeAt n = some w ∧ w.st = .ending .failed 0x10
     let runs (n : Nat) (v : Node) : Prop := (n, some v) ∈ s.nodes ∧ s.nodeAt n = some v ∧ v.st = .running ∧ recRegion v.rcd = r ∧
       v.quads ≠ [] ∧ State.lockstep v = false ∧ (s.coreAt ((State.nodeCores v).headD 0)).node = some n
     (g.st = .holdover → g.atEnd = true → fieldOf g.ctl 63 48 ≤ g.holdFrames →
       (fieldOf g.pol 1 0 ≠ 1 → fieldOf g.pol 1 0 ≠ 2 → Answers (exec .frozenEntry s) (fun t => gates t ∧ (t.regionAt r).st = .frozen ∧
         (t.regionAt r).frozenAt = s.clock.now ∧ (t.regionAt r).polNow = g.pol)) ∧
       (fieldOf g.pol 1 0 = 1 → Answers (exec .frozenEntry s) (fun t => (t.regionAt r).st = .frozen ∧ (t.regionAt r).gated = true ∧
         ∀ n v, runs n v → fails t n))) ∧
     (g.st = .frozen → fieldOf g.polNow 63 32 ≠ 0 → g.frozenAt + fieldOf g.polNow 63 32 * 1000 * 2 ^ 16 < s.clock.now →
       Answers (exec .flimitExpiry s) (fun t => t.regionAt r = g ∧ ∀ n v, runs n v → fails t n))) ∧
    (∀ (region : BitVec 5) (frame : BitVec 64), let r := region.toNat
      let g := s.regionAt r
      let v := s.sourceAt (bindSource g.bind)
      let d := bindD g.bind
      g.gated = true → (g.st = .relocking ∧ v.missing = false ∧ g.inGuard = some s.clock.now ∨ g.st = .ceiling ∨ g.st = .tracking) → v.tickAt = some s.clock.now → v.index % d = 0 →
      v.index / d = frame.toNat → (g.cycles = 0 ∨ g.frameNo.toNat < frame.toNat) → g.half0.complete = true → g.half1.complete = true →
      Answers (exec (.realignResume region frame) s) (fun t => let u := t.regionAt r
        u.st = (if g.st = .relocking then .locked else g.st) ∧ u.frameNo = frame ∧ u.frameCy = 0 ∧ u.gated = false ∧ u.atEnd = false ∧
        u.realign = false ∧ u.gap = (if g.cycles = 0 then g.gap else satNat 24 (g.gap.toNat + (frame.toNat - g.frameNo.toNat - 1))) ∧
        (∀ j, j ≠ r → t.regionAt j = s.regionAt j) ∧ t.mem = s.mem ∧ t.nodes = s.nodes))

/-- 17 R353: when the step of a scaled clock has returned to 0 the next frame boundary of its region realigns: the region is gated in RELOCKING
without beginning a frame, and LOCKED again in the cycle in which it resumes. -/
def Obligations.AScaledClockRealigns : Prop :=
  ∀ (s : State), let r := s.cur.n
    let g := s.regionAt r
    (g.power.glide = some 0 → Answers (exec .clockGlideEnd s) (fun t => (t.regionAt r).power.step = 0 ∧ (t.regionAt r).power.glide = none ∧
      (t.regionAt r).realign = true ∧ (t.regionAt r).st = g.st)) ∧
    (s.bound r = true → g.atEnd = true → g.gated = false → (g.st = .locked ∨ g.st = .tracking ∨ g.st = .frozen) → g.realign = true →
      Answers (exec .frameBoundary s) (fun t => (t.regionAt r).st = .relocking ∧ (t.regionAt r).gated = true ∧
        (t.regionAt r).frameNo = g.frameNo ∧ (t.regionAt r).frameCy = g.frameCy)) ∧
    (∀ (region : BitVec 5) (frame : BitVec 64), let r := region.toNat
      let g := s.regionAt r
      let v := s.sourceAt (bindSource g.bind)
      let d := bindD g.bind
      g.gated = true → g.st = .relocking → v.missing = false → g.inGuard = some s.clock.now → v.tickAt = some s.clock.now → v.index % d = 0 → v.index / d = frame.toNat →
      (g.cycles = 0 ∨ g.frameNo.toNat < frame.toNat) → Answers (exec (.realignResume region frame) s) (fun t =>
        (t.regionAt r).st = .locked ∧ (t.regionAt r).gated = false ∧ (t.regionAt r).realign = false ∧
        (t.regionAt r).frameNo = frame ∧ (t.regionAt r).frameCy = 0))

/-- 02 R62, R66 to R68: the package estimate is the sum of the bound regions' and the fixed rails'; a sample that exceeds a limit sets the region's predicate, and 10 µs without one clears it; after 10 µs a
stream-locked region's duty steps between 0 and 4, and a reference-locked region's clock glides a step between 0 and 8, its cycles meanwhile between the two (log 55). 17 R361, R362, 12 R310, 01 R36: the hard limit ends boosts and slows every region until 100 µs below the soft limit; power lost
to a thermal cut or from outside leaves the fuses and the always-on record; power-on begins the
boot. That device memory reads 0 after it is the model's choice (log 4), as is what else survives (log 43). -/
def Obligations.PowerAndClocks : Prop :=
 (∀ (s : State), let r := s.cur.n
    let g := s.regionAt r
    let w := g.power
    let sets (t : State) (p : RegionPower) : Prop := t = s.setRegion r { g with power := p }
    let due : Prop := w.since + 10 * 1000 * 2 ^ 16 ≤ s.clock.now ∧ w.changed + 10 * 1000 * 2 ^ 16 ≤ s.clock.now
    let stream : Prop := srcKind (s.sourceAt (bindSource g.bind)).cfg ≠ 1
    -- the cycle at a step is 16 / (16 - step) of the bound one, D periods in N
    let cycleAt (k : Nat) : Nat × Nat := (bindD g.bind * (s.sourceAt (bindSource g.bind)).period.toNat * 16, bindN g.bind * (16 - k))
    let glides (t : State) (target quick slow : Nat) : Prop := t = s.setRegion r { g with
      power := { w with glide := some target, changed := s.clock.now }
      pace := { since := s.clock.now, cycle := g.cycles, quick := cycleAt quick, slow := cycleAt slow } }
    (∀ (region : BitVec 5) (currents : Tab Nat) (est rails : Nat), let r := region.toNat
      let g := s.regionAt r
      let pkg := ((List.range 32).map (fun k => if k = r then est else if s.bound k then (s.regionAt k).power.estimate.toNat else 0)).sum + rails
      let exceeded : Prop := s.overCurrent r currents = true ∨ g.pwr ≠ 0 ∧ g.pwr.toNat < est ∨ s.power.soft.toNat < pkg
      Answers (exec (.powerSample region currents est rails) s) (fun t => ∃ p : RegionPower, t = { s with
          power := { s.power with estimate := BitVec.ofNat 32 pkg, below := if pkg < s.power.soft.toNat then s.power.below else s.clock.now }
          regions := s.regions.ins r { g with power := p } } ∧
        (exceeded → p = { g.power with estimate := BitVec.ofNat 32 est, predicate := true, lastSet := s.clock.now
                                       since := if g.power.predicate then g.power.since else s.clock.now }) ∧
        (¬ exceeded → p = { g.power with estimate := BitVec.ofNat 32 est }))) ∧
    (w.predicate = true → w.lastSet + 10 * 1000 * 2 ^ 16 ≤ s.clock.now →
      Answers (exec .powerPredicateClear s) (fun t => sets t { w with predicate := false, since := s.clock.now })) ∧
    (s.bound r = true → due →
      (stream → w.predicate = true → w.duty < 4 → Answers (exec .freezeDutyStep s) (fun t => sets t { w with duty := w.duty + 1, changed := s.clock.now })) ∧
      (stream → w.predicate = false → w.duty ≠ 0 → s.power.exceeded = false →
        Answers (exec .freezeDutyStep s) (fun t => sets t { w with duty := w.duty - 1, changed := s.clock.now })) ∧
      (¬ stream → w.glide = none → w.predicate = true → w.step < 8 →
        Answers (exec .clockStep s) (fun t => glides t (w.step + 1) w.step (w.step + 1))) ∧
      (¬ stream → w.glide = none → w.predicate = false → w.step ≠ 0 → s.power.exceeded = false →
        Answers (exec .clockStep s) (fun t => glides t (w.step - 1) (w.step - 1) w.step))) ∧
    (∀ k, w.glide = some k → Answers (exec .clockGlideEnd s) (fun t => (t.regionAt r).power = { w with step := k, glide := none } ∧
      (t.regionAt r).pace = { since := s.clock.now, cycle := g.cycles, quick := cycleAt k, slow := cycleAt k } ∧
      (t.regionAt r).realign = (if k = 0 then true else g.realign) ∧ (∀ j, j ≠ r → t.regionAt j = s.regionAt j) ∧ t.mem = s.mem ∧ t.nodes = s.nodes))) ∧
 (∀ (s : State),
    let off (t : State) : Prop := t.powered = false ∧ (∀ k, t.mem.byte k = if k < hostBase then 0 else s.mem.byte k) ∧ t.mem.tags = [] ∧
      t.host.outbox = s.host.outbox ∧ t.cores = [] ∧ t.nodes = [] ∧ t.regions = [] ∧ t.quads = [] ∧ t.island.boot = 0 ∧
      t.island.slots = [] ∧ t.island.burned0 = s.island.burned0 ∧ t.island.burned1 = s.island.burned1 ∧ t.host.journal = []
    (∀ estimate, s.power.hard.toNat < estimate → s.power.exceeded = false → s.host.up = true → Answers (exec (.hardLimitExceeded estimate) s) (fun t =>
      t.power = { s.power with exceeded := true, below := s.clock.now } ∧ (∀ q < 64, (t.quadAt q).boost = none) ∧ t.cores = s.cores ∧ t.mem = s.mem ∧
      t.host.outbox = s.host.outbox ++ [.signal 4 (leBytes 8 s.now)] ∧ ∀ r < 32, s.bound r = true →
        (srcKind (s.sourceAt (bindSource (s.regionAt r).bind)).cfg ≠ 1 → (t.regionAt r).power.duty = 4) ∧
        (srcKind (s.sourceAt (bindSource (s.regionAt r).bind)).cfg = 1 → (t.regionAt r).power.glide = some 8 ∨
          (t.regionAt r).power.step = 8 ∧ (t.regionAt r).power.glide = none))) ∧
    (∀ estimate, s.power.exceeded = true → estimate < s.power.soft.toNat → s.power.below + 100 * 1000 * 2 ^ 16 ≤ s.clock.now →
      Answers (exec (.hardLimitRecovery estimate) s) (fun t => t = { s with power := { s.power with exceeded := false } })) ∧
    (∀ reason sensor, s.powered = true → Answers (exec (.thermalCut reason sensor) s) (fun t => off t ∧ t.power.reason = reason ∧
      t.power.sensor = sensor ∧ t.power.count = satNat 16 (s.power.count.toNat + 1) ∧ t.power.thermTime = BitVec.ofNat 64 s.now)) ∧
    (s.powered = true → Answers (exec .packagePowerLoss s) (fun t => off t ∧ t.power.reason = s.power.reason ∧ t.power.count = s.power.count)) ∧
    (s.powered = false → s.power.reason ≠ 4 → Answers (exec .packagePowerOn s) (fun t => t = { s with powered := true })))

/-- 02 R49 to R51, 17 R349, R351, 01 R35: the half of the frame before completes, by the arrival guard at the latest, and the current one when all
its slots have arrived or nothing comes any more (log 51); the item of a sample packet fills its slot of the half that is open for its frame; a half that
completes zeroes its empty slots, then holds the status block, with the tag on each of its lines; a frame of another type is
counted; a port's link fails and comes back. 02 R57, R58: a 1588 message that is not for the unit changes
nothing, but that one on a fabric port is passed on; one of the unit's domain on a port that TIME_CFG enables: an Announce decides who is master on that port; the offset that Sync and the delay messages
give locks the unit when every offset of 16 sync intervals has been within 10 ns, and a lagging clock that has locked runs on by no more
than the offset (log 14); a Management message is only counted; what the unit's role sends leaves on an enabled port. -/
def Obligations.PortsIngestAndTime : Prop :=
 (∀ (s : State),
    (let r := s.cur.n
     let g := s.regionAt r
     let c := ingestOf g.ingestCfg
     let no := g.frameNo.toNat
     let half (h : Nat) : Half := State.halfOf g h
     let full : Prop := (half (no % 2)).got.length = c.count ∧ srcKind (s.sourceAt (bindSource g.bind)).cfg = 4
     let old : Prop := (half ((no + 1) % 2)).complete = false ∧ (half ((no + 1) % 2)).frame.toNat < no
     let current : Prop := (half (no % 2)).complete = false ∧ (half (no % 2)).frame.toNat = no ∧ (full ∨ g.st = .holdover)
     ((s.bound r = false ∨ ¬ old ∧ ¬ current) → Answers (exec .ingestHalfComplete s) (fun t => t = s)) ∧
     (fieldOf g.ctl 31 0 ≤ g.frameCy → old → (State.halfOf ((s.halfDue r).regionAt r) ((no + 1) % 2)).complete = true) ∧
     (∀ h, s.bound r = true → (old ∧ h = (no + 1) % 2 ∨ ¬ old ∧ current ∧ h = no % 2) → c.on = true → c.slot ≠ 0 → s.mem.wf = true →
       (s.coreAt c.core).csr.watch = [] → c.half h + c.hsize ≤ 2 ^ 21 →
       let v := half h
       let at_ (o : Nat) : Nat := sliceKey c.core (c.half h + o)
       let block := leBytes 8 v.frame.toNat ++ leBytes 4 v.filled ++ leBytes 4 v.discarded ++ leBytes 4 v.truncated ++ leBytes 44 0
       Answers (exec .ingestHalfComplete s) (fun t => ∃ m n, t = { s with
         mem := m
         regions := s.regions.ins r (State.setHalf g h { v with complete := true })
         freeCtr := n } ∧
       (∀ k < c.count, ∀ i < c.slot, m.byte (at_ (k * c.slot + i)) = if k ∈ v.got then s.mem.byte (at_ (k * c.slot + i)) else 0) ∧
       (∀ i (hi : i < block.length), m.byte (at_ (c.count * c.slot + i)) = block[i]) ∧
       (∀ k, (k < at_ 0 ∨ at_ (c.count * c.slot + 64) ≤ k) → m.byte k = s.mem.byte k) ∧
       ∀ a l, l < 4096 → m.tag a l = if a = c.core ∧ c.half h / 512 ≤ l ∧ l < (c.half h + c.hsize) / 512 then v.frame.setWidth 8 else s.mem.tag a l))) ∧
    (∀ (port : BitVec 2) (x : RxFrame), (s.portAt port.toNat).up = true →
      let p := port.toNat
      let bs := x.payload
      let field (o n : Nat) : Nat := leNat ((bs.drop o).take n)
      let takes (i : Nat) : Prop := let v := s.sourceAt i
        srcKind v.cfg = 4 ∧ srcPort v.cfg = p ∧ srcStream v.cfg = field 0 2
      (x.ethertype ≠ 0x88B5#16 → x.ethertype ≠ 0x88F7#16 → Answers (exec (.streamPacketReceive port x) s) (fun t => t = { s with
        ports := s.ports.ins p { s.portAt p with other := (s.portAt p).other + 1 } })) ∧
      (∀ i r, x.ethertype = 0x88B5#16 → field 2 1 = 1 → field 4 4 = 1 → bs.length = 32 + field 24 4 → i < 32 → takes i →
        (∀ j < 32, takes j → j = i) → s.boundTo i = [r] →
        let g := s.regionAt r
        let c := ingestOf g.ingestCfg
        let d := bindD g.bind
        let f := field 8 8 / d
        let k := field 8 8 % d
        let now := State.halfOf g (f % 2)
        let v : Half := if now.complete then { frame := BitVec.ofNat 64 f, complete := false } else now
        let at_ (o : Nat) : Nat := sliceKey c.core (c.half (f % 2) + k * c.slot + o)
        -- nothing of a frame that a realignment may skip, or has skipped, is written
        (((g.frameNo.toNat < f ∧ State.maySkip g = true) ∨ (g.skipFrom ≤ f ∧ f < g.skipTo)) → Answers (exec (.streamPacketReceive port x) s)
          (fun t => t = { s with sources := t.sources })) ∧
        (c.on = true → (now.complete = false ∧ now.frame.toNat = f ∨ now.complete = true ∧ now.frame.toNat < f) →
        (f ≤ g.frameNo.toNat ∨ f = g.frameNo.toNat + 1 ∧ State.maySkip g = false) →
        (f < g.skipFrom ∨ g.skipTo ≤ f) → k < c.count → k ∉ v.got → s.mem.wf = true →
        c.half (f % 2) + c.hsize ≤ 2 ^ 21 → (s.coreAt c.core).csr.watch = [] → Answers (exec (.streamPacketReceive port x) s) (fun t => ∃ m u n, t = { s with
            mem := m
            sources := s.sources.ins i u
            regions := s.regions.ins r (State.setHalf g (f % 2) { v with
              got := v.got ++ [k], filled := v.filled + 1, truncated := v.truncated + (if c.slot < field 24 4 then 1 else 0) })
            freeCtr := n } ∧
          u.refIndex = field 8 8 ∧ u.refStamp = field 16 8 * 2 ^ 16 ∧ u.last = some s.clock.now ∧
          (∀ o < c.slot, m.byte (at_ o) = bs.getD (32 + o) 0) ∧ ∀ y, (y < at_ 0 ∨ at_ c.slot ≤ y) → m.byte y = s.mem.byte y)))) ∧
    (let p := s.cur.n
     ((s.portAt p).up = true → s.host.up = true → Answers (exec .streamPortLinkLoss s) (fun t =>
        t.portAt p = { s.portAt p with up := false, queue := [], discards := (s.portAt p).discards + (s.portAt p).queue.length } ∧
        ((∀ r, (s.regionAt r).gated = false ∧ (s.regionAt r).half0.complete = true ∧ (s.regionAt r).half1.complete = true) → t.mem = s.mem ∧ t.nodes = s.nodes ∧
          t.host.outbox = s.host.outbox ++ [.signal 5 (leBytes 8 (3 + p * 2 ^ 8))]) ∧
        (∀ k ∈ (s.portAt p).queue, ∀ g ∈ (t.coreAt k.core.toNat).cu.flights, g.id ≠ k.flight) ∧
        ∀ i < 32, let v := s.sourceAt i
          (srcKind v.cfg = 4 ∨ srcKind v.cfg = 5) → srcPort v.cfg = p → (t.sourceAt i).missing = true)) ∧
     ((s.portAt p).up = false → p < 4 → Answers (exec .streamPortLinkUp s) (fun t => t = { s with ports := t.ports, sources := t.sources } ∧
        t.portAt p = { s.portAt p with up := true } ∧ (∀ j, j ≠ p → t.portAt j = s.portAt j) ∧ ∀ i < 32, let v := s.sourceAt i
          t.sourceAt i = if srcKind v.cfg = 5 ∧ srcPort v.cfg = p ∧ v.missing = true then { v with present := some s.clock.now } else v)))) ∧
 (∀ (s : State),
    (∀ (kind : PtpKind) (domain : BitVec 8) (port : BitVec 5) (offset : BitVec 32) (best : Bool), let c := s.clock
      let gets (P : State → Prop) : Prop := Answers (exec (.ptpMessageReceive kind domain port offset best) s) P
      let near : Bool := -10 ≤ offset.toInt && offset.toInt ≤ 10
      let p := port.toNat
      let master := c.masters.getLsbD p
      let measures (settled : Nat) : Prop := gets (fun t => ∃ (step : Nat) (locked : Bool), locked = (near && 16 ≤ settled) ∧ t = { s with
          freeCtr := s.freeCtr + 1
          agenda := if step = 0 then s.agenda else .time step :: s.agenda
          clock := { c with offset := offset, settled := settled, locked := locked, disciplined := c.disciplined || locked } } ∧
        (step : Int) ≤ max 0 (-offset.toInt) * 65536 ∧ (c.disciplined = false → step = 0))
      let heard : Bool := 3 ≤ s.island.boot && bitOf (timePorts c.cfg) p && domain.toNat = timeDomain c.cfg
      -- a frame for others that comes on a fabric port is passed on, its time here in its correction field
      (heard = false → (s.island.boot < 3 ∨ p < 4 ∨ 28 ≤ p → gets (fun t => t = s)) ∧
        (3 ≤ s.island.boot → 4 ≤ p → p < 28 → gets (fun t => ∃ residence, t = { s with
          freeCtr := s.freeCtr + 1
          host := { s.host with outbox := s.host.outbox ++ [.ptpForward kind domain p residence] } }))) ∧
      (heard = true →
      (kind = .management → gets (fun t => t = { s with clock := { c with discarded := c.discarded + 1 } })) ∧
      (kind = .announce → gets (fun t => t = { s with clock := { c with masters := t.clock.masters } } ∧
        ∀ j, t.clock.masters.getLsbD j = if j = p then decide (timeRole c.cfg ≠ 0) && best else c.masters.getLsbD j)) ∧
      (master = false → (kind = .sync → measures (if near then c.settled + 1 else 0)) ∧
        ((kind = .followUp ∨ kind = .delayResp ∨ kind = .pdelayResp ∨ kind = .pdelayRespFollowUp) → measures (if near then c.settled else 0))) ∧
      ((master = true ∧ kind ≠ .management ∧ kind ≠ .announce ∨ kind = .delayReq ∨ kind = .pdelayReq ∨ kind = .signaling) → gets (fun t => t = s)))) ∧
    (∀ (kind : PtpKind) (port : BitVec 5), let v := s.clock.cfg
      let p := port.toNat
      let capable : Prop := timeRole v ≠ 0
      let master : Prop := capable ∧ s.clock.masters.getLsbD p = true
      3 ≤ s.island.boot → bitOf (timePorts v) p = true →
      (kind = .sync ∧ master ∨ kind = .announce ∧ capable ∨ kind = .followUp ∧ master ∧ v.getLsbD 11 = true ∨
        kind = .delayReq ∧ v.getLsbD 12 = false ∧ ¬ master ∨
        kind = .delayResp ∧ master ∧ v.getLsbD 12 = false ∨ (kind = .pdelayReq ∨ kind = .pdelayResp) ∧ v.getLsbD 12 = true ∨
        kind = .pdelayRespFollowUp ∧ v.getLsbD 12 = true ∧ v.getLsbD 11 = true ∨ kind = .signaling) →
      Answers (exec (.ptpMessageTransmit kind port) s) (fun t => t = { s with
          clock := { s.clock with masters := t.clock.masters }
          host := { s.host with outbox := s.host.outbox ++ [.ptp kind p (v.getLsbD 11)] } } ∧
        ∀ j, t.clock.masters.getLsbD j = if kind = .announce ∧ j = p then true else s.clock.masters.getLsbD j)))

/-! ## The host's messages -/

/-- 03 R74, R76, 01 R33, 19 R398, R404: an accepted LAUNCH is journaled under the next number, which its REPLY carries, and waits in its
queue with its deadline; a primary forwards a lockstep record. 03 R74, 01 R33: a LAUNCH in the order of the reasons: a closed queue refuses it with 2, a full one with 1, and a refused
message is counted and changes nothing else. -/
def Obligations.Launches : Prop :=
 (∀ (s : State) (m : HostMsg), let q := m.arg.toNat
    let r := recordOf m.payload
    let n := s.host.head
    let due := if recDeadline r = 0 then s.now + (s.queueAt q).slack.toNat * 1000 else recDeadline r
    m.payload.length = 128 → q < 64 → s.island.boot = 5 → s.lifecycle ≠ 4 → s.queueOpen q = true → s.queueUse q < (s.queueAt q).capacity.toNat →
    s.recordReason r = 0 → s.journalFull = false →
    Answers (exec (.launch m) s) (fun t => ∃ (h : HostSide) (out : List Out), t = { s with
        host := { h with outbox := h.outbox ++ out }
        nodes := s.nodes.ins n (some { rcd := r, queue := BitVec.ofNat 6 q, part := (s.queueAt q).part, deadline := due }) } ∧
      h = s.journaled m { kind := 1, queue := BitVec.ofNat 6 q, completion := BitVec.ofNat 64 (recCompletion r), deadline := due } (leBytes 8 n) ∧
      out = if bitOf (recD r 8) 4 then [.pairLaunch n (BitVec.ofNat 6 q) m.payload] else [])) ∧
 (∀ (s : State) (m : HostMsg), let q := m.arg.toNat
    let refuses (k : Nat) : Prop := Answers (exec (.launch m) s) (fun t => t = { s with
      host := { s.host with refusals := s.host.refusals + 1, outbox := s.host.outbox ++ [.reply m.tag k []] } })
    (m.payload.length ≠ 128 ∨ 64 ≤ q → refuses 0x21) ∧
    (m.payload.length = 128 → q < 64 → (s.island.boot ≠ 5 ∨ s.lifecycle = 4 → refuses 0x23) ∧
      (s.island.boot = 5 → s.lifecycle ≠ 4 → (s.queueOpen q = false → refuses 2) ∧
        (s.queueOpen q = true → (s.queueAt q).capacity.toNat ≤ s.queueUse q → refuses 1) ∧
        (s.queueOpen q = true → s.queueUse q < (s.queueAt q).capacity.toNat → s.recordReason (recordOf m.payload) ≠ 0 →
          refuses (s.recordReason (recordOf m.payload))))))

/-- 19 R396, 18 R376, 01 R34: QUEUE_CTL closes its queue; DRAIN ends what was never dispatched ABORTED and leaves the rest, ABORT
stops what runs; NODE_RESUME returns a held node to the ready set and NODE_ABORT ends it; TOKEN_ADD is made at a cycle's end. -/
def Obligations.HostMessagesSteerNodes : Prop :=
  ∀ (s : State) (m : HostMsg),
    (let q := m.arg.toNat % 64
     let op := queueOp m
     m.payload = [] → bitsOf m.arg.toNat 7 6 = 0 → m.arg.toNat < 1024 → (s.queueAt q).teardown = none → (s.queueAt q).isOpen = true →
       s.journalFull = false → (s.nodes.map (fun e => e.1)).Nodup → s.host.adds = [] →
       let ends (t : State) (drain : Bool) : Prop := t.host.head = s.host.head + 1 ∧
         t.host.outbox = s.host.outbox ++ [.reply m.tag 0 (leBytes 8 s.host.head)] ∧
         (t.queueAt q).isOpen = false ∧ (∃ d, (t.queueAt q).teardown = some d ∧ d.seq = s.host.head ∧ d.abort = !drain) ∧ SameMemory s.mem t.mem ∧
         ∀ n v, (n, some v) ∈ s.nodes → v.queue.toNat = q → v.parent = none →
           (v.st = .waiting → v.dispatched = 0 → v.rollbacks = 0 → v.stops = 0 → ∃ w, t.nodeAt n = some w ∧ w.st = .ending .aborted 0) ∧
           (v.st = .running → ∃ w, t.nodeAt n = some w ∧ w.staged = v.staged ∧ (drain = true → w.st = .running) ∧
             (drain = false → w.st = .stopping .abort ∧ w.noRequeue = true))
       (op = 1 → Answers (exec (.queueCtlDrain m) s) (fun t => ends t true)) ∧ (op = 2 → Answers (exec (.queueCtlAbort m) s) (fun t => ends t false))) ∧
    (∀ v, let n := m.arg.toNat
      m.payload = [] → s.nodeAt n = some v → v.st = .held → s.journalFull = false → (∀ a ∈ s.host.adds, a.node ≠ n) →
      Answers (exec (.nodeResume m) s) (fun t => t.nodes = s.nodes.ins n (some { v with st := .checkpointed }) ∧ t.mem = s.mem ∧ t.cores = s.cores ∧
        t.host.outbox = s.host.outbox ++ [.reply m.tag 0 (leBytes 8 s.host.head)]) ∧
      Answers (exec (.nodeAbort m) s) (fun t => (∃ w, t.nodeAt n = some w ∧ w.st = .ending .aborted 0 ∧ w.staged = []) ∧ SameMemory s.mem t.mem ∧
        t.host.outbox = s.host.outbox ++ [.reply m.tag 0 (leBytes 8 s.host.head)])) ∧
    (∀ w, let n := m.arg.toNat
      let v := leNat m.payload
      m.payload.length = 8 → bitsOf v 31 21 = 0 → bitsOf v 63 48 = 0 → bitsOf v 47 32 ≠ 0 → s.nodeAt n = some w → w.st = .running → w.quads ≠ [] →
      w.dispatched ≠ 0 → bitsOf v 15 0 < 4 * w.quads.length → Answers (exec (.tokenAdd m) s) (fun t => t = { s with
        host := { s.replied m [] with adds := s.host.adds ++ [{ node := n, rank := bitsOf v 15 0, counter := BitVec.ofNat 5 (bitsOf v 20 16)
                                                                amount := bitsOf v 47 32, payload := m.payload }] } }))

/-- 01 R33, R38, 02 R42 to R48, R53, 17 R355: writes of the registers of sources, regions and crossings take their fields and do what
each register's rule says, and nothing else changes. The model's own here: what a refused bind and an unbind keep (log 34), that INGEST_CFG
is checked at its write (log 35), and that a bound region waits gated for its first source frame (log 51). -/
def Obligations.ClockRegisterWrites : Prop :=
  ∀ (s : State) (m : HostMsg) (v : Dword),
    let sets (i : Instr) (t' : State) : Prop := Answers (exec i s) (fun t => t = { t' with host := s.replied m [] })
    (∀ i < 32, s.boundTo i = [] → (RegWrite m (0x10000 + 32 * i) v →
        let k := fieldOf v 63 60
        let taken : Bool := (List.range 32).any (fun j => j ≠ i && srcKind (s.sourceAt j).cfg = k)
        let kept := if 5 < k ∨ (k = 1 ∧ i ≠ 0) ∨ (k ≠ 1 ∧ i = 0) ∨ (k = 2 ∨ k = 3) ∧ taken = true then 0 else k
        ∃ cfg, sets (.sourceCfgWrite m) { s with sources := s.sources.ins i { cfg := cfg, period := (s.sourceAt i).period, last := some s.clock.now } } ∧
          fieldOf cfg 63 60 = kept ∧ fieldOf cfg 59 24 = fieldOf v 59 24 ∧ fieldOf cfg 23 0 = 0) ∧
      (RegWrite m (0x10000 + 32 * i + 8) v → sets (.sourcePeriodWrite m) { s with sources := s.sources.ins i { s.sourceAt i with period := v } })) ∧
    (∀ r < 32, let g := s.regionAt r
      (RegWrite m (0x20000 + 64 * r) v → v.getLsbD 14 = true → g.st = .unbound →
        let src := s.sourceAt (fieldOf v 19 15)
        let n := fieldOf v 63 32
        let d := fieldOf v 31 20 + 1
        (src.period ≠ 0 → 200000000 * d * src.period.toNat ≤ n * 65536 * 1000000000 → n * 65536 * 1000000000 ≤ 2000000000 * d * src.period.toNat →
          srcKind src.cfg ≠ 0 → g.quads ≠ 0 → fieldOf g.ctl 31 0 ≤ n → g.ingestCfg = 0 →
          (∀ k < 32, k ≠ r → s.bound k = true → (s.regionAt k).quads &&& g.quads = 0) →
          sets (.regionBind m) (s.setRegion r { bind := v &&& 0xFFFFFFFFFFFFC000#64, ctl := g.ctl, quads := g.quads, pwr := g.pwr, pol := g.pol
                                                polNow := g.pol, st := .relocking, gated := true })) ∧
        (g.quads = 0 ∨ srcKind src.cfg = 0 ∨ n < fieldOf g.ctl 31 0 → sets (.regionBind m) (s.setRegion r { g with bind := g.bind ||| 0x2000#64 }))) ∧
      (RegWrite m (0x20000 + 64 * r) v → g.st ≠ .unbound → (∀ n w, (n, some w) ∈ s.nodes → State.holdsQuads w = true → recRegion w.rcd ≠ r) →
        sets (.regionUnbind m) (s.setRegion r { g with
          bind := g.bind &&& 0xFFFFFFFFFFFFBFFF#64, st := .unbound, gated := false, atEnd := false, realign := false })) ∧
      (RegWrite m (0x20000 + 64 * r + 16) v → g.st = .unbound → sets (.regionQuadsWrite m) (s.setRegion r { g with quads := v })) ∧
      (RegWrite m (0x20000 + 64 * r + 24) v → ∃ kept a b, sets (.ingestCfgWrite m) (s.setRegion r { g with
          ingestCfg := kept, half0 := a, half1 := b }) ∧ (v.getLsbD 0 = false → kept = v &&& 0xFFFFFFFFFFFF0000#64) ∧
          (let i := ingestOf v
           v.getLsbD 0 = true → s.bound r = true → srcKind (s.sourceAt (fieldOf g.bind 19 15)).cfg = 4 → i.count = fieldOf g.bind 31 20 + 1 →
             g.quads.getLsbD (i.core / 4) = true → 4 ≤ i.slot → i.slot % 4 = 0 → i.base + 2 * i.hsize ≤ 2 ^ 21 → kept = v &&& 0xFFFFFFFFFFFF0001#64) ∧ ∀ k < 2,
          (k = g.frameNo.toNat % 2 → (if k = 0 then a else b) = { frame := g.frameNo, complete := false }) ∧
          (k ≠ g.frameNo.toNat % 2 → (if k = 0 then a else b) = { frame := g.frameNo - 1 })) ∧
      (RegWrite m (0x20000 + 64 * r + 48) v → sets (.regionPolWrite m) (s.setRegion r { g with pol := v &&& 0xFFFFFFFF00000003#64 }))) ∧
    (∀ c < 64, let x := s.crossingAt c
      (RegWrite m (0x30000 + 64 * c) v → fieldOf v 30 29 ≠ 3 → fieldOf v 28 26 ≠ 7 → x.period ≠ 0 →
        (v.getLsbD 31 = true → x.cfg.getLsbD 31 = false → sets (.xcfgEnable m) { s with crossings := s.crossings.ins c { x with
          cfg := v &&& 0xFFFFFFFFFFFFFF80#64, ring := [], last := [], enabled := x.enabled + 1 } }) ∧
        (v.getLsbD 31 = false → sets (.xcfgDisable m) { s with crossings := s.crossings.ins c { x with cfg := v &&& 0xFFFFFFFFFFFFFF80#64 } })) ∧
      (RegWrite m (0x30000 + 64 * c + 8) v → x.cfg.getLsbD 31 = false →
        sets (.xperiodWrite m) { s with crossings := s.crossings.ins c { x with period := v } }) ∧
      (∀ i < 512, RegWrite m (0x100000 + 4096 * c + 8 * i) v → x.cfg.getLsbD 31 = false → ∃ w,
        sets (.xperiodWrite m) { s with crossings := s.crossings.ins c { x with weights := w } } ∧
        ∀ j, w.get 0 j = if j = 2 * i then v.setWidth 32 else if j = 2 * i + 1 then v.extractLsb' 32 32 else x.weights.get 0 j))

/-- 02 R58, 03 R75, R77, 04 R122, R124, 09 R243, 18 R362, R378, 19 R397, R403, R404, 20 R408: the same for time, ports, queues, partitions,
stacks, the pair, the journal and error injection. -/
def Obligations.DeviceRegisterWrites : Prop :=
  ∀ (s : State) (m : HostMsg) (v : Dword),
    let sets (i : Instr) (t' : State) : Prop := Answers (exec i s) (fun t => t = { t' with host := { t'.host with outbox := (s.replied m []).outbox } })
    (RegWrite m 0x50000 v → timePorts s.clock.cfg = 0 → sets (.timeCfgWrite m) { s with clock := { s.clock with cfg := v &&& 0x00000FFFFFFF1EFF#64, masters := 0 } }) ∧
    (RegWrite m 0x60300 v → sets (.thermReasonWrite m) { s with power := { s.power with reason := 0, sensor := 0 } }) ∧
    (∀ p < 4, (s.portAt p).queue = [] →
      (RegWrite m (0x90000 + 16 * p) v → sets (.portEgrWrite m) { s with ports := s.ports.ins p { s.portAt p with egr0 := v &&& 0x0000FFFFFFFFFFFF#64 } }) ∧
      (RegWrite m (0x90000 + 16 * p + 8) v → sets (.portEgrWrite m) { s with ports := s.ports.ins p { s.portAt p with egr1 := v } })) ∧
    (∀ q < 64, let w := s.queueAt q
      RegWrite m (0x70000 + 8 * q) v → w.isOpen = false → w.teardown = none → s.openNodes (fun n => n.queue.toNat = q) = [] →
        let others := ((List.range 64).map (fun k => if k = q then 0 else (s.queueAt k).capacity.toNat)).sum
        sets (.queueCfgWrite m) { s with queues := s.queues.ins q { w with
          slack := v.extractLsb' 32 32, part := v.extractLsb' 28 4, isOpen := v.getLsbD 0
          capacity := if others + fieldOf v 13 1 ≤ 4096 then v.extractLsb' 1 13 else w.capacity } }) ∧
    (∀ p < 16, let w := s.partAt p
      let puts (i : Instr) (x : Part) : Prop := sets i { s with parts := s.parts.ins p x }
      (RegWrite m (0x70200 + 8 * p) v → puts (.partTokensWrite m) { w with
        refill := v.extractLsb' 32 32, max := v.extractLsb' 16 16, refilled := s.clock.now
        current := BitVec.ofNat 16 (min (fieldOf v 15 0) (fieldOf v 31 16)) }) ∧
      (RegWrite m (0x80000 + 32 * p) v → s.partRuns p = false → puts (.partPtbrWrite m) { w with ptbr := v &&& 0x0000FFFFFFFFF001#64 }) ∧
      (RegWrite m (0x80000 + 32 * p + 8) v → s.partRuns p = false → fieldOf v 20 0 ≠ 0 → fieldOf v 52 32 + fieldOf v 20 0 ≤ 1638400 → fieldOf v 63 56 ≠ 0 →
        (∀ k < 8, v.getLsbD (56 + k) = true → (s.stackAt k).retired ≠ BitVec.allOnes 160) →
        puts (.partIlvWrite m) { w with ilv := v &&& 0xFF1FFFFF001FFFFF#64 }) ∧
      (RegWrite m (0x80000 + 32 * p + 16) v → puts (.partInv m) { w with busy := true })) ∧
    (∀ k < 8, ∀ i < 3, RegWrite m (0xB0000 + 32 * k + 8 * i) v → (∀ p < 16, (s.partAt p).ilv.getLsbD (56 + k) = true → s.partBusy p = false) → ∃ r,
      sets (.chanRetiredWrite m) { s with hbm := s.hbm.ins k { s.stackAt k with retired := r } } ∧
      ∀ c < 160, r.getLsbD c = if c / 64 = i then v.getLsbD (c % 64) else (s.stackAt k).retired.getLsbD c) ∧
    (RegWrite m 0x70408 v → s.openNodes State.lockstep = [] → sets (.pairCfgWrite m) { s with pair := { s.pair with cfg := v.setWidth 3 } }) ∧
    (RegWrite m 0xC0000 v → s.host.head = 1 → (∃ k, 12 ≤ k ∧ k ≤ 24 ∧ v.toNat % 2 ^ 32 = 2 ^ k) →
      sets (.jrnlCfgWrite m) { s with host := { s.host with jrnlCfg := v.setWidth 32 } }) ∧
    (RegWrite m 0xC0018 v → sets (.jrnlSelWrite m) { s with host := { s.host with sel := v, data := match s.entryAt v.toNat with
      | some e => if v.toNat + s.jrnlCap < s.host.head then [] else State.entryDwords v.toNat e
      | none => [] } }) ∧
    (∀ q < 64, RegWrite m (0xD0000 + 16 * q) v → s.lifecycle ≠ 4 → sets (.errInjWrite m) (s.setQuad q { s.quadAt q with errInj :=
      { arm := v.getLsbD 63 && fieldOf v 62 61 ≠ 3, target := v.extractLsb' 61 2, fired := (s.quadAt q).errInj.fired,
        row := v.extractLsb' 28 9, column := v.extractLsb' 20 8, bit := v.extractLsb' 0 5 } }))

/-- 01 R33, R38, R39, 18 R373: the registers without a behaviour of their own take a REG_WRITE's fields; a REG_READ returns a register's
dword, and reading ECC_STAT clears it; an offset beyond the space is refused with 0x24. -/
def Obligations.PlainRegistersReadAndWrite : Prop :=
  ∀ (s : State) (m : HostMsg) (v : Dword),
    let sets (t' : State) : Prop := Answers (exec (.regWrite m) s) (fun t => t = { t' with host := s.replied m [] })
    let reads (off : Nat) (d : Dword) : Prop := m.arg.toNat = off → m.payload = [] →
      Answers (exec (.regRead m) s) (fun t => t = { s with host := s.replied m (leBytes 8 d.toNat) })
    (∀ r < 32, (RegWrite m (0x20000 + 64 * r + 8) v → sets (s.setRegion r { s.regionAt r with ctl := v &&& 0xFFFF0000FFFFFFFF#64 })) ∧
      (RegWrite m (0x20000 + 64 * r + 32) v → sets (s.setRegion r { s.regionAt r with pwr := v.setWidth 32 })) ∧
      reads (0x20000 + 64 * r) (s.regionAt r).bind ∧ reads (0x20000 + 64 * r + 16) (s.regionAt r).quads ∧ reads (0x20000 + 64 * r + 48) (s.regionAt r).pol) ∧
    (∀ q < 64, (RegWrite m (0x60000 + 8 * q) v → sets (s.setQuad q { s.quadAt q with idle := v.setWidth 20 })) ∧
      reads (0x60000 + 8 * q) ((s.quadAt q).idle.setWidth 64)) ∧
    (RegWrite m 0x60200 v → sets { s with power := { s.power with boostMax := v.setWidth 16 } }) ∧
    (RegWrite m 0x60208 v → sets { s with power := { s.power with soft := v.setWidth 32, reserve := v.extractLsb' 32 32 } }) ∧
    (RegWrite m 0x60210 v → sets { s with power := { s.power with hard := v.setWidth 32 } }) ∧
    (RegWrite m 0x70400 v → sets { s with rollCfg := v.setWidth 8 }) ∧
    reads 0x60208 (s.power.reserve ++ s.power.soft) ∧ reads 0x60300 (s.power.reason ++ s.power.sensor ++ s.power.count ++ 0#32) ∧
    reads 0xC0008 (BitVec.ofNat 64 s.host.head) ∧ reads 0x10 (BitVec.allOnes 64) ∧
    (∀ i < 16, reads (0xC0100 + 8 * i) (s.host.data.getD i 0)) ∧
    (∀ p < 16, ∀ i < 32, RegWrite m (0x80400 + 256 * p + 8 * i) v → ∃ w, sets { s with parts := s.parts.ins p { s.partAt p with watch := w } } ∧
      ∀ j, w.get 0 j = if j = i then (if i % 2 = 0 then v else v &&& 0xF0F8000000000000#64) else (s.partAt p).watch.get 0 j) ∧
    (∀ p < 16, reads (0x70200 + 8 * p) ((s.partAt p).refill ++ (s.partAt p).max ++ (s.partAt p).current)) ∧
    (∀ k < 8, m.arg.toNat = 0xB0000 + 32 * k + 24 → m.payload = [] → let w := s.stackAt k
      Answers (exec (.eccStatRead m) s) (fun t => t = { s with
        host := s.replied m (leBytes 8 (w.corrected ++ w.uncorrectable ++ w.poisoned).toNat)
        hbm := s.hbm.ins k { w with corrected := 0, uncorrectable := 0, poisoned := 0 } })) ∧
    (0x140000 ≤ m.arg.toNat → m.arg.toNat % 8 = 0 → m.payload = [] → Answers (exec (.regRead m) s) (fun t => t = { s with
      host := { s.host with refusals := s.host.refusals + 1, outbox := s.host.outbox ++ [.reply m.tag 0x24 []] } }))

/-! ## Links, debugging, pairs and the security island -/

/-- 18 R368, R373, R374, 01 R35, 12 R310, 19 R402, R406: from step 3 of the boot on a scrub writes a correctable word of its row back
corrected and an uncorrectable one poisoned, and counts both; a replay changes
nothing; a link retrains, or is down and the host is told; a word whose way uses a link that is down raises MCHECK, unit 4, with the
link's row; the host's link goes down and comes up. 16 R343, 12 R307, R313, R314, 01 R36: the open debug port reads and writes the
registers of a halted core under scope bit 0, bytes under scope
bit 1, of HBM as its stack holds them, and the island's trace under scope bit 2, and resumes the core; without its scope bit it
changes nothing. 01 R13, R16, R20 to R22: where cores, channels, engines and the edge's attachments stand on the mesh, and which
links of a row a request uses. What MANUFACTURE opens, and what the island's trace holds, are the model's (log 42), and an event that may
not act changes nothing (log 16). -/
def Obligations.LinksScrubsAndDebugging : Prop :=
 (∀ (s : State),
    (∀ (stack : BitVec 3) (channel : BitVec 8) (row : BitVec 21), let k := stack.toNat
      let words := (List.range 8).map (fun i => hbmKey k channel.toNat row.toNat (32 * i))
      let bad := words.filter (fun y => s.mem.flaw y = some .uncorrectable)
      let fixed := words.filter (fun y => s.mem.flaw y = some .correctable)
      let w := s.stackAt k
      (s.island.boot < 3 → Answers (exec (.hbmScrub stack channel row) s) (fun t => t = s)) ∧
      (3 ≤ s.island.boot → Answers (exec (.hbmScrub stack channel row) s) (fun t => ∃ m, t = { s with
          mem := m
          hbm := s.hbm.ins k { w with
            corrected := satNat 32 (w.corrected.toNat + fixed.length), uncorrectable := satNat 16 (w.uncorrectable.toNat + bad.length)
            poisoned := satNat 16 (w.poisoned.toNat + bad.length) } } ∧ m.cells = s.mem.cells ∧ m.tags = s.mem.tags ∧
        ∀ y ∈ words, m.flaw y = if y ∈ bad then some .poisoned else if y ∈ fixed then none else s.mem.flaw y))) ∧
    (∀ link, Answers (exec (.flitReplay link) s) (fun t => t = s)) ∧
    (∀ link, s.island.boot < 3 → Answers (exec (.linkRetrain link) s) (fun t => t = s)) ∧
    (∀ link, 3 ≤ s.island.boot → Answers (exec (.linkRetrain link) s) (fun t => t = { s with down := t.down, pair := t.pair } ∧
      t.down = s.down.filter (fun l => l ≠ link) ∧ ((∃ p, link = .fabric p ∧ (p.toNat = 22 ∨ p.toNat = 23)) → t.pair.up = true))) ∧
    (∀ link, (s.island.boot < 3 ∨ link ∈ s.down) → Answers (exec (.linkRetrainFail link) s) (fun t => t = s)) ∧
    (3 ≤ s.island.boot → s.host.up = true → (∀ c, (s.coreAt c).cu.flights = [] ∧ (s.coreAt c).cu.again = [] ∧ (s.coreAt c).cu.copies = []) →
      (∀ p, s.fabricCopies p = []) → ∀ link, link ∉ s.down → Answers (exec (.linkRetrainFail link) s) (fun t => ∃ n,
      t = { s with freeCtr := n, down := link :: s.down, host := { s.host with outbox := s.host.outbox ++ [.signal 5 (leBytes 8 (match link with
        | .mesh r => r.toNat * 2 ^ 8 | .dieToDie r => 1 + r.toNat * 2 ^ 8 | .fabric p => 2 + p.toNat * 2 ^ 8))] } })) ∧
    (∀ (f : Flight) (n row : Nat) (v : Node), Steady s → s.nodeOn s.here = some (n, v) → (∀ o, s.me.recorded ≠ some (s.cycleOf s.here, o)) →
      MayLand s f → s.cutRow (corePlace s.here) (s.flightPlaces s.here f) = some row → row < 4096 → State.irrevocable v = false →
      v.noRequeue = false → v.rollbacks + 1 ≤ s.rollCfg.toNat → Answers (exec .dWordLand s) (fun t => t.me.run = false ∧
        fieldOf t.me.csr.trap0 63 56 = 0x0F ∧ fieldOf t.me.csr.trap0 31 28 = 4 ∧ fieldOf t.me.csr.trap0 27 16 = row ∧ t.me.csr.trap1 = 0 ∧
        (∀ g ∈ t.me.cu.flights, g.id ≠ f.id) ∧ ∃ w, t.nodeAt n = some w ∧ w.st = .waiting ∧ w.rollbacks = v.rollbacks + 1)) ∧
    Answers (exec .hostLinkDown s) (fun t => t = { s with host := { s.host with up := false } }) ∧
    Answers (exec .hostLinkRetrain s) (fun t => t = { s with host := { s.host with up := true } })) ∧
 (∀ (s : State) (core : BitVec 8), let c := core.toNat
    let scope (i : Nat) : Prop := if s.island.unlocked then (∃ b, s.island.scope = some b ∧ b.getLsbD i = true)
      else s.island.burned0 = false ∧ s.island.burned1 = false
    let shows (v : BitVec 4096) (t : State) : Prop := t = { s with host := { s.host with outbox := s.host.outbox ++ [.debug core v] } }
    let does (op : DebugOp) (P : State → Prop) : Prop := Answers (exec (.debugPortAccess core op) s) P
    (scope 0 → (s.coreAt c).halted = true →
      (∀ n, does (.read (.x n)) (shows (((s.coreAt c).x n).setWidth 4096))) ∧ (∀ n, does (.read (.v n)) (shows ((s.coreAt c).v n.toNat))) ∧
      (∀ n v, does (.write (.x n) v) (fun t => OnlyCore s t c ((s.coreAt c).setX n (v.setWidth 64)))) ∧
      does (.read (.m 0)) (shows ((BitVec.allOnes 1024).setWidth 4096)) ∧ (∀ v, does (.write (.m 0) v) (fun t => OnlyCore s t c (s.coreAt c))) ∧
      (∀ n v, does (.write (.v n) v) (fun t => OnlyCore s t c ((s.coreAt c).setV n.toNat v))) ∧
      does .resume (fun t => (t.coreAt c).halted = false ∧ t.mem = s.mem ∧ t.nodes = s.nodes)) ∧
    (¬ scope 0 → (∀ r, does (.read r) (fun t => t = s)) ∧ (∀ r v, does (.write r v) (fun t => t = s)) ∧ does .resume (fun t => t = s)) ∧
    (scope 1 → (∀ o, does (.readSlice o) (shows ((s.mem.byte (sliceKey c o.toNat)).setWidth 4096))) ∧
      (s.mem.wf = true → ∀ o v, does (.writeSlice o v) (fun t => ∃ m, t = { s with mem := m } ∧
        ∀ k, m.byte k = if k = sliceKey c o.toNat then v else s.mem.byte k)) ∧
      (∀ a h r b, does (.readHbm a h r b) (shows ((s.rawByte (hbmKey a.toNat h.toNat r.toNat b.toNat)).setWidth 4096))) ∧
      (s.mem.wf = true → s.mem.keys = [] → ∀ a h r b v, does (.writeHbm a h r b v) (fun t => ∃ m, t = { s with mem := m } ∧
        ∀ k, m.byte k = if k = hbmKey a.toNat h.toNat r.toNat b.toNat then v else s.mem.byte k))) ∧
    (¬ scope 1 → (∀ o, does (.readSlice o) (fun t => t = s)) ∧ (∀ o v, does (.writeSlice o v) (fun t => t = s)) ∧
      (∀ a h r b, does (.readHbm a h r b) (fun t => t = s)) ∧ (∀ a h r b v, does (.writeHbm a h r b v) (fun t => t = s))) ∧
    (scope 2 → does .trace (fun t => ∃ x n, t = { s with freeCtr := n, host := { s.host with outbox := s.host.outbox ++ [.trace x] } })) ∧
    (¬ scope 2 → does .trace (fun t => t = s))) ∧
 ((∀ d < 2, ∀ j < 8, ∀ c < 16, corePlace (128 * d + 16 * j + c) = (c + 16 * d, j + 1)) ∧
  (∀ k < 8, ∀ c < 160, channelPlace k c = (8 * (k % 2) + c / 20 + 16 * (k / 4), if k % 4 = 0 ∨ k % 4 = 1 then 0 else 9)) ∧
  (∀ k < 8, ∀ i < 8, enginePlace (8 * k + i) = channelPlace k (20 * i)) ∧
  (∀ p < 4, streamPlace p = (if p < 2 then 0 else 31, if p % 2 = 0 then 0 else 9)) ∧ hostPlace = (0, 4) ∧ islandPlace = (0, 5) ∧
  ∀ (row : BitVec 4) (a b : Place), (routeUses (.dieToDie row) a b = true ↔ a.2 = row.toNat ∧ (a.1 ≤ 15 ∧ 16 ≤ b.1 ∨ b.1 ≤ 15 ∧ 16 ≤ a.1)))

/-- 19 R398 to R402: a partner's record that equals this side's settles it, and one that differs rolls the node back; a secondary takes
the primary's record once it has booted, and its stop at the points named; the partner's machine check rolls both sides back, and the fault
of its issued access's translation fails the node on both (log 53); with the pair link lost (log 40) a solo primary's nodes go on alone and any other
lockstep node fails with PAIR. -/
def Obligations.LockstepPairs : Prop :=
  ∀ (s : State),
    (∀ (r mine : PairRecord), s.pair.waiting.find? (fun y => State.sameRecord y r) = some mine →
      let rest := s.pair.waiting.filter (fun y => !State.sameRecord y r)
      (mine = r → Answers (exec (.pairRecordCompare r) s) (fun t => t = { s with pair := { s.pair with waiting := rest } })) ∧
      (∀ n v c, mine ≠ r → s.pairNode r.seq = some (n, v) → s.nodeAt n = some v → v.st = .running → (State.nodeCores v)[r.rank]? = some c →
        (s.coreAt c).node = some n → s.transition c = false → (∀ o, (s.coreAt c).recorded ≠ some (s.cycleOf c, o)) → State.irrevocable v = false → v.noRequeue = false → v.rollbacks + 1 ≤ s.rollCfg.toNat →
        Answers (exec (.pairRecordCompare r) s) (fun t => SameMemory s.mem t.mem ∧ (t.coreAt c).run = false ∧
          fieldOf (t.coreAt c).csr.trap0 63 56 = 0x13 ∧ ∃ w, t.nodeAt n = some w ∧ w.st = .waiting ∧ w.staged = [] ∧ w.rollbacks = v.rollbacks + 1))) ∧
    (∀ primary queue bytes, let r := s.pairRecordOf primary (recordOf bytes)
      s.island.boot = 5 → s.lifecycle ≠ 4 → fieldOf s.pair.cfg 1 0 = 2 → s.pair.up = true → bytes.length = 128 → recordOk r = true →
      s.journalFull = false →
      Answers (exec (.pairCopyReceive primary queue bytes) s) (fun t => t.mem = s.mem ∧ t.cores = s.cores ∧
        (∃ w, OnlyNode s t s.host.head w ∧ w.rcd = r ∧ w.queue = queue ∧ w.st = .waiting) ∧ t.host.head = s.host.head + 1 ∧
        ∃ e, t.entryAt s.host.head = some e ∧ e.kind = 7 ∧ e.origin = primary ∧ e.queue = queue ∧ e.fate = .queued)) ∧
    ((s.island.boot ≠ 5 ∨ s.lifecycle = 4) → ∀ primary queue bytes, Answers (exec (.pairCopyReceive primary queue bytes) s) (fun t => t = s)) ∧
    (∀ primary cls issued rank q k rest n v,
      s.agenda = .partner primary cls issued rank q k :: rest → s.pairNode primary = some (n, v) → s.nodeAt n = some v → v.st = .running →
      Answers (step s) (fun t => SameMemory s.mem t.mem ∧
        ((cls = 0x0E ∨ cls = 0x0F) → State.irrevocable v = false → v.noRequeue = false → v.rollbacks + 1 ≤ s.rollCfg.toNat →
          ∃ w, t.nodeAt n = some w ∧ w.st = .waiting ∧ w.staged = [] ∧ w.rollbacks = v.rollbacks + 1) ∧
        (cls ≠ 0x0E → cls ≠ 0x0F → issued = true → ∃ w, t.nodeAt n = some w ∧ w.st = .ending .failed cls))) ∧
    (∀ primary kind points n v, s.pairNode primary = some (n, v) → s.nodeAt n = some v → v.st = .running → s.foreignPair n v = true →
      Answers (exec (.pairPreemptionReceive primary kind points) s) (fun t => t = s.setNode n { v with st := .stopping kind, points := points })) ∧
    (let solo : Prop := fieldOf s.pair.cfg 1 0 = 1 ∧ s.pair.cfg.getLsbD 2 = true
     Answers (exec .pairLinkLoss s) (fun t => t.pair = { s.pair with up := false, waiting := [] } ∧ SameMemory s.mem t.mem ∧
       ∀ n v, (n, some v) ∈ s.nodes → s.nodeAt n = some v → State.lockstep v = true → v.alone = false → v.st = .running →
         (solo → t.nodeAt n = some { v with alone := true }) ∧ (¬ solo → ∃ w, t.nodeAt n = some w ∧ w.st = .ending .failed 0x13)))

/-- 12 R306, R308, 01 R33: a security command that nothing bars is journaled and held under the next ticket, which its REPLY carries; before
boot ends it has no number, which is the model's reading (log 24), as are the lengths that no rule gives (log 27); the eighth fills the island. -/
def Obligations.SecurityCommandsAreHeld : Prop :=
  ∀ (s : State) (m : HostMsg),
    let d := m.payload
    let held (code : Nat) (i : Instr) : Prop :=
      m.arg.toNat < 256 → d.length = (State.secBytes code d + 7) / 8 * 8 → d.length ≤ 8192 → State.secFieldsOk code d = true → s.secBarred code d = false →
      (s.island.cmds.length < 8 → s.journalFull = false → Answers (exec i s) (fun t => ∃ k : Nat, t = { s with
          host := if s.island.boot = 5 then s.journaled m { kind := 4 } (leBytes 8 k ++ leBytes 4 (s.island.tickets + 1) ++ leBytes 4 0)
            else s.replied m (leBytes 8 k ++ leBytes 4 (s.island.tickets + 1) ++ leBytes 4 0)
          island := { s.island with tickets := s.island.tickets + 1
                                    cmds := s.island.cmds ++ [{ seq := k, ticket := s.island.tickets + 1, code := code, data := d }] } } ∧
        k = if s.island.boot = 5 then s.host.head else 0)) ∧
      (8 ≤ s.island.cmds.length → Answers (exec i s) (fun t => t = { s with
        host := { s.host with refusals := s.host.refusals + 1, outbox := s.host.outbox ++ [.reply m.tag 0x22 []] } }))
    held 1 (.secLoad m) ∧ held 2 (.secGetid m) ∧ held 3 (.secQuote m) ∧ held 4 (.secExtend m) ∧ held 5 (.secKeyset m) ∧ held 6 (.secKeydel m) ∧
    held 7 (.secChal m) ∧ held 8 (.secUnlock m) ∧ held 9 (.secSecure m) ∧ held 10 (.secRetire m)

/-- 12 R307, R310 to R316: what the island's oldest command does when it finishes: a quote is 5,267 bytes with the device's identifier, an accepted image moves the boot on and is measured,
SEC_EXTEND extends its slot, SEC_KEYDEL and SEC_KEYSET change one partition's key, SEC_CHAL replaces the challenge, SEC_SECURE burns its bit,
an accepted token unlocks or retires the device; the nodes that it ends are ABORTED, their records written, before it finishes, and no
tenant key survives either. The offsets of the data that a rule only lists are the model's (log 27), as are the ends of SEC_SECURE and
SEC_KEYSET whose conditions fail (log 28), and that step 3 waits for what the stopped nodes still have on its way (log 30). -/
def Obligations.SecurityCommandsFinish : Prop :=
  ∀ (s : State) (c : SecCmd) (rest : List SecCmd), s.island.cmds = c :: rest → s.island.boot ≠ 0 → s.lifecycle ≠ 4 → s.host.up = true →
    let d := c.data
    let i : Island := { s.island with cmds := rest }
    let slot (i : Island) (k : Nat) (bs : List Byte) : Tab (BitVec 512) := i.slots.ins k (Config.sha3 (leBytes 64 (i.slots.get 0 k).toNat ++ bs))
    let hash (bs : List Byte) : List Byte := leBytes 64 (Config.sha3 bs).toNat
    let p := (d.getD 0 0).toNat
    let finishes (status : Nat) (P : State → List Byte → List Out → Prop) : Prop := Answers (exec .secCommandFinish s) (fun t =>
      (∃ more data pad, t.host.outbox = s.host.outbox ++ more ++ [.signal 3 (leBytes 4 c.ticket ++ leBytes 4 status ++ data ++ pad)] ∧
        (∀ y ∈ pad, y = 0) ∧ pad.length < 8 ∧ P t data more) ∧
      ∀ e, s.entryAt c.seq = some e → ∃ f, t.entryAt c.seq = some f ∧ f.kind = e.kind ∧ f.fate = .done)
    let ends (status : Nat) (P : State → Prop) : Prop := finishes status (fun t _ more => P t ∧ t.mem = s.mem ∧ more = [])
    let same (t : State) : Prop := t.parts = s.parts ∧ t.nodes = s.nodes ∧ t.queues = s.queues
    (c.code = 1 → s.island.boot = 1 → State.imageOk d 1 Config.minVersionIsland.toNat = true → ends 0 (fun t => same t ∧
      t.island = { i with boot := 2, version1 := BitVec.ofNat 32 (leNat ((d.drop 8).take 4)), slots := slot i 1 (hash (State.imageBody d)) })) ∧
    (c.code = 1 → (s.island.boot = 5 ∨ s.island.boot = 1 ∧ State.imageOk d 1 Config.minVersionIsland.toNat = false) → ends 3 (fun t => same t ∧ t.island = i)) ∧
    (c.code = 4 → ends 0 (fun t => same t ∧ t.island = { i with slots := slot i p ((d.drop 1).take 64) })) ∧
    (c.code = 6 → ends 0 (fun t => t.nodes = s.nodes ∧ (∃ l, t.island = { i with slots := l } ∧ ∀ k, k ≠ 4 → l.get 0 k = i.slots.get 0 k) ∧
      t.parts = s.parts.ins p { s.partAt p with key := none })) ∧
    (∀ x, c.code = 3 → s.seed = some x → 65 ≤ d.length → finishes 0 (fun t data more => same t ∧ t.island = i ∧ t.mem = s.mem ∧ more = [] ∧
      data.length = 5267 ∧ data.take 8 = leBytes 4 1 ++ leBytes 4 s.lifecycle ∧
      (data.drop 8).take 16 = (hash (leBytes 2592 (Config.mlDsaPublic ((Config.sha3 (leBytes 32 x.toNat ++ [1])).setWidth 256)).toNat)).take 16)) ∧
    (∀ x k, c.code = 5 → s.lifecycle = 2 → s.partOccupied p = false → s.seed = some x →
      Config.unwrapKey (Config.sha3 (leBytes 32 x.toNat ++ [2])) ((d.drop 1).take 1568) ((d.drop 1569).take 72) = some k → ends 0 (fun t => t.nodes = s.nodes ∧
        t.parts = s.parts.ins p { s.partAt p with key := some k } ∧
        t.island = { i with slots := slot i 4 (hash (leBytes 1 p ++ (hash (leBytes 64 k.toNat)).take 32)) })) ∧
    (c.code = 7 → ends 0 (fun t => same t ∧ ∃ y, t.island = { i with challenge := some y })) ∧
    (c.code = 9 → s.lifecycle = 1 → ends 0 (fun t => same t ∧ t.island = { i with burned0 := true })) ∧
    (c.code = 9 → s.lifecycle ≠ 1 → ends 1 (fun t => same t ∧ t.island = i)) ∧
    -- while what the stopped nodes have on its way still lands, step 3 has not ended and the command is not finished
    (∀ hit, s.secStops c = some hit → (s.abortParts hit).stopsLanding hit = true → Answers (exec .secCommandFinish s) (fun t =>
      t = s.abortParts hit ∧ t.island = s.island)) ∧
    ((∀ hit, s.secStops c = some hit → (s.abortParts hit).stopsLanding hit = false) →
     let aborted (t : State) (hit : Nat → Prop) : Prop := (∀ k, (t.partAt k).key = none) ∧ ∀ n v, (n, some v) ∈ s.nodes → s.nodeAt n = some v →
       hit v.part.toNat → v.parent = none → v.st = .running → (∀ k, (s.partAt k).watch = []) → ∃ w, t.nodeAt n = some w ∧ w.st = .ended .aborted
     (c.code = 8 → s.lifecycle = 2 → State.tokenOk { s with island := i } d = true → finishes 0 (fun t _ _ => aborted t (fun k => (s.partAt k).key ≠ none) ∧
       t.island = { i with unlocked := true, unlocks := i.unlocks + 1, challenge := none, scope := some (State.tokenScope d)
                           slots := slot i 3 (hash (d.take 128)) })) ∧
     (c.code = 8 → s.lifecycle = 2 → State.tokenOk { s with island := i } d = false → ends 2 (fun t => same t ∧ t.island = i)) ∧
     (c.code = 10 → State.tokenOk { s with island := i } d = true → State.tokenScope d = 0 → finishes 0 (fun t _ _ => aborted t (fun _ => True) ∧
       t.island = { i with seedErased := true, burned1 := true, scope := none, challenge := none })))

/-! ## The machine as a whole -/

/-- 01 R39: what the device registers of the table hold at power-on; and of the model's own, that memory stands in its canonical form. -/
def Obligations.ResetState : Prop :=
  let s := State.reset
  (∀ i < 32, s.readReg (0x10000 + 32 * i) = 0 ∧ s.readReg (0x10000 + 32 * i + 8) = 0) ∧
  (∀ r < 32, s.readReg (0x20000 + 64 * r) = 0 ∧ s.readReg (0x20000 + 64 * r + 8) = 0 ∧ s.readReg (0x20000 + 64 * r + 16) = 0 ∧
    s.readReg (0x20000 + 64 * r + 24) = 0 ∧ s.readReg (0x20000 + 64 * r + 32) = 0 ∧ s.readReg (0x20000 + 64 * r + 48) = 0 ∧
    (s.regionAt r).st = .unbound) ∧
  (∀ c < 64, s.readReg (0x30000 + 64 * c) = 0 ∧ s.readReg (0x30000 + 64 * c + 8) = 0 ∧
    ∀ i < 512, s.readReg (0x100000 + 4096 * c + 8 * i) = 0) ∧
  s.readReg 0x50000 = 0 ∧ (∀ q < 64, s.readReg (0x60000 + 8 * q) = 50000 ∧ s.readReg (0xD0000 + 16 * q) = 0) ∧ s.readReg 0x60200 = 1000 ∧
  s.readReg 0x60208 = 1500#32 ++ 20500#32 ∧ s.readReg 0x60210 = 22500 ∧ (∀ q < 64, s.readReg (0x70000 + 8 * q) = 0) ∧
  (∀ p < 16, s.readReg (0x70200 + 8 * p) = 0 ∧ s.readReg (0x80000 + 32 * p) = 0 ∧ s.readReg (0x80000 + 32 * p + 8) = 0 ∧
    ∀ i < 32, s.readReg (0x80400 + 256 * p + 8 * i) = 0) ∧
  (∀ p < 4, s.readReg (0x90000 + 16 * p) = 0 ∧ s.readReg (0x90000 + 16 * p + 8) = 0) ∧
  (∀ k < 8, s.readReg (0xB0000 + 32 * k) = 0 ∧ s.readReg (0xB0000 + 32 * k + 8) = 0 ∧ s.readReg (0xB0000 + 32 * k + 16) = 0) ∧
  s.readReg 0x70400 = 3 ∧ s.readReg 0x70408 = 0 ∧ s.readReg 0xC0000 = 65536 ∧ s.mem.wf = true

/-- A step runs the decoded instruction: of S, the word at the program counter (08 R198); of a unit, the word due at the issue offset (03 R89);
an event of the opcode table at its place; and the message that arrives (01 R31). What the model adds around it is the head of the agenda,
which goes, and the place of the word (log 1). -/
def Obligations.StepRunsTheInstruction : Prop :=
  ∀ (s : State) (rest : List Move) (core : BitVec 8) (i : Instr),
    let k := core.toNat
    let c := s.coreAt k
    let at_ (u : Slot) : State := { s with agenda := rest, cur := { core := core, slot := u, n := k } }
    (∀ b0 b1 b2 b3 : Byte, s.agenda = .slot core .s :: rest → c.frozen = false → s.mayIssue k = true → c.ended = false → s.pairPoint k 0 = none →
      c.su.stall = 0 → c.bad = [] → ((s.code.get {} k).s.drop c.su.pc).take 4 = [b0, b1, b2, b3] → decodeS (b3 ++ b2 ++ b1 ++ b0) = .ok i →
      step s = exec i (at_ .s)) ∧
    (∀ (u : Slot) (x : Todo), s.agenda = .slot core u :: rest → u ≠ .s → c.frozen = false → s.mayIssue k = true → s.dueTodo k u = some x →
      (if u = .l ∨ u = .w then decodeD x.word = .ok i else decodeC x.word = .ok i) → step s = exec i (at_ u)) ∧
    (∀ p, s.agenda = .event p i :: rest → step s = exec i { s with agenda := rest, cur := p }) ∧
    (∀ bs, s.agenda = .host bs :: rest → decodeMessage bs = .ok i → s.powered = true → s.host.up = true → step s = exec i { s with agenda := rest })

/-- 07 R185 to R188, 01 R31: the device's messages stand on the host link with their header; words that the manual encodes, field by field, decode to what it says they stand for; the zero word is no
instruction. -/
def Obligations.EncodingsAreRead : Prop :=
  let d : DArgs := { delay := 0, gc := 0, ga := 0, t0c := 0, t0a := 0, t1c := 0, t1a := 0, t2c := 0, t2a := 0, se := 0, sp := 0, de := 0, dp := 0
                     cls := 0, ext := 0 }
  let v : VArgs := { delay := 0, ty := 0, vd := 0, va := 0, vb := 0, vc := 0, mask := 0, imm := 0 }
  let m : MArgs := { delay := 0, gc := 0, ga := 0, t0c := 0, t0a := 0, t1c := 0, t1a := 0, t2c := 0, t2a := 0, opnd := 0 }
  (∀ (tag : BitVec 32) (result : Nat) (payload : List Byte), payload.length ≤ 8192 →
    hostMessage (.reply tag result payload) = some ([0x00, 0x80] ++ leBytes 2 payload.length ++ leBytes 4 tag.toNat ++ leBytes 8 result ++ payload) ∧
    hostMessage (.signal result payload) = some ([0x01, 0x80] ++ leBytes 2 payload.length ++ leBytes 4 0 ++ leBytes 8 result ++ payload)) ∧
  decodeS 0x45C00000#32 = .ok (.br 7 0 0) ∧ decodeS 0x0850A003#32 = .ok (.ldsK 5 1 8 1) ∧ decodeS 0#32 = .error .unassigned ∧
  decodeD 0x070000000000910B#64 = .ok (.gth { d with sp := 1, de := 4, dp := 2, cls := 1, ext := 3 }) ∧
  decodeD 0x0A00000000041103#64 = .ok (.rgth { d with se := 1, de := 4, dp := 2, ext := 3 }) ∧
  decodeD 0x0B00000000029100#64 = .ok (.fill { d with sp := 5, de := 4, dp := 2 }) ∧
  decodeD 0x1004900000089800#64 = .ok (.bcpy { d with gc := 9, ga := 1, se := 2, sp := 1, de := 6 }) ∧
  decodeD 0x1104900000018000#64 = .ok (.bcan { d with gc := 9, ga := 1, sp := 3 }) ∧
  decodeD 0x1A029000000C8300#64 = .ok (.xwr { d with gc := 5, ga := 1, se := 3, sp := 1, dp := 6 }) ∧
  decodeD 0x1B0000A000031100#64 = .ok (.xrd { d with t0c := 1, t0a := 1, sp := 6, de := 4, dp := 2 }) ∧
  decodeD 0x3F01100000000000#64 = .ok (.dnop { d with gc := 2, ga := 1 }) ∧
  decodeC 0x000A30C100008005#64 = .ok (.vshl { v with ty := 3, vd := 3, va := 1, imm := 0x8005 }) ∧
  decodeC 0x000DC08108000002#64 = .ok (.vcmp { v with ty := 12, vd := 2, va := 1, vb := 2, imm := 2 }) ∧
  decodeC 0x1008C0C108000000#64 = .ok (.vscl { v with ty := 12, vd := 3, va := 1, vb := 2 }) ∧
  decodeC 0x2009C00824A20039#64 = .ok (.vsiev { v with ty := 12, va := 8, vb := 9, vc := 10, mask := 2, imm := 0x39 }) ∧
  decodeC 0x3001C04204003000#64 = .ok (.vld { v with ty := 12, vd := 1, va := 2, vb := 1, imm := 0x3000 }) ∧
  decodeC 0x3008000000000007#64 = .ok (.vlendRet { v with imm := 7 }) ∧
  decodeC 0x4006210A0000A500#64 = .ok (.mmul { m with gc := 4, ga := 1, t0c := 1, t0a := 1, opnd := 0xA500 }) ∧
  decodeMessage ([4, 0, 0, 0, 9, 0, 0, 0, 7, 0, 0, 0, 0, 0, 0, 0] : List Byte) = .ok (.nodeAbort { tag := 9, arg := 7, payload := [] })

/-- 01 R31, 16 R327: no instruction, message or event ends a run: each answers a next state from every state and with every operand. A step
stops only on bytes that are no message. That such bytes stop a step is the model's choice (log 56), and so is that an event at a place
where its rule does not hold changes nothing (log 16). -/
def Obligations.EveryInstructionAnswers : Prop :=
  (∀ (i : Instr) (s : State), ∃ t, exec i s = .next t) ∧
  (∀ s : State, (∃ t, step s = .next t) ∨
    ∃ bs rest, s.agenda = .host bs :: rest ∧ step s = .fault .notAMessage ∧ (bs.length < 16 ∨ bs.length ≠ 16 + leNat ((bs.drop 2).take 2)))

/-- 04 R127, 18 R378: two addresses of a partition never share a home, whichever channels are retired, and with none retired every address below
rcount × Nc × 256 has one; partitions that share no stack, or whose rows lie apart, share no home. -/
def Obligations.HomesAreDistinct : Prop :=
  ∀ (s : State) (p : Nat),
    let ilv (p : Nat) := (s.partAt p).ilv
    let rows (p : Nat) : Prop := ilvBase (ilv p) + ilvCount (ilv p) ≤ chanRows
    rows p →
    (∀ a b k, s.homeOf p a = some k → s.homeOf p b = some k → a = b) ∧
    ((∀ i ∈ ilvStacks (ilv p), (s.stackAt i).retired = 0) → ∀ a, (s.homeOf p a).isSome = true ↔
      a < ilvCount (ilv p) * (160 * (ilvStacks (ilv p)).length) * 256) ∧
    (∀ q a b k, rows q → s.homeOf p a = some k → s.homeOf q b = some k →
      (∃ i ∈ ilvStacks (ilv p), i ∈ ilvStacks (ilv q)) ∧
      ilvBase (ilv p) < ilvBase (ilv q) + ilvCount (ilv q) ∧ ilvBase (ilv q) < ilvBase (ilv p) + ilvCount (ilv p))

/-- 07 R184 to R195, 01 R31: decoding what the encoder writes gives the instruction back, for every well-formed word and message, with every
operand. -/
def Obligations.DecodeUndoesEncode : Prop :=
  ∀ i : Instr, i.wellFormed = true → encode i ≠ .event → decode (encode i) = .ok i

/-- Every step keeps memory in its canonical form: its keys rise, and no byte listed is zero. That a
byte which nothing has written reads 0 is the model's choice (log 4). -/
def Obligations.MemoryKeepsItsForm : Prop :=
  ∀ s t : State, s.mem.wf = true → step s = .next t → t.mem.wf = true
end

