-- ==== Sys2Proof/Laws/Tab.lean ====
section
/-! SUPPORT. Laws of the sparse tables of `Word.lean` and of the canonical list of memory cells. -/

namespace Sys2Proof

namespace Tab

variable {α : Type}

@[simp] theorem get_nil (d : α) (k : Nat) : get d ([] : Tab α) k = d := rfl

@[simp] theorem get_ins_self (d : α) (t : Tab α) (k : Nat) (v : α) : get d (t.ins k v) k = v := by
  induction t with
  | nil => simp [ins, get]
  | cons e t ih =>
    obtain ⟨j, u⟩ := e
    by_cases h : j = k
    · simp [ins, get, h]
    · by_cases g : k < j <;> simp [ins, get, h, g, ih]

theorem get_ins_ne (d : α) (t : Tab α) {k j : Nat} (v : α) (h : k ≠ j) : get d (t.ins k v) j = get d t j := by
  induction t with
  | nil => simp [ins, get, h]
  | cons e t ih =>
    obtain ⟨i, u⟩ := e
    by_cases hi : i = k
    · subst hi; simp [ins, get, h]
    · by_cases g : k < i
      · simp [ins, get, hi, g, h]
      · by_cases hj : i = j
        · subst hj; simp [ins, get, hi, g]
        · simp [ins, get, hi, g, hj, ih]

theorem get_ins (d : α) (t : Tab α) (k j : Nat) (v : α) : get d (t.ins k v) j = if k = j then v else get d t j := by
  by_cases h : k = j
  · subst h; simp
  · simp [h, get_ins_ne d t v h]

theorem get_del (d : α) (t : Tab α) (k j : Nat) : get d (t.del k) j = if k = j then d else get d t j := by
  induction t with
  | nil => simp [del, get]
  | cons e t ih =>
    obtain ⟨i, u⟩ := e
    by_cases hi : i = k
    · subst hi
      have h1 : del ((i, u) :: t) i = del t i := by simp [del]
      rw [h1, ih]
      by_cases hj : i = j <;> simp [get, hj]
    · have h1 : del ((i, u) :: t) k = (i, u) :: del t k := by simp [del, hi]
      by_cases hj : i = j
      · subst hj; simp [h1, get, Ne.symm hi]
      · simp [h1, get, hj, ih]

theorem get_put [DecidableEq α] (d : α) (t : Tab α) (k j : Nat) (v : α) :
    get d (t.put d k v) j = if k = j then v else get d t j := by
  unfold put
  by_cases h : v = d
  · simp [h, get_del]
  · simp [h, get_ins]

@[simp] theorem ins_ins (t : Tab α) (k : Nat) (u v : α) : (t.ins k u).ins k v = t.ins k v := by
  induction t with
  | nil => simp [ins]
  | cons e t ih =>
    obtain ⟨i, w⟩ := e
    by_cases hi : i = k
    · simp [ins, hi]
    · by_cases g : k < i <;> simp [ins, hi, g, ih]

end Tab

namespace Machine

/-! ## The canonical list of cells -/

theorem cellsAbove_mono {lo lo' : Option Nat} {l : List Host.Cell} (h : cellsAbove lo l = true)
    (hlo : ∀ a b, lo' = some a → lo = some b → a ≤ b) (hn : lo = none → lo' = none) : cellsAbove lo' l = true := by
  cases l with
  | nil => rfl
  | cons e t =>
    obtain ⟨a, b⟩ := e
    simp only [cellsAbove, Bool.and_eq_true] at h ⊢
    refine ⟨⟨?_, h.1.2⟩, h.2⟩
    cases lo' with
    | none => rfl
    | some x =>
      cases lo with
      | none => simp at hn
      | some y =>
        have := hlo x y rfl rfl
        have hy := h.1.1
        simp only [decide_eq_true_eq] at hy ⊢
        omega

theorem cellsAbove_tail {lo : Option Nat} {a : Nat} {b : Byte} {t : List Host.Cell}
    (h : cellsAbove lo ((a, b) :: t) = true) : cellsAbove lo t = true := by
  simp only [cellsAbove, Bool.and_eq_true] at h
  refine cellsAbove_mono h.2 ?_ (by simp)
  intro x y hx hy
  subst hx
  cases hy
  have := h.1.1
  simp only [decide_eq_true_eq] at this
  omega

theorem cellsAbove_filter {lo : Option Nat} {l : List Host.Cell} (p : Host.Cell → Bool) (h : cellsAbove lo l = true) :
    cellsAbove lo (l.filter p) = true := by
  induction l generalizing lo with
  | nil => rfl
  | cons e t ih =>
    obtain ⟨a, b⟩ := e
    cases hp : p (a, b) with
    | false => simpa [hp] using ih (cellsAbove_tail h)
    | true =>
      simp only [cellsAbove, Bool.and_eq_true] at h
      simp only [List.filter_cons, hp, if_true, cellsAbove, Bool.and_eq_true]
      exact ⟨h.1, ih h.2⟩

/-- A write above a bound keeps the list canonical above it. -/
theorem cellsAbove_putCell {lo : Option Nat} {l : List Host.Cell} (k : Nat) (v : Byte) (h : cellsAbove lo l = true)
    (hk : ∀ a, lo = some a → a < k) : cellsAbove lo (putCell l k v) = true := by
  induction l generalizing lo with
  | nil =>
    unfold putCell
    by_cases hv : v = 0
    · rw [if_pos hv]; rfl
    · rw [if_neg hv]
      simp only [cellsAbove, Bool.and_eq_true, decide_eq_true_eq]
      refine ⟨⟨?_, hv⟩, trivial⟩
      cases lo with
      | none => rfl
      | some a => simpa using hk a rfl
  | cons e t ih =>
    obtain ⟨a, b⟩ := e
    have ht := cellsAbove_tail h
    simp only [cellsAbove, Bool.and_eq_true] at h
    by_cases hak : a = k
    · subst hak
      by_cases hv : v = 0
      · simp only [putCell, if_true, if_pos hv, ht]
      · simp only [putCell, if_true, if_neg hv, cellsAbove, Bool.and_eq_true, decide_eq_true_eq]
        exact ⟨⟨h.1.1, hv⟩, h.2⟩
    · by_cases hlt : k < a
      · by_cases hv : v = 0
        · simp only [putCell, if_neg hak, if_pos hlt, if_pos hv, cellsAbove, Bool.and_eq_true]
          exact h
        · simp only [putCell, if_neg hak, if_pos hlt, if_neg hv, cellsAbove, Bool.and_eq_true, decide_eq_true_eq]
          refine ⟨⟨?_, hv⟩, ⟨hlt, by simpa using h.1.2⟩, h.2⟩
          cases lo with
          | none => rfl
          | some x => simpa using hk x rfl
      · simp only [putCell, if_neg hak, if_neg hlt, cellsAbove, Bool.and_eq_true]
        refine ⟨h.1, ih h.2 ?_⟩
        intro x hx
        cases hx
        omega

theorem cells_putCell {l : List Host.Cell} (k : Nat) (v : Byte) (h : cellsAbove none l = true) :
    cellsAbove none (putCell l k v) = true := cellsAbove_putCell k v h (by simp)

/-- Any list of writes keeps the list canonical. -/
theorem cells_foldl {β : Type} (f : β → Nat × Byte) (ws : List β) {l : List Host.Cell} (h : cellsAbove none l = true) :
    cellsAbove none (ws.foldl (fun c w => putCell c (f w).1 (f w).2) l) = true := by
  induction ws generalizing l with
  | nil => exact h
  | cons w ws ih => exact ih (cells_putCell _ _ h)

theorem getCell_lt {a k : Nat} {l : List Host.Cell} (h : cellsAbove (some a) l = true) (hk : k ≤ a) : getCell l k = 0 := by
  cases l with
  | nil => rfl
  | cons e t =>
    obtain ⟨i, b⟩ := e
    simp only [cellsAbove, Bool.and_eq_true, decide_eq_true_eq] at h
    have hik : i ≠ k := by omega
    have : k < i := by omega
    simp [getCell, hik, this]

/-- What a cell reads as after a write: the byte written at its own key, and elsewhere what it read as before. -/
theorem getCell_putCell {lo : Option Nat} {l : List Host.Cell} (h : cellsAbove lo l = true) (k j : Nat) (v : Byte) :
    getCell (putCell l k v) j = if k = j then v else getCell l j := by
  induction l generalizing lo with
  | nil =>
    unfold putCell
    by_cases hv : v = 0
    · rw [if_pos hv, hv]; simp [getCell]
    · rw [if_neg hv]
      by_cases hj : k = j <;> simp [getCell, hj]
  | cons e t ih =>
    obtain ⟨a, b⟩ := e
    simp only [cellsAbove, Bool.and_eq_true] at h
    have iht := ih h.2
    unfold putCell
    by_cases hak : a = k
    · rw [if_pos hak]
      subst hak
      by_cases hv : v = 0
      · rw [if_pos hv, hv]
        by_cases hj : a = j
        · subst hj; simp [getCell_lt h.2 (Nat.le_refl _)]
        · by_cases hlt : j < a
          · simp [getCell, hj, hlt, getCell_lt h.2 (Nat.le_of_lt hlt)]
          · simp [getCell, hj, hlt]
      · rw [if_neg hv]
        by_cases hj : a = j <;> simp [getCell, hj]
    · rw [if_neg hak]
      by_cases hlt : k < a
      · rw [if_pos hlt]
        by_cases hv : v = 0
        · rw [if_pos hv, hv]
          by_cases hj : k = j
          · subst hj; simp [getCell, hak, hlt]
          · simp [hj]
        · rw [if_neg hv]
          by_cases hj : k = j
          · simp [getCell, hj]
          · by_cases hjk : j < k
            · have h1 : a ≠ j := by omega
              have h2 : j < a := by omega
              simp [getCell, hj, hjk, h1, h2]
            · simp [getCell, hj, hjk]
      · rw [if_neg hlt]
        by_cases haj : a = j
        · subst haj; simp [getCell, Ne.symm hak]
        · by_cases hja : j < a
          · have h1 : k ≠ j := by omega
            simp [getCell, haj, hja, h1]
          · simp [getCell, haj, hja, iht]

namespace Memory

@[simp] theorem empty_wf : Memory.wf {} = true := rfl

theorem write_wf {m : Memory} (ws : List (Nat × Byte)) (h : m.wf = true) : (m.write ws).wf = true :=
  cells_foldl (fun w => w) ws h

theorem clearSlice_wf {m : Memory} (core : Nat) (h : m.wf = true) : (m.clearSlice core).wf = true :=
  cellsAbove_filter _ h

@[simp] theorem setTag_cells (m : Memory) (c l : Nat) (t : Byte) : (m.setTag c l t).cells = m.cells := rfl
@[simp] theorem setMark_cells (m : Memory) (k : Nat) (x : Mark) : (m.setMark k x).cells = m.cells := rfl

theorem byte_write_one {m : Memory} (h : m.wf = true) (k j : Nat) (v : Byte) :
    (m.write [(k, v)]).byte j = if k = j then v else m.byte j := getCell_putCell h k j v

/-- A byte no write names reads as before. -/
theorem byte_write_other {m : Memory} (ws : List (Nat × Byte)) (h : m.wf = true) (j : Nat) (hj : ∀ w ∈ ws, w.1 ≠ j) :
    (m.write ws).byte j = m.byte j := by
  suffices H : ∀ l : List Host.Cell, cellsAbove none l = true →
      getCell (ws.foldl (fun c w => putCell c w.1 w.2) l) j = getCell l j from H m.cells h
  induction ws with
  | nil => intro l _; rfl
  | cons w ws ih =>
    intro l hl
    have hw := hj w (by simp)
    have := ih (fun x hx => hj x (by simp [hx])) (putCell l w.1 w.2) (cells_putCell _ _ hl)
    simp only [List.foldl_cons, this, getCell_putCell hl, hw, if_false]

end Memory

end Machine
end Sys2Proof
end

