-- ==== Sys2Proof/Laws/State.lean ====
section
/-! SUPPORT. What the updates of the state leave alone, field by field, and what a part reads as after an update. -/

namespace Sys2Proof.Machine.State

variable (s : State)

/-! `setCore` -/

@[simp] theorem setCore_clock (c : Nat) (v : Core) : (s.setCore c v).clock = s.clock := rfl
@[simp] theorem setCore_agenda (c : Nat) (v : Core) : (s.setCore c v).agenda = s.agenda := rfl
@[simp] theorem setCore_cur (c : Nat) (v : Core) : (s.setCore c v).cur = s.cur := rfl
@[simp] theorem setCore_freeCtr (c : Nat) (v : Core) : (s.setCore c v).freeCtr = s.freeCtr := rfl
@[simp] theorem setCore_powered (c : Nat) (v : Core) : (s.setCore c v).powered = s.powered := rfl
@[simp] theorem setCore_packageNo (c : Nat) (v : Core) : (s.setCore c v).packageNo = s.packageNo := rfl
@[simp] theorem setCore_mem (c : Nat) (v : Core) : (s.setCore c v).mem = s.mem := rfl
@[simp] theorem setCore_host (c : Nat) (v : Core) : (s.setCore c v).host = s.host := rfl
@[simp] theorem setCore_power (c : Nat) (v : Core) : (s.setCore c v).power = s.power := rfl
@[simp] theorem setCore_island (c : Nat) (v : Core) : (s.setCore c v).island = s.island := rfl
@[simp] theorem setCore_pair (c : Nat) (v : Core) : (s.setCore c v).pair = s.pair := rfl
@[simp] theorem setCore_rollCfg (c : Nat) (v : Core) : (s.setCore c v).rollCfg = s.rollCfg := rfl
@[simp] theorem setCore_code (c : Nat) (v : Core) : (s.setCore c v).code = s.code := rfl
@[simp] theorem setCore_quads (c : Nat) (v : Core) : (s.setCore c v).quads = s.quads := rfl
@[simp] theorem setCore_regions (c : Nat) (v : Core) : (s.setCore c v).regions = s.regions := rfl
@[simp] theorem setCore_sources (c : Nat) (v : Core) : (s.setCore c v).sources = s.sources := rfl
@[simp] theorem setCore_crossings (c : Nat) (v : Core) : (s.setCore c v).crossings = s.crossings := rfl
@[simp] theorem setCore_ports (c : Nat) (v : Core) : (s.setCore c v).ports = s.ports := rfl
@[simp] theorem setCore_queues (c : Nat) (v : Core) : (s.setCore c v).queues = s.queues := rfl
@[simp] theorem setCore_parts (c : Nat) (v : Core) : (s.setCore c v).parts = s.parts := rfl
@[simp] theorem setCore_hbm (c : Nat) (v : Core) : (s.setCore c v).hbm = s.hbm := rfl
@[simp] theorem setCore_nodes (c : Nat) (v : Core) : (s.setCore c v).nodes = s.nodes := rfl
@[simp] theorem setCore_holds (c : Nat) (v : Core) : (s.setCore c v).holds = s.holds := rfl
@[simp] theorem setCore_chains (c : Nat) (v : Core) : (s.setCore c v).chains = s.chains := rfl
@[simp] theorem setCore_credits (c : Nat) (v : Core) : (s.setCore c v).credits = s.credits := rfl
@[simp] theorem setCore_down (c : Nat) (v : Core) : (s.setCore c v).down = s.down := rfl

/-! `modCore` -/

@[simp] theorem modCore_clock (c : Nat) (f : Core → Core) : (s.modCore c f).clock = s.clock := rfl
@[simp] theorem modCore_agenda (c : Nat) (f : Core → Core) : (s.modCore c f).agenda = s.agenda := rfl
@[simp] theorem modCore_cur (c : Nat) (f : Core → Core) : (s.modCore c f).cur = s.cur := rfl
@[simp] theorem modCore_freeCtr (c : Nat) (f : Core → Core) : (s.modCore c f).freeCtr = s.freeCtr := rfl
@[simp] theorem modCore_powered (c : Nat) (f : Core → Core) : (s.modCore c f).powered = s.powered := rfl
@[simp] theorem modCore_packageNo (c : Nat) (f : Core → Core) : (s.modCore c f).packageNo = s.packageNo := rfl
@[simp] theorem modCore_mem (c : Nat) (f : Core → Core) : (s.modCore c f).mem = s.mem := rfl
@[simp] theorem modCore_host (c : Nat) (f : Core → Core) : (s.modCore c f).host = s.host := rfl
@[simp] theorem modCore_power (c : Nat) (f : Core → Core) : (s.modCore c f).power = s.power := rfl
@[simp] theorem modCore_island (c : Nat) (f : Core → Core) : (s.modCore c f).island = s.island := rfl
@[simp] theorem modCore_pair (c : Nat) (f : Core → Core) : (s.modCore c f).pair = s.pair := rfl
@[simp] theorem modCore_rollCfg (c : Nat) (f : Core → Core) : (s.modCore c f).rollCfg = s.rollCfg := rfl
@[simp] theorem modCore_code (c : Nat) (f : Core → Core) : (s.modCore c f).code = s.code := rfl
@[simp] theorem modCore_quads (c : Nat) (f : Core → Core) : (s.modCore c f).quads = s.quads := rfl
@[simp] theorem modCore_regions (c : Nat) (f : Core → Core) : (s.modCore c f).regions = s.regions := rfl
@[simp] theorem modCore_sources (c : Nat) (f : Core → Core) : (s.modCore c f).sources = s.sources := rfl
@[simp] theorem modCore_crossings (c : Nat) (f : Core → Core) : (s.modCore c f).crossings = s.crossings := rfl
@[simp] theorem modCore_ports (c : Nat) (f : Core → Core) : (s.modCore c f).ports = s.ports := rfl
@[simp] theorem modCore_queues (c : Nat) (f : Core → Core) : (s.modCore c f).queues = s.queues := rfl
@[simp] theorem modCore_parts (c : Nat) (f : Core → Core) : (s.modCore c f).parts = s.parts := rfl
@[simp] theorem modCore_hbm (c : Nat) (f : Core → Core) : (s.modCore c f).hbm = s.hbm := rfl
@[simp] theorem modCore_nodes (c : Nat) (f : Core → Core) : (s.modCore c f).nodes = s.nodes := rfl
@[simp] theorem modCore_holds (c : Nat) (f : Core → Core) : (s.modCore c f).holds = s.holds := rfl
@[simp] theorem modCore_chains (c : Nat) (f : Core → Core) : (s.modCore c f).chains = s.chains := rfl
@[simp] theorem modCore_credits (c : Nat) (f : Core → Core) : (s.modCore c f).credits = s.credits := rfl
@[simp] theorem modCore_down (c : Nat) (f : Core → Core) : (s.modCore c f).down = s.down := rfl

/-! `setQuad` -/

@[simp] theorem setQuad_clock (q : Nat) (v : Quad) : (s.setQuad q v).clock = s.clock := rfl
@[simp] theorem setQuad_agenda (q : Nat) (v : Quad) : (s.setQuad q v).agenda = s.agenda := rfl
@[simp] theorem setQuad_cur (q : Nat) (v : Quad) : (s.setQuad q v).cur = s.cur := rfl
@[simp] theorem setQuad_freeCtr (q : Nat) (v : Quad) : (s.setQuad q v).freeCtr = s.freeCtr := rfl
@[simp] theorem setQuad_powered (q : Nat) (v : Quad) : (s.setQuad q v).powered = s.powered := rfl
@[simp] theorem setQuad_packageNo (q : Nat) (v : Quad) : (s.setQuad q v).packageNo = s.packageNo := rfl
@[simp] theorem setQuad_mem (q : Nat) (v : Quad) : (s.setQuad q v).mem = s.mem := rfl
@[simp] theorem setQuad_host (q : Nat) (v : Quad) : (s.setQuad q v).host = s.host := rfl
@[simp] theorem setQuad_power (q : Nat) (v : Quad) : (s.setQuad q v).power = s.power := rfl
@[simp] theorem setQuad_island (q : Nat) (v : Quad) : (s.setQuad q v).island = s.island := rfl
@[simp] theorem setQuad_pair (q : Nat) (v : Quad) : (s.setQuad q v).pair = s.pair := rfl
@[simp] theorem setQuad_rollCfg (q : Nat) (v : Quad) : (s.setQuad q v).rollCfg = s.rollCfg := rfl
@[simp] theorem setQuad_cores (q : Nat) (v : Quad) : (s.setQuad q v).cores = s.cores := rfl
@[simp] theorem setQuad_code (q : Nat) (v : Quad) : (s.setQuad q v).code = s.code := rfl
@[simp] theorem setQuad_regions (q : Nat) (v : Quad) : (s.setQuad q v).regions = s.regions := rfl
@[simp] theorem setQuad_sources (q : Nat) (v : Quad) : (s.setQuad q v).sources = s.sources := rfl
@[simp] theorem setQuad_crossings (q : Nat) (v : Quad) : (s.setQuad q v).crossings = s.crossings := rfl
@[simp] theorem setQuad_ports (q : Nat) (v : Quad) : (s.setQuad q v).ports = s.ports := rfl
@[simp] theorem setQuad_queues (q : Nat) (v : Quad) : (s.setQuad q v).queues = s.queues := rfl
@[simp] theorem setQuad_parts (q : Nat) (v : Quad) : (s.setQuad q v).parts = s.parts := rfl
@[simp] theorem setQuad_hbm (q : Nat) (v : Quad) : (s.setQuad q v).hbm = s.hbm := rfl
@[simp] theorem setQuad_nodes (q : Nat) (v : Quad) : (s.setQuad q v).nodes = s.nodes := rfl
@[simp] theorem setQuad_holds (q : Nat) (v : Quad) : (s.setQuad q v).holds = s.holds := rfl
@[simp] theorem setQuad_chains (q : Nat) (v : Quad) : (s.setQuad q v).chains = s.chains := rfl
@[simp] theorem setQuad_credits (q : Nat) (v : Quad) : (s.setQuad q v).credits = s.credits := rfl
@[simp] theorem setQuad_down (q : Nat) (v : Quad) : (s.setQuad q v).down = s.down := rfl

/-! `modQuad` -/

@[simp] theorem modQuad_clock (q : Nat) (f : Quad → Quad) : (s.modQuad q f).clock = s.clock := rfl
@[simp] theorem modQuad_agenda (q : Nat) (f : Quad → Quad) : (s.modQuad q f).agenda = s.agenda := rfl
@[simp] theorem modQuad_cur (q : Nat) (f : Quad → Quad) : (s.modQuad q f).cur = s.cur := rfl
@[simp] theorem modQuad_freeCtr (q : Nat) (f : Quad → Quad) : (s.modQuad q f).freeCtr = s.freeCtr := rfl
@[simp] theorem modQuad_powered (q : Nat) (f : Quad → Quad) : (s.modQuad q f).powered = s.powered := rfl
@[simp] theorem modQuad_packageNo (q : Nat) (f : Quad → Quad) : (s.modQuad q f).packageNo = s.packageNo := rfl
@[simp] theorem modQuad_mem (q : Nat) (f : Quad → Quad) : (s.modQuad q f).mem = s.mem := rfl
@[simp] theorem modQuad_host (q : Nat) (f : Quad → Quad) : (s.modQuad q f).host = s.host := rfl
@[simp] theorem modQuad_power (q : Nat) (f : Quad → Quad) : (s.modQuad q f).power = s.power := rfl
@[simp] theorem modQuad_island (q : Nat) (f : Quad → Quad) : (s.modQuad q f).island = s.island := rfl
@[simp] theorem modQuad_pair (q : Nat) (f : Quad → Quad) : (s.modQuad q f).pair = s.pair := rfl
@[simp] theorem modQuad_rollCfg (q : Nat) (f : Quad → Quad) : (s.modQuad q f).rollCfg = s.rollCfg := rfl
@[simp] theorem modQuad_cores (q : Nat) (f : Quad → Quad) : (s.modQuad q f).cores = s.cores := rfl
@[simp] theorem modQuad_code (q : Nat) (f : Quad → Quad) : (s.modQuad q f).code = s.code := rfl
@[simp] theorem modQuad_regions (q : Nat) (f : Quad → Quad) : (s.modQuad q f).regions = s.regions := rfl
@[simp] theorem modQuad_sources (q : Nat) (f : Quad → Quad) : (s.modQuad q f).sources = s.sources := rfl
@[simp] theorem modQuad_crossings (q : Nat) (f : Quad → Quad) : (s.modQuad q f).crossings = s.crossings := rfl
@[simp] theorem modQuad_ports (q : Nat) (f : Quad → Quad) : (s.modQuad q f).ports = s.ports := rfl
@[simp] theorem modQuad_queues (q : Nat) (f : Quad → Quad) : (s.modQuad q f).queues = s.queues := rfl
@[simp] theorem modQuad_parts (q : Nat) (f : Quad → Quad) : (s.modQuad q f).parts = s.parts := rfl
@[simp] theorem modQuad_hbm (q : Nat) (f : Quad → Quad) : (s.modQuad q f).hbm = s.hbm := rfl
@[simp] theorem modQuad_nodes (q : Nat) (f : Quad → Quad) : (s.modQuad q f).nodes = s.nodes := rfl
@[simp] theorem modQuad_holds (q : Nat) (f : Quad → Quad) : (s.modQuad q f).holds = s.holds := rfl
@[simp] theorem modQuad_chains (q : Nat) (f : Quad → Quad) : (s.modQuad q f).chains = s.chains := rfl
@[simp] theorem modQuad_credits (q : Nat) (f : Quad → Quad) : (s.modQuad q f).credits = s.credits := rfl
@[simp] theorem modQuad_down (q : Nat) (f : Quad → Quad) : (s.modQuad q f).down = s.down := rfl

/-! `setRegion` -/

@[simp] theorem setRegion_clock (r : Nat) (v : Region) : (s.setRegion r v).clock = s.clock := rfl
@[simp] theorem setRegion_agenda (r : Nat) (v : Region) : (s.setRegion r v).agenda = s.agenda := rfl
@[simp] theorem setRegion_cur (r : Nat) (v : Region) : (s.setRegion r v).cur = s.cur := rfl
@[simp] theorem setRegion_freeCtr (r : Nat) (v : Region) : (s.setRegion r v).freeCtr = s.freeCtr := rfl
@[simp] theorem setRegion_powered (r : Nat) (v : Region) : (s.setRegion r v).powered = s.powered := rfl
@[simp] theorem setRegion_packageNo (r : Nat) (v : Region) : (s.setRegion r v).packageNo = s.packageNo := rfl
@[simp] theorem setRegion_mem (r : Nat) (v : Region) : (s.setRegion r v).mem = s.mem := rfl
@[simp] theorem setRegion_host (r : Nat) (v : Region) : (s.setRegion r v).host = s.host := rfl
@[simp] theorem setRegion_power (r : Nat) (v : Region) : (s.setRegion r v).power = s.power := rfl
@[simp] theorem setRegion_island (r : Nat) (v : Region) : (s.setRegion r v).island = s.island := rfl
@[simp] theorem setRegion_pair (r : Nat) (v : Region) : (s.setRegion r v).pair = s.pair := rfl
@[simp] theorem setRegion_rollCfg (r : Nat) (v : Region) : (s.setRegion r v).rollCfg = s.rollCfg := rfl
@[simp] theorem setRegion_cores (r : Nat) (v : Region) : (s.setRegion r v).cores = s.cores := rfl
@[simp] theorem setRegion_code (r : Nat) (v : Region) : (s.setRegion r v).code = s.code := rfl
@[simp] theorem setRegion_quads (r : Nat) (v : Region) : (s.setRegion r v).quads = s.quads := rfl
@[simp] theorem setRegion_sources (r : Nat) (v : Region) : (s.setRegion r v).sources = s.sources := rfl
@[simp] theorem setRegion_crossings (r : Nat) (v : Region) : (s.setRegion r v).crossings = s.crossings := rfl
@[simp] theorem setRegion_ports (r : Nat) (v : Region) : (s.setRegion r v).ports = s.ports := rfl
@[simp] theorem setRegion_queues (r : Nat) (v : Region) : (s.setRegion r v).queues = s.queues := rfl
@[simp] theorem setRegion_parts (r : Nat) (v : Region) : (s.setRegion r v).parts = s.parts := rfl
@[simp] theorem setRegion_hbm (r : Nat) (v : Region) : (s.setRegion r v).hbm = s.hbm := rfl
@[simp] theorem setRegion_nodes (r : Nat) (v : Region) : (s.setRegion r v).nodes = s.nodes := rfl
@[simp] theorem setRegion_holds (r : Nat) (v : Region) : (s.setRegion r v).holds = s.holds := rfl
@[simp] theorem setRegion_chains (r : Nat) (v : Region) : (s.setRegion r v).chains = s.chains := rfl
@[simp] theorem setRegion_credits (r : Nat) (v : Region) : (s.setRegion r v).credits = s.credits := rfl
@[simp] theorem setRegion_down (r : Nat) (v : Region) : (s.setRegion r v).down = s.down := rfl

/-! `modRegion` -/

@[simp] theorem modRegion_clock (r : Nat) (f : Region → Region) : (s.modRegion r f).clock = s.clock := rfl
@[simp] theorem modRegion_agenda (r : Nat) (f : Region → Region) : (s.modRegion r f).agenda = s.agenda := rfl
@[simp] theorem modRegion_cur (r : Nat) (f : Region → Region) : (s.modRegion r f).cur = s.cur := rfl
@[simp] theorem modRegion_freeCtr (r : Nat) (f : Region → Region) : (s.modRegion r f).freeCtr = s.freeCtr := rfl
@[simp] theorem modRegion_powered (r : Nat) (f : Region → Region) : (s.modRegion r f).powered = s.powered := rfl
@[simp] theorem modRegion_packageNo (r : Nat) (f : Region → Region) : (s.modRegion r f).packageNo = s.packageNo := rfl
@[simp] theorem modRegion_mem (r : Nat) (f : Region → Region) : (s.modRegion r f).mem = s.mem := rfl
@[simp] theorem modRegion_host (r : Nat) (f : Region → Region) : (s.modRegion r f).host = s.host := rfl
@[simp] theorem modRegion_power (r : Nat) (f : Region → Region) : (s.modRegion r f).power = s.power := rfl
@[simp] theorem modRegion_island (r : Nat) (f : Region → Region) : (s.modRegion r f).island = s.island := rfl
@[simp] theorem modRegion_pair (r : Nat) (f : Region → Region) : (s.modRegion r f).pair = s.pair := rfl
@[simp] theorem modRegion_rollCfg (r : Nat) (f : Region → Region) : (s.modRegion r f).rollCfg = s.rollCfg := rfl
@[simp] theorem modRegion_cores (r : Nat) (f : Region → Region) : (s.modRegion r f).cores = s.cores := rfl
@[simp] theorem modRegion_code (r : Nat) (f : Region → Region) : (s.modRegion r f).code = s.code := rfl
@[simp] theorem modRegion_quads (r : Nat) (f : Region → Region) : (s.modRegion r f).quads = s.quads := rfl
@[simp] theorem modRegion_sources (r : Nat) (f : Region → Region) : (s.modRegion r f).sources = s.sources := rfl
@[simp] theorem modRegion_crossings (r : Nat) (f : Region → Region) : (s.modRegion r f).crossings = s.crossings := rfl
@[simp] theorem modRegion_ports (r : Nat) (f : Region → Region) : (s.modRegion r f).ports = s.ports := rfl
@[simp] theorem modRegion_queues (r : Nat) (f : Region → Region) : (s.modRegion r f).queues = s.queues := rfl
@[simp] theorem modRegion_parts (r : Nat) (f : Region → Region) : (s.modRegion r f).parts = s.parts := rfl
@[simp] theorem modRegion_hbm (r : Nat) (f : Region → Region) : (s.modRegion r f).hbm = s.hbm := rfl
@[simp] theorem modRegion_nodes (r : Nat) (f : Region → Region) : (s.modRegion r f).nodes = s.nodes := rfl
@[simp] theorem modRegion_holds (r : Nat) (f : Region → Region) : (s.modRegion r f).holds = s.holds := rfl
@[simp] theorem modRegion_chains (r : Nat) (f : Region → Region) : (s.modRegion r f).chains = s.chains := rfl
@[simp] theorem modRegion_credits (r : Nat) (f : Region → Region) : (s.modRegion r f).credits = s.credits := rfl
@[simp] theorem modRegion_down (r : Nat) (f : Region → Region) : (s.modRegion r f).down = s.down := rfl

/-! `modSource` -/

@[simp] theorem modSource_clock (i : Nat) (f : Source → Source) : (s.modSource i f).clock = s.clock := rfl
@[simp] theorem modSource_agenda (i : Nat) (f : Source → Source) : (s.modSource i f).agenda = s.agenda := rfl
@[simp] theorem modSource_cur (i : Nat) (f : Source → Source) : (s.modSource i f).cur = s.cur := rfl
@[simp] theorem modSource_freeCtr (i : Nat) (f : Source → Source) : (s.modSource i f).freeCtr = s.freeCtr := rfl
@[simp] theorem modSource_powered (i : Nat) (f : Source → Source) : (s.modSource i f).powered = s.powered := rfl
@[simp] theorem modSource_packageNo (i : Nat) (f : Source → Source) : (s.modSource i f).packageNo = s.packageNo := rfl
@[simp] theorem modSource_mem (i : Nat) (f : Source → Source) : (s.modSource i f).mem = s.mem := rfl
@[simp] theorem modSource_host (i : Nat) (f : Source → Source) : (s.modSource i f).host = s.host := rfl
@[simp] theorem modSource_power (i : Nat) (f : Source → Source) : (s.modSource i f).power = s.power := rfl
@[simp] theorem modSource_island (i : Nat) (f : Source → Source) : (s.modSource i f).island = s.island := rfl
@[simp] theorem modSource_pair (i : Nat) (f : Source → Source) : (s.modSource i f).pair = s.pair := rfl
@[simp] theorem modSource_rollCfg (i : Nat) (f : Source → Source) : (s.modSource i f).rollCfg = s.rollCfg := rfl
@[simp] theorem modSource_cores (i : Nat) (f : Source → Source) : (s.modSource i f).cores = s.cores := rfl
@[simp] theorem modSource_code (i : Nat) (f : Source → Source) : (s.modSource i f).code = s.code := rfl
@[simp] theorem modSource_quads (i : Nat) (f : Source → Source) : (s.modSource i f).quads = s.quads := rfl
@[simp] theorem modSource_regions (i : Nat) (f : Source → Source) : (s.modSource i f).regions = s.regions := rfl
@[simp] theorem modSource_crossings (i : Nat) (f : Source → Source) : (s.modSource i f).crossings = s.crossings := rfl
@[simp] theorem modSource_ports (i : Nat) (f : Source → Source) : (s.modSource i f).ports = s.ports := rfl
@[simp] theorem modSource_queues (i : Nat) (f : Source → Source) : (s.modSource i f).queues = s.queues := rfl
@[simp] theorem modSource_parts (i : Nat) (f : Source → Source) : (s.modSource i f).parts = s.parts := rfl
@[simp] theorem modSource_hbm (i : Nat) (f : Source → Source) : (s.modSource i f).hbm = s.hbm := rfl
@[simp] theorem modSource_nodes (i : Nat) (f : Source → Source) : (s.modSource i f).nodes = s.nodes := rfl
@[simp] theorem modSource_holds (i : Nat) (f : Source → Source) : (s.modSource i f).holds = s.holds := rfl
@[simp] theorem modSource_chains (i : Nat) (f : Source → Source) : (s.modSource i f).chains = s.chains := rfl
@[simp] theorem modSource_credits (i : Nat) (f : Source → Source) : (s.modSource i f).credits = s.credits := rfl
@[simp] theorem modSource_down (i : Nat) (f : Source → Source) : (s.modSource i f).down = s.down := rfl

/-! `modCrossing` -/

@[simp] theorem modCrossing_clock (i : Nat) (f : Crossing → Crossing) : (s.modCrossing i f).clock = s.clock := rfl
@[simp] theorem modCrossing_agenda (i : Nat) (f : Crossing → Crossing) : (s.modCrossing i f).agenda = s.agenda := rfl
@[simp] theorem modCrossing_cur (i : Nat) (f : Crossing → Crossing) : (s.modCrossing i f).cur = s.cur := rfl
@[simp] theorem modCrossing_freeCtr (i : Nat) (f : Crossing → Crossing) : (s.modCrossing i f).freeCtr = s.freeCtr := rfl
@[simp] theorem modCrossing_powered (i : Nat) (f : Crossing → Crossing) : (s.modCrossing i f).powered = s.powered := rfl
@[simp] theorem modCrossing_packageNo (i : Nat) (f : Crossing → Crossing) : (s.modCrossing i f).packageNo = s.packageNo := rfl
@[simp] theorem modCrossing_mem (i : Nat) (f : Crossing → Crossing) : (s.modCrossing i f).mem = s.mem := rfl
@[simp] theorem modCrossing_host (i : Nat) (f : Crossing → Crossing) : (s.modCrossing i f).host = s.host := rfl
@[simp] theorem modCrossing_power (i : Nat) (f : Crossing → Crossing) : (s.modCrossing i f).power = s.power := rfl
@[simp] theorem modCrossing_island (i : Nat) (f : Crossing → Crossing) : (s.modCrossing i f).island = s.island := rfl
@[simp] theorem modCrossing_pair (i : Nat) (f : Crossing → Crossing) : (s.modCrossing i f).pair = s.pair := rfl
@[simp] theorem modCrossing_rollCfg (i : Nat) (f : Crossing → Crossing) : (s.modCrossing i f).rollCfg = s.rollCfg := rfl
@[simp] theorem modCrossing_cores (i : Nat) (f : Crossing → Crossing) : (s.modCrossing i f).cores = s.cores := rfl
@[simp] theorem modCrossing_code (i : Nat) (f : Crossing → Crossing) : (s.modCrossing i f).code = s.code := rfl
@[simp] theorem modCrossing_quads (i : Nat) (f : Crossing → Crossing) : (s.modCrossing i f).quads = s.quads := rfl
@[simp] theorem modCrossing_regions (i : Nat) (f : Crossing → Crossing) : (s.modCrossing i f).regions = s.regions := rfl
@[simp] theorem modCrossing_sources (i : Nat) (f : Crossing → Crossing) : (s.modCrossing i f).sources = s.sources := rfl
@[simp] theorem modCrossing_ports (i : Nat) (f : Crossing → Crossing) : (s.modCrossing i f).ports = s.ports := rfl
@[simp] theorem modCrossing_queues (i : Nat) (f : Crossing → Crossing) : (s.modCrossing i f).queues = s.queues := rfl
@[simp] theorem modCrossing_parts (i : Nat) (f : Crossing → Crossing) : (s.modCrossing i f).parts = s.parts := rfl
@[simp] theorem modCrossing_hbm (i : Nat) (f : Crossing → Crossing) : (s.modCrossing i f).hbm = s.hbm := rfl
@[simp] theorem modCrossing_nodes (i : Nat) (f : Crossing → Crossing) : (s.modCrossing i f).nodes = s.nodes := rfl
@[simp] theorem modCrossing_holds (i : Nat) (f : Crossing → Crossing) : (s.modCrossing i f).holds = s.holds := rfl
@[simp] theorem modCrossing_chains (i : Nat) (f : Crossing → Crossing) : (s.modCrossing i f).chains = s.chains := rfl
@[simp] theorem modCrossing_credits (i : Nat) (f : Crossing → Crossing) : (s.modCrossing i f).credits = s.credits := rfl
@[simp] theorem modCrossing_down (i : Nat) (f : Crossing → Crossing) : (s.modCrossing i f).down = s.down := rfl

/-! `modPort` -/

@[simp] theorem modPort_clock (i : Nat) (f : Port → Port) : (s.modPort i f).clock = s.clock := rfl
@[simp] theorem modPort_agenda (i : Nat) (f : Port → Port) : (s.modPort i f).agenda = s.agenda := rfl
@[simp] theorem modPort_cur (i : Nat) (f : Port → Port) : (s.modPort i f).cur = s.cur := rfl
@[simp] theorem modPort_freeCtr (i : Nat) (f : Port → Port) : (s.modPort i f).freeCtr = s.freeCtr := rfl
@[simp] theorem modPort_powered (i : Nat) (f : Port → Port) : (s.modPort i f).powered = s.powered := rfl
@[simp] theorem modPort_packageNo (i : Nat) (f : Port → Port) : (s.modPort i f).packageNo = s.packageNo := rfl
@[simp] theorem modPort_mem (i : Nat) (f : Port → Port) : (s.modPort i f).mem = s.mem := rfl
@[simp] theorem modPort_host (i : Nat) (f : Port → Port) : (s.modPort i f).host = s.host := rfl
@[simp] theorem modPort_power (i : Nat) (f : Port → Port) : (s.modPort i f).power = s.power := rfl
@[simp] theorem modPort_island (i : Nat) (f : Port → Port) : (s.modPort i f).island = s.island := rfl
@[simp] theorem modPort_pair (i : Nat) (f : Port → Port) : (s.modPort i f).pair = s.pair := rfl
@[simp] theorem modPort_rollCfg (i : Nat) (f : Port → Port) : (s.modPort i f).rollCfg = s.rollCfg := rfl
@[simp] theorem modPort_cores (i : Nat) (f : Port → Port) : (s.modPort i f).cores = s.cores := rfl
@[simp] theorem modPort_code (i : Nat) (f : Port → Port) : (s.modPort i f).code = s.code := rfl
@[simp] theorem modPort_quads (i : Nat) (f : Port → Port) : (s.modPort i f).quads = s.quads := rfl
@[simp] theorem modPort_regions (i : Nat) (f : Port → Port) : (s.modPort i f).regions = s.regions := rfl
@[simp] theorem modPort_sources (i : Nat) (f : Port → Port) : (s.modPort i f).sources = s.sources := rfl
@[simp] theorem modPort_crossings (i : Nat) (f : Port → Port) : (s.modPort i f).crossings = s.crossings := rfl
@[simp] theorem modPort_queues (i : Nat) (f : Port → Port) : (s.modPort i f).queues = s.queues := rfl
@[simp] theorem modPort_parts (i : Nat) (f : Port → Port) : (s.modPort i f).parts = s.parts := rfl
@[simp] theorem modPort_hbm (i : Nat) (f : Port → Port) : (s.modPort i f).hbm = s.hbm := rfl
@[simp] theorem modPort_nodes (i : Nat) (f : Port → Port) : (s.modPort i f).nodes = s.nodes := rfl
@[simp] theorem modPort_holds (i : Nat) (f : Port → Port) : (s.modPort i f).holds = s.holds := rfl
@[simp] theorem modPort_chains (i : Nat) (f : Port → Port) : (s.modPort i f).chains = s.chains := rfl
@[simp] theorem modPort_credits (i : Nat) (f : Port → Port) : (s.modPort i f).credits = s.credits := rfl
@[simp] theorem modPort_down (i : Nat) (f : Port → Port) : (s.modPort i f).down = s.down := rfl

/-! `modQueue` -/

@[simp] theorem modQueue_clock (i : Nat) (f : LQueue → LQueue) : (s.modQueue i f).clock = s.clock := rfl
@[simp] theorem modQueue_agenda (i : Nat) (f : LQueue → LQueue) : (s.modQueue i f).agenda = s.agenda := rfl
@[simp] theorem modQueue_cur (i : Nat) (f : LQueue → LQueue) : (s.modQueue i f).cur = s.cur := rfl
@[simp] theorem modQueue_freeCtr (i : Nat) (f : LQueue → LQueue) : (s.modQueue i f).freeCtr = s.freeCtr := rfl
@[simp] theorem modQueue_powered (i : Nat) (f : LQueue → LQueue) : (s.modQueue i f).powered = s.powered := rfl
@[simp] theorem modQueue_packageNo (i : Nat) (f : LQueue → LQueue) : (s.modQueue i f).packageNo = s.packageNo := rfl
@[simp] theorem modQueue_mem (i : Nat) (f : LQueue → LQueue) : (s.modQueue i f).mem = s.mem := rfl
@[simp] theorem modQueue_host (i : Nat) (f : LQueue → LQueue) : (s.modQueue i f).host = s.host := rfl
@[simp] theorem modQueue_power (i : Nat) (f : LQueue → LQueue) : (s.modQueue i f).power = s.power := rfl
@[simp] theorem modQueue_island (i : Nat) (f : LQueue → LQueue) : (s.modQueue i f).island = s.island := rfl
@[simp] theorem modQueue_pair (i : Nat) (f : LQueue → LQueue) : (s.modQueue i f).pair = s.pair := rfl
@[simp] theorem modQueue_rollCfg (i : Nat) (f : LQueue → LQueue) : (s.modQueue i f).rollCfg = s.rollCfg := rfl
@[simp] theorem modQueue_cores (i : Nat) (f : LQueue → LQueue) : (s.modQueue i f).cores = s.cores := rfl
@[simp] theorem modQueue_code (i : Nat) (f : LQueue → LQueue) : (s.modQueue i f).code = s.code := rfl
@[simp] theorem modQueue_quads (i : Nat) (f : LQueue → LQueue) : (s.modQueue i f).quads = s.quads := rfl
@[simp] theorem modQueue_regions (i : Nat) (f : LQueue → LQueue) : (s.modQueue i f).regions = s.regions := rfl
@[simp] theorem modQueue_sources (i : Nat) (f : LQueue → LQueue) : (s.modQueue i f).sources = s.sources := rfl
@[simp] theorem modQueue_crossings (i : Nat) (f : LQueue → LQueue) : (s.modQueue i f).crossings = s.crossings := rfl
@[simp] theorem modQueue_ports (i : Nat) (f : LQueue → LQueue) : (s.modQueue i f).ports = s.ports := rfl
@[simp] theorem modQueue_parts (i : Nat) (f : LQueue → LQueue) : (s.modQueue i f).parts = s.parts := rfl
@[simp] theorem modQueue_hbm (i : Nat) (f : LQueue → LQueue) : (s.modQueue i f).hbm = s.hbm := rfl
@[simp] theorem modQueue_nodes (i : Nat) (f : LQueue → LQueue) : (s.modQueue i f).nodes = s.nodes := rfl
@[simp] theorem modQueue_holds (i : Nat) (f : LQueue → LQueue) : (s.modQueue i f).holds = s.holds := rfl
@[simp] theorem modQueue_chains (i : Nat) (f : LQueue → LQueue) : (s.modQueue i f).chains = s.chains := rfl
@[simp] theorem modQueue_credits (i : Nat) (f : LQueue → LQueue) : (s.modQueue i f).credits = s.credits := rfl
@[simp] theorem modQueue_down (i : Nat) (f : LQueue → LQueue) : (s.modQueue i f).down = s.down := rfl

/-! `modPart` -/

@[simp] theorem modPart_clock (i : Nat) (f : Part → Part) : (s.modPart i f).clock = s.clock := rfl
@[simp] theorem modPart_agenda (i : Nat) (f : Part → Part) : (s.modPart i f).agenda = s.agenda := rfl
@[simp] theorem modPart_cur (i : Nat) (f : Part → Part) : (s.modPart i f).cur = s.cur := rfl
@[simp] theorem modPart_freeCtr (i : Nat) (f : Part → Part) : (s.modPart i f).freeCtr = s.freeCtr := rfl
@[simp] theorem modPart_powered (i : Nat) (f : Part → Part) : (s.modPart i f).powered = s.powered := rfl
@[simp] theorem modPart_packageNo (i : Nat) (f : Part → Part) : (s.modPart i f).packageNo = s.packageNo := rfl
@[simp] theorem modPart_mem (i : Nat) (f : Part → Part) : (s.modPart i f).mem = s.mem := rfl
@[simp] theorem modPart_host (i : Nat) (f : Part → Part) : (s.modPart i f).host = s.host := rfl
@[simp] theorem modPart_power (i : Nat) (f : Part → Part) : (s.modPart i f).power = s.power := rfl
@[simp] theorem modPart_island (i : Nat) (f : Part → Part) : (s.modPart i f).island = s.island := rfl
@[simp] theorem modPart_pair (i : Nat) (f : Part → Part) : (s.modPart i f).pair = s.pair := rfl
@[simp] theorem modPart_rollCfg (i : Nat) (f : Part → Part) : (s.modPart i f).rollCfg = s.rollCfg := rfl
@[simp] theorem modPart_cores (i : Nat) (f : Part → Part) : (s.modPart i f).cores = s.cores := rfl
@[simp] theorem modPart_code (i : Nat) (f : Part → Part) : (s.modPart i f).code = s.code := rfl
@[simp] theorem modPart_quads (i : Nat) (f : Part → Part) : (s.modPart i f).quads = s.quads := rfl
@[simp] theorem modPart_regions (i : Nat) (f : Part → Part) : (s.modPart i f).regions = s.regions := rfl
@[simp] theorem modPart_sources (i : Nat) (f : Part → Part) : (s.modPart i f).sources = s.sources := rfl
@[simp] theorem modPart_crossings (i : Nat) (f : Part → Part) : (s.modPart i f).crossings = s.crossings := rfl
@[simp] theorem modPart_ports (i : Nat) (f : Part → Part) : (s.modPart i f).ports = s.ports := rfl
@[simp] theorem modPart_queues (i : Nat) (f : Part → Part) : (s.modPart i f).queues = s.queues := rfl
@[simp] theorem modPart_hbm (i : Nat) (f : Part → Part) : (s.modPart i f).hbm = s.hbm := rfl
@[simp] theorem modPart_nodes (i : Nat) (f : Part → Part) : (s.modPart i f).nodes = s.nodes := rfl
@[simp] theorem modPart_holds (i : Nat) (f : Part → Part) : (s.modPart i f).holds = s.holds := rfl
@[simp] theorem modPart_chains (i : Nat) (f : Part → Part) : (s.modPart i f).chains = s.chains := rfl
@[simp] theorem modPart_credits (i : Nat) (f : Part → Part) : (s.modPart i f).credits = s.credits := rfl
@[simp] theorem modPart_down (i : Nat) (f : Part → Part) : (s.modPart i f).down = s.down := rfl

/-! `modStack` -/

@[simp] theorem modStack_clock (i : Nat) (f : Stack → Stack) : (s.modStack i f).clock = s.clock := rfl
@[simp] theorem modStack_agenda (i : Nat) (f : Stack → Stack) : (s.modStack i f).agenda = s.agenda := rfl
@[simp] theorem modStack_cur (i : Nat) (f : Stack → Stack) : (s.modStack i f).cur = s.cur := rfl
@[simp] theorem modStack_freeCtr (i : Nat) (f : Stack → Stack) : (s.modStack i f).freeCtr = s.freeCtr := rfl
@[simp] theorem modStack_powered (i : Nat) (f : Stack → Stack) : (s.modStack i f).powered = s.powered := rfl
@[simp] theorem modStack_packageNo (i : Nat) (f : Stack → Stack) : (s.modStack i f).packageNo = s.packageNo := rfl
@[simp] theorem modStack_mem (i : Nat) (f : Stack → Stack) : (s.modStack i f).mem = s.mem := rfl
@[simp] theorem modStack_host (i : Nat) (f : Stack → Stack) : (s.modStack i f).host = s.host := rfl
@[simp] theorem modStack_power (i : Nat) (f : Stack → Stack) : (s.modStack i f).power = s.power := rfl
@[simp] theorem modStack_island (i : Nat) (f : Stack → Stack) : (s.modStack i f).island = s.island := rfl
@[simp] theorem modStack_pair (i : Nat) (f : Stack → Stack) : (s.modStack i f).pair = s.pair := rfl
@[simp] theorem modStack_rollCfg (i : Nat) (f : Stack → Stack) : (s.modStack i f).rollCfg = s.rollCfg := rfl
@[simp] theorem modStack_cores (i : Nat) (f : Stack → Stack) : (s.modStack i f).cores = s.cores := rfl
@[simp] theorem modStack_code (i : Nat) (f : Stack → Stack) : (s.modStack i f).code = s.code := rfl
@[simp] theorem modStack_quads (i : Nat) (f : Stack → Stack) : (s.modStack i f).quads = s.quads := rfl
@[simp] theorem modStack_regions (i : Nat) (f : Stack → Stack) : (s.modStack i f).regions = s.regions := rfl
@[simp] theorem modStack_sources (i : Nat) (f : Stack → Stack) : (s.modStack i f).sources = s.sources := rfl
@[simp] theorem modStack_crossings (i : Nat) (f : Stack → Stack) : (s.modStack i f).crossings = s.crossings := rfl
@[simp] theorem modStack_ports (i : Nat) (f : Stack → Stack) : (s.modStack i f).ports = s.ports := rfl
@[simp] theorem modStack_queues (i : Nat) (f : Stack → Stack) : (s.modStack i f).queues = s.queues := rfl
@[simp] theorem modStack_parts (i : Nat) (f : Stack → Stack) : (s.modStack i f).parts = s.parts := rfl
@[simp] theorem modStack_nodes (i : Nat) (f : Stack → Stack) : (s.modStack i f).nodes = s.nodes := rfl
@[simp] theorem modStack_holds (i : Nat) (f : Stack → Stack) : (s.modStack i f).holds = s.holds := rfl
@[simp] theorem modStack_chains (i : Nat) (f : Stack → Stack) : (s.modStack i f).chains = s.chains := rfl
@[simp] theorem modStack_credits (i : Nat) (f : Stack → Stack) : (s.modStack i f).credits = s.credits := rfl
@[simp] theorem modStack_down (i : Nat) (f : Stack → Stack) : (s.modStack i f).down = s.down := rfl

/-! `setNode` -/

@[simp] theorem setNode_clock (n : Nat) (v : Node) : (s.setNode n v).clock = s.clock := rfl
@[simp] theorem setNode_agenda (n : Nat) (v : Node) : (s.setNode n v).agenda = s.agenda := rfl
@[simp] theorem setNode_cur (n : Nat) (v : Node) : (s.setNode n v).cur = s.cur := rfl
@[simp] theorem setNode_freeCtr (n : Nat) (v : Node) : (s.setNode n v).freeCtr = s.freeCtr := rfl
@[simp] theorem setNode_powered (n : Nat) (v : Node) : (s.setNode n v).powered = s.powered := rfl
@[simp] theorem setNode_packageNo (n : Nat) (v : Node) : (s.setNode n v).packageNo = s.packageNo := rfl
@[simp] theorem setNode_mem (n : Nat) (v : Node) : (s.setNode n v).mem = s.mem := rfl
@[simp] theorem setNode_host (n : Nat) (v : Node) : (s.setNode n v).host = s.host := rfl
@[simp] theorem setNode_power (n : Nat) (v : Node) : (s.setNode n v).power = s.power := rfl
@[simp] theorem setNode_island (n : Nat) (v : Node) : (s.setNode n v).island = s.island := rfl
@[simp] theorem setNode_pair (n : Nat) (v : Node) : (s.setNode n v).pair = s.pair := rfl
@[simp] theorem setNode_rollCfg (n : Nat) (v : Node) : (s.setNode n v).rollCfg = s.rollCfg := rfl
@[simp] theorem setNode_cores (n : Nat) (v : Node) : (s.setNode n v).cores = s.cores := rfl
@[simp] theorem setNode_code (n : Nat) (v : Node) : (s.setNode n v).code = s.code := rfl
@[simp] theorem setNode_quads (n : Nat) (v : Node) : (s.setNode n v).quads = s.quads := rfl
@[simp] theorem setNode_regions (n : Nat) (v : Node) : (s.setNode n v).regions = s.regions := rfl
@[simp] theorem setNode_sources (n : Nat) (v : Node) : (s.setNode n v).sources = s.sources := rfl
@[simp] theorem setNode_crossings (n : Nat) (v : Node) : (s.setNode n v).crossings = s.crossings := rfl
@[simp] theorem setNode_ports (n : Nat) (v : Node) : (s.setNode n v).ports = s.ports := rfl
@[simp] theorem setNode_queues (n : Nat) (v : Node) : (s.setNode n v).queues = s.queues := rfl
@[simp] theorem setNode_parts (n : Nat) (v : Node) : (s.setNode n v).parts = s.parts := rfl
@[simp] theorem setNode_hbm (n : Nat) (v : Node) : (s.setNode n v).hbm = s.hbm := rfl
@[simp] theorem setNode_holds (n : Nat) (v : Node) : (s.setNode n v).holds = s.holds := rfl
@[simp] theorem setNode_chains (n : Nat) (v : Node) : (s.setNode n v).chains = s.chains := rfl
@[simp] theorem setNode_credits (n : Nat) (v : Node) : (s.setNode n v).credits = s.credits := rfl
@[simp] theorem setNode_down (n : Nat) (v : Node) : (s.setNode n v).down = s.down := rfl

/-! `setEntry` -/

@[simp] theorem setEntry_clock (n : Nat) (e : JEntry) : (s.setEntry n e).clock = s.clock := rfl
@[simp] theorem setEntry_agenda (n : Nat) (e : JEntry) : (s.setEntry n e).agenda = s.agenda := rfl
@[simp] theorem setEntry_cur (n : Nat) (e : JEntry) : (s.setEntry n e).cur = s.cur := rfl
@[simp] theorem setEntry_freeCtr (n : Nat) (e : JEntry) : (s.setEntry n e).freeCtr = s.freeCtr := rfl
@[simp] theorem setEntry_powered (n : Nat) (e : JEntry) : (s.setEntry n e).powered = s.powered := rfl
@[simp] theorem setEntry_packageNo (n : Nat) (e : JEntry) : (s.setEntry n e).packageNo = s.packageNo := rfl
@[simp] theorem setEntry_mem (n : Nat) (e : JEntry) : (s.setEntry n e).mem = s.mem := rfl
@[simp] theorem setEntry_power (n : Nat) (e : JEntry) : (s.setEntry n e).power = s.power := rfl
@[simp] theorem setEntry_island (n : Nat) (e : JEntry) : (s.setEntry n e).island = s.island := rfl
@[simp] theorem setEntry_pair (n : Nat) (e : JEntry) : (s.setEntry n e).pair = s.pair := rfl
@[simp] theorem setEntry_rollCfg (n : Nat) (e : JEntry) : (s.setEntry n e).rollCfg = s.rollCfg := rfl
@[simp] theorem setEntry_cores (n : Nat) (e : JEntry) : (s.setEntry n e).cores = s.cores := rfl
@[simp] theorem setEntry_code (n : Nat) (e : JEntry) : (s.setEntry n e).code = s.code := rfl
@[simp] theorem setEntry_quads (n : Nat) (e : JEntry) : (s.setEntry n e).quads = s.quads := rfl
@[simp] theorem setEntry_regions (n : Nat) (e : JEntry) : (s.setEntry n e).regions = s.regions := rfl
@[simp] theorem setEntry_sources (n : Nat) (e : JEntry) : (s.setEntry n e).sources = s.sources := rfl
@[simp] theorem setEntry_crossings (n : Nat) (e : JEntry) : (s.setEntry n e).crossings = s.crossings := rfl
@[simp] theorem setEntry_ports (n : Nat) (e : JEntry) : (s.setEntry n e).ports = s.ports := rfl
@[simp] theorem setEntry_queues (n : Nat) (e : JEntry) : (s.setEntry n e).queues = s.queues := rfl
@[simp] theorem setEntry_parts (n : Nat) (e : JEntry) : (s.setEntry n e).parts = s.parts := rfl
@[simp] theorem setEntry_hbm (n : Nat) (e : JEntry) : (s.setEntry n e).hbm = s.hbm := rfl
@[simp] theorem setEntry_nodes (n : Nat) (e : JEntry) : (s.setEntry n e).nodes = s.nodes := rfl
@[simp] theorem setEntry_holds (n : Nat) (e : JEntry) : (s.setEntry n e).holds = s.holds := rfl
@[simp] theorem setEntry_chains (n : Nat) (e : JEntry) : (s.setEntry n e).chains = s.chains := rfl
@[simp] theorem setEntry_credits (n : Nat) (e : JEntry) : (s.setEntry n e).credits = s.credits := rfl
@[simp] theorem setEntry_down (n : Nat) (e : JEntry) : (s.setEntry n e).down = s.down := rfl

/-! `fresh` -/

@[simp] theorem fresh_clock  : (s.fresh).clock = s.clock := rfl
@[simp] theorem fresh_agenda  : (s.fresh).agenda = s.agenda := rfl
@[simp] theorem fresh_cur  : (s.fresh).cur = s.cur := rfl
@[simp] theorem fresh_powered  : (s.fresh).powered = s.powered := rfl
@[simp] theorem fresh_packageNo  : (s.fresh).packageNo = s.packageNo := rfl
@[simp] theorem fresh_mem  : (s.fresh).mem = s.mem := rfl
@[simp] theorem fresh_host  : (s.fresh).host = s.host := rfl
@[simp] theorem fresh_power  : (s.fresh).power = s.power := rfl
@[simp] theorem fresh_island  : (s.fresh).island = s.island := rfl
@[simp] theorem fresh_pair  : (s.fresh).pair = s.pair := rfl
@[simp] theorem fresh_rollCfg  : (s.fresh).rollCfg = s.rollCfg := rfl
@[simp] theorem fresh_cores  : (s.fresh).cores = s.cores := rfl
@[simp] theorem fresh_code  : (s.fresh).code = s.code := rfl
@[simp] theorem fresh_quads  : (s.fresh).quads = s.quads := rfl
@[simp] theorem fresh_regions  : (s.fresh).regions = s.regions := rfl
@[simp] theorem fresh_sources  : (s.fresh).sources = s.sources := rfl
@[simp] theorem fresh_crossings  : (s.fresh).crossings = s.crossings := rfl
@[simp] theorem fresh_ports  : (s.fresh).ports = s.ports := rfl
@[simp] theorem fresh_queues  : (s.fresh).queues = s.queues := rfl
@[simp] theorem fresh_parts  : (s.fresh).parts = s.parts := rfl
@[simp] theorem fresh_hbm  : (s.fresh).hbm = s.hbm := rfl
@[simp] theorem fresh_nodes  : (s.fresh).nodes = s.nodes := rfl
@[simp] theorem fresh_holds  : (s.fresh).holds = s.holds := rfl
@[simp] theorem fresh_chains  : (s.fresh).chains = s.chains := rfl
@[simp] theorem fresh_credits  : (s.fresh).credits = s.credits := rfl
@[simp] theorem fresh_down  : (s.fresh).down = s.down := rfl

/-! `emit` -/

@[simp] theorem emit_clock (o : Out) : (s.emit o).clock = s.clock := rfl
@[simp] theorem emit_agenda (o : Out) : (s.emit o).agenda = s.agenda := rfl
@[simp] theorem emit_cur (o : Out) : (s.emit o).cur = s.cur := rfl
@[simp] theorem emit_freeCtr (o : Out) : (s.emit o).freeCtr = s.freeCtr := rfl
@[simp] theorem emit_powered (o : Out) : (s.emit o).powered = s.powered := rfl
@[simp] theorem emit_packageNo (o : Out) : (s.emit o).packageNo = s.packageNo := rfl
@[simp] theorem emit_mem (o : Out) : (s.emit o).mem = s.mem := rfl
@[simp] theorem emit_power (o : Out) : (s.emit o).power = s.power := rfl
@[simp] theorem emit_island (o : Out) : (s.emit o).island = s.island := rfl
@[simp] theorem emit_pair (o : Out) : (s.emit o).pair = s.pair := rfl
@[simp] theorem emit_rollCfg (o : Out) : (s.emit o).rollCfg = s.rollCfg := rfl
@[simp] theorem emit_cores (o : Out) : (s.emit o).cores = s.cores := rfl
@[simp] theorem emit_code (o : Out) : (s.emit o).code = s.code := rfl
@[simp] theorem emit_quads (o : Out) : (s.emit o).quads = s.quads := rfl
@[simp] theorem emit_regions (o : Out) : (s.emit o).regions = s.regions := rfl
@[simp] theorem emit_sources (o : Out) : (s.emit o).sources = s.sources := rfl
@[simp] theorem emit_crossings (o : Out) : (s.emit o).crossings = s.crossings := rfl
@[simp] theorem emit_ports (o : Out) : (s.emit o).ports = s.ports := rfl
@[simp] theorem emit_queues (o : Out) : (s.emit o).queues = s.queues := rfl
@[simp] theorem emit_parts (o : Out) : (s.emit o).parts = s.parts := rfl
@[simp] theorem emit_hbm (o : Out) : (s.emit o).hbm = s.hbm := rfl
@[simp] theorem emit_nodes (o : Out) : (s.emit o).nodes = s.nodes := rfl
@[simp] theorem emit_holds (o : Out) : (s.emit o).holds = s.holds := rfl
@[simp] theorem emit_chains (o : Out) : (s.emit o).chains = s.chains := rfl
@[simp] theorem emit_credits (o : Out) : (s.emit o).credits = s.credits := rfl
@[simp] theorem emit_down (o : Out) : (s.emit o).down = s.down := rfl

/-! `modMem` -/

@[simp] theorem modMem_clock (f : Memory → Memory) : (s.modMem f).clock = s.clock := rfl
@[simp] theorem modMem_agenda (f : Memory → Memory) : (s.modMem f).agenda = s.agenda := rfl
@[simp] theorem modMem_cur (f : Memory → Memory) : (s.modMem f).cur = s.cur := rfl
@[simp] theorem modMem_freeCtr (f : Memory → Memory) : (s.modMem f).freeCtr = s.freeCtr := rfl
@[simp] theorem modMem_powered (f : Memory → Memory) : (s.modMem f).powered = s.powered := rfl
@[simp] theorem modMem_packageNo (f : Memory → Memory) : (s.modMem f).packageNo = s.packageNo := rfl
@[simp] theorem modMem_host (f : Memory → Memory) : (s.modMem f).host = s.host := rfl
@[simp] theorem modMem_power (f : Memory → Memory) : (s.modMem f).power = s.power := rfl
@[simp] theorem modMem_island (f : Memory → Memory) : (s.modMem f).island = s.island := rfl
@[simp] theorem modMem_pair (f : Memory → Memory) : (s.modMem f).pair = s.pair := rfl
@[simp] theorem modMem_rollCfg (f : Memory → Memory) : (s.modMem f).rollCfg = s.rollCfg := rfl
@[simp] theorem modMem_cores (f : Memory → Memory) : (s.modMem f).cores = s.cores := rfl
@[simp] theorem modMem_code (f : Memory → Memory) : (s.modMem f).code = s.code := rfl
@[simp] theorem modMem_quads (f : Memory → Memory) : (s.modMem f).quads = s.quads := rfl
@[simp] theorem modMem_regions (f : Memory → Memory) : (s.modMem f).regions = s.regions := rfl
@[simp] theorem modMem_sources (f : Memory → Memory) : (s.modMem f).sources = s.sources := rfl
@[simp] theorem modMem_crossings (f : Memory → Memory) : (s.modMem f).crossings = s.crossings := rfl
@[simp] theorem modMem_ports (f : Memory → Memory) : (s.modMem f).ports = s.ports := rfl
@[simp] theorem modMem_queues (f : Memory → Memory) : (s.modMem f).queues = s.queues := rfl
@[simp] theorem modMem_parts (f : Memory → Memory) : (s.modMem f).parts = s.parts := rfl
@[simp] theorem modMem_hbm (f : Memory → Memory) : (s.modMem f).hbm = s.hbm := rfl
@[simp] theorem modMem_nodes (f : Memory → Memory) : (s.modMem f).nodes = s.nodes := rfl
@[simp] theorem modMem_holds (f : Memory → Memory) : (s.modMem f).holds = s.holds := rfl
@[simp] theorem modMem_chains (f : Memory → Memory) : (s.modMem f).chains = s.chains := rfl
@[simp] theorem modMem_credits (f : Memory → Memory) : (s.modMem f).credits = s.credits := rfl
@[simp] theorem modMem_down (f : Memory → Memory) : (s.modMem f).down = s.down := rfl

/-! `modNode` -/

@[simp] theorem modNode_clock (n : Nat) (f : Node → Node) : (s.modNode n f).clock = s.clock := by
  unfold modNode; split <;> rfl
@[simp] theorem modNode_agenda (n : Nat) (f : Node → Node) : (s.modNode n f).agenda = s.agenda := by
  unfold modNode; split <;> rfl
@[simp] theorem modNode_cur (n : Nat) (f : Node → Node) : (s.modNode n f).cur = s.cur := by
  unfold modNode; split <;> rfl
@[simp] theorem modNode_freeCtr (n : Nat) (f : Node → Node) : (s.modNode n f).freeCtr = s.freeCtr := by
  unfold modNode; split <;> rfl
@[simp] theorem modNode_powered (n : Nat) (f : Node → Node) : (s.modNode n f).powered = s.powered := by
  unfold modNode; split <;> rfl
@[simp] theorem modNode_packageNo (n : Nat) (f : Node → Node) : (s.modNode n f).packageNo = s.packageNo := by
  unfold modNode; split <;> rfl
@[simp] theorem modNode_mem (n : Nat) (f : Node → Node) : (s.modNode n f).mem = s.mem := by
  unfold modNode; split <;> rfl
@[simp] theorem modNode_host (n : Nat) (f : Node → Node) : (s.modNode n f).host = s.host := by
  unfold modNode; split <;> rfl
@[simp] theorem modNode_power (n : Nat) (f : Node → Node) : (s.modNode n f).power = s.power := by
  unfold modNode; split <;> rfl
@[simp] theorem modNode_island (n : Nat) (f : Node → Node) : (s.modNode n f).island = s.island := by
  unfold modNode; split <;> rfl
@[simp] theorem modNode_pair (n : Nat) (f : Node → Node) : (s.modNode n f).pair = s.pair := by
  unfold modNode; split <;> rfl
@[simp] theorem modNode_rollCfg (n : Nat) (f : Node → Node) : (s.modNode n f).rollCfg = s.rollCfg := by
  unfold modNode; split <;> rfl
@[simp] theorem modNode_cores (n : Nat) (f : Node → Node) : (s.modNode n f).cores = s.cores := by
  unfold modNode; split <;> rfl
@[simp] theorem modNode_code (n : Nat) (f : Node → Node) : (s.modNode n f).code = s.code := by
  unfold modNode; split <;> rfl
@[simp] theorem modNode_quads (n : Nat) (f : Node → Node) : (s.modNode n f).quads = s.quads := by
  unfold modNode; split <;> rfl
@[simp] theorem modNode_regions (n : Nat) (f : Node → Node) : (s.modNode n f).regions = s.regions := by
  unfold modNode; split <;> rfl
@[simp] theorem modNode_sources (n : Nat) (f : Node → Node) : (s.modNode n f).sources = s.sources := by
  unfold modNode; split <;> rfl
@[simp] theorem modNode_crossings (n : Nat) (f : Node → Node) : (s.modNode n f).crossings = s.crossings := by
  unfold modNode; split <;> rfl
@[simp] theorem modNode_ports (n : Nat) (f : Node → Node) : (s.modNode n f).ports = s.ports := by
  unfold modNode; split <;> rfl
@[simp] theorem modNode_queues (n : Nat) (f : Node → Node) : (s.modNode n f).queues = s.queues := by
  unfold modNode; split <;> rfl
@[simp] theorem modNode_parts (n : Nat) (f : Node → Node) : (s.modNode n f).parts = s.parts := by
  unfold modNode; split <;> rfl
@[simp] theorem modNode_hbm (n : Nat) (f : Node → Node) : (s.modNode n f).hbm = s.hbm := by
  unfold modNode; split <;> rfl
@[simp] theorem modNode_holds (n : Nat) (f : Node → Node) : (s.modNode n f).holds = s.holds := by
  unfold modNode; split <;> rfl
@[simp] theorem modNode_chains (n : Nat) (f : Node → Node) : (s.modNode n f).chains = s.chains := by
  unfold modNode; split <;> rfl
@[simp] theorem modNode_credits (n : Nat) (f : Node → Node) : (s.modNode n f).credits = s.credits := by
  unfold modNode; split <;> rfl
@[simp] theorem modNode_down (n : Nat) (f : Node → Node) : (s.modNode n f).down = s.down := by
  unfold modNode; split <;> rfl

/-! `modEntry` -/

@[simp] theorem modEntry_clock (n : Nat) (f : JEntry → JEntry) : (s.modEntry n f).clock = s.clock := by
  unfold modEntry; split <;> rfl
@[simp] theorem modEntry_agenda (n : Nat) (f : JEntry → JEntry) : (s.modEntry n f).agenda = s.agenda := by
  unfold modEntry; split <;> rfl
@[simp] theorem modEntry_cur (n : Nat) (f : JEntry → JEntry) : (s.modEntry n f).cur = s.cur := by
  unfold modEntry; split <;> rfl
@[simp] theorem modEntry_freeCtr (n : Nat) (f : JEntry → JEntry) : (s.modEntry n f).freeCtr = s.freeCtr := by
  unfold modEntry; split <;> rfl
@[simp] theorem modEntry_powered (n : Nat) (f : JEntry → JEntry) : (s.modEntry n f).powered = s.powered := by
  unfold modEntry; split <;> rfl
@[simp] theorem modEntry_packageNo (n : Nat) (f : JEntry → JEntry) : (s.modEntry n f).packageNo = s.packageNo := by
  unfold modEntry; split <;> rfl
@[simp] theorem modEntry_mem (n : Nat) (f : JEntry → JEntry) : (s.modEntry n f).mem = s.mem := by
  unfold modEntry; split <;> rfl
@[simp] theorem modEntry_power (n : Nat) (f : JEntry → JEntry) : (s.modEntry n f).power = s.power := by
  unfold modEntry; split <;> rfl
@[simp] theorem modEntry_island (n : Nat) (f : JEntry → JEntry) : (s.modEntry n f).island = s.island := by
  unfold modEntry; split <;> rfl
@[simp] theorem modEntry_pair (n : Nat) (f : JEntry → JEntry) : (s.modEntry n f).pair = s.pair := by
  unfold modEntry; split <;> rfl
@[simp] theorem modEntry_rollCfg (n : Nat) (f : JEntry → JEntry) : (s.modEntry n f).rollCfg = s.rollCfg := by
  unfold modEntry; split <;> rfl
@[simp] theorem modEntry_cores (n : Nat) (f : JEntry → JEntry) : (s.modEntry n f).cores = s.cores := by
  unfold modEntry; split <;> rfl
@[simp] theorem modEntry_code (n : Nat) (f : JEntry → JEntry) : (s.modEntry n f).code = s.code := by
  unfold modEntry; split <;> rfl
@[simp] theorem modEntry_quads (n : Nat) (f : JEntry → JEntry) : (s.modEntry n f).quads = s.quads := by
  unfold modEntry; split <;> rfl
@[simp] theorem modEntry_regions (n : Nat) (f : JEntry → JEntry) : (s.modEntry n f).regions = s.regions := by
  unfold modEntry; split <;> rfl
@[simp] theorem modEntry_sources (n : Nat) (f : JEntry → JEntry) : (s.modEntry n f).sources = s.sources := by
  unfold modEntry; split <;> rfl
@[simp] theorem modEntry_crossings (n : Nat) (f : JEntry → JEntry) : (s.modEntry n f).crossings = s.crossings := by
  unfold modEntry; split <;> rfl
@[simp] theorem modEntry_ports (n : Nat) (f : JEntry → JEntry) : (s.modEntry n f).ports = s.ports := by
  unfold modEntry; split <;> rfl
@[simp] theorem modEntry_queues (n : Nat) (f : JEntry → JEntry) : (s.modEntry n f).queues = s.queues := by
  unfold modEntry; split <;> rfl
@[simp] theorem modEntry_parts (n : Nat) (f : JEntry → JEntry) : (s.modEntry n f).parts = s.parts := by
  unfold modEntry; split <;> rfl
@[simp] theorem modEntry_hbm (n : Nat) (f : JEntry → JEntry) : (s.modEntry n f).hbm = s.hbm := by
  unfold modEntry; split <;> rfl
@[simp] theorem modEntry_nodes (n : Nat) (f : JEntry → JEntry) : (s.modEntry n f).nodes = s.nodes := by
  unfold modEntry; split <;> rfl
@[simp] theorem modEntry_holds (n : Nat) (f : JEntry → JEntry) : (s.modEntry n f).holds = s.holds := by
  unfold modEntry; split <;> rfl
@[simp] theorem modEntry_chains (n : Nat) (f : JEntry → JEntry) : (s.modEntry n f).chains = s.chains := by
  unfold modEntry; split <;> rfl
@[simp] theorem modEntry_credits (n : Nat) (f : JEntry → JEntry) : (s.modEntry n f).credits = s.credits := by
  unfold modEntry; split <;> rfl
@[simp] theorem modEntry_down (n : Nat) (f : JEntry → JEntry) : (s.modEntry n f).down = s.down := by
  unfold modEntry; split <;> rfl

/-! `signal` -/

@[simp] theorem signal_clock (k : Nat) (p : List Byte) : (s.signal k p).clock = s.clock := by
  unfold signal; split <;> rfl
@[simp] theorem signal_agenda (k : Nat) (p : List Byte) : (s.signal k p).agenda = s.agenda := by
  unfold signal; split <;> rfl
@[simp] theorem signal_cur (k : Nat) (p : List Byte) : (s.signal k p).cur = s.cur := by
  unfold signal; split <;> rfl
@[simp] theorem signal_freeCtr (k : Nat) (p : List Byte) : (s.signal k p).freeCtr = s.freeCtr := by
  unfold signal; split <;> rfl
@[simp] theorem signal_powered (k : Nat) (p : List Byte) : (s.signal k p).powered = s.powered := by
  unfold signal; split <;> rfl
@[simp] theorem signal_packageNo (k : Nat) (p : List Byte) : (s.signal k p).packageNo = s.packageNo := by
  unfold signal; split <;> rfl
@[simp] theorem signal_mem (k : Nat) (p : List Byte) : (s.signal k p).mem = s.mem := by
  unfold signal; split <;> rfl
@[simp] theorem signal_power (k : Nat) (p : List Byte) : (s.signal k p).power = s.power := by
  unfold signal; split <;> rfl
@[simp] theorem signal_island (k : Nat) (p : List Byte) : (s.signal k p).island = s.island := by
  unfold signal; split <;> rfl
@[simp] theorem signal_pair (k : Nat) (p : List Byte) : (s.signal k p).pair = s.pair := by
  unfold signal; split <;> rfl
@[simp] theorem signal_rollCfg (k : Nat) (p : List Byte) : (s.signal k p).rollCfg = s.rollCfg := by
  unfold signal; split <;> rfl
@[simp] theorem signal_cores (k : Nat) (p : List Byte) : (s.signal k p).cores = s.cores := by
  unfold signal; split <;> rfl
@[simp] theorem signal_code (k : Nat) (p : List Byte) : (s.signal k p).code = s.code := by
  unfold signal; split <;> rfl
@[simp] theorem signal_quads (k : Nat) (p : List Byte) : (s.signal k p).quads = s.quads := by
  unfold signal; split <;> rfl
@[simp] theorem signal_regions (k : Nat) (p : List Byte) : (s.signal k p).regions = s.regions := by
  unfold signal; split <;> rfl
@[simp] theorem signal_sources (k : Nat) (p : List Byte) : (s.signal k p).sources = s.sources := by
  unfold signal; split <;> rfl
@[simp] theorem signal_crossings (k : Nat) (p : List Byte) : (s.signal k p).crossings = s.crossings := by
  unfold signal; split <;> rfl
@[simp] theorem signal_ports (k : Nat) (p : List Byte) : (s.signal k p).ports = s.ports := by
  unfold signal; split <;> rfl
@[simp] theorem signal_queues (k : Nat) (p : List Byte) : (s.signal k p).queues = s.queues := by
  unfold signal; split <;> rfl
@[simp] theorem signal_parts (k : Nat) (p : List Byte) : (s.signal k p).parts = s.parts := by
  unfold signal; split <;> rfl
@[simp] theorem signal_hbm (k : Nat) (p : List Byte) : (s.signal k p).hbm = s.hbm := by
  unfold signal; split <;> rfl
@[simp] theorem signal_nodes (k : Nat) (p : List Byte) : (s.signal k p).nodes = s.nodes := by
  unfold signal; split <;> rfl
@[simp] theorem signal_holds (k : Nat) (p : List Byte) : (s.signal k p).holds = s.holds := by
  unfold signal; split <;> rfl
@[simp] theorem signal_chains (k : Nat) (p : List Byte) : (s.signal k p).chains = s.chains := by
  unfold signal; split <;> rfl
@[simp] theorem signal_credits (k : Nat) (p : List Byte) : (s.signal k p).credits = s.credits := by
  unfold signal; split <;> rfl
@[simp] theorem signal_down (k : Nat) (p : List Byte) : (s.signal k p).down = s.down := by
  unfold signal; split <;> rfl

/-! `endAgain` -/

@[simp] theorem endAgain_clock (w : Who) : (s.endAgain w).clock = s.clock := by
  unfold endAgain; split <;> rfl
@[simp] theorem endAgain_agenda (w : Who) : (s.endAgain w).agenda = s.agenda := by
  unfold endAgain; split <;> rfl
@[simp] theorem endAgain_cur (w : Who) : (s.endAgain w).cur = s.cur := by
  unfold endAgain; split <;> rfl
@[simp] theorem endAgain_freeCtr (w : Who) : (s.endAgain w).freeCtr = s.freeCtr := by
  unfold endAgain; split <;> rfl
@[simp] theorem endAgain_powered (w : Who) : (s.endAgain w).powered = s.powered := by
  unfold endAgain; split <;> rfl
@[simp] theorem endAgain_packageNo (w : Who) : (s.endAgain w).packageNo = s.packageNo := by
  unfold endAgain; split <;> rfl
@[simp] theorem endAgain_mem (w : Who) : (s.endAgain w).mem = s.mem := by
  unfold endAgain; split <;> rfl
@[simp] theorem endAgain_host (w : Who) : (s.endAgain w).host = s.host := by
  unfold endAgain; split <;> rfl
@[simp] theorem endAgain_power (w : Who) : (s.endAgain w).power = s.power := by
  unfold endAgain; split <;> rfl
@[simp] theorem endAgain_island (w : Who) : (s.endAgain w).island = s.island := by
  unfold endAgain; split <;> rfl
@[simp] theorem endAgain_pair (w : Who) : (s.endAgain w).pair = s.pair := by
  unfold endAgain; split <;> rfl
@[simp] theorem endAgain_rollCfg (w : Who) : (s.endAgain w).rollCfg = s.rollCfg := by
  unfold endAgain; split <;> rfl
@[simp] theorem endAgain_code (w : Who) : (s.endAgain w).code = s.code := by
  unfold endAgain; split <;> rfl
@[simp] theorem endAgain_quads (w : Who) : (s.endAgain w).quads = s.quads := by
  unfold endAgain; split <;> rfl
@[simp] theorem endAgain_regions (w : Who) : (s.endAgain w).regions = s.regions := by
  unfold endAgain; split <;> rfl
@[simp] theorem endAgain_sources (w : Who) : (s.endAgain w).sources = s.sources := by
  unfold endAgain; split <;> rfl
@[simp] theorem endAgain_crossings (w : Who) : (s.endAgain w).crossings = s.crossings := by
  unfold endAgain; split <;> rfl
@[simp] theorem endAgain_ports (w : Who) : (s.endAgain w).ports = s.ports := by
  unfold endAgain; split <;> rfl
@[simp] theorem endAgain_queues (w : Who) : (s.endAgain w).queues = s.queues := by
  unfold endAgain; split <;> rfl
@[simp] theorem endAgain_parts (w : Who) : (s.endAgain w).parts = s.parts := by
  unfold endAgain; split <;> rfl
@[simp] theorem endAgain_hbm (w : Who) : (s.endAgain w).hbm = s.hbm := by
  unfold endAgain; split <;> rfl
@[simp] theorem endAgain_nodes (w : Who) : (s.endAgain w).nodes = s.nodes := by
  unfold endAgain; split <;> rfl
@[simp] theorem endAgain_holds (w : Who) : (s.endAgain w).holds = s.holds := by
  unfold endAgain; split <;> rfl
@[simp] theorem endAgain_chains (w : Who) : (s.endAgain w).chains = s.chains := by
  unfold endAgain; split <;> rfl
@[simp] theorem endAgain_credits (w : Who) : (s.endAgain w).credits = s.credits := by
  unfold endAgain; split <;> rfl
@[simp] theorem endAgain_down (w : Who) : (s.endAgain w).down = s.down := by
  unfold endAgain; split <;> rfl

/-! ## Reading a part back -/

theorem coreAt_setCore (i j : Nat) (v : Core) : (s.setCore i v).coreAt j = if i = j then v else s.coreAt j :=
  Tab.get_ins _ _ _ _ _
@[simp] theorem coreAt_setCore_self (i : Nat) (v : Core) : (s.setCore i v).coreAt i = v := Tab.get_ins_self _ _ _ _
theorem quadAt_setQuad (i j : Nat) (v : Quad) : (s.setQuad i v).quadAt j = if i = j then v else s.quadAt j :=
  Tab.get_ins _ _ _ _ _
@[simp] theorem quadAt_setQuad_self (i : Nat) (v : Quad) : (s.setQuad i v).quadAt i = v := Tab.get_ins_self _ _ _ _
theorem regionAt_setRegion (i j : Nat) (v : Region) : (s.setRegion i v).regionAt j = if i = j then v else s.regionAt j :=
  Tab.get_ins _ _ _ _ _
@[simp] theorem regionAt_setRegion_self (i : Nat) (v : Region) : (s.setRegion i v).regionAt i = v := Tab.get_ins_self _ _ _ _
theorem coreAt_modCore (i j : Nat) (f : Core → Core) : (s.modCore i f).coreAt j = if i = j then f (s.coreAt i) else s.coreAt j :=
  Tab.get_ins _ _ _ _ _
@[simp] theorem coreAt_modCore_self (i : Nat) (f : Core → Core) : (s.modCore i f).coreAt i = f (s.coreAt i) := Tab.get_ins_self _ _ _ _
theorem quadAt_modQuad (i j : Nat) (f : Quad → Quad) : (s.modQuad i f).quadAt j = if i = j then f (s.quadAt i) else s.quadAt j :=
  Tab.get_ins _ _ _ _ _
@[simp] theorem quadAt_modQuad_self (i : Nat) (f : Quad → Quad) : (s.modQuad i f).quadAt i = f (s.quadAt i) := Tab.get_ins_self _ _ _ _
theorem regionAt_modRegion (i j : Nat) (f : Region → Region) : (s.modRegion i f).regionAt j = if i = j then f (s.regionAt i) else s.regionAt j :=
  Tab.get_ins _ _ _ _ _
@[simp] theorem regionAt_modRegion_self (i : Nat) (f : Region → Region) : (s.modRegion i f).regionAt i = f (s.regionAt i) := Tab.get_ins_self _ _ _ _
theorem sourceAt_modSource (i j : Nat) (f : Source → Source) : (s.modSource i f).sourceAt j = if i = j then f (s.sourceAt i) else s.sourceAt j :=
  Tab.get_ins _ _ _ _ _
@[simp] theorem sourceAt_modSource_self (i : Nat) (f : Source → Source) : (s.modSource i f).sourceAt i = f (s.sourceAt i) := Tab.get_ins_self _ _ _ _
theorem crossingAt_modCrossing (i j : Nat) (f : Crossing → Crossing) : (s.modCrossing i f).crossingAt j = if i = j then f (s.crossingAt i) else s.crossingAt j :=
  Tab.get_ins _ _ _ _ _
@[simp] theorem crossingAt_modCrossing_self (i : Nat) (f : Crossing → Crossing) : (s.modCrossing i f).crossingAt i = f (s.crossingAt i) := Tab.get_ins_self _ _ _ _
theorem portAt_modPort (i j : Nat) (f : Port → Port) : (s.modPort i f).portAt j = if i = j then f (s.portAt i) else s.portAt j :=
  Tab.get_ins _ _ _ _ _
@[simp] theorem portAt_modPort_self (i : Nat) (f : Port → Port) : (s.modPort i f).portAt i = f (s.portAt i) := Tab.get_ins_self _ _ _ _
theorem queueAt_modQueue (i j : Nat) (f : LQueue → LQueue) : (s.modQueue i f).queueAt j = if i = j then f (s.queueAt i) else s.queueAt j :=
  Tab.get_ins _ _ _ _ _
@[simp] theorem queueAt_modQueue_self (i : Nat) (f : LQueue → LQueue) : (s.modQueue i f).queueAt i = f (s.queueAt i) := Tab.get_ins_self _ _ _ _
theorem partAt_modPart (i j : Nat) (f : Part → Part) : (s.modPart i f).partAt j = if i = j then f (s.partAt i) else s.partAt j :=
  Tab.get_ins _ _ _ _ _
@[simp] theorem partAt_modPart_self (i : Nat) (f : Part → Part) : (s.modPart i f).partAt i = f (s.partAt i) := Tab.get_ins_self _ _ _ _
theorem stackAt_modStack (i j : Nat) (f : Stack → Stack) : (s.modStack i f).stackAt j = if i = j then f (s.stackAt i) else s.stackAt j :=
  Tab.get_ins _ _ _ _ _
@[simp] theorem stackAt_modStack_self (i : Nat) (f : Stack → Stack) : (s.modStack i f).stackAt i = f (s.stackAt i) := Tab.get_ins_self _ _ _ _
theorem nodeAt_setNode (i j : Nat) (v : Node) : (s.setNode i v).nodeAt j = if i = j then some v else s.nodeAt j :=
  Tab.get_ins _ _ _ _ _
@[simp] theorem nodeAt_setNode_self (i : Nat) (v : Node) : (s.setNode i v).nodeAt i = some v := Tab.get_ins_self _ _ _ _
theorem nodeAt_modNode (i j : Nat) (f : Node → Node) :
    (s.modNode i f).nodeAt j = if i = j then (s.nodeAt i).map f else s.nodeAt j := by
  unfold modNode
  split
  · next v h => rw [nodeAt_setNode, h]; rfl
  · next h =>
    by_cases hij : i = j
    · subst hij; simp [h]
    · simp [hij]
theorem entryAt_setEntry (i j : Nat) (e : JEntry) : (s.setEntry i e).entryAt j = if i = j then some e else s.entryAt j :=
  Tab.get_ins _ _ _ _ _
@[simp] theorem setCore_setCore (i : Nat) (u v : Core) : (s.setCore i u).setCore i v = s.setCore i v := by
  simp [setCore]
@[simp] theorem modCore_modCore (i : Nat) (f g : Core → Core) : (s.modCore i f).modCore i g = s.modCore i (fun c => g (f c)) := by
  simp [modCore]

end Sys2Proof.Machine.State
end

