-- ==== Sys2Proof/Laws/Memory.lean ====
section
/-! SUPPORT. What the operations of the order of accesses (06) can change: memory alone, and its canonical form stays. -/

namespace Sys2Proof.Machine

namespace Memory

@[simp] theorem tell_cells (m : Memory) (ids : List Nat) (xs : List Seen) : (m.tell ids xs).cells = m.cells := by
  unfold tell; split <;> rfl

theorem put_wf {m : Memory} (ws : List (Nat × Byte)) (h : m.wf = true) : (m.put ws).wf = true := write_wf ws h

end Memory

namespace State

/-- `t` is `s` but for what memory holds beside its bytes: marks, tags, keys, and the stores not yet seen by all. -/
def SameBytes (s t : State) : Prop := ∃ m : Memory, m.cells = s.mem.cells ∧ t = { s with mem := m }

/-- `t` is `s` but for memory, whose canonical form stays. -/
def OnlyMem (s t : State) : Prop := ∃ m : Memory, (s.mem.wf = true → m.wf = true) ∧ t = { s with mem := m }

variable (s : State)

theorem SameBytes.refl : SameBytes s s := ⟨s.mem, rfl, rfl⟩
theorem OnlyMem.refl : OnlyMem s s := ⟨s.mem, id, rfl⟩

variable {s}

theorem SameBytes.trans {t u : State} : SameBytes s t → SameBytes t u → SameBytes s u := by
  rintro ⟨m, hm, rfl⟩ ⟨n, hn, rfl⟩; exact ⟨n, hn.trans hm, rfl⟩

theorem OnlyMem.trans {t u : State} : OnlyMem s t → OnlyMem t u → OnlyMem s u := by
  rintro ⟨m, hm, rfl⟩ ⟨n, hn, rfl⟩; exact ⟨n, fun h => hn (hm h), rfl⟩

theorem SameBytes.onlyMem {t : State} : SameBytes s t → OnlyMem s t := by
  rintro ⟨m, hm, rfl⟩; exact ⟨m, fun h => by rw [Memory.wf, hm]; exact h, rfl⟩

variable (s)

theorem modMem_same (f : Memory → Memory) (h : (f s.mem).cells = s.mem.cells) : SameBytes s (s.modMem f) := ⟨f s.mem, h, rfl⟩
theorem modMem_only (f : Memory → Memory) (h : s.mem.wf = true → (f s.mem).wf = true) : OnlyMem s (s.modMem f) := ⟨f s.mem, h, rfl⟩

theorem passOn_frame (who : Who) : SameBytes s (s.passOn who) := by
  unfold passOn; split
  · exact .refl s
  · exact modMem_same s _ rfl

theorem saw_frame (who : Who) (home : Bool) (r : Recent) : SameBytes s (s.saw who home r) := by
  unfold saw; exact modMem_same s _ rfl

theorem dropStaged_frame (n : Nat) : SameBytes s (s.dropStaged n) := by
  unfold dropStaged; split
  · exact .refl s
  · exact modMem_same s _ rfl

theorem startsWith_frame (core : Nat) (ids : List Nat) : SameBytes s (s.startsWith core ids) := by
  unfold startsWith; split
  · exact .refl s
  · exact modMem_same s _ rfl

theorem takeGiven_frame (core : Nat) (counter : BitVec 5) (n : Nat) (xs : List Seen) : SameBytes s (s.takeGiven core counter n xs) := by
  unfold takeGiven; split
  · exact .refl s
  · exact modMem_same s _ (Memory.tell_cells _ _ _)

theorem noteGiven_frame (core : Nat) (counter : BitVec 5) (ahead amount : Nat) (past : List Nat) :
    SameBytes s (s.noteGiven core counter ahead amount past) := by
  unfold noteGiven; split
  · exact .refl s
  · exact modMem_same s _ rfl

theorem visibleBy_frame (no cyc : Nat) : SameBytes s (s.visibleBy no cyc) := by
  unfold visibleBy; split
  · exact .refl s
  · exact modMem_same s _ rfl

/-- Bytes that every observer sees at once change memory alone. -/
theorem putAfter_frame (ids : List Nat) (ws : List (Nat × Byte)) : OnlyMem s (s.putAfter ids ws) := by
  unfold putAfter
  refine modMem_only s _ fun h => ?_
  dsimp only; split <;> exact Memory.put_wf ws h

theorem expire_frame : SameBytes s s.expire := by
  unfold expire; split
  · exact .refl s
  · exact modMem_same s _ rfl

/-- A fence also ends what earlier loads of its core could still read. -/
theorem fence_frame (core scope : Nat) :
    SameBytes (s.endAgain { core := core, unit := .s, cls := 0 }) (s.fence core scope) := by
  unfold fence; dsimp only; split
  · exact .refl _
  · exact modMem_same _ _ rfl

theorem rekey_frame (g : Nat) (cur : Option (BitVec 512 × Nat)) : OnlyMem s (s.rekey g cur) := by
  by_cases h : Tab.find s.mem.keys g = cur
  · simp only [rekey, h, if_true]; exact .refl s
  · simp only [rekey, h, if_false]
    generalize (List.range 256).map _ = ws
    exact modMem_only s _ (cells_foldl (fun w => w) ws)

theorem retune_frame (part : Nat) (keys : List Nat) : OnlyMem s (s.retune part keys) := by
  unfold retune; split
  · exact .refl s
  · next h =>
    clear h
    induction keys generalizing s with
    | nil => exact .refl s
    | cons k ks ih => exact (rekey_frame s (k / 256) (s.keyOf part k)).trans (ih _)

/-- A store outside every staged view changes memory alone. -/
theorem writeAs_frame (who : Who) (free : List Nat) (ws : List (Nat × Byte)) (bound : Nat) (atom : Bool) :
    OnlyMem s (s.writeAs who free ws bound atom) := by
  have h : (s.store who free ws bound atom none (fun k => some (s.mem.byte k))).1.cells = s.mem.cells := by
    unfold store; split <;> rfl
  exact ⟨_, fun hw => Memory.write_wf _ (by rw [Memory.wf, h]; exact hw), rfl⟩

end State
end Sys2Proof.Machine
end

