-- ==== Sys2Proof/Laws/Scalar.lean ====
section
/-! SUPPORT. What the shared operations of S words do: one law each for `scalar`, `past`, `later`, `setsX`, `setsXLater`
and `setsQ`, and reading registers back. -/

namespace Sys2Proof.Machine

namespace Core

variable (c : Core)

@[simp] theorem good_su (w : BadReg) (n : Nat) : (c.good w n).su = c.su := by unfold good; split <;> rfl
@[simp] theorem good_cu (w : BadReg) (n : Nat) : (c.good w n).cu = c.cu := by unfold good; split <;> rfl
@[simp] theorem good_x (w : BadReg) (r : BitVec 5) : (c.good w).x r = c.x r := by simp [x]
@[simp] theorem good_k (w : BadReg) (r : Nat) : (c.good w).k r = c.k r := by simp [k]

/-- A register made good is its bad words dropped. -/
theorem good_bad (w : BadReg) : c.good w = { c with bad := c.bad.filter (fun b => b.reg ≠ w) } := by
  unfold good; split
  · next h => rw [h]; exact congrArg (fun l => { c with bad := l }) h
  · simp

theorem x_setX (d r : BitVec 5) (v : Dword) : (c.setX d v).x r = if r = d ∧ d ≠ 0 then v else c.x r := by
  by_cases hd : d = 0#5
  · simp [setX, hd]
  · by_cases hr : r = 0#5
    · subst hr; simp [x, Ne.symm hd]
    · have hi : d.toNat = r.toNat ↔ r = d := ⟨fun h => BitVec.eq_of_toNat_eq h.symm, fun h => by rw [h]⟩
      rw [setX, if_neg (show ¬ d = 0 from hd), good_x]
      simp [hd, x, hr, Tab.get_put, hi]

theorem q_setQ (d r : BitVec 3) (v : Bool) : (c.setQ d v).q r = if r = d ∧ d ≠ 0 then v else c.q r := by
  by_cases hd : d = 0#3
  · simp [setQ, hd]
  · by_cases hr : r = 0#3
    · subst hr; simp [setQ, hd, q, Ne.symm hd]
    · have hlt : r.toNat < 8 := r.isLt
      have hi : r = d ↔ r.toNat = d.toNat := ⟨fun h => by rw [h], fun h => BitVec.eq_of_toNat_eq h⟩
      have hd8 : d.toNat < 8 := d.isLt
      by_cases hrd : r.toNat = d.toNat
      · cases v <;> simp [setQ, hd, q, hr, hrd, hd8, hi]
      · rcases Nat.lt_or_gt_of_ne hrd with h | h
        · cases v <;> simp [setQ, hd, q, hr, hrd, hlt, hi, h]
        · have h1 : ¬ r.toNat < d.toNat := by omega
          have h2 : r.toNat - d.toNat ≠ 0 := by omega
          cases v <;> simp [setQ, hd, q, hr, hrd, hlt, hi, h1, h2]

theorem k_setK (d r : Nat) (v : BitVec 128) : (c.setK d v).k r = if r = d then v else c.k r := by
  simp only [setK, good_k]
  simp [k, Tab.get_put, eq_comm]

theorem filter_one (w : BadReg) (l : List BadWord) :
    l.filter (fun b => b.reg ≠ w) = l.filter (fun b => !([w] : List BadReg).contains b.reg) := by simp

theorem setX_su (d : BitVec 5) (v : Dword) :
    ∃ t, c.setX d v = { c with su := { c.su with x := t }, bad := c.bad.filter (fun b => !(xWord d).contains b.reg) } := by
  by_cases h : d = 0
  · exact ⟨c.su.x, by simp [setX, xWord, h]⟩
  · exact ⟨_, by rw [setX, if_neg h, good_bad, filter_one, xWord, if_neg h]⟩

theorem setQ_su (d : BitVec 3) (v : Bool) :
    ∃ t, c.setQ d v = { c with su := { c.su with q := t }, bad := c.bad.filter (fun b => !([] : List BadReg).contains b.reg) } := by
  have hb : c.bad.filter (fun b => !([] : List BadReg).contains b.reg) = c.bad := by simp
  rw [hb]
  unfold setQ
  split
  · exact ⟨c.su.q, rfl⟩
  · exact ⟨_, rfl⟩

theorem setK_su (d : Nat) (v : BitVec 128) :
    ∃ t, c.setK d v = { c with su := { c.su with k := t }, bad := c.bad.filter (fun b => !([.k d] : List BadReg).contains b.reg) } :=
  ⟨_, by rw [setK, good_bad, filter_one]⟩

end Core

namespace State

variable {s : State}

/-- A word whose registers are ready has its effect. -/
theorem scalar_ready {reads writes : List SReg} (e : State) (h : s.me.ready reads writes = true) :
    s.scalar reads writes e = .next e := by
  simp only [Core.ready, Bool.and_eq_true, Bool.not_eq_true'] at h
  have hb : s.me.badReg reads = none := by simpa [Option.isNone_iff_eq_none] using h.2
  simp [scalar, h.1, hb]

@[simp] theorem here_setCore (i : Nat) (c : Core) : (s.setCore i c).here = s.here := rfl

/-- The issuing core past its word, with what the word did to it. -/
def pastCore (c : Core) : Core := { c with su := { c.su with pc := c.su.pc + 4, index := c.su.index + 1, wait := none } }

theorem past_eq (f : Core → Core) : s.past f = s.setCore s.here (pastCore (f s.me)) := rfl

/-- A word past, then its result perhaps late: the registers that wait are all that is left open. -/
theorem past_later (f : Core → Core) (regs : List SReg) (n : Nat) :
    ∃ l, (s.past f).later regs n = { s with
      cores := s.cores.ins s.here { pastCore (f s.me) with su := { (pastCore (f s.me)).su with pend := l } }
      freeCtr := s.freeCtr + 1 } := by
  unfold later
  dsimp only
  split
  · exact ⟨(pastCore (f s.me)).su.pend, rfl⟩
  · rw [past_eq]
    simp only [modCore, fresh, setCore, here, coreAt, Tab.ins_ins, Tab.get_ins_self]
    exact ⟨_, rfl⟩

/-! ### Reading the issuing core back -/

theorem me_ins (i : Nat) (c : Core) (m : Nat) (h : i = s.here) :
    State.me { s with cores := s.cores.ins i c, freeCtr := m } = c := by
  subst h; exact Tab.get_ins_self _ _ _ _

/-- A word of S that changes only S registers through `f`, with `l` the registers it leaves waiting. -/
theorem onlyS_of {t : State} {f : Core → Core} {u : SUnit} {ws : List BadReg} {l : List (SReg × Nat)} {m : Nat}
    (hf : f s.me = { s.me with su := u, bad := s.me.bad.filter (fun b => !ws.contains b.reg) })
    (ht : t = { s with
      cores := s.cores.ins s.here { pastCore (f s.me) with su := { (pastCore (f s.me)).su with pend := l } }
      freeCtr := m }) :
    OnlyS s t ws ∧ t.me = { s.me with
      su := { u with pc := u.pc + 4, index := u.index + 1, wait := none, pend := l }
      bad := s.me.bad.filter (fun b => !ws.contains b.reg) } := by
  subst ht
  rw [hf]
  exact ⟨⟨_, rfl⟩, me_ins _ _ _ rfl⟩

/-- The same of a word whose result does not wait. -/
theorem past_form (f : Core → Core) : s.past f = { s with
    cores := s.cores.ins s.here { pastCore (f s.me) with su := { (pastCore (f s.me)).su with pend := (pastCore (f s.me)).su.pend } }
    freeCtr := s.freeCtr } := rfl

/-- What a word that writes x[d] does: the shape of both `setsX` and `setsXLater`. -/
theorem setsX_of {t : State} {d : BitVec 5} {v : Dword} {l : List (SReg × Nat)} {m : Nat}
    (ht : t = { s with
      cores := s.cores.ins s.here { pastCore (s.me.setX d v) with su := { (pastCore (s.me.setX d v)).su with pend := l } }
      freeCtr := m }) : SetsX s t d v := by
  obtain ⟨x, hx⟩ := s.me.setX_su d v
  obtain ⟨h1, h2⟩ := onlyS_of (f := fun c => c.setX d v) hx ht
  refine ⟨h1, ?_, ?_, ?_, ?_, ?_⟩
  · simp [WentOn, h2]
  · intro r
    rw [← Core.x_setX s.me d r v, hx, h2]
    rfl
  · intro r; rw [h2]; rfl
  · rw [SameB, h2]; exact ⟨rfl, rfl⟩
  · intro r; rw [h2]; rfl

theorem setsQ_of {t : State} {d : BitVec 3} {v : Bool} {l : List (SReg × Nat)} {m : Nat}
    (ht : t = { s with
      cores := s.cores.ins s.here { pastCore (s.me.setQ d v) with su := { (pastCore (s.me.setQ d v)).su with pend := l } }
      freeCtr := m }) : SetsQ s t d v := by
  obtain ⟨x, hx⟩ := s.me.setQ_su d v
  obtain ⟨h1, h2⟩ := onlyS_of (f := fun c => c.setQ d v) hx ht
  refine ⟨h1, ?_, ?_, ?_, ?_, ?_⟩
  · simp [WentOn, h2]
  · intro r
    rw [← Core.q_setQ s.me d r v, hx, h2]
    rfl
  · intro r; rw [h2]; rfl
  · rw [SameB, h2]; exact ⟨rfl, rfl⟩
  · intro r; rw [h2]; rfl

theorem setsK_of {t : State} {d : Nat} {v : BitVec 128} {l : List (SReg × Nat)} {m : Nat}
    (ht : t = { s with
      cores := s.cores.ins s.here { pastCore (s.me.setK d v) with su := { (pastCore (s.me.setK d v)).su with pend := l } }
      freeCtr := m }) : SetsK s t d v := by
  obtain ⟨x, hx⟩ := s.me.setK_su d v
  obtain ⟨h1, h2⟩ := onlyS_of (f := fun c => c.setK d v) hx ht
  refine ⟨h1, ?_, ?_, ?_, ?_, ?_⟩
  · simp [WentOn, h2]
  · intro r
    rw [← Core.k_setK s.me d r v, hx, h2]
    rfl
  · intro r; rw [h2]; rfl
  · intro r; rw [h2]; rfl
  · rw [SameB, h2]; exact ⟨rfl, rfl⟩

/-- `setsX` on ready registers: the result and the frame. -/
theorem setsX_answers {reads : List SReg} {d : BitVec 5} (v : Dword) (h : s.me.ready reads [.x d.toNat] = true) :
    Answers (s.setsX reads d v) (fun t => SetsX s t d v) :=
  ⟨_, scalar_ready _ h, setsX_of (past_form _)⟩

theorem setsXLater_answers {reads : List SReg} {d : BitVec 5} (v : Dword) (n : Nat)
    (h : s.me.ready reads [.x d.toNat] = true) : Answers (s.setsXLater reads d v n) (fun t => SetsX s t d v) := by
  obtain ⟨l, hl⟩ := past_later (s := s) (fun c => c.setX d v) [.x d.toNat] n
  exact ⟨_, scalar_ready _ h, setsX_of hl⟩

theorem setsQ_answers {reads : List SReg} {d : BitVec 5} (v : Bool) (h : s.me.ready reads [.q d.toNat] = true) :
    Answers (s.setsQ reads d v) (fun t => SetsQ s t (d.setWidth 3) v) :=
  ⟨_, scalar_ready _ h, setsQ_of (past_form _)⟩

end State
end Sys2Proof.Machine
end

