-- ==== Sys2Proof/Laws/Time.lean ====
section
/-! SUPPORT. What running time can do: it stops at the earliest deadline, which then comes first on the agenda (log 1, 55). -/

namespace Sys2Proof.Machine.State

variable (s : State)

@[simp] theorem pass_agenda (dt : Nat) : (s.pass dt).agenda = s.agenda := by unfold pass; split <;> rfl
@[simp] theorem pass_mem (dt : Nat) : (s.pass dt).mem = s.mem := by unfold pass; split <;> rfl
@[simp] theorem pass_cores (dt : Nat) : (s.pass dt).cores = s.cores := by unfold pass; split <;> rfl
@[simp] theorem pass_regions (dt : Nat) : (s.pass dt).regions = s.regions := by unfold pass; split <;> rfl
@[simp] theorem pass_nodes (dt : Nat) : (s.pass dt).nodes = s.nodes := by unfold pass; split <;> rfl
theorem pass_now (dt : Nat) : (s.pass dt).clock.now = if s.powered then s.clock.now + dt else s.clock.now := by
  unfold pass; split <;> rfl

/-- The search for the earliest deadline finds one of those it was given, and none of them is earlier. -/
theorem foldl_sooner (l : List (Nat × Move)) (b : Nat × Move) :
    l.foldl sooner b ∈ b :: l ∧ ∀ d ∈ b :: l, (l.foldl sooner b).1 ≤ d.1 := by
  induction l generalizing b with
  | nil => simp
  | cons e l ih =>
    obtain ⟨hm, hle⟩ := ih (sooner b e)
    have hs : (sooner b e = e ∨ sooner b e = b) ∧ (sooner b e).1 ≤ b.1 ∧ (sooner b e).1 ≤ e.1 := by
      unfold sooner; split
      · exact ⟨.inl rfl, by omega, Nat.le_refl _⟩
      · exact ⟨.inr rfl, Nat.le_refl _, by omega⟩
    have h0 := hle _ (List.mem_cons_self ..)
    refine ⟨?_, fun d hd => ?_⟩
    · rcases List.mem_cons.mp hm with h | h
      · rw [List.foldl_cons, h]; rcases hs.1 with h | h <;> simp [h]
      · exact List.mem_cons_of_mem _ (List.mem_cons_of_mem _ h)
    · rw [List.foldl_cons]
      rcases List.mem_cons.mp hd with rfl | hd
      · omega
      · rcases List.mem_cons.mp hd with rfl | hd
        · omega
        · exact hle d (List.mem_cons_of_mem _ hd)

/-- What is due next is a deadline, and none is earlier. -/
theorem nextDue_earliest {e : Nat × Move} (h : s.nextDue = some e) : e ∈ s.deadlines ∧ ∀ d ∈ s.deadlines, e.1 ≤ d.1 := by
  unfold nextDue at h
  split at h
  · cases h
  · next b t hl =>
    cases h; rw [hl]; exact foldl_sooner t b

/-- Time runs its whole length, or to the earliest deadline, which then comes first. -/
theorem runTime_cases (dt : Nat) :
    s.runTime dt = s.pass dt ∨
      ∃ t m, s.nextDue = some (t, m) ∧ s.powered = true ∧ t - s.clock.now ≤ dt ∧
        s.runTime dt = { s.pass (t - s.clock.now) with agenda := m :: .time (dt - (t - s.clock.now)) :: s.agenda } := by
  unfold runTime
  by_cases hp : s.powered = true
  · rw [if_pos hp]
    cases hd : s.nextDue with
    | none => exact .inl rfl
    | some e =>
      obtain ⟨t, m⟩ := e
      by_cases hle : t - s.clock.now ≤ dt
      · refine .inr ⟨t, m, rfl, hp, hle, ?_⟩
        simp [hle]
      · left; simp [hle]
  · left; rw [if_neg hp]

/-- Running time changes the clock and the agenda alone. -/
theorem runTime_frame (dt : Nat) : ∃ c a, s.runTime dt = { s with clock := c, agenda := a } := by
  have pass_frame (d : Nat) : ∃ c, s.pass d = { s with clock := c } := by
    unfold pass; split <;> exact ⟨_, rfl⟩
  rcases s.runTime_cases dt with h | ⟨t, m, -, -, -, h⟩
  · obtain ⟨c, hc⟩ := pass_frame dt
    exact ⟨c, s.agenda, by rw [h, hc]⟩
  · obtain ⟨c, hc⟩ := pass_frame (t - s.clock.now)
    exact ⟨c, _, by rw [h, hc]⟩

end Sys2Proof.Machine.State
end

