-- ==== Sys2Proof/Tests/Slice0.lean ====
section
/-! SUPPORT. The model's own tests: terms that `wellFormed` refuses, words the manual encodes, one step each of some
instructions, and for every statement a state and operands that meet its hypotheses. -/

namespace Sys2Proof.Tests

set_option linter.unusedSimpArgs false

open Sys2Proof Sys2Proof.Machine

/-! ## States the tests use -/

/-- A node of class 0 on quad 0, which may stage 4,096 bytes / 256. -/
def tNode : Node := { rcd := (List.replicate 16 0).set 12 1, queue := 0, part := 0, st := .running, quads := [0], inQueue := false, pool := true }

/-- A layout entry: one row of `n` elements of type `ty` at offset `base` of the own slice, of extents 64. -/
def tEnt (space : BitVec 3) (ty : BitVec 4) (t1 t0 : BitVec 4) (base : BitVec 64) : BitVec 256 :=
  space ++ ty ++ 0#1 ++ t1 ++ t0 ++ 0#16 ++ 0#32 ++ 0#32 ++ 64#32 ++ 1#16 ++ 1#16 ++ 64#16 ++ 64#16 ++ base

/-- A curve entry of i32 cells of 4 bytes. -/
def tCurve : BitVec 256 := 0#3 ++ 3#4 ++ 1#1 ++ 0#4 ++ 0#4 ++ 0#16 ++ 0#32 ++ 64#32 ++ 4#32 ++ 1#16 ++ 1#16 ++ 1#16 ++ 1#16 ++ 0x400#64

/-- A curve value of three axes of two bits. -/
def tKey (code : BitVec 96) : BitVec 128 := 2#3 ++ 2#5 ++ 0#8 ++ 0#16 ++ code

/-- Core 0 of the node: x1 = 5, x2 = 3, x3 = 8, k1 and k2 curve values, b1 = 8. -/
def tCore : Core :=
  { node := some 7, run := true
    su := { x := [(1, 5), (2, 3), (3, 8), (6, 0x200000040)], b := [(1, 8), (2, 6)], k := [(1, tKey 5), (2, tKey 9), (3, tKey 1)], pc := 4, index := 1
            loads := [(1, some { index := 0, fetch := true })] }
    cu := { lt := [(1, tEnt 0 3 0 0 0x100), (2, tCurve), (3, tEnt 2 3 0 0 0x1000000000000000), (4, tEnt 0 3 0 3 0), (5, tEnt 0 12 3 3 0x200),
                   (6, tEnt 3 3 0 0 0), (7, tEnt 0 2 0 0 0), (8, tEnt 3 12 3 3 0)]
            tk := [(1, 4)] } }

/-- Region 0 bound with quads 0 and 1, frames of 4096 cycles. -/
def tRegion : Region := { bind := 0x0000100000004000#64, quads := 3, st := .locked, cycles := 100 }

/-- The node runs on core 0. -/
def tS : State :=
  { cores := [(0, tCore), (1, { tCore with rank := 1 }), (2, { tCore with rank := 2 }), (3, { tCore with rank := 3 })], nodes := [(7, some tNode)],
    regions := [(0, tRegion)], code := [(0, { s := List.replicate 64 0 })] }

/-- `tS` with another core 0. -/
def tWith (f : Core → Core) : State := { tS with cores := tS.cores.ins 0 (f tCore) }

/-! ## Hypotheses that can be met: words of S -/

theorem witness_IntegerResults : tS.me.ready [.x 1, .x 2] [.x 3] = true ∧ tS.me.ready [.x 1] [.x 3] = true ∧
    tS.me.ready [.x 1, .x 2, .q 1] [.x 3] = true := by decide

theorem witness_ImmediateAndCompareResults : tS.me.ready [.x 1] [.x 3] = true ∧ (63#15).toNat < 64 ∧ tS.me.ready [.x 1] [.q 2] = true ∧
    (2#5 = (2#3).setWidth 5) ∧ tS.me.ready [] [.x 3] = true ∧ tS.me.ready [.x 3] [] = true ∧ tS.me.ready [.x 1, .x 2] [.q 2] = true ∧
    tS.me.ready [.q 1, .q 3] [.q 2] = true ∧ tS.me.ready [.q 1] [.q 2] = true := by decide

/-- b1 is a target in the code and b2 is none; q0 holds with inv = 0; x1 is not 1, and is in the last core. -/
theorem witness_BranchWords : tS.me.ready [] [.b 1] = true ∧ tS.me.ready [.x 1] [.b 1] = true ∧ tS.me.ready [.b 1, .q 0] [] = true ∧
    tS.me.ready [.b 1, .q 0] [.b 7] = true ∧ tS.me.ready [.b 1, .q 0, .x 1] [] = true ∧
    (tS.me.b 1).toNat % 4 = 0 ∧ (tS.me.b 1).toNat < (tS.code.get {} tS.here).s.length ∧
    tS.me.su.loads.get none 1 = some { index := 0, fetch := true } ∧ tS.me.su.loads.get none 3 = none ∧
    (tS.me.q 0 != (0#1 == 1)) = true ∧ (tS.me.q 0 != (1#1 == 1)) = false ∧ tS.me.x 1 ≠ 1 ∧ (tWith (fun c => c.setX 1 1)).me.x 1 = 1 ∧
    (tS.me.b 2).toNat % 4 ≠ 0 ∧ tS.me.ready [.b 2, .q 0] [] = true ∧ tS.me.ready [.b 2, .q 0] [.b 7] = true ∧
    tS.me.ready [.b 2, .q 0, .x 1] [] = true ∧
    (tWith (fun c => { c with su := { c.su with b := [(1, 64)] } })).code.get {} 0 = { s := List.replicate 64 0 } := by decide

/-- dims 3 and width 2, x1 = 2 + 8 x 2; k registers 1 to 3. -/
theorem witness_CurveWords :
    (let s := tWith (fun c => (c.setX 1 18).setX 2 63)
     s.me.x 1 = BitVec.ofNat 64 (3 - 1 + 8 * 2) ∧ s.me.x 2 = BitVec.ofNat 64 63 ∧ 63 < 2 ^ (3 * 2) ∧ s.me.ready [.x 1, .x 2] [.k 3] = true) ∧
    kOk (tS.me.k 1) = true ∧ 1 + (kDims (tS.me.k 1) + 1) / 2 ≤ 32 ∧ tS.me.ready [.x 1, .x 2, .k 1] [] = true ∧
    tS.me.ready [.k 1] [.x 1, .x 2] = true ∧ kSame (tS.me.k 1) (tS.me.k 2) = true ∧
    tS.me.ready [.k 1, .k 2] [.k 3] = true ∧ tS.me.ready [.k 1, .k 2] [.q 1] = true ∧ tS.me.ready [.k 1, .k 2] [.x 1] = true ∧
    kDims (tS.me.k 1) * kWidth (tS.me.k 1) ≤ 64 ∧ tS.me.x 6 = BitVec.ofNat 64 (0x40 + 2 * 2 ^ 32) ∧ tS.me.csr.watch = [] ∧ tS.mem.recent = [] ∧
    tS.mem.wf = true ∧ tS.me.ready [.k 1, .k 2, .x 6] [.q 1] = true := by decide

theorem witness_SplitRunsAreTheBox : kSame (tKey 5) (tKey 9) = true := by decide

/-- A core without a bad code word has good registers. -/
theorem good (s : State) (h : s.me.bad = []) (r : BadReg) : GoodReg s r := by
  intro b hb
  rw [h] at hb
  cases hb

theorem unmarked (k : Nat) : tS.markAt tS.here k = none := by
  have h : tS.view tS.here = some (7, tNode) := by decide
  simp only [State.markAt, State.stager, h]
  simp [tNode, Tab.find, Memory.mark, Memory.flaw, tS]

/-- A word of 4 bytes through lt1 with x5 = 0, and through the curve entry lt2 with k1. -/
theorem witness_ScalarMemoryWords : SliceAccess tS (entOf (tS.me.lt 1)) (tS.me.x 5).toNat 4 ∧ TagsMatch tS (entOf (tS.me.lt 1)) (tS.me.x 5).toNat ∧
    SliceAccess tS (entOf (tS.me.lt 2)) (fieldOf (tS.me.k 1) 95 0) 4 ∧ TagsMatch tS (entOf (tS.me.lt 2)) (fieldOf (tS.me.k 1) 95 0) ∧
    (entOf (tS.me.lt 2)).curve = true ∧ (entOf (tS.me.lt 1)).ty = 3 ∧ (∀ x ∈ sElems (entOf (tS.me.lt 1)) 0, x.outside = false) ∧
    tS.me.ready [.x 5] [.x 2] = true ∧ tS.me.ready [.k 1] [.x 2] = true ∧ tS.me.ready [.x 5, .x 2] [] = true ∧ tS.me.ready [.k 1, .x 2] [] = true ∧
    tS.me.ready [.x 5, .x 2, .x 3] [] = true ∧ tS.me.ready [.k 1, .x 2, .x 3] [] = true ∧ (∀ r, GoodReg tS r) := by
  refine ⟨⟨?_, ?_, ?_, ?_, ?_, ?_, ?_, ?_, ?_, unmarked, ?_, ?_, ?_⟩, ?_, ⟨?_, ?_, ?_, ?_, ?_, ?_, ?_, ?_, ?_, unmarked, ?_, ?_, ?_⟩, ?_, ?_, ?_, ?_, ?_, ?_, ?_, ?_, ?_, ?_, fun r => ?_⟩ <;>
    first | exact Or.inl (by decide) | exact Or.inr (Or.inr (Or.inl rfl)) | decide | exact good _ (by decide) r

/-- `s` with a page of 64 KiB of partition 0 at 0, that quad 0 has translated. -/
def tGlobal (s : State) : State :=
  { s with
    parts := [(0, { ptbr := 1, ilv := 0xFF00000000000001#64 })]
    quads := [(0, { walks := [{ part := 0, page := 0, size := 16, pma := 0, read := true, write := true }] })] }

/-- The home of an address of `tGlobal`. -/
def tHome (o : Nat) : Nat := hbmKey 0 0 0 o

theorem tHomes (s : State) (e : Ent) (xs : List Elem) (wr : Bool) (n : Nat) (h : (xs.filter (fun x => !x.outside)).flatMap (elemBytes e) = List.range n)
    (q : s.quadAt (quadOf s.here) = (tGlobal tS).quadAt 0) (p : s.partAt (s.partOf s.here) = (tGlobal tS).partAt 0) (z : s.partOf s.here = 0)
    (b : s.hbm = []) (hn : n ≤ 8) : Homes s s.here e xs wr tHome := by
  unfold Homes
  simp only [h]
  refine ⟨fun o ho => ?_, fun o ho u hu e => ?_⟩
  · have lt : o < 8 := Nat.lt_of_lt_of_le (List.mem_range.mp ho) hn
    rw [z] at p
    refine ⟨by rw [z, p]; decide, ?_, ?_, { part := 0, page := 0, size := 16, pma := 0, read := true, write := true }, ?_, by cases wr <;> rfl, ?_⟩
    · unfold tHome hbmKey; interval_cases o <;> decide
    · unfold tHome hbmKey; interval_cases o <;> decide
    · unfold State.cached
      rw [q, z]
      interval_cases o <;> decide
    · have r : s.stackAt = (tGlobal tS).stackAt := by funext k; unfold State.stackAt; rw [b]; rfl
      unfold State.homeOf
      rw [z, p, r]
      interval_cases o <;> rfl
  · have lt : o < 8 := Nat.lt_of_lt_of_le (List.mem_range.mp ho) hn
    have lu : u < 8 := Nat.lt_of_lt_of_le (List.mem_range.mp hu) hn
    unfold tHome hbmKey at e
    omega

/-- Global memory of `tGlobal` stands plain to core 0, and its node may stage 16 bytes. -/
theorem tPlain (s : State) (n : s.nodeOn 0 = some (7, tNode)) (k : s.mem.keys = [])
    (p : s.partAt (s.partOf 0) = (tGlobal tS).partAt 0) : PlainGlobal s 0 ∧ InBudget s 0 16 := by
  refine ⟨⟨k, by rw [p]; rfl, by rw [p]; rfl, fun m v g => ?_⟩, fun m v g _ => ?_⟩ <;>
    rw [n] at g <;> cases g <;> decide

theorem witness_ScalarMemoryWords_global :
    let s := tGlobal tS
    let e := entOf (s.me.lt 6)
    let xs := sElems e (s.me.x 5).toNat
    e.loaded = true ∧ e.space = 3 ∧ e.peer = false ∧ e.tagged = false ∧ sSize e = 4 ∧ PlainGlobal s 0 ∧ InBudget s 0 16 ∧ sAddr e (s.me.x 5).toNat % 4 = 0 ∧
    firstPast e xs = none ∧ Homes s s.here e xs false tHome ∧ Homes s s.here e xs true tHome ∧ Separate e xs ∧ (s.nodeOn s.here).isSome = true := by
  have p := tPlain (tGlobal tS) rfl rfl rfl
  exact ⟨by decide, by decide, by decide, by decide, by decide, p.1, p.2, by decide, by decide, tHomes _ _ _ _ 4 (by decide) rfl rfl rfl rfl (by decide),
    tHomes _ _ _ _ 4 (by decide) rfl rfl rfl rfl (by decide), by unfold Separate; decide, by decide⟩

/-- lt3 is of space 2; lt1 is dense; lt7 is i16 and lt4 has rows of 32 bytes; x1 = 5 is no row of lt1 that is aligned. -/
theorem witness_ScalarMemoryFaults :
    (entOf (tS.me.lt 3)).loaded = true ∧ (entOf (tS.me.lt 3)).space = 2 ∧ (entOf (tS.me.lt 1)).loaded = true ∧ (entOf (tS.me.lt 1)).space = 0 ∧
    (entOf (tS.me.lt 1)).curve = false ∧ sSize (entOf (tS.me.lt 4)) = 32 ∧ (entOf (tS.me.lt 4)).loaded = true ∧ sSize (entOf (tS.me.lt 7)) = 2 ∧
    (let e := entOf (tEnt 0 3 0 0 0x102); e.loaded = true ∧ sSize e = 4 ∧ sAddr e 5 % sSize e ≠ 0) ∧
    (let e := entOf (tCurve + 2); e.loaded = true ∧ e.curve = true ∧ e.ty = 3 ∧ sSize e = 4 ∧ sAddr e (fieldOf (tS.me.k 1) 95 0) % sSize e ≠ 0) ∧
    (let e := entOf (tS.me.lt 1); sAddr e 64 % 4 = 0 ∧ ∃ x ∈ sElems e 64, x.outside = true) ∧
    (let e := entOf (tS.me.lt 2); sAddr e 64 % 4 = 0 ∧ ∃ x ∈ sElems e 64, x.outside = true) ∧
    tS.me.ready [.x 1, .x 2, .x 3] [] = true ∧ tS.me.ready [.k 1, .x 2, .x 3] [] = true := by decide

/-- The four cores of the node wait in `ncmt`, or in `ncmt.end`; a byte of HBM is staged. -/
def tCommit (last : Bool) : State :=
  let c (ended : Bool) : Core := { tCore with ended := ended, ncmt := 1, su := { tCore.su with wait := some (.ncmt 1 last 0) } }
  { tS with cores := [(0, c false), (1, c last), (2, c last), (3, c last)], nodes := [(7, some { tNode with staged := [(2 ^ 29, 5)] })] }

theorem witness_StagedWritesAndCommits :
    (entOf (tS.me.lt 6)).space = 3 ∧ tS.nodeOn 0 = some (7, tNode) ∧ State.irrevocable tNode = false ∧
    (∀ last : Bool, let s := tCommit last
      ∃ v, s.nodeOn s.here = some (7, v) ∧ (State.nodeCores v).contains s.here = true ∧ (∀ f ∈ s.me.cu.flights, f.unit ≠ .s) ∧
        State.lockstep v = false ∧ v.commits < 1 ∧ (∀ b ∈ v.staged, hbmBase ≤ b.1) ∧
        (∀ b ∈ v.staged, b.1 < hostBase → Tab.find s.mem.keys (b.1 / 256) = s.keyOf v.part.toNat b.1) ∧
        s.me.ended = false ∧ s.mem.wf = true ∧
        (v.staged.map (fun b => b.1)).Nodup ∧ s.me.su.wait = some (.ncmt 1 last 0) ∧ (State.nodeCores v).all (s.commitReady 1) = true ∧
        (last = true → ∀ c ∈ State.nodeCores v, c ≠ s.here → (s.coreAt c).ended = true)) := by
  refine ⟨by decide, by decide, by decide, fun last => ?_⟩
  cases last <;> exact ⟨{ tNode with staged := [(2 ^ 29, 5)] }, by decide⟩

/-- A waiting TTAKE, and one addition that a counter just holds. -/
theorem witness_LayoutAndTokenWords_waits :
    (let s := tWith (fun c => { c with su := { c.su with wait := some (.token 5) } })
     s.me.su.wait = some (.token (((s.me.x 1).toNat + (0#5).toNat) % 2 ^ 16)) ∧ s.me.ready [.x 1] [] = true ∧ s.me.tk 1 < 5) ∧
    (let y : TokAdd := { counter := 1, amount := 65531, order := 0, index := 0, position := 0 }
     let s := tWith (fun c => { c with adds := [y] })
     (s.coreAt 0).adds = [y] ∧ (s.coreAt 0).tk y.counter + y.amount ≤ 65535) := by decide

/-- x1 = 5 is no multiple of 32; x3 = 8 at offset 0 of a slice of zeros: an invalid entry; and a valid one stands at 0x40. -/
theorem witness_LayoutAndTokenWords :
    tS.me.ready [.x 1] [] = true ∧ (tS.me.x 1).toNat % 32 ≠ 0 ∧ (tS.me.x 5).toNat % 32 = 0 ∧ (tS.me.x 5).toNat < 2 ^ 21 ∧
    tS.mem.recent = [] ∧ tS.mem.marks = [] ∧ tS.me.csr.watch = [] ∧
    (∀ i < 32, (0#256).extractLsb' (8 * i) 8 = tS.mem.byte (sliceKey tS.here i)) ∧ (entOf 0#256).ok 0#256 = false ∧
    (let v := tEnt 0 3 0 0 0x100; (entOf v).ok v = true) ∧
    ((tS.me.x 2).toNat + 1) % 2 ^ 16 ≤ tS.me.tk 1 ∧ tS.me.tk 1 < ((tS.me.x 1).toNat + 0) % 2 ^ 16 ∧ ((tS.me.x 5).toNat + 0) % 2 ^ 16 = 0 ∧
    tS.me.su.wait = none ∧ tS.me.ready [] [.x 4] = true := by decide

theorem unBad : ∀ r, GoodReg tS r := good tS (by decide)

/-! ## Hypotheses that can be met: words of L, C and W -/

/-- A segment with one word, due now, in the column of a slot. -/
def tSeg (u : Slot) : Seg :=
  { ordinal := 2, cycles := 10, signature := 0, gc := 0, ga := 0, clock := some 0
    todo := [{ offset := 0, col := todoCol u, word := 0, bad := false }] }

/-- Core 0 of `tS` with a unit that has a word due, and parameters: p1 a list of one row at 0x2000, p2 a range list there, p3 one slot of
ingest, p4 a code of 64, p6 a list of none. -/
def tDue (u : Slot) (f : Core → Core) : State :=
  let d : DUnit := { seg := some (tSeg u), p := [(1, 0x100002000), (2, 0x200100002000), (3, 0x10000), (4, 64), (6, 0x200000002000)] }
  let c := { tCore with cu := { tCore.cu with lt := [(1, tEnt 0 3 0 0 0x100), (2, tCurve), (5, tEnt 0 12 3 3 0x200), (8, tEnt 3 12 3 3 0),
    (9, tEnt 1 12 3 3 0x40000000200), (10, tEnt 2 12 3 3 0x1000000000000200), (11, tEnt 0 12 3 3 0x8000), (12, tEnt 0 12 0 1 0x200),
    (13, tEnt 0 12 0 1 0x300)] } }
  { tWith (fun _ => f (c.setUnit (seqOf u) d)) with
    cur := { core := 0, slot := u, n := 5 }
    regions := [(0, { tRegion with ticks := [(0, 0, 77)], ingestCfg := 0x0000804000040001#64 })]
    crossings := [(0, { cfg := 0x80000000#64 })] }

/-- A D word with the given entries and registers. -/
def tD (se : BitVec 5) (sp : BitVec 3) (de : BitVec 5) (dp ext : BitVec 3) : DArgs :=
  { delay := 0, gc := 0, ga := 0, t0c := 0, t0a := 0, t1c := 0, t1a := 0, t2c := 0, t2a := 0, se := se, sp := sp, de := de, dp := dp, cls := 0, ext := ext }

def tV (ty : BitVec 4) (vd va vb vc : BitVec 6) (imm : BitVec 16) : VArgs :=
  { delay := 0, ty := ty, vd := vd, va := va, vb := vb, vc := vc, mask := 0, imm := imm }

def tM (opnd : BitVec 19) : MArgs :=
  { delay := 0, gc := 0, ga := 0, t0c := 0, t0a := 0, t1c := 0, t1a := 0, t2c := 0, t2a := 0, opnd := opnd }

theorem onlyNode (s : State) (h : s.nodes = [(7, some tNode)]) (n : Nat) (v : Node) (g : s.nodeAt n = some v) : v = tNode := by
  unfold State.nodeAt at g
  rw [h] at g
  by_cases k : 7 = n
  · simp [Tab.get, k] at g; exact g.symm
  · simp [Tab.get, k] at g

theorem quiet (s : State) (h : s.nodes = [(7, some tNode)]) (m : s.mem = {}) (d : s.down = []) (c : ∀ k, (s.coreAt k).csr.watch = []) : Quiet s := by
  refine ⟨by rw [m]; rfl, by rw [m], by rw [m], by rw [m], d, c, fun n v g => ?_⟩
  rw [onlyNode s h n v g]
  decide

theorem zeroTakes (ts : Takes) (z : ts.all (fun u => u.2 = 0) = true) (r : BitVec 5) :
    ((ts.filter (fun u => u.1 = r)).map (fun u => u.2)).sum = 0 := by
  induction ts with
  | nil => rfl
  | cons u ts ih =>
    simp only [List.all_cons, Bool.and_eq_true, decide_eq_true_eq] at z
    by_cases h : u.1 = r
    · rw [List.filter_cons_of_pos (by simpa using h)]
      simp only [List.map_cons, List.sum_cons, z.1, ih z.2]
    · rw [List.filter_cons_of_neg (by simpa using h)]
      exact ih z.2

theorem due (s : State) (g : Seg) (x : Todo) (ts : Takes) (h : s.unitHere.seg = some g)
    (f : g.todo.find? (fun t => t.offset = g.clock.getD 0 && !t.bad && t.col = todoCol s.slotHere) = some x)
    (b : s.me.bad = []) (z : ts.all (fun u => u.2 = 0) = true) : WordDue s g x ts :=
  ⟨h, f, fun r => by rw [zeroTakes ts z r]; exact Nat.zero_le _, fun r _ => good s b r⟩

/-- A check that admits the word. -/
def tOk (x : Except (Nat × Nat) Bool) : Bool := match x with | .ok b => !b | .error _ => false

theorem okOf {x : Except (Nat × Nat) Bool} (h : tOk x = true) : x = .ok false := by
  cases x with
  | ok b => simpa [tOk] using h
  | error e => simp [tOk] at h

theorem coreCases (s : State) (P : Core → Prop) (a b c d : Core) (h : s.cores = [(0, a), (1, b), (2, c), (3, d)]) (pa : P a) (pb : P b) (pc : P c)
    (pd : P d) (pe : P {}) (k : Nat) : P (s.coreAt k) := by
  unfold State.coreAt
  rw [h]
  simp only [Tab.get]
  split
  · exact pa
  split
  · exact pb
  split
  · exact pc
  split
  · exact pd
  · exact pe

/-- A word is due in L and in W; the moves between entries of the slice, of another core, of the group and of memory; a list, a range list;
one tick of the crossing; a port with room and a full one; a copy and an empty box. -/
theorem witness_DataWordsIssue_l : WordDue (tDue .l id) (tSeg .l) { offset := 0, col := 0, word := 0, bad := false } (tD 0 0 0 0 0).takes ∧ (tDue .l id).slotHere = .l ∧
    (let s := tDue .l id
     s.moveCheck (tD 5 0 11 0 0) [0] [0, 3] (.ok false) = .ok false ∧ s.moveCheck (tD 5 0 8 0 0) [0, 3] [0] (.ok false) = .ok false ∧
     s.moveCheck (tD 9 0 5 0 0) [0] [1] (.ok false) = .ok false ∧ s.moveCheck (tD 5 0 9 0 0) [1] [0] (.ok false) = .ok false ∧
     s.moveCheck (tD 5 0 10 0 0) [2] [0] (.ok false) = .ok false ∧ s.moveCheck (tD 10 0 5 0 0) [0] [2] (.ok false) = .ok false ∧
     (s.srcEnt (tD 10 0 5 0 0)).ty = (s.dstEnt (tD 10 0 5 0 0)).ty ∧ (s.srcEnt (tD 10 0 5 0 0)).tagged = false) := by
  exact ⟨due _ _ _ _ rfl rfl rfl rfl, rfl, okOf (by decide), okOf (by decide), okOf (by decide), okOf (by decide), okOf (by decide), okOf (by decide),
    by decide, by decide⟩

theorem witness_DataWordsIssue_gather :
    (let s := tDue .l id
     let w := tD 12 0 13 0 1
     s.gatherCheck (s.dstEnt w) (s.srcEnt w) (s.dstCoord w) (s.pHere w.ext) (gthOk (s.pHere w.ext) false) 8 (gthN (s.pHere w.ext)) true true false true (s.farRows w (s.srcEnt w)) = .ok false ∧
     s.gatherCheck (s.srcEnt w) (s.dstEnt w) (s.srcCoord w) (s.pHere w.ext) (gthOk (s.pHere w.ext) false) 8 (gthN (s.pHere w.ext)) true true true false (s.farRows w (s.dstEnt w)) = .ok false ∧
     s.gatherCheck (s.srcEnt w) (s.dstEnt w) (s.srcCoord w) (s.pHere w.ext) (gthOk (s.pHere w.ext) true) 8 (gthN (s.pHere w.ext)) true true true true (s.farRows w (s.dstEnt w)) = .ok false ∧
     (s.dstEnt w).ty = 12) ∧
    (∀ p : Bool, let s := tDue .l id
     let w := tD 2 0 1 0 (if p then 2 else 6)
     let codes := if s.listKnown w then s.rangeCodes w (gthOff (s.pHere w.ext)) (List.range (gthN (s.pHere w.ext))) (rgthMax (s.pHere w.ext)) else []
     s.gatherCheck (s.dstEnt w) (s.srcEnt w) (s.dstCoord w) (s.pHere w.ext) (rgthOk (s.pHere w.ext)) 16 codes.length (s.srcEnt w).curve true
       false true (codes.flatMap (rowOf (s.srcEnt w))) = .ok false ∧ (p = decide (gthN (s.pHere w.ext) ≠ 0))) := by
  refine ⟨⟨okOf (by decide), okOf (by decide), okOf (by decide), by decide⟩, fun p => ?_⟩
  cases p <;> exact ⟨okOf (by decide), by decide⟩

theorem witness_DataWordsIssue_rest :
    (let s := tDue .l id
     let w := tD 0 0 5 0 0
     (s.dstEnt w).loaded = true ∧ (s.dstEnt w).space = 0 ∧ firstPast (s.dstEnt w) (tileOf (s.dstEnt w) (s.dstCoord w)) = none ∧
     fieldOf (s.pHere w.sp) 63 32 = 0 ∧ (statElem (s.dstEnt w) (s.dstCoord w)).addr % 8 = 0 ∧ (statElem (s.dstEnt w) (s.dstCoord w)).addr + 8 ≤ 2 ^ 21) ∧
    (let s := tDue .l id
     let w := tD 0 3 5 0 0
     let p := s.pHere w.sp
     let h := ingestOf (s.regionAt (s.regionOf s.here)).ingestCfg
     (s.dstEnt w).curve = false ∧ fieldOf p 63 40 = 0 ∧ 1 ≤ fieldOf p 31 16 ∧ fieldOf p 31 16 ≤ 4096 ∧ h.on = true ∧ h.core = s.here ∧
     fieldOf p 15 0 + fieldOf p 31 16 ≤ h.count ∧ (statElem (s.dstEnt w) (s.dstCoord w)).addr + fieldOf p 31 16 * h.slot ≤ 2 ^ 21 ∧ s.mem.tagNews = [] ∧
     (frameDelta (s.frameNo s.here) (fieldOf p 39 32)).setWidth 8 = 0#8 ∧ s.mem.tags = []) ∧
    (let s := tDue .l id
     s.crossingTick (s.pHere 0) false = some 77 ∧ (s.dstEnt (tD 0 0 5 0 0)).ty = 12 ∧
     (statElem (s.dstEnt (tD 0 0 5 0 0)) 0).addr % 4 = 0 ∧ (statElem (s.dstEnt (tD 0 0 5 0 0)) 0).addr + 4 * (xcfgOf (s.crossingAt (fieldOf (s.pHere 0) 5 0)).cfg).chans + 4 ≤ 2 ^ 21) ∧
    (let s := tDue .w id
     let e := s.srcEnt (tD 5 0 0 0 0)
     let r := s.regionAt (s.regionOf s.here)
     s.crossingTick (s.pHere 0) true = some 77 ∧ e.loaded = true ∧ e.space = 0 ∧ e.ty = 12 ∧ e.tagged = false ∧
     (xcfgOf (s.crossingAt (fieldOf (s.pHere 0) 5 0)).cfg).chans ≤ e.t0 ∧ firstPast e ((rowOf e 0).take 1) = none ∧
     (if e.curve then e.cell else e.t0 * e.t1 * e.esize / 8) ≤ 8192 ∧ fieldOf (s.pHere 0) 45 32 = 0 ∧ fieldOf (s.pHere 0) 31 0 < fieldOf r.bind 63 32 ∧
     firstPast e (tileOf e 0) = none ∧ (s.portAt 0).queue.length < 64) ∧
    (let s := tDue .l id
     let a := s.srcEnt (tD 5 0 11 0 0)
     let b := s.dstEnt (tD 5 0 11 0 0)
     a.loaded = true ∧ b.loaded = true ∧ a.space ≠ 2 ∧ b.space ≠ 2 ∧ a.curve = false ∧ b.curve = false ∧ a.esize = b.esize ∧ s.copiesOpen s.here < 1024 ∧
     (∀ y ∈ s.me.cu.copies, s.me.cu.copyCount < y.n + 1024) ∧
     ¬ (a.e0 ≤ 0 ∨ a.e1 ≤ 0 ∨ a.e2 ≤ 0 ∨ a.e3 ≤ 0) ∧ a.e0 ≤ bitsOf (s.pHere 4).toNat 15 0) := by decide

/-- No register of it is bad. -/
theorem witness_DataWordsIssue_clean (u : Slot) (r : BadReg) : GoodReg (tDue u id) r := good _ (by cases u <;> rfl) r

theorem witness_DataWordsIssue_quiet : Quiet (tDue .w id) :=
  quiet _ rfl rfl rfl (fun k => coreCases _ (fun c => c.csr.watch = []) _ _ _ _ rfl rfl rfl rfl rfl rfl k)

/-- Counter 2 holds nothing. -/
theorem witness_ShortTakesFreezeTheDomain :
    (let s := tDue .l id
     let w := { tD 0 0 0 0 0 with t0c := 2, t0a := 1 }
     (s.domainOf s.here).contains s.here = true ∧ ∃ u ∈ w.takes, s.me.tk u.1 < ((w.takes.filter (fun r => r.1 = u.1)).map (fun r => r.2)).sum) ∧
    (let s := tDue .ct id
     let v := { tM 0 with t0c := 2, t0a := 1 }
     ∃ u ∈ v.takes, s.me.tk u.1 < ((v.takes.filter (fun r => r.1 = u.1)).map (fun r => r.2)).sum) := by decide

/-- A word in flight from entry lt12 to lt13, of two elements each. -/
def tFlight (i : Instr) (par : Dword) : Flight :=
  { id := 5, unit := .l, ordinal := 2, offset := 0, word := i, src := tEnt 0 12 0 1 0x200, dst := tEnt 0 12 0 1 0x300, sc := 0, dc := 0, par := par
    frame := 0, issued := 90 }

/-- The state in which that flight may land. -/
def tLand (i : Instr) (par : Dword) : State := tDue .l (fun c => { c with cu := { c.cu with flights := [tFlight i par] } })

theorem witness_DataWordsLand (i : Instr) (par : Dword) : Quiet (tLand i par) :=
  quiet _ rfl rfl rfl (fun k => coreCases _ (fun c => c.csr.watch = []) _ _ _ _ rfl rfl rfl rfl rfl rfl k)

theorem witness_DataWordsLand_moves :
    (∀ i ∈ ([.tld (tD 12 0 13 0 0), .tst (tD 12 0 13 0 0), .fill (tD 0 0 13 0 0)] : List Instr), MayLand (tLand i 0) (tFlight i 0)) ∧
    (let a := entOf (tEnt 0 12 0 1 0x200)
     let b := entOf (tEnt 0 12 0 1 0x300)
     InSlice a ∧ InSlice b ∧ Separate b (tileOf b 0) ∧ firstPast b (tileOf b 0) = none ∧ State.sameShape a b = true ∧ firstPast a (tileOf a 0) = none ∧
     (∀ k ∈ elementKeys 0 a (tileOf a 0), k ∉ elementKeys 0 b (tileOf b 0))) := by
  unfold MayLand InSlice Separate
  decide

theorem witness_DataWordsLand_mayLand :
    ∀ i ∈ ([.gth (tD 12 0 13 0 1), .sct (tD 12 0 13 0 1), .scta (tD 12 0 13 0 1)] : List Instr), MayLand (tLand i 0x100002000) (tFlight i 0x100002000) := by
  unfold MayLand
  decide

theorem witness_DataWordsLand_lists :
    (let a := entOf (tEnt 0 12 0 1 0x200)
     let b := entOf (tEnt 0 12 0 1 0x300)
     a.space = 0 ∧ b.space = 0 ∧ a.curve = false ∧ b.curve = false ∧ a.t0 * a.esize = rowBits b ∧ b.t0 * b.esize = rowBits a ∧
     a.tagged = false ∧ b.tagged = false ∧ rowBits a % a.esize = 0 ∧ rowBits b % b.esize = 0 ∧
     gthOff 0x100002000 + 8 * gthN 0x100002000 ≤ 2 ^ 21 ∧ gthN 0x100002000 = 1 ∧ nearRow a 0 0 = rowOf a 0 ∧ nearRow b 0 0 = rowOf b 0 ∧
     firstPast b (rowOf b 0) = none ∧ firstPast a (rowOf a 0) = none ∧ Separate a (rowOf a 0) ∧ Separate b (rowOf b 0) ∧
     (∀ k ∈ elementKeys 0 a (rowOf a 0), k ∉ elementKeys 0 b (rowOf b 0) ∧ k ∉ (List.range 8).map (fun i => sliceKey 0 (0x2000 + i))) ∧
     (∀ k ∈ elementKeys 0 b (rowOf b 0), k ∉ elementKeys 0 a (rowOf a 0) ∧ k ∉ (List.range 8).map (fun i => sliceKey 0 (0x2000 + i)))) := by
  unfold Separate
  decide

/-- A flight that may land, beside global memory. -/
def tFly (f : Flight) : State := tGlobal (tDue .l (fun c => { c with cu := { c.cu with flights := [f] } }))

theorem tFly_quiet (f : Flight) : Quiet (tFly f) :=
  quiet _ rfl rfl rfl (fun k => coreCases _ (fun c => c.csr.watch = []) _ _ _ _ rfl rfl rfl rfl rfl rfl k)

theorem tFly_homes (f : Flight) (e : Ent) (xs : List Elem) (wr : Bool) (h : (xs.filter (fun x => !x.outside)).flatMap (elemBytes e) = List.range 8) :
    Homes (tFly f) (tFly f).here e xs wr tHome := by
  have z : (tFly f).here = 0 := rfl
  have n : (tFly f).partOf 0 = 0 := rfl
  exact tHomes _ _ _ _ 8 h (by rw [z]; rfl) (by rw [z, n]; rfl) (by rw [z, n]) rfl (by decide)

/-- Two f32 elements at 0 of global memory. -/
def tFar : Ent := entOf (tEnt 3 12 0 1 0)

/-- TST and FILL to global memory, TLD from it; SCT and SCTA to it, GTH from it. -/
theorem witness_DataWordsLand_global (f : Flight) :
    PlainGlobal (tFly f) (tFly f).here ∧ InBudget (tFly f) (tFly f).here 16 ∧ ((tFly f).nodeOn (tFly f).here).isSome = true ∧
    Homes (tFly f) (tFly f).here tFar (tileOf tFar 0) true tHome ∧ Homes (tFly f) (tFly f).here tFar (tileOf tFar 0) false tHome ∧
    Homes (tFly f) (tFly f).here tFar (rowOf tFar 0) true tHome ∧ Homes (tFly f) (tFly f).here tFar (rowOf tFar 0) false tHome := by
  have p := tPlain (tFly f) rfl rfl rfl
  exact ⟨p.1, p.2, rfl, tFly_homes f _ _ _ (by decide), tFly_homes f _ _ _ (by decide), tFly_homes f _ _ _ (by decide), tFly_homes f _ _ _ (by decide)⟩

theorem witness_DataWordsLand_global_entries :
    (∀ i ∈ ([.tst (tD 0 0 0 0 0), .fill (tD 0 0 0 0 0), .sct (tD 0 0 0 0 1), .scta (tD 0 0 0 0 1)] : List Instr),
      let f := { tFlight i 0x100002000 with dst := tEnt 3 12 0 1 0 }
      MayLand (tFly f) f) ∧
    (∀ i ∈ ([.tld (tD 0 0 0 0 0), .gth (tD 0 0 0 0 1)] : List Instr),
      let f := { tFlight i 0x100002000 with src := tEnt 3 12 0 1 0 }
      MayLand (tFly f) f) ∧
    tFar.space = 3 ∧ firstPast tFar (tileOf tFar 0) = none ∧ firstPast tFar (rowOf tFar 0) = none ∧ Separate tFar (tileOf tFar 0) ∧ Separate tFar (rowOf tFar 0) ∧
    State.sameShape (entOf (tEnt 0 12 0 1 0x200)) tFar = true ∧ tFar.tagged = false ∧ tFar.ty = 12 ∧ rowBits tFar = 64 := by
  refine ⟨?_, ?_, by decide, by decide, by decide, ?_, ?_, by decide, by decide, by decide, by decide⟩
  · unfold MayLand; decide
  · unfold MayLand; decide
  · unfold Separate; decide
  · unfold Separate; decide

/-- RGTH of one cell of the curve entry to a row of one element. -/
theorem witness_DataWordsLand_ranges :
    let par : Dword := 0x200100002000#64
    let f := { tFlight (.rgth (tD 0 0 0 0 2)) par with src := tCurve, dst := tEnt 0 12 0 0 0x300 }
    let s := tFly f
    let near := entOf f.dst
    let far := entOf f.src
    let bound (j : Nat) (at_ : Nat) : Nat := leNat ((List.range 8).map (fun i => s.mem.byte (sliceKey s.here (gthOff par + 16 * j + at_ + i))))
    let codes := ((List.range (gthN par)).flatMap (fun j => (List.range (bound j 8 + 1 - bound j 0)).map (fun i => bound j 0 + i))).take (rgthMax par)
    MayLand s f ∧ near.space = 0 ∧ near.curve = false ∧ far.curve = true ∧ far.space = 0 ∧ near.t0 * near.esize = rowBits far ∧ rowBits far % far.esize = 0 ∧
    gthN par = 1 ∧ codes = [0] ∧ far.tagged = false ∧ gthOff par + 16 * gthN par ≤ 2 ^ 21 ∧ firstPast near (nearRow near 0 0) = none ∧
    Separate near (nearRow near 0 0) ∧ firstPast far (rowOf far 0) = none ∧
    (∀ k ∈ elementKeys s.here near (nearRow near 0 0), k ∉ elementKeys s.here far (rowOf far 0) ∧
      k ∉ (List.range 16).map (fun i => sliceKey s.here (gthOff par + i))) := by
  unfold MayLand Separate
  decide +kernel

/-- A sum over the group, a broadcast to it, one slot of ingest, and the status of a copy. -/
theorem witness_DataWordsLand_group :
    (∀ i ∈ ([.tgr (tD 0 0 0 0 0)] : List Instr), let f := { tFlight i 0 with src := tEnt 2 12 0 1 0x1000000000000200 }
      MayLand (tFly f) f ∧ State.sameShape (entOf f.src) (entOf f.dst) = true ∧ (entOf f.src).space = 2) ∧
    (∀ i ∈ ([.tbc (tD 0 0 0 0 0)] : List Instr), let f := { tFlight i 0 with dst := tEnt 2 12 0 1 0x1000000000000300 }
      MayLand (tFly f) f ∧ State.sameShape (entOf f.src) (entOf f.dst) = true ∧ (entOf f.dst).space = 2 ∧
      firstPast (entOf f.dst) (tileOf (entOf f.dst) 0) = none ∧ Separate (entOf f.dst) (tileOf (entOf f.dst) 0)) ∧
    (∀ i ∈ ([.ingt (tD 0 0 0 0 0), .bstat (tD 0 0 0 0 0)] : List Instr), ∀ n ∈ [8, 64],
      let f := tFlight i 0x10000
      let s := tFly f
      let e := entOf f.dst
      let g := ingestOf (s.regionAt (s.regionOf s.here)).ingestCfg
      let xs := (List.range n).map (State.byteElem (statElem e f.dc.toNat).addr)
      let off := g.half ((frameDelta f.frame (fieldOf f.par 39 32)).toNat % 2) + fieldOf f.par 15 0 * g.slot
      MayLand s f ∧ e.space = 0 ∧ fieldOf f.par 31 16 * g.slot = 64 ∧ off + n ≤ 2 ^ 21 ∧ Separate (State.asBytes e) xs ∧ firstPast (State.asBytes e) xs = none ∧
      (∀ i < n, sliceKey s.here (off + i) ∉ elementKeys s.here (State.asBytes e) xs)) := by
  unfold MayLand Separate
  refine ⟨?_, ?_, ?_⟩
  · decide +kernel
  · decide +kernel
  · decide +kernel

/-! ## Hypotheses that can be met: vector and matrix words -/

theorem dueC (u : Slot) (f : Core → Core) (h : ((tDue u f).me.unit (seqOf u)).seg = some (tSeg u)) (hs : (tDue u f).slotHere = u) (ts : Takes)
    (b : (tDue u f).me.bad = []) (z : ts.all (fun u => u.2 = 0) = true) :
    WordDue (tDue u f) (tSeg u) { offset := 0, col := todoCol u, word := 0, bad := false } ts :=
  due _ _ _ _ (by unfold State.unitHere; rw [hs]; exact h) (by rw [hs]; cases u <;> rfl) b z

theorem clear (u : Slot) (h : seqOf u = 2) : Clear (tDue u id) :=
  ⟨by cases u <;> rfl, by cases u <;> rfl, fun b => by cases u <;> rfl, by cases u <;> rfl, h⟩

theorem witness_VectorElementResults : WordDue (tDue .va id) (tSeg .va) { offset := 0, col := 0, word := 0, bad := false } [] ∧ Clear (tDue .va id) :=
  ⟨dueC .va id rfl rfl [] rfl rfl, clear .va rfl⟩

/-- A finite number. -/
def tFin (x : Machine.Num) : Bool := match x with | .fin _ _ _ => true | _ => false

/-- Integer and floating types; two finite values of e4m3 and the one nearest to zero. -/
theorem witness_ElementArithmetic : (3 < 8 ∧ 5 < 2 ^ widthOf 3) ∧ 1 < 2 ^ widthOf 8 ∧
    tFin (numOf 8 1) = true ∧ tFin (numOf 8 (rne 8 (.fin false 1 0)).1) = true ∧ tFin (numOf 12 0x3F800000) = true ∧ tFin (numOf 12 0) = true ∧
    (numOf 12 0x7FC00000).isNan = true ∧ (numOf 12 0x7F800000).isInf = true ∧ (numOf 12 0xFF800000).isInf = true := by
  decide

theorem witness_VectorMaskAndOrderResults : WordDue (tDue .vx id) (tSeg .vx) { offset := 0, col := 2, word := 0, bad := false } [] ∧ Clear (tDue .vx id) ∧
    (tV 12 3 0 2 0 1).immf 1 0 = 1 ∧ (tV 7 3 0 2 0 0).immf 1 0 = 0 :=
  ⟨dueC .vx id rfl rfl [] rfl rfl, clear .vx rfl, by decide, by decide⟩

/-- e4m3 to f32 spreads over four registers, f32 to e4m3 gathers from four; VQNT of v3 and v5. -/
theorem witness_VectorConversionsAndScales : (tV 12 4 1 0 0 8).outl = false ∧ (tV 12 4 1 0 0 8).bits = 4 * widthOf (tV 12 4 1 0 0 8).srcT ∧
    widthOf (tV 8 4 8 0 0 12).srcT = 4 * (tV 8 4 8 0 0 12).bits ∧ (tV 8 3 1 0 5 12).outl = false ∧ (tV 8 3 1 0 5 12).vd ≠ (tV 8 3 1 0 5 12).vc := by decide

/-- Outlier mode with the list at 0x2000 of p1, from f32 to e4m3. -/
theorem witness_VectorConversionsAndScales_outliers :
    let s := tDue .va id
    let w := tV 8 3 1 1 5 0x8C
    let off := fieldOf (s.pHere (w.vb.setWidth 3)) 20 0
    let size : Nat := leNat ((List.range 4).map (fun i => s.mem.byte (sliceKey s.here (off + 4 + i))))
    Quiet s ∧ w.outl = true ∧ w.wrap = false ∧ off % 8 = 0 ∧ off + 8 + 8 * size ≤ 2 ^ 21 ∧ w.srcT ≠ w.t ∧ widthOf w.srcT = 4 * w.bits ∧ w.vd ≠ w.vc :=
  ⟨quiet _ rfl rfl rfl (fun k => coreCases _ (fun c => c.csr.watch = []) _ _ _ _ rfl rfl rfl rfl rfl rfl k), by decide +kernel⟩

/-- Path 1 has no room for the 128 elements of f32 with the other paths' entries; path 0 has 2,048; queues with room, full and not empty. -/
theorem witness_SieveQueueAndBankWords :
    (let s := tDue .vx id
     let cap := fieldOf s.me.csr.sieveCfg 11 0
     s.me.sieveUse 0 + 128 ≤ cap ∧ fieldOf s.me.csr.sieveCfg 23 12 < s.me.sieveUse 1 + 128) ∧
    (let s := tDue .vl id
     (s.me.cu.resq.get [] 0).length < 16 ∧ s.me.cu.opq.get [] 0 = [] ∧ (tSeg .vl).bankDue.get 0 0 ≤ (tSeg .vl).clock.getD 0) ∧
    (let s := tDue .vl (fun c => { c with cu := { c.cu with resq := [(0, List.replicate 16 0)], opq := [(0, [{ source := 9, lane := 0, data := 0 }])] } })
     16 ≤ (s.me.cu.resq.get [] 0).length ∧ s.me.cu.opq.get [] 0 = [{ source := 9, lane := 0, data := 0 }] ∧ 0 ≤ s.cycleOf s.here) ∧
    (let s := tDue .vl (fun c => { c with cu := { c.cu with opq := [(0, [{ source := 9, lane := 0, data := 0, ready := 101 }])] } })
     s.me.cu.opq.get [] 0 = [{ source := 9, lane := 0, data := 0, ready := 101 }] ∧ s.cycleOf s.here < 101) := by decide +kernel

/-- lt12 holds two f32 elements, which no other byte of the slice is. -/
theorem witness_VectorMemoryWords : WordDue (tDue .vl id) (tSeg .vl) { offset := 0, col := 3, word := 0, bad := false } [] ∧ Clear (tDue .vl id) ∧
    Quiet (tDue .vl id) ∧ ((tDue .vl id).quadAt (quadOf (tDue .vl id).here)).cmds = [] ∧
    (let w := { tV 12 3 12 0 4 0 with mask := 1 }
     let s := tDue .vl id
     let e := entOf (s.me.lt w.va.toNat)
     let picked := (List.range w.n).filter (maskBit s w.mask.toNat)
     e.loaded = true ∧ e.space = 0 ∧ w.bits = e.esize ∧ e.tagged = false ∧ e.curve = false ∧ e.t0 * e.t1 * e.esize ≤ 4096 ∧
     firstPast e (tileOf e 0) = none ∧ firstPast e (rowOf e 0) = none ∧ picked = [] ∧ Separate e (tileOf e 0)) :=
  ⟨dueC .vl id rfl rfl [] rfl rfl, clear .vl rfl, quiet _ rfl rfl rfl (fun k => coreCases _ (fun c => c.csr.watch = []) _ _ _ _ rfl rfl rfl rfl rfl rfl k),
    by decide, by unfold Separate; decide +kernel⟩

/-- Core 0 holds the lease of band 0; one column; p1 and up are descriptors. -/
def tMat (fw : List Dword) (f : Quad → Quad) : State :=
  let s := tDue .mc (fun c => { c with
    csr := { c.csr with ashape := 1 }
    cu := { c.cu with fmtq := fw, lt := [(5, tEnt 0 12 3 3 0x200), (14, tEnt 0 10 0 0 0x200)] }
    c := { c.c with p := [(1, 0x200), (2, 0x200000200), (3, 0)] } })
  { s with quads := [(0, f { lease := some { core := 0, bands := 1, cls := 0, count := 1, start := 0 }
                             active := [(0, { info := some { fmt := 10, block := false, cs := false, nc := 1 } })] })] }

theorem matrixDue (fw : List Dword) (opnd : BitVec 19) (bands : Nat) (hl : (tMat fw id).leaseBands (tM opnd) = some 1)
    (h : ∀ j ∈ bandList bands, bitOf 1 j = true) :
    MatrixDue (tMat fw id) (tM opnd) (tSeg .mc) { offset := 0, col := 4, word := 0, bad := false } bands :=
  ⟨due _ _ _ _ rfl rfl rfl rfl, rfl, 1, hl, h⟩

theorem witness_LeaseAndControlWords : WordDue (tMat [] id) (tSeg .mc) { offset := 0, col := 4, word := 0, bad := false } (tM 1).takes ∧
    (tMat [] id).slotHere = .mc ∧ MatrixDue (tMat [] id) (tM 5) (tSeg .mc) { offset := 0, col := 4, word := 0, bad := false } 0 ∧
    WordDue (tDue .ct id) (tSeg .ct) { offset := 0, col := 5, word := 0, bad := false } (tM 0).takes :=
  ⟨due _ _ _ _ rfl rfl rfl rfl, rfl, matrixDue _ _ _ (by decide) (by decide), due _ _ _ _ rfl rfl rfl rfl⟩

/-- A core without the lease; a lease of band 0 and a word on band 1. -/
theorem witness_MatrixPlanesAndLeases :
    (tDue .mc id).leaseBands (tM 0) = none ∧ (tMat [] id).leaseBands (tM 2) = some 1 ∧ bitOf 1 1 = false ∧ bitOf ((tM 2).opf 3 0) 1 = true ∧
    bitOf (tDue .mc id).bandsHere 1 = true ∧
    MatrixDue (tMat [] id) (tM 1) (tSeg .mc) { offset := 0, col := 4, word := 0, bad := false } ((tM 1).opf 3 0) ∧
    (∀ fw ∈ ([0xA000000, 0xAA000000, 0xC00000] : List Dword),
      MatrixDue (tMat [fw] id) (tM 0) (tSeg .mc) { offset := 0, col := 4, word := 0, bad := false } (tMat [fw] id).bandsHere) := by
  refine ⟨by decide, by decide, by decide, by decide, by decide, matrixDue _ _ _ (by decide) (by decide), fun fw h => ?_⟩
  simp only [List.mem_cons, List.not_mem_nil, or_false] at h
  rcases h with h | h | h <;> subst h <;> exact matrixDue _ _ _ (by decide) (by decide)

/-- Bands of bf16: MLDW of a tile of lt14, MMUL of one of its rows, MOCR of the list at 0x2000, MDRN to lt5 as f32; MZACC and MCHK of row 0. -/
theorem witness_MatrixPlanesAndLeases_words :
    (let s := tMat [0xA000000] id
     let w := tM (14 * 0x2000 + 3 * 0x80)
     let y := s.mctx w
     s.me.cu.fmtq = [y.fmt] ∧ fieldOf y.fmt 13 0 = 0 ∧ mpcOf y.bfmt ≠ 0 ∧ fieldOf y.desc 63 41 = 0 ∧ fieldOf y.desc 19 0 = 0 ∧
       OperandOk s w y.bfmt (32 * y.nb * y.ncols) (y.elems y.ncols (32 * y.nb)) (dSoff y.desc) 0 ∧ y.block = false) ∧
    (let s := tMat [0xAA000000] id
     let w := tM (14 * 0x2000 + 0x80)
     let y := s.mctx w
     s.me.cu.fmtq = [y.fmt] ∧ fieldOf y.fmt 13 0 = 0 ∧ State.pairOk y.afmt y.bfmt = true ∧ State.descOk y.desc true false 1 = true ∧
       recordsOk (State.planned s.quadHere) y.bands y.bfmt y.block y.ncols y.cs = true ∧
       OperandOk s w y.afmt (32 * y.nb * dRows y.desc) (y.elems (32 * y.nb) (dRows y.desc)) (dSoff y.desc) 0) ∧
    (let s := tMat [0xA000000] id
     let y := s.mctx (tM 0x100)
     State.descOk y.desc true false 8 = true ∧ recordsOk (State.planned s.quadHere) y.bands y.bfmt y.block y.ncols false = true ∧
       s.listCheck (dSoff y.desc) = .ok false) ∧
    (let s := tMat [0xC00000] id
     let w := tM (5 * 0x2000 + 0x80)
     let y := s.mctx w
     y.outl = false ∧ State.outFmtOk y.ofmt = true ∧ State.descOk y.desc true true 1 = true ∧ s.opCheck w y.ofmt (y.ncols * dRows y.desc) = .ok false ∧
       s.opSpace w (y.elems y.ncols (dRows y.desc)) = .ok false ∧ isBank w = false) ∧
    (let s := tMat [] id
     let y := s.mctx (tM 0x80)
     State.descOk y.desc false true 1 = true ∧ State.descOk y.desc true false 16 = true ∧
       (let tau := numOf 12 (y.coord % 2 ^ 32)
        tau.isNan = false ∧ tau.isInf = false ∧ tau.isZero = true) ∧
       dSoff y.desc + (4 * (dRows y.desc + y.ncols) + 15) / 16 * 16 + 16 ≤ 2 ^ 21) := by
  refine ⟨⟨rfl, by decide, by decide, by decide, by decide, ⟨okOf (by decide), okOf (by decide), okOf (by decide), by decide⟩, by decide⟩,
    ⟨rfl, by decide, by decide, by decide, by decide, okOf (by decide), okOf (by decide), okOf (by decide), by decide⟩,
    ⟨by decide, by decide, okOf (by decide)⟩,
    ⟨by decide, by decide, by decide, okOf (by decide), okOf (by decide), by decide⟩, by decide⟩

/-- The command of a word that `tMat fw` issues; core 0 has lent bank 1. -/
def tCmd (fw : List Dword) (opnd : BitVec 19) (i : MArgs → Instr) : MatCmd :=
  { id := 5, core := 0, ordinal := 2, offset := 0, index := 0, gc := 1, ga := 1, issued := 90, word := i (tM opnd), ctx := (tMat fw id).mctx (tM opnd) }
def tArray (m : MatCmd) : State :=
  let s := tMat [] (fun q => { q with cmds := [m] })
  { s with cores := s.cores.ins 0 { s.me with cu := { s.me.cu with lent := [{ bank := 1 }] } } }

theorem sameRegion (s t : State) (h : s.regions = t.regions) (q n : Nat) : s.regionOfQuad q n = t.regionOfQuad q n := by
  induction n with
  | zero => rfl
  | succ n ih =>
    have b : s.bound n = t.bound n := by unfold State.bound State.regionAt; rw [h]
    have r : s.regionAt n = t.regionAt n := by unfold State.regionAt; rw [h]
    unfold State.regionOfQuad
    rw [b, ih, r]

theorem tArray_gated (m : MatCmd) : ((tArray m).regionAt ((tArray m).regionOfQuad (quadOf (tArray m).here) 32)).gated = false := by
  have h : (tArray m).regions = (tMat [] id).regions := rfl
  have c : (tArray m).here = (tMat [] id).here := rfl
  rw [sameRegion _ _ h, c, State.regionAt, h]
  decide

theorem witness_MatrixCommandsLand_next (m : MatCmd) (h : m.core = 0) (i : m.id = 5) (b : m.boost = none) : CommandNext (tArray m) m := by
  have q : (tArray m).quadHere = { lease := some { core := 0, bands := 1, cls := 0, count := 1, start := 0 }, cmds := [m]
                                   active := [(0, { info := some { fmt := 10, block := false, cs := false, nc := 1 } })] } := by
    simp [tArray, tMat, tDue, State.quadHere, State.quadAt, Tab.get, quadOf, State.here]
  have e : (tArray m).quadHere.cmds = [m] := by rw [q]
  refine ⟨by rw [h]; rfl, by rw [e]; simp [tArray, tMat, tDue, i], b, fun c hc l => ?_, tArray_gated m, fun l hl => by rw [q] at hl; cases hl; rfl,
    quiet _ rfl rfl rfl (fun k => coreCases _ (fun c => c.csr.watch = []) _ _ _ _ rfl rfl rfl rfl rfl rfl k), by rw [h]; rfl, by rw [h]; rfl, by rw [q],
    fun j => ?_⟩
  · rw [e] at hc
    rcases List.mem_singleton.mp hc with rfl
    exact absurd l (by omega)
  · rw [q]
    unfold Quad.activeAt
    simp only [Tab.get]
    split <;> rfl

/-- MMUL of row 0, which is 32 times 1 times 1 of bf16; MDRN to lt5 and to bank 1; MOCR and MCHK of row 0. -/
theorem witness_MatrixMultiplies :
    let x := (tCmd [0xAA000000] (14 * 0x2000 + 0x80) .mmul).ctx
    mpcOf x.bfmt ≠ 0 ∧ dSoff x.desc + (if x.block then dRows x.desc * x.nb else 0) ≤ 2 ^ 21 := by decide

theorem witness_MatrixDrains :
    (let x := (tCmd [0xC00000] (5 * 0x2000 + 0x80) .mdrn).ctx
     x.outl = false ∧ x.ncols ≤ 256 ∧ isBank x.w = false ∧ x.ent'.space = 0 ∧ Separate x.ent' (x.elems x.ncols (dRows x.desc))) ∧
    (let x := (tCmd [0xC00000] (0x40000 + 0x2000 + 0x80) .mdrn).ctx
     x.outl = false ∧ isBank x.w = true ∧ opBank x.w = 1 ∧ [1, 2, 3, 8, 9, 10, 11, 12, 13].contains x.ofmt = true ∧
     x.ncols * dRows x.desc * widthOf x.ofmt ≤ 65536) ∧
    (tArray (tCmd [0xC00000] 0 .mdrn)).quadHere.errInj.arm = false := by
  unfold Separate
  decide

theorem witness_MatrixCorrectionsAndChecks :
    let s := tArray (tCmd [0xA000000] 0x100 .mocr)
    let x := (tCmd [0xA000000] 0x100 .mocr).ctx
    mpcOf x.bfmt ≠ 0 ∧ x.ncols ≤ 256 ∧
    dSoff x.desc + 8 + 8 * leNat ((List.range 4).map (fun i => s.mem.byte (sliceKey 0 (dSoff x.desc + 4 + i)))) ≤ 2 ^ 21 ∧
    s.quadHere.errInj.arm = false := by decide

/-- MLDW of lt14. -/
theorem witness_MatrixCommandsLand_load :
    let x := (tCmd [0xA000000] (14 * 0x2000 + 3 * 0x80) .mldw).ctx
    mpcOf x.bfmt ≠ 0 ∧ dSoff x.desc + (if x.block then x.nb * x.ncols else 0) ≤ 2 ^ 21 := by decide

/-- Commands that have done their part, with and without elements for bank 1, whose return has taken effect or not; one held up by an earlier one. -/
theorem witness_MatrixCommandsLand :
    (∀ m ∈ [{ tCmd [] 0 .mzacc with done := true, bank := none }, { tCmd [] 0 .mdrn with done := true, bank := some (1, 8, [3, 4]), gone := true },
        { tCmd [] 0 .mdrn with done := true, bank := some (1, 8, [3, 4]) }],
     let s := tArray m
     (s.quadAt (quadOf s.here)).cmds.find? (fun k => k.id = s.cur.n) = some m ∧ m.boost = none ∧
     (∀ c ∈ (s.quadAt (quadOf s.here)).cmds, c.id < m.id → c.before m = false) ∧
     (s.regionAt (s.regionOfQuad (quadOf s.here) 32)).gated = false) ∧
    (let m := { tCmd [] 0 .mzacc with uses := [(3, 0)] }
     let s := tMat [] (fun q => { q with cmds := [{ m with id := 4 }, m] })
     (s.quadAt (quadOf s.here)).cmds.find? (fun k => k.id = s.cur.n) = some m ∧
     ∃ c ∈ (s.quadAt (quadOf s.here)).cmds, c.id < m.id ∧ c.before m = true) := by decide

/-- MSWP of band 0 does its part before it leaves: active and shadow planes change places. -/
theorem witness_MatrixCommandsLand_part :
    let m := tCmd [] 0 .mswp
    let s : State := { tArray m with agenda := [.part 0 5 0] }
    (s.quadAt (quadOf m.core.toNat)).cmds = [m] ∧ m.word = .mswp (tM 0) ∧ m.done = false ∧
    (s.regionAt (s.regionOfQuad (quadOf m.core.toNat) 32)).gated = false ∧ m.ctx.bands = [0] := by decide

/-! ## Hypotheses that can be met: events of quads, segments, engines -/

/-- `tS` with quad 0. -/
def tQuad (v : Quad) : State := { tS with quads := [(0, v)] }

def tReq : LeaseReq := { core := 1, bands := 1, cls := 0, gc := 1, ga := 1, index := 0, position := 0, ordinal := 0 }

/-- A request whose band is awake at class 2, and one whose band sleeps; runs of 64 commands, with and without a waiter; a boost asked for and
one at its end; a band idle since time 0, and one whose wake has ended. -/
theorem witness_QuadEvents :
    (let s := tQuad { requests := [tReq], bands := [(0, { awake := true, cls := 2 })] }
     (s.quadAt 0).lease = none ∧ (s.quadAt 0).cmds = [] ∧ ∀ j < 4, tReq.bands.getLsbD j = true → State.bandReady ((s.quadAt 0).bands.get {} j) (s.grantClass 0 tReq) = true) ∧
    (let s := tQuad { requests := [tReq] }
     tReq.bands.getLsbD 0 = true ∧ State.bandReady ((s.quadAt 0).bands.get {} 0) (s.grantClass 0 tReq) = false) ∧
    (∀ r ∈ ([[], [tReq]] : List (List LeaseReq)), let s := tQuad { lease := some { core := 0, bands := 1, cls := 0, count := 64, start := 0 }, requests := r }
     (s.quadAt s.cur.n).lease = some { core := 0, bands := 1, cls := 0, count := 64, start := 0 } ∧ (s.quadAt s.cur.n).requests = r) ∧
    (let m := { tCmd [] 5 .mbst with boost := some 5, core := 1 }
     let s := tQuad { cmds := [m] }
     (s.quadAt 0).cmds.find? (fun m => m.boost.isSome) = some m ∧ (∀ c ∈ (s.quadAt 0).cmds, c.id = m.id → c = m) ∧ m.word = .mbst (tM 5) ∧
     m.keys = [] ∧ m.flags = 0 ∧ m.bank = none ∧ s.power.exceeded = false ∧ (s.quadAt 0).lease = none ∧ (s.coreAt 1).run = true ∧ s.boostCharge = 0 ∧
     1000 + s.power.reserve.toNat < s.power.soft.toNat ∧ ¬ (20000 + s.power.reserve.toNat < s.power.soft.toNat)) ∧
    (let s : State := { tS with nodes := [(7, some { tNode with st := .saving })], cores := [(1, { tCore with run := false })] }
     (s.coreAt 1).run = false ∧ s.savingOn 1 = true) ∧
    (let s := tQuad { boost := some 0 }
     (s.quadAt s.cur.n).boost = some 0 ∧ 0 ≤ s.now) ∧
    (let s : State := { tQuad { bands := [(0, { awake := true })] } with clock := { now := 50000 * 2 ^ 16 } }
     let b := (s.quadAt (s.cur.n / 4)).bands.get {} (s.cur.n % 4)
     b.awake = true ∧ (s.quadAt 0).lease = none ∧ b.waking = none ∧ (s.quadAt 0).idle ≠ 0 ∧ b.used + (s.quadAt 0).idle.toNat ≤ s.now) ∧
    (let s := tQuad { bands := [(0, { waking := some 0, next := 1 })] }
     ((s.quadAt 0).bands.get {} 0).waking = some 0 ∧ 0 ≤ s.now) := by decide

theorem steady (s : State) (h : s.transition s.here = false) (n : s.nodeOn s.here = some (7, tNode)) (z : s.here = 0) : Steady s :=
  ⟨h, 7, tNode, n, rfl, by decide, by rw [z]; decide⟩


/-- A header of L (kind 0xA5, length 1) and one word at 0 of its section. -/
def tStart (takes : Nat) : State :=
  let h : Nat := 0xA5 * 2 ^ 120 + 1 * 2 ^ 104 + takes
  { tWith (fun c => { c with l := { cmdq := [{ off := 0, xs := List.replicate 8 0 }] } }) with
    cur := { slot := .l }
    code := [(0, { l := leBytes 16 h ++ leBytes 8 (0x3F00000000000000 : Nat) })] }

/-- A header without a take, and one that takes 1 from counter 2, which holds nothing. -/
theorem witness_SegmentsStartAndRetire :
    (∀ t ∈ ([0, 2 * 2 ^ 35 + 2 ^ 33] : List Nat), let s := tStart t
     let bs := (s.code.get {} s.here).section 1
     let h := BitVec.ofNat 128 (leNat (bs.take 16))
     seqOf s.slotHere = 1 ∧ (s.me.unit 1).cmdq = [{ off := 0, xs := List.replicate 8 0 }] ∧ (s.me.unit 1).seg = none ∧ s.me.bad = [] ∧
     hdrOk h 1 = true ∧ 16 + 8 * hdrLength h ≤ bs.length ∧ (t = 0 → hdrTakes h = [(0, 0), (0, 0), (0, 0)]) ∧
     (t ≠ 0 → s.me.tk 2 < (((hdrTakes h).filter (fun y => y.1 = 2)).map (fun y => y.2)).sum)) ∧
    (let g : Seg := { tSeg .l with ordinal := 5, todo := [], cycles := 1, count := 1, crc := 0, signature := 0xFFFFFFFF }
     let s := tDue .l (fun c => { c with l := { retiring := [g] } })
     s.nodeOn s.here = some (7, tNode) ∧ s.retiringHere = some g ∧ seqOf s.slotHere ≠ 0 ∧ g.count = g.cycles.toNat ∧ g.crc = ~~~g.signature) ∧
    (let g : Seg := { tSeg .l with ordinal := 5, todo := [], cycles := 2, count := 1 }
     let s := tDue .l (fun c => { c with l := { retiring := [g] } })
     s.retiringHere = some g ∧ g.count ≠ g.cycles.toNat ∧ State.irrevocable tNode = false ∧ tNode.noRequeue = false ∧
     tNode.rollbacks + 1 ≤ s.rollCfg.toNat) := by decide

def tLatch (engine : Nat) (cls : BitVec 8) : FaultRec :=
  { cls := cls, engine := engine, column := 0, status := 0, index := 0, position := 0, frame := 0, sched := 0 }

/-- A core frozen for 5,000 cycles; one latched fault of S with its handler on, and one of the matrix array; a chain's entry for a queue with
room and for a full one in a clock glide; a credit. -/
theorem witness_WatchdogsLatchesAndChains :
    (let s := tDue .l (fun c => { c with frozen := true, frozenCount := 5000, late := [{ slot := .l, index := 0, position := 0 }] })
     s.nodeOn s.here = some (7, tNode) ∧ s.me.run = true ∧ s.me.late ≠ [] ∧
     ∃ d ∈ s.domainOf s.here, (s.coreAt d).late ≠ [] ∧ (s.coreAt d).csr.wdog.toNat < s.me.frozenCount) ∧
    (let s := tDue .l (fun c => { c with latched := [tLatch 0 0x0B], csr := { c.csr with trapVec := 1 } })
     s.me.latched = [tLatch 0 0x0B] ∧ State.handled 0x0B = true ∧ s.me.csr.trapVec.getLsbD 0 = true ∧ s.me.csr.trap0.getLsbD 52 = false) ∧
    (let s := tDue .l (fun c => { c with latched := [tLatch 4 0x0B] })
     s.me.latched = [tLatch 4 0x0B] ∧ (tLatch 4 0x0B).engine ≠ 0 ∧ (tLatch 4 0x0B).cls = 0x0B) ∧
    (∀ n ∈ ([0, 16] : List Nat),
     let s : State := { tS with
       chains := [{ source := 0, lane := 0, target := 1, queue := 0, data := 0, sent := 0, due := 0 }]
       cores := [(0, tCore), (1, { cu := { opq := [(0, List.replicate n { source := 0, lane := 0, data := 0 })] } })]
       regions := [(0, { tRegion with power := { glide := some 0 } })] }
     (s.chains.find? (fun y => y.source.toNat = s.here && y.lane = s.cur.n)).isSome = true ∧ 0 ≤ s.cycleOf 1 ∧
     ((s.coreAt 1).cu.opq.get [] 0).length = n ∧ s.transition 1 = true) ∧
    (let s : State := { tS with credits := [{ source := 0, lane := 0, due := 0 }] }
     s.credits.find? (fun y => y.source.toNat = s.here && y.lane = s.cur.n) = some { source := 0, lane := 0, due := 0 } ∧ 0 ≤ s.cycleOf s.here) := by
  decide +kernel

/-- A TLD of memory in flight, in a partition without translation; a walk under way; an invalidation under way. -/
theorem witness_TranslationFaultsAndWalks :
    (let f := { tFlight (.tld (tD 8 0 12 0 0)) 0 with src := tEnt 3 12 0 1 0x200 }
     let s := tDue .l (fun c => { c with cu := { c.cu with flights := [f] } })
     s.nodeOn s.here = some (7, tNode) ∧ s.flightHere = some f ∧ f.blocked = false ∧ f.done = 0 ∧ s.mayLand s.here f = true ∧
     (entOf f.src).space = 3 ∧ (s.partAt tNode.part.toNat).ptbr.getLsbD 0 = false ∧
     (∃ y rest, tileOf (entOf f.src) f.sc.toNat = y :: rest ∧ y.outside = false ∧ y.addr < 2 ^ 48 ∧ firstPast (entOf f.src) (y :: rest) = none) ∧
     (entOf f.dst).space = 0 ∧ tileOf (entOf f.dst) f.dc.toNat ≠ [] ∧ firstPast (entOf f.dst) (tileOf (entOf f.dst) f.dc.toNat) = none ∧
     (entOf f.src).perm = false ∧ s.host.up = true ∧ s.entryAt 7 = none ∧ s.host.adds = []) ∧
    (let w : Trans := { part := 0, page := 0, size := 16, pma := 0, read := true, write := true }
     ((tQuad { walks := [w] }).quadAt (tQuad { walks := [w] }).cur.n).walks = [w]) ∧
    ({ tS with parts := [(0, { busy := true })] } : State).partAt 0 = { busy := true } := by
  refine ⟨⟨by decide, by decide, by decide, by decide, by decide, by decide, by decide, ?_, by decide, by decide, by decide, by decide, by decide, by decide, rfl⟩,
    by decide, by decide⟩
  exact ⟨_, _, rfl, by decide, by decide, by decide⟩

/-- The states of the statements on retirement, watchdogs, latches and translation faults are steady. -/
theorem witness_steady :
    (∀ u : Slot, (tDue u id).me.recorded = none) ∧
    Steady (tDue .l (fun c => { c with l := { retiring := [{ tSeg .l with ordinal := 5, todo := [], cycles := 2, count := 1 }] } })) ∧
    Steady (tDue .l (fun c => { c with frozen := true, frozenCount := 5000, late := [{ slot := .l, index := 0, position := 0 }] })) ∧
    Steady (tDue .l (fun c => { c with latched := [tLatch 0 0x0B], csr := { c.csr with trapVec := 1 } })) ∧
    Steady (tDue .l (fun c => { c with latched := [tLatch 4 0x0B] })) ∧
    Steady (tDue .l (fun c => { c with cu := { c.cu with flights := [{ tFlight (.tld (tD 8 0 12 0 0)) 0 with src := tEnt 3 12 0 1 0x200 }] } })) :=
  ⟨fun u => by cases u <;> rfl, steady _ (by decide) (by decide) rfl, steady _ (by decide) (by decide) rfl, steady _ (by decide) (by decide) rfl, steady _ (by decide) (by decide) rfl,
    steady _ (by decide) (by decide) rfl⟩

/-- S's handler is on, and running; a fault of another unit. -/
theorem witness_TrapsFaultsAndReturns :
    (let s := tDue .s (fun c => { c with csr := { c.csr with trapVec := 1 } })
     Steady s ∧ s.me.csr.trapVec.getLsbD 0 = true ∧ s.me.csr.trap0.getLsbD 52 = false ∧ s.me.su.pc < 2 ^ 32 - 4 ∧ s.me.su.pc % 4 = 0) ∧
    (let s := tDue .s (fun c => { c with csr := { c.csr with trap0 := 1#64 <<< 52 } })
     Steady s ∧ s.me.csr.trap0.getLsbD 52 = true) ∧
    (let s := tDue .l id
     Steady s ∧ s.nodeOn s.here = some (7, tNode) ∧ s.me.csr.trapVec.getLsbD 0 = false ∧ s.entryAt 7 = none) := by
  exact ⟨⟨steady _ (by decide) (by decide) rfl, by decide⟩, ⟨steady _ (by decide) (by decide) rfl, by decide⟩, steady _ (by decide) (by decide) rfl, by decide⟩

/-! ## Hypotheses that can be met: time, launches, control registers -/

/-- S waits for a time that is past. -/
theorem witness_OrderTimeAndPowerWords :
    (∀ f ∈ tS.me.cu.flights, f.unit ≠ .s) ∧ tS.me.su.wait = none ∧ (4#5).toNat ≤ 4 ∧ tS.me.ready [.x 1] [] = true ∧ tS.me.ready [] [.x 1] = true ∧ 2#5 = (2#3).setWidth 5 ∧
    tS.me.ready [] [.q 2] = true ∧ (tS.me.x 7).toNat ≤ tS.now ∧ tS.now < (tS.me.x 1).toNat ∧
    (let members := (groupCores 1 (groupOf 1 tS.here)).filter (fun k => k ≠ tS.here ∧ tS.inPlacement tS.here k = true)
     1 ∈ members ∧ (tS.coreAt 1).su.wait = none ∧ (tS.coreAt 1).gbar.get 0 1 = 0 ∧ (tS.coreAt 1).ended = false) ∧
    (∀ f ∈ ([fun c => { c with gbar := [(1, 1)], su := { c.su with wait := some (.gbar 1 1) } }, fun c => { c with ended := true },
        fun c => { c with gbar := [(1, 1)] }] : List (Core → Core)),
     let s : State := { tS with cores := tS.cores.map (fun e => (e.1, if e.1 = 0 then e.2 else f e.2)) }
     s.inPlacement s.here s.here = true ∧ s.me.gbar.get 0 1 = 0 ∧
     ∀ k ∈ groupCores 1 (groupOf 1 s.here), k ≠ s.here → s.inPlacement s.here k = true →
       ((s.coreAt k).su.wait = some (.gbar 1 1) ∧ (s.coreAt k).cu.flights = []) ∨ (s.coreAt k).ended = true ∨
         ((s.coreAt k).su.wait = none ∧ 1 ≤ (s.coreAt k).gbar.get 0 1)) ∧
    (let s := tWith (fun c => { c with su := { c.su with wait := some (.time 0) } })
     s.me.su.wait = some (.time 0) ∧ (0 : Dword).toNat ≤ s.now ∧ s.me.run = true ∧ s.me.frozen = false ∧ s.me.held = false ∧ s.me.halted = false ∧
     (s.regionAt (s.regionOf s.here)).gated = false ∧ s.injected (s.regionOf s.here) = false) := by
  decide

/-- The 128 bytes of a record: one quad, S of 8 bytes, no predecessor. -/
def tRecord : List Dword := [0, 0, 0, 0, 1, 0x8000, 0, 0, 0, BitVec.allOnes 64, BitVec.allOnes 64, 0, 0, 0, 0, 0]

/-- A record at 0x80 of slice 0, another of zeros at 0x100; queue 0 open; the pool full but for some entries; a journal that is full. -/
def tLnch (isOpen : Bool) (busy : Nat) (full : Bool) : State :=
  let c := tCore.setX 1 0x80
  { tS with
    cores := tS.cores.ins 0 (c.setX 2 0x100)
    mem := { cells := [(0x80 + 32, 1), (0x80 + 41, 0x80)] ++ (List.range 16).map (fun i => (0x80 + 72 + i, 255)) }
    queues := [(0, { capacity := 16, isOpen := isOpen })]
    nodes := (7, some { tNode with spent := true }) :: List.replicate busy (9, some tNode)
    host := { jrnlCfg := 2, head := if full then 3 else 1, journal := [(1, some { kind := 1 })] } }

theorem witness_CommandsAndLaunches :
    tS.me.su.wait = none ∧ tS.me.ready ((List.range 8).map (fun i => SReg.x ((1#5).toNat + i)) ++ [.x (9#5).toNat]) [] = true ∧
    tS.me.l.cmdq.length < 16 ∧ tS.me.ready [.x 1] [] = true ∧ tS.me.ready [] [.x 1] = true ∧ tS.me.cu.fmtq.length < 16 ∧
    16 ≤ (tWith (fun c => c.setUnit 1 { cmdq := List.replicate 16 { off := 0, xs := [] } })).me.l.cmdq.length ∧
    16 ≤ (tWith (fun c => { c with cu := { c.cu with fmtq := List.replicate 16 0 } })).me.cu.fmtq.length ∧
    (∀ s ∈ [tLnch true 0 false, tLnch false 0 false, tLnch true 1983 false, tLnch true 0 true],
      s.me.ready [.x 1] [.x 3, .q 1] = true ∧ s.nodeOn s.here = some (7, { tNode with spent := true }) ∧ s.mem.recent = [] ∧ s.mem.marks = [] ∧
      s.me.csr.watch = [] ∧ (s.me.x 1).toNat = 0x80) ∧
    (List.range 16).map (fun i => BitVec.ofNat 64 (leNat ((List.range 8).map (fun j => (tLnch true 0 false).mem.byte (sliceKey 0 (0x80 + 8 * i + j)))))) = tRecord ∧
    (tLnch false 0 false).queueOpen 0 = false ∧ (tLnch true 0 false).queueOpen 0 = true ∧ (tLnch true 0 false).recordReason (List.replicate 16 0) = 3 ∧
    (tLnch true 0 false).recordReason tRecord = 0 ∧ (tLnch true 1983 false).poolFree ≤ 64 ∧ 64 < (tLnch true 0 false).poolFree ∧
    (tLnch true 0 true).recordReason tRecord = 0 ∧
    (tLnch true 0 true).journalFull = true ∧ (tLnch true 0 false).journalFull = false := by decide +kernel

/-- A queue bound to the own core, and one that names no core of the region; queues and sieve paths without an entry, and with one. -/
theorem witness_ControlRegisters : tS.me.ready [] [.x 31] = true ∧ tS.me.ready [.x 5] [] = true ∧ tS.me.bad = [] ∧ tS.me.csrw = [] ∧ tS.me.flagsDue = [] ∧
    (∀ j < 4, tS.me.cu.resq.get [] j = []) ∧ (∀ p < 4, tS.me.cu.sieve.get [] p = []) ∧ tS.me.cu.appends = [] ∧
    (∀ v ∈ [0x80, 0xF0], let s := tWith (fun c => c.setX 5 (BitVec.ofNat 64 v))
     let t := s.here / 128 * 128 + (s.me.x 5).toNat / 2 ^ 4 % 8 * 16 + s.here % 16
     (s.me.x 5).getLsbD 7 = true ∧ (s.regionOf t = s.regionOf s.here ∧ s.inPlacement s.here t = true ↔ v = 0x80)) ∧
    (∀ v ∈ [2048, 2049], let s := tWith (fun c => c.setX 5 (BitVec.ofNat 64 v))
     (2048 < ((List.range 4).map (fun p => (s.me.x 5).toNat / 2 ^ (12 * p) % 2 ^ 12)).sum ↔ v = 2049)) ∧
    (let s := tWith (fun c => { c with cu := { c.cu with resq := [(3, [0])], sieve := [(0, [{ index := 0, elem := 0, live := [] }])] } })
     s.me.cu.resq.get [] 3 ≠ [] ∧ s.me.cu.sieve.get [] 0 ≠ []) := by decide +kernel

/-! ## Hypotheses that can be met: crossings, ports, copies, the dispatchers -/

def isOk {α β : Type} (x : Except α β) : Bool := match x with | .ok _ => true | .error _ => false

theorem okEx {α β : Type} {x : Except α β} (h : isOk x = true) : ∃ b, x = .ok b := by
  cases x with
  | ok b => exact ⟨b, rfl⟩
  | error e => cases h

theorem errEx {α β : Type} {x : Except α β} (h : isOk x = false) : ∃ e, x = .error e := by
  cases x with
  | ok b => cases h
  | error e => exact ⟨e, rfl⟩

/-- Crossing 0: one channel, one tap, one phase, lag 0; a sample at 0 in its ring. -/
def tX (f : Flight) (gated : Bool) : State :=
  let s := tLand f.word 0
  { s with
    cores := s.cores.ins 0 { s.me with cu := { s.me.cu with flights := [f] } }
    regions := [(0, { tRegion with gated := gated })]
    crossings := [(0, { cfg := 0x80000000#64, period := 1000, ring := [(0, some { sample := 0, ts := 100, chans := [7] })] })] }

/-- An XWR still to act, and one after the crossing was enabled again; XRDs within a period, after one, and before the ring's only entry. -/
theorem witness_CrossingsAndEgress :
    (∀ enab ∈ [0, 1], ∀ gated ∈ [false, true], let w := tD 12 0 13 0 0
     let f := { tFlight (.xwr w) 0 with stamp := 5, enab := enab, data := [7] }
     let s := tX f gated
     s.flightHere = some f ∧ f.data ≠ [] ∧ (∀ g ∈ s.me.cu.flights, g.id < f.id → fieldOf g.par 5 0 = 0 → ∀ u, g.word ≠ .xwr u) ∧
     ((xcfgOf (s.crossingAt 0).cfg).on = true ∧ ((s.crossingAt 0).enabled = f.enab ↔ enab = 0)) ∧
     (s.regionAt (s.regionOf s.here)).gated = gated) ∧
    (∀ stamp ∈ [100, 1099, 1100, 4099, 4100, 99], let w := tD 12 0 13 0 0
     let f := { tFlight (.xrd w) 0 with stamp := stamp }
     let s := tX f false
     let x := s.crossingAt 0
     s.flightHere = some f ∧ f.data = [] ∧ x.enabled = f.enab ∧ (xcfgOf x.cfg).on = true ∧ (xcfgOf x.cfg).lag = 0 ∧
       (xcfgOf x.cfg).taps = 1 ∧
       x.ring = [(0, some { sample := 0, ts := 100, chans := [7] })] ∧ x.ring.get none 0 = some { sample := 0, ts := 100, chans := [7] } ∧
       (stamp - 100 < 4 * x.period.toNat ↔ stamp ≠ 4100)) := by
  refine ⟨fun enab h gated hg => ?_, fun stamp h => ?_⟩
  · simp only [List.mem_cons, List.not_mem_nil, or_false] at h hg
    rcases h with h | h <;> rcases hg with hg | hg <;> subst h <;> subst hg <;> exact ⟨rfl, by decide, fun g m l => by
      rcases List.mem_singleton.mp m with rfl
      exact absurd l (by decide), by decide, by decide⟩
  · simp only [List.mem_cons, List.not_mem_nil, or_false] at h
    rcases h with h | h | h | h | h | h <;> subst h <;> exact ⟨rfl, rfl, rfl, by decide, by decide, by decide, rfl, rfl, by decide⟩

/-- An XWR and an EGR that have still to read lt12. -/
theorem witness_CrossingsAndEgress_read :
    (∀ i ∈ ([.xwr (tD 12 0 0 0 0), .egr (tD 12 0 0 0 0)] : List Instr), MayLand (tLand i 0) (tFlight i 0) ∧ Quiet (tLand i 0) ∧ (tFlight i 0).data = [] ∧
      (tFlight i 0).got = []) ∧
    (let e := entOf (tEnt 0 12 0 1 0x200)
     InSlice e ∧ firstPast e (tileOf e 0) = none ∧ firstPast e ((rowOf e 0).take 1) = none) := by
  refine ⟨fun i h => ⟨?_, witness_DataWordsLand i 0, rfl, rfl⟩, Or.inl (by decide), by decide, by decide⟩
  simp only [List.mem_cons, List.not_mem_nil, or_false] at h
  rcases h with h | h <;> subst h <;> unfold MayLand <;> decide

/-- A packet due on a port with a link, and on one without. -/
theorem witness_CrossingsAndEgress_depart (up : Bool) :
    (let w := tD 12 0 0 0 0
     let k : EgrPacket := { core := 0, flight := 5, region := 0, stream := 3, due := 100, issued := 90, frame := 0, count := 2, size := 8, bytes := some [1, 2] }
     let s : State := { tLand (.egr w) 0 with ports := [(5, { queue := [k], up := up })] }
     s.dueFirst (s.portAt s.cur.n) = some k ∧ (s.coreAt k.core.toNat).cu.flights.find? (fun g => g.id = k.flight) = some (tFlight (.egr w) 0) ∧
     (s.portAt s.cur.n).up = up ∧ k.bytes = some [1, 2]) := by cases up <;> exact ⟨rfl, rfl, rfl, rfl⟩

/-- An entry of two words. -/
def tWords (space : BitVec 3) (base : BitVec 64) : BitVec 256 :=
  space ++ 12#4 ++ 0#1 ++ 0#4 ++ 1#4 ++ 0#16 ++ 0#32 ++ 0#32 ++ 2#32 ++ 1#16 ++ 1#16 ++ 1#16 ++ 2#16 ++ base

/-- A copy between two tiles of slice 0, in a state; its source may lie outside the placement. -/
def tCopy (st : CopySt) (far : Bool) : Copy :=
  { id := 1, n := 5, home := 0, st := st, gc := 0, ga := 0, src := if far then tWords 1 0x140000000200 else tWords 0 0x200
    dst := tWords 0 0x300, sc := 0, dc := 0, frame := 0, cls := 0 }
/-- One whose destination lies outside. -/
def tStray : Copy := { tCopy .running false with dst := tWords 1 0x140000000300 }
def tCopies (y : Copy) : State :=
  let s := tDue .l (fun c => { c with cu := { c.cu with copies := [y] } })
  { s with cur := { s.cur with slot := .l } }

theorem witness_CopiesRunAndCancel :
    (let s : State := { tCopies (tCopy .queued false) with cur := { n := 0 } }
     0 ∈ groupCores 1 s.cur.n ∧ s.runningCopies s.cur.n < 8 ∧ (s.coreAt 0).cu.copies = [tCopy .queued false] ∧
     (∀ d ∈ groupCores 1 s.cur.n, d ≠ 0 → (s.coreAt d).cu.copies = [])) ∧
    (∀ far : Bool, let y := tCopy .running far
     let s := tCopies y
     let a := entOf y.src
     let b := entOf y.dst
     let pairs := copyPairs a b y.sc.toNat y.dc.toNat
     s.copyAt s.here s.cur.n = some y ∧ y.done = 0 ∧ s.down = [] ∧ y.st = .running ∧ y.suspended = false ∧ a.esize = b.esize ∧ s.strayed s.here b = false ∧
     firstPast a (pairs.map (fun p => p.1)) = none ∧ firstPast b (pairs.map (fun p => p.2)) = none ∧ y.cancel = false ∧ s.strayed s.here a = far ∧
     (∀ k ∈ elementKeys (a.sliceOf s.here) a (pairs.map (fun p => p.1)), k ∉ elementKeys (b.sliceOf s.here) b (pairs.map (fun p => p.2)))) := by decide +kernel

theorem witness_CopiesRunAndCancel_strayed :
    let s := tCopies tStray
    s.copyAt s.here s.cur.n = some tStray ∧ s.strayed s.here (entOf tStray.dst) = true ∧ (entOf tStray.src).esize = (entOf tStray.dst).esize ∧
    tS.started = false ∧ ({ tS with island := { boot := 3 } } : State).started = true := by decide +kernel

theorem witness_CopiesRunAndCancel_entries (far : Bool) :
    InSlice (entOf (tCopy .running far).src) ∧ InSlice (entOf (tCopy .running far).dst) ∧ Separate (entOf (tCopy .running far).dst)
      ((copyPairs (entOf (tCopy .running far).src) (entOf (tCopy .running far).dst) 0 0).map (fun p => p.2)) ∧ Quiet (tCopies (tCopy .running far)) := by
  refine ⟨?_, ?_, ?_, quiet _ rfl rfl rfl (fun k => coreCases _ (fun c => c.csr.watch = []) _ _ _ _ rfl rfl rfl rfl rfl rfl k)⟩ <;>
    cases far <;> first | (unfold InSlice; decide) | (unfold Separate; decide)

/-- BCAN of a queued copy, of one that is done, of none, and of one older than its core's last 1,024; bytes at the top of a slice. -/
theorem witness_CopiesRunAndCancel_cancel :
    (∀ y ∈ ([[tCopy .queued false], [tCopy .done false], []] : List (List Copy)), ∀ count ∈ [6, 1029, 1030],
     let w := tD 0 0 0 0 0
     let s := tDue .l (fun c => { c with cu := { c.cu with copies := y, copyCount := count, flights := [tFlight (.bcan w) 5] } })
     s.down = [] ∧ (s.regionAt (s.regionOf s.here)).gated = false ∧ s.me.cu.copyCount = count ∧ (count < 5 + 1025 ↔ count ≠ 1030) ∧
     s.flightHere = some (tFlight (.bcan w) 5) ∧ s.slotHere ≠ .s ∧
     s.me.cu.copies.find? (fun z => z.home.toNat = fieldOf 5#64 31 0 / 2 ^ 24 && z.n % 2 ^ 24 = fieldOf 5#64 31 0 % 2 ^ 24) = y.head?) ∧
    (tS.mem.wf = true ∧ (tS.coreAt (255#8).toNat).csr.watch = [] ∧ (0x1FFFFE#21).toNat + ([1, 2] : List Byte).length ≤ 2 ^ 21) := by decide

/-- A node that may be dispatched on region 0's quads, and one whose deadline is past. -/
def tWait (rcd : List Dword) : State :=
  { tS with
    nodes := [(7, some { tNode with rcd := rcd, st := .waiting, quads := [], inQueue := true, pool := false })]
    clock := { now := 100 * 2 ^ 16 }
    cur := { n := 7 }
    parts := [(0, { current := 1, max := 4 })] }

theorem witness_TokensDeadlinesAndDispatch :
    (let s : State := { tS with parts := [(0, { refill := 10 })], clock := { now := 10 * 2 ^ 16 } }
     (s.partAt s.cur.n).refill ≠ 0 ∧ (s.partAt s.cur.n).refilled + (s.partAt s.cur.n).refill.toNat * 2 ^ 16 ≤ s.clock.now) ∧
    (let s := tWait ((tRecord.set 6 50).set 8 8)
     ∃ v, s.nodeAt s.cur.n = some v ∧ v.st = .waiting ∧ v.dispatched = 0 ∧ v.rollbacks = 0 ∧ v.stops = 0 ∧ recDeadline v.rcd ≠ 0 ∧
       recDeadline v.rcd < s.now ∧ recLate v.rcd = true ∧ s.host.adds = []) ∧
    (∀ amount ∈ [65531, 65532], let s : State := { tS with
         nodes := [(7, some { tNode with dispatched := 3 })], host := { adds := [{ node := 7, rank := 0, counter := 1, amount := amount, payload := [] }] } }
     ∃ a v, s.host.adds[s.cur.n]? = some a ∧ s.nodeAt a.node = some v ∧ v.st = .running ∧ v.quads ≠ [] ∧ v.dispatched ≠ 0 ∧ s.host.up = true ∧
       (s.coreAt ((State.nodeCores v).getD a.rank 0)).adds = [] ∧
       ((s.coreAt ((State.nodeCores v).getD a.rank 0)).tk a.counter + a.amount ≤ 65535 ↔ amount = 65531)) ∧
    (let s : State := { tWait tRecord with cur := { n := 0 } }
     ∃ v, s.nodeAt 7 = some v ∧ s.baseReady 7 v = true ∧ v.cores = [] ∧ s.freeRun 7 v = some [0] ∧ 0 = (if ∀ q ∈ [0], 32 ≤ q then 1 else 0) ∧
       (7, some v) ∈ s.nodes ∧ s.nodes.length = 1 ∧ s.orphan 7 v = false ∧ v.badRecord = false ∧ s.missed v = false ∧ s.decidedTo 0 ≤ s.decisionSlot) ∧
    (let s : State := { tS with clock := { decided0 := 1 } }; s.decisionSlot < s.decidedTo 0) ∧
    (let v : Node := { tNode with rcd := tRecord, st := .waiting, quads := [], inQueue := true, pool := false, badRecord := true }
     let s : State := { tWait tRecord with nodes := [(7, some v)], host := { journal := [(7, some { kind := 1 })] } }
     v.st = .waiting ∧ v.inQueue = true ∧ v.badRecord = true ∧ v.quads = [] ∧ s.orphan 7 v = false ∧
       ∃ e, s.entryAt 7 = some e ∧ e.cls = 0) := by
  refine ⟨by decide, ⟨_, rfl, by decide⟩, fun amount h => ?_, ⟨_, rfl, by decide⟩, by decide, rfl, rfl, rfl, rfl, by decide, _, rfl, rfl⟩
  simp only [List.mem_cons, List.not_mem_nil, or_false] at h
  rcases h with h | h <;> subst h <;> exact ⟨_, _, rfl, rfl, by decide⟩

/-- Node 7 in a state, on quad 0. -/
def tNodeIn (st : NodeSt) (f : Node → Node) : State :=
  { tS with nodes := [(7, some (f { tNode with rcd := tRecord, st := st }))], cur := { n := 7 }
            parts := [(0, { ptbr := 1, ilv := 0xFF00000000000001 })]
            quads := [(64, { walks := [{ part := 0, page := 0, size := 16, pma := 0, read := true, write := true }] })] }

/-- A placed node whose section loads, and one whose section is longer than its memory holds. -/
theorem witness_NodesLaunch :
    (let s := tNodeIn .placed id
     ∃ v, s.nodeAt s.cur.n = some v ∧ v.quads.Nodup ∧ (∀ q ∈ v.quads, q < 64) ∧ s.mem.wf = true ∧ v.st = .placed ∧ recStart v.rcd ≤ s.now ∧
       s.bound (recRegion v.rcd) = true ∧ (s.regionAt (recRegion v.rcd)).gated = false ∧ isOk (s.loadCode v) = true) ∧
    (let s : State := { tNodeIn .placed id with agenda := [.cycle 0], clock := { now := 20000 * 2 ^ 16 } }
     ∃ v, s.nodeAt s.cur.n = some v ∧ (7, some v) ∈ s.nodes ∧ s.clockRuns 0 = true ∧ recRegion v.rcd = 0 ∧ v.placedAt + 20000 ≤ s.now) ∧
    (let s := tNodeIn .running (fun v => { v with began := some 100 })
     ∃ v, s.nodeAt s.cur.n = some v ∧ (7, some v) ∈ s.nodes ∧ v.began = some (s.regionAt (recRegion v.rcd)).cycles) ∧
    (let s := tNodeIn .placed (fun v => { v with rcd := tRecord.set 0 (BitVec.ofNat 64 (2 ^ 60)) })
     ∃ v, s.nodeAt s.cur.n = some v ∧ v.st = .placed ∧ v.quads.Nodup ∧
       (match s.loadCode v with | .ok _ => false | .error (_, f) => decide (f.cls < 256)) = true) :=
  ⟨⟨_, rfl, by decide +kernel⟩, ⟨_, rfl, by decide +kernel⟩, ⟨_, rfl, by decide +kernel⟩, ⟨_, rfl, rfl, by decide, by decide +kernel⟩⟩

theorem witness_NodesStop :
    ∀ k ∈ [StopKind.checkpoint, .kill, .abort], let s := tNodeIn (.stopping k) id
      ∃ v, s.nodeAt s.cur.n = some v ∧ v.st = .stopping k ∧ s.atPoint v = true ∧ v.noRequeue = false ∧ State.lockstep v = false ∧
        (∀ c ∈ State.nodeCores v, (s.coreAt c).node = some s.cur.n ∧ s.transition c = false ∧ (s.coreAt c).recorded = none) := by
  intro k h
  simp only [List.mem_cons, List.not_mem_nil, or_false] at h
  rcases h with h | h | h <;> subst h <;> exact ⟨_, rfl, by decide⟩

theorem witness_ContextsAreSavedAndRestored :
    (∀ st ∈ [NodeSt.saving, .holding], let s := tNodeIn st id
      ∃ v, s.nodeAt s.cur.n = some v ∧ v.quads.Nodup ∧ s.mem.wf = true ∧ (v.st = .saving ∨ v.st = .holding) ∧ s.landedAll v = true ∧
        (∀ c ∈ State.nodeCores v, (s.coreAt c).bad = []) ∧ s.mem.marks = [] ∧ s.host.journal = []) ∧
    (let s := tNodeIn .resuming (fun v => { v with cores := List.replicate 4 tCore, slices := List.replicate 4 { cells := [(3, 5)] }, mats := [{}] })
      ∃ v, s.nodeAt s.cur.n = some v ∧ v.st = .resuming ∧ s.ticking v = true ∧ isOk (s.loadCode v) = true ∧ v.cores.length = (State.nodeCores v).length ∧
        v.slices.length = (State.nodeCores v).length ∧ v.mats.length = v.quads.length ∧ (∀ c ∈ State.nodeCores v, c < 256) ∧
        (∀ k ∈ v.cores, ∀ f ∈ k.cu.flights, f.blocked = false) ∧ (∀ d ∈ v.slices, cellsAbove none d.cells = true ∧ ∀ e ∈ d.cells, e.1 < 2 ^ 21)) := by
  refine ⟨fun st h => ?_, ⟨_, rfl, by decide +kernel⟩⟩
  simp only [List.mem_cons, List.not_mem_nil, or_false] at h
  rcases h with h | h <;> subst h <;> exact ⟨_, rfl, by decide, by decide, by decide, by decide, by decide, by decide, by decide⟩

/-- A node about to end whose record can be written, and one whose record lies outside the partition; a teardown whose nodes have ended. -/
theorem witness_CompletionsAreRecorded :
    (∀ f ∈ [Fate.done, .failed], let s := tNodeIn (.ending f 0x0B) id
      ∃ v, s.nodeAt s.cur.n = some v ∧ v.st = .ending f 0x0B ∧ s.mem.wf = true ∧ (s.partAt v.part.toNat).key = none ∧ s.mem.keys = [] ∧
        (s.partAt v.part.toNat).watch = [] ∧ s.down = [] ∧ isOk (s.dispatcherWalk v.part.toNat true (recCompletion v.rcd)) = true) ∧
    (let s := tNodeIn (.ending .done 0) (fun v => { v with rcd := tRecord.set 14 (BitVec.ofNat 64 (2 ^ 60)) })
      ∃ v, s.nodeAt s.cur.n = some v ∧ isOk (s.dispatcherWalk v.part.toNat true (recCompletion v.rcd)) = false ∧ s.host.up = true) ∧
    (let d : Teardown := { seq := 1, abort := false, nodes := [7] }
     let s : State := { tNodeIn (.ended .done) id with cur := {}, queues := [(0, { teardown := some d })] }
     (s.queueAt s.cur.n).teardown = some d ∧ (∀ m ∈ d.nodes, (s.fateOf m).isSome = true) ∧ s.host.up = true) := by
  refine ⟨fun f h => ?_, ⟨_, rfl, by decide +kernel⟩, by decide⟩
  simp only [List.mem_cons, List.not_mem_nil, or_false] at h
  rcases h with h | h <;> subst h <;> exact ⟨_, rfl, rfl, by decide, by decide, by decide, by decide, by decide +kernel⟩

/-! ## Hypotheses that can be met: sources, regions, power, ports -/

/-- Region 0 changed, source 0 of a kind with period 2^20; time 2^30 ns. -/
def tReg (kind : BitVec 4) (f : Region → Region) (h : Source → Source) : State :=
  { tS with
    regions := [(0, f tRegion)]
    sources := [(0, h { cfg := kind ++ 0#18 ++ 100#10 ++ 0#32, period := 0x100000, last := some 0 })]
    clock := { now := 2 ^ 46 } }

/-- A tick of a source that is there, missing, and again at one device time; a gated region at its frame boundary; an edge that was awaited,
within the guard, beyond it, and too late; ticks that have come, are exact, and are to come; a region with 16 ticks within; a source that
is silent, and one back for 16 periods. -/
theorem witness_SourcesMoveTheirRegions :
    (∀ st ∈ [RegionSt.locked, .tracking, .ceiling], ∀ gone ∈ [false, true], ∀ t ∈ [none, some (2 ^ 46)], ∀ gate ∈ [false, true],
      let s := tReg 2 (fun g => { g with st := st, gated := gate }) (fun v => { v with missing := gone, tickAt := t })
      s.bound 0 = true ∧ (s.sourceAt (bindSource (s.regionAt 0).bind)).missing = gone ∧ ((s.sourceAt 0).tickAt = some s.clock.now ↔ t.isSome) ∧
      (s.regionAt 0).st = st ∧ (s.regionAt 0).gated = gate ∧ State.ownClock (s.regionAt 0) = false ∧ (s.regionAt 0).awaited = [] ∧
      s.boundTo 0 = [0] ∧ s.tickTime 0 0 0 = none ∧ (¬ (State.maySkip (s.regionAt 0) = true ∧ (s.regionAt 0).frameNo.toNat < 0))) ∧
    (∀ st ∈ [RegionSt.locked, .tracking], ∀ began ∈ [2 ^ 46 - 100 * 65536, 2 ^ 46 - 100 * 65536 - 1],
     let s := tReg 2 (fun g => { g with st := st, frameNo := 3, awaited := [(9, 0, began)] }) (fun v => { v with tickAt := some 1, index := 8 })
     s.bound 0 = true ∧ (s.sourceAt 0).missing = false ∧ tickIndex (s.sourceAt 0) s.clock.now = 9 ∧ bindD (s.regionAt 0).bind = 1 ∧
     (s.regionAt 0).awaited.find? (fun a => a.1 = 9 && a.2.1 = 0) = some (9, 0, began) ∧
     (s.regionAt 0).awaited.any (fun a => a.2.2 + srcGuard (s.sourceAt 0).cfg * 65536 < s.clock.now) = decide (began < 2 ^ 46 - 100 * 65536)) ∧
    (∀ k ∈ [2, 5], ∀ l ∈ [[], [(0, 0, 2 ^ 46)]], ∀ step ∈ [0, 1],
     let s := tReg (BitVec.ofNat 4 k) (fun g => { g with ticks := l, power := { step := step } }) id
     let g := s.regionAt 0
     State.ownClock g = decide (step = 1) ∧ State.ticksAtCycle (bindN g.bind) (bindD g.bind) g.frameCy = [0] ∧
     srcKind (s.sourceAt (bindSource g.bind)).cfg = k ∧ s.tickTime 0 g.frameNo.toNat 0 = l.head?.map (fun y => y.2.2)) ∧
    (let s := tReg 2 (fun g => { g with st := .ceiling, gated := true, ctl := 0x0002000000000000#64 }) id
     (s.sourceAt s.cur.n).missing = false ∧ s.isMissing s.cur.n = true ∧ s.bound 0 = true ∧ (s.regionAt 0).gated = true ∧
     fieldOf (s.regionAt 0).ctl 63 48 ≠ 0) ∧
    (let s := tReg 2 (fun g => { g with st := .tracking, ticksIn := 16 }) id
     (s.regionAt s.cur.n).st = .tracking ∧ 16 ≤ (s.regionAt s.cur.n).ticksIn) ∧
    (let s := tReg 2 id id
     (s.sourceAt s.cur.n).missing = false ∧ s.isMissing s.cur.n = true ∧ s.bound 0 = true ∧ bindSource (s.regionAt 0).bind = 0 ∧
     (s.regionAt 0).half0.complete = true ∧ (s.regionAt 0).half1.complete = true) ∧
    (let s := tReg 5 (fun g => { g with st := .holdover }) (fun v => { v with missing := true, present := some 0 })
     (s.sourceAt s.cur.n).missing = true ∧ s.isMissing s.cur.n = false ∧ (s.sourceAt s.cur.n).present = some 0 ∧
     0 + 16 * (s.sourceAt s.cur.n).period.toNat ≤ s.clock.now ∧ (s.regionAt 0).st = .holdover) := by
  refine ⟨?_, ?_, ?_, ?_, ?_, ?_, ?_⟩
  · decide +kernel
  · decide +kernel
  · decide +kernel
  · decide
  · decide
  · decide
  · decide

/-- Region 0 at a frame's end. -/
def tEnd (st : RegionSt) (f : Region → Region) : State := tReg 2 (fun g => f { g with st := st, atEnd := true, ctl := 0x0002000000000000#64 }) id

theorem witness_RegionsChangeFrames :
    (∀ st ∈ [RegionSt.locked, .tracking, .frozen, .holdover, .ceiling, .relocking], ∀ held ∈ [1, 2], ∀ re ∈ [false, true],
      let s := tEnd st (fun g => { g with holdFrames := held, realign := re })
      s.bound s.cur.n = true ∧ (s.regionAt s.cur.n).atEnd = true ∧ (s.regionAt s.cur.n).gated = false ∧ (s.regionAt s.cur.n).st = st ∧
      (s.regionAt s.cur.n).ahead = [] ∧ (s.regionAt s.cur.n).half0.complete = true ∧ (s.regionAt s.cur.n).half1.complete = true ∧
      (s.regionAt s.cur.n).realign = re ∧ ((s.regionAt s.cur.n).holdFrames < fieldOf (s.regionAt s.cur.n).ctl 63 48 ↔ held = 1)) ∧
    (∀ p ∈ [0, 1], let s := tEnd .holdover (fun g => { g with holdFrames := 2, pol := BitVec.ofNat 64 p })
      (s.regionAt s.cur.n).st = .holdover ∧ (s.regionAt s.cur.n).atEnd = true ∧
      fieldOf (s.regionAt s.cur.n).ctl 63 48 ≤ (s.regionAt s.cur.n).holdFrames ∧ fieldOf (s.regionAt s.cur.n).pol 1 0 = p ∧
      (7, some tNode) ∈ s.nodes ∧ s.nodeAt 7 = some tNode ∧ tNode.st = .running ∧ recRegion tNode.rcd = 0 ∧ tNode.quads ≠ [] ∧ State.lockstep tNode = false ∧
      (s.coreAt ((State.nodeCores tNode).headD 0)).node = some 7) ∧
    (let s := tReg 2 (fun g => { g with st := .frozen, polNow := 0x0000000100000001#64 }) id
     (s.regionAt s.cur.n).st = .frozen ∧ fieldOf (s.regionAt s.cur.n).polNow 63 32 ≠ 0 ∧
     (s.regionAt s.cur.n).frozenAt + fieldOf (s.regionAt s.cur.n).polNow 63 32 * 1000 * 2 ^ 16 < s.clock.now) ∧
    (∀ cycles ∈ [0, 100], ∀ st ∈ [RegionSt.relocking, .ceiling, .tracking],
     let s := tReg 2 (fun g => { g with st := st, gated := true, inGuard := some (2 ^ 46), cycles := cycles }) (fun v => { v with tickAt := some (2 ^ 46), index := 9 })
     let g := s.regionAt (0#5).toNat
     let v := s.sourceAt (bindSource g.bind)
     g.gated = true ∧ (g.st = .relocking ∧ v.missing = false ∧ g.inGuard = some s.clock.now ∨ g.st = .ceiling ∨ g.st = .tracking) ∧ v.tickAt = some s.clock.now ∧ v.index % bindD g.bind = 0 ∧
     v.index / bindD g.bind = (9#64).toNat ∧ (g.cycles = 0 ∨ g.frameNo.toNat < (9#64).toNat) ∧ g.half0.complete = true ∧ g.half1.complete = true) := by
  refine ⟨?_, ?_, ?_, ?_⟩
  · decide +kernel
  · decide +kernel
  · decide
  · decide

theorem witness_AScaledClockRealigns :
    ((tReg 1 (fun g => { g with power := { step := 1, glide := some 0 } }) id).regionAt 0).power.glide = some 0 ∧
    (∀ st ∈ [RegionSt.locked, .tracking, .frozen], let s := tEnd st (fun g => { g with realign := true })
     s.bound s.cur.n = true ∧ (s.regionAt s.cur.n).atEnd = true ∧ (s.regionAt s.cur.n).gated = false ∧ (s.regionAt s.cur.n).st = st ∧
     (s.regionAt s.cur.n).realign = true) ∧
    (∀ cycles ∈ [0, 100],
     let s := tReg 2 (fun g => { g with st := .relocking, gated := true, inGuard := some (2 ^ 46), realign := true, cycles := cycles })
       (fun v => { v with tickAt := some (2 ^ 46), index := 9 })
     let g := s.regionAt (0#5).toNat
     let v := s.sourceAt (bindSource g.bind)
     g.gated = true ∧ g.st = .relocking ∧ v.missing = false ∧ g.inGuard = some s.clock.now ∧ v.tickAt = some s.clock.now ∧ v.index % bindD g.bind = 0 ∧
     v.index / bindD g.bind = (9#64).toNat ∧ (g.cycles = 0 ∨ g.frameNo.toNat < (9#64).toNat)) := by decide

/-- Both kinds of region due for a step at either end of its range; a glide; the package over its hard limit, back, and without power. -/
theorem witness_PowerAndClocks :
    (∀ kind ∈ [1, 2], ∀ n ∈ [0, 3, 4, 7, 8], ∀ p ∈ [false, true],
      let s := tReg (BitVec.ofNat 4 kind) (fun g => { g with power := { predicate := p, duty := n, step := n } }) id
      let w := (s.regionAt s.cur.n).power
      s.bound s.cur.n = true ∧ w.since + 10 * 1000 * 2 ^ 16 ≤ s.clock.now ∧ w.changed + 10 * 1000 * 2 ^ 16 ≤ s.clock.now ∧
      w.lastSet + 10 * 1000 * 2 ^ 16 ≤ s.clock.now ∧ w.predicate = p ∧ w.duty = n ∧ w.step = n ∧ w.glide = none ∧ s.power.exceeded = false ∧
      (srcKind (s.sourceAt (bindSource (s.regionAt s.cur.n).bind)).cfg ≠ 1 ↔ kind = 2)) ∧
    ((tReg 1 (fun g => { g with power := { glide := some 3 } }) id).regionAt 0).power.glide = some 3 ∧
    (tS.power.hard.toNat < 22501 ∧ tS.power.exceeded = false ∧ tS.host.up = true ∧ tS.powered = true ∧ tS.power.reason ≠ 4) ∧
    (let s : State := { tReg 1 id id with power := { exceeded := true } }
     s.power.exceeded = true ∧ 20499 < s.power.soft.toNat ∧ s.power.below + 100 * 1000 * 2 ^ 16 ≤ s.clock.now) ∧
    (let s : State := { tS with powered := false }
     s.powered = false ∧ s.power.reason ≠ 4) := by
  refine ⟨?_, ?_, ?_, ?_, ?_⟩
  · decide +kernel
  · decide
  · decide
  · decide
  · decide

/-- A half of one slot of four bytes that is open and has not its item; a source of kind 4, a packet of one item for it; ports that are up and
down; an enabled 1588 unit. -/
theorem witness_PortsIngestAndTime_half :
    (let s := tReg 4 (fun g => { g with frameNo := 2, ingestCfg := 0x0000800400010001#64, half1 := { frame := 1, complete := false } }) id
     let g := s.regionAt s.cur.n
     let c := ingestOf g.ingestCfg
     let v := State.halfOf g ((g.frameNo.toNat + 1) % 2)
     s.bound s.cur.n = true ∧ v.complete = false ∧ v.frame.toNat < g.frameNo.toNat ∧ c.on = true ∧ c.slot = 4 ∧ c.count = 1 ∧ s.mem.wf = true ∧
     fieldOf g.ctl 31 0 ≤ g.frameCy ∧ (s.coreAt c.core).csr.watch = [] ∧ c.half 1 + c.hsize ≤ 2 ^ 21) ∧
    (∀ got ∈ [[], [0]], ∀ st ∈ [RegionSt.locked, .holdover],
     let s := tReg 4 (fun g => { g with st := st, frameNo := 1, ingestCfg := 0x0000800400010001#64, half1 := { frame := 1, complete := false, got := got } }) id
     let g := s.regionAt s.cur.n
     let v := State.halfOf g (g.frameNo.toNat % 2)
     s.bound s.cur.n = true ∧ v.complete = false ∧ v.frame.toNat = g.frameNo.toNat ∧ (State.halfOf g ((g.frameNo.toNat + 1) % 2)).complete = true ∧
     ((v.got.length = (ingestOf g.ingestCfg).count ∧ srcKind (s.sourceAt (bindSource g.bind)).cfg = 4 ∨ g.st = .holdover) ↔ (got = [0] ∨ st = .holdover))) := by
  decide +kernel

/-- An item of the current frame, of the next one whose half is not open yet, of one that may be skipped, and of one that was. -/
theorem witness_PortsIngestAndTime_packet :
    (let bs : List Byte := [0, 0, 1, 0, 1, 0, 0, 0] ++ leBytes 8 1 ++ leBytes 8 5 ++ leBytes 8 4 ++ [1, 2, 3, 4]
     let field (o n : Nat) : Nat := leNat ((bs.drop o).take n)
     let at_ (f : Region → Region) : State := tReg 4 (fun g => f { g with ingestCfg := 0x0000800400010001#64 }) id
     let now (s : State) : Half := State.halfOf (s.regionAt 0) (field 8 8 % 2)
     let s := at_ (fun g => { g with frameNo := 1, half1 := { frame := 1, complete := false } })
     (s.portAt (0#2).toNat).up = true ∧ field 2 1 = 1 ∧ field 4 4 = 1 ∧ bs.length = 32 + field 24 4 ∧
     (let v := s.sourceAt 0; srcKind v.cfg = 4 ∧ srcPort v.cfg = 0 ∧ srcStream v.cfg = field 0 2) ∧
     (∀ j < 32, srcKind (s.sourceAt j).cfg = 4 → j = 0) ∧ s.boundTo 0 = [0] ∧ field 8 8 / bindD (s.regionAt 0).bind = 1 ∧
     (ingestOf (s.regionAt 0).ingestCfg).on = true ∧ field 8 8 % bindD (s.regionAt 0).bind < (ingestOf (s.regionAt 0).ingestCfg).count ∧
     (now s).frame.toNat = 1 ∧ (now s).complete = false ∧ (now s).got = [] ∧ (s.regionAt 0).skipTo ≤ 1 ∧
     (let s := at_ id
      (now s).complete = true ∧ (now s).frame.toNat < 1 ∧ (s.regionAt 0).frameNo.toNat + 1 = 1 ∧ State.maySkip (s.regionAt 0) = false) ∧
     (let s := at_ (fun g => { g with st := .ceiling })
      (s.regionAt 0).frameNo.toNat < 1 ∧ State.maySkip (s.regionAt 0) = true) ∧
     (let s := at_ (fun g => { g with frameNo := 2, skipFrom := 1, skipTo := 2 })
      (s.regionAt 0).skipFrom ≤ 1 ∧ 1 < (s.regionAt 0).skipTo)) := by decide +kernel

theorem witness_PortsIngestAndTime_link :
    (∀ up : Bool, let s : State := { tReg 5 id (fun v => { v with missing := true }) with ports := [(0, { up := up })] }
     (s.portAt s.cur.n).up = up ∧ s.host.up = true ∧ s.cur.n < 4 ∧ srcKind (s.sourceAt 0).cfg = 5 ∧ srcPort (s.sourceAt 0).cfg = s.cur.n ∧
     (s.sourceAt 0).missing = true) := by decide +kernel

/-- Roles, delay mechanisms and the two-step flag of a unit on port 0 of domain 0, while another is master and as master. -/
theorem witness_PortsIngestAndTime_time :
    (∀ i ∈ [0x10200, 0x10A00, 0x10400, 0x11000, 0x11800], ∀ m ∈ [false, true],
      let s : State := { tS with island := { boot := 3 }, clock := { cfg := BitVec.ofNat 64 i, masters := if m then 1 else 0 } }
      let c := s.clock.cfg
      3 ≤ s.island.boot ∧ bitOf (timePorts c) (1#5).toNat = false ∧ (0#8).toNat = timeDomain c ∧ bitOf (timePorts c) (0#5).toNat = true ∧ s.clock.masters.getLsbD (0#5).toNat = m) ∧
    timeRole 0x10200#64 ≠ 0 ∧ timeRole 0x10A00#64 ≠ 0 ∧ (0x10A00#64).getLsbD 11 = true ∧
    (0x10A00#64).getLsbD 12 = false ∧ (0x11800#64).getLsbD 12 = true ∧ (0x11800#64).getLsbD 11 = true := by decide

/-! ## Hypotheses that can be met: the host's messages -/

def tMsg (arg : BitVec 64) (payload : List Byte) : HostMsg := { tag := 0, arg := arg, payload := payload }

/-- Queue 0 open with room, full, and closed. -/
def tQueue (capacity : BitVec 13) (isOpen : Bool) : State :=
  { tS with
    island := { boot := 5 }, queues := [(0, { capacity := capacity, isOpen := isOpen })] }

theorem witness_Launches :
    (let s := tQueue 1 true
     let m := tMsg 0 (tRecord.flatMap (fun d => leBytes 8 d.toNat))
     m.payload.length = 128 ∧ m.arg.toNat < 64 ∧ s.island.boot = 5 ∧ s.lifecycle ≠ 4 ∧ s.queueOpen 0 = true ∧ s.queueUse 0 < (s.queueAt 0).capacity.toNat ∧
     s.recordReason (recordOf m.payload) = 0 ∧ s.journalFull = false) ∧
    (tQueue 1 false).queueOpen 0 = false ∧ ((tQueue 0 true).queueAt 0).capacity.toNat ≤ (tQueue 0 true).queueUse 0 ∧
    (tQueue 1 true).recordReason (recordOf (List.replicate 128 0)) = 3 ∧ tS.island.boot ≠ 5 := by decide +kernel

/-- Nodes of every state; a queue to close; a held node; an addition to counter 1 of the last core of a node. -/
theorem witness_HostMessagesSteerNodes :
    (let s : State := { tQueue 1 true with nodes := [(7, some tNode), (8, some { tNode with st := .waiting, quads := [] })] }
     ∀ a ∈ [0x100, 0x200], let m := tMsg (BitVec.ofNat 64 a) []
      m.payload = [] ∧ bitsOf m.arg.toNat 7 6 = 0 ∧ m.arg.toNat < 1024 ∧ (s.queueAt 0).teardown = none ∧ (s.queueAt 0).isOpen = true ∧
      s.journalFull = false ∧ (s.nodes.map (fun e => e.1)).Nodup ∧ m.arg.toNat % 64 = 0 ∧ (queueOp m = 1 ∨ queueOp m = 2) ∧
      s.host.adds = [] ∧ (8, some { tNode with st := .waiting, quads := [] }) ∈ s.nodes ∧ tNode.queue.toNat = 0 ∧ tNode.parent = none ∧ tNode.dispatched = 0) ∧
    (let s := tNodeIn .held id
     ∃ v, s.nodeAt (tMsg 7 []).arg.toNat = some v ∧ v.st = .held ∧ s.journalFull = false ∧ s.host.adds = []) ∧
    (let s := tNodeIn .running (fun v => { v with dispatched := 1 })
     let m := tMsg 7 (leBytes 8 0xFFFF001F0003)
     let v := leNat m.payload
     ∃ w, m.payload.length = 8 ∧ bitsOf v 31 21 = 0 ∧ bitsOf v 63 48 = 0 ∧ bitsOf v 47 32 ≠ 0 ∧ s.nodeAt m.arg.toNat = some w ∧ w.st = .running ∧
       w.quads ≠ [] ∧ w.dispatched ≠ 0 ∧ bitsOf v 15 0 < 4 * w.quads.length) :=
  ⟨by decide, ⟨_, rfl, by decide⟩, ⟨_, by decide, by decide, by decide, by decide, rfl, by decide⟩⟩

/-! ## Hypotheses that can be met: device registers -/

/-- A REG_WRITE of a dword. -/
def tWrite (off v : Nat) : HostMsg := tMsg (BitVec.ofNat 64 off) (leBytes 8 v)

/-- Region 1 is unbound; source 1 ticks once in 4,096 ns. -/
def tBind : State :=
  { tS with
    nodes := []
    regions := [(1, { quads := 4, ctl := 4096 })]
    sources := [(1, { cfg := 0x2000000000000000#64, period := 0x10000000 })] }

/-- Registers at both ends of their index ranges; a bind that holds and one that has no quad; an unbind without a node. -/
theorem witness_ClockRegisterWrites :
    (∀ off ∈ [0x10000, 0x103E8, 0x103E0, 0x20040, 0x207D0, 0x207D8, 0x207F0, 0x30000, 0x30FC0, 0x30FC8, 0x13FFF8],
      RegWrite (tWrite off 0x80000000) off 0x80000000#64) ∧
    tBind.boundTo 31 = [] ∧ tBind.boundTo 0 = [] ∧ tBind.boundTo 1 = [] ∧
    (let v : Dword := 0x000010000000C000#64
     let g := tBind.regionAt 1
     let src := tBind.sourceAt (fieldOf v 19 15)
     let n := fieldOf v 63 32
     let d := fieldOf v 31 20 + 1
     v.getLsbD 14 = true ∧ g.st = .unbound ∧ src.period ≠ 0 ∧ 200000000 * d * src.period.toNat ≤ n * 65536 * 1000000000 ∧
     n * 65536 * 1000000000 ≤ 2000000000 * d * src.period.toNat ∧ srcKind src.cfg ≠ 0 ∧ g.quads ≠ 0 ∧ fieldOf g.ctl 31 0 ≤ n ∧ g.ingestCfg = 0 ∧
     (∀ k < 32, k ≠ 1 → tBind.bound k = true → (tBind.regionAt k).quads &&& g.quads = 0) ∧
     (tBind.regionAt 2).st = .unbound ∧ (tBind.regionAt 2).quads = 0) ∧
    (let s : State := { tBind with regions := [(0, tRegion)] }
     (s.regionAt 0).st ≠ .unbound ∧ s.nodes = []) ∧
    (let s := tReg 4 id id
     let v : Dword := 0x0000800400010001#64
     let i := ingestOf v
     v.getLsbD 0 = true ∧ s.bound 0 = true ∧ srcKind (s.sourceAt (fieldOf (s.regionAt 0).bind 19 15)).cfg = 4 ∧
     i.count = fieldOf (s.regionAt 0).bind 31 20 + 1 ∧ (s.regionAt 0).quads.getLsbD (i.core / 4) = true ∧ 4 ≤ i.slot ∧ i.slot % 4 = 0 ∧
     i.base + 2 * i.hsize ≤ 2 ^ 21) ∧
    (let s : State := { tS with crossings := [(0, { period := 9 }), (63, { period := 9, cfg := 0x80000000#64 })] }
     (s.crossingAt 0).period ≠ 0 ∧ (s.crossingAt 0).cfg.getLsbD 31 = false ∧ (s.crossingAt 63).cfg.getLsbD 31 = true ∧
     fieldOf 0x80000000#64 30 29 ≠ 3 ∧ fieldOf 0x80000000#64 28 26 ≠ 7 ∧ (0x80000000#64).getLsbD 31 = true) := by
  refine ⟨?_, ?_, ?_, ?_, ?_, ?_, ?_, ?_⟩
  · unfold RegWrite
    decide
  all_goals decide

theorem witness_DeviceRegisterWrites :
    (∀ off ∈ [0x50000, 0x60300, 0x90000, 0x90038, 0x70000, 0x701F8, 0x70200, 0x70278, 0x80000, 0x801E8, 0x801F0, 0xB0000, 0xB00F0, 0x70408, 0xC0000,
      0xC0018, 0xD0000, 0xD03F0], RegWrite (tWrite off 0x1000) off 0x1000#64) ∧
    (let s := State.reset
     timePorts s.clock.cfg = 0 ∧ (∀ p < 4, (s.portAt p).queue = []) ∧ (s.queueAt 63).isOpen = false ∧ (s.queueAt 63).teardown = none ∧
     s.openNodes (fun n => n.queue.toNat = 63) = [] ∧ s.partRuns 15 = false ∧ (∀ k < 8, (s.stackAt k).retired ≠ BitVec.allOnes 160) ∧
     (∀ p < 16, s.partBusy p = false) ∧ s.openNodes State.lockstep = [] ∧ s.host.head = 1 ∧ (0x1000 : Nat) = 2 ^ 12 ∧ s.lifecycle ≠ 4) ∧
    (let v : Dword := 0x8010000000080000#64
     fieldOf v 20 0 ≠ 0 ∧ fieldOf v 52 32 + fieldOf v 20 0 ≤ 1638400 ∧ fieldOf v 63 56 ≠ 0) := by
  refine ⟨?_, by decide, by decide⟩
  unfold RegWrite
  decide

theorem witness_PlainRegistersReadAndWrite :
    (∀ off ∈ [0x20008, 0x207E0, 0x60000, 0x601F8, 0x60200, 0x60208, 0x60210, 0x70400, 0x80400, 0x814F8], RegWrite (tWrite off 5) off 5#64) ∧
    (∀ off ∈ [0x20000, 0x207F0, 0x10, 0xC0178, 0x70278, 0xB00F8, 0x140000], (tMsg (BitVec.ofNat 64 off) []).arg.toNat = off ∧ off % 8 = 0) := by
  refine ⟨?_, by decide⟩
  unfold RegWrite
  decide

/-! ## Hypotheses that can be met: links, pairs, the security island -/

/-- A device after boot step 3 with nothing in flight, with and without a link down; one before; one still in MANUFACTURE, one unlocked with a scope,
one unlocked without. -/
theorem witness_LinksScrubsAndDebugging :
    (∀ l ∈ ([[], [.mesh 3]] : List (List LinkId)), let s : State := { island := { boot := 3 }, down := l }
      3 ≤ s.island.boot ∧ s.host.up = true ∧ (∀ c, (s.coreAt c).cu.flights = [] ∧ (s.coreAt c).cu.again = [] ∧ (s.coreAt c).cu.copies = []) ∧
      (∀ p, s.fabricCopies p = []) ∧ LinkId.mesh 4 ∉ s.down ∧ (LinkId.mesh 3 ∈ s.down ↔ l ≠ []) ∧ s.mem.wf = true) ∧
    State.reset.island.boot < 3 ∧
    (let s := tWith (fun c => { c with halted := true })
     s.island.unlocked = false ∧ s.island.burned0 = false ∧ s.island.burned1 = false ∧ (s.coreAt 0).halted = true ∧ s.mem.keys = []) ∧
    (∀ b ∈ [0, 7], let s : State := { tS with island := { unlocked := true, scope := some (BitVec.ofNat 32 b) } }
     s.island.unlocked = true ∧ ∃ x, s.island.scope = some x ∧ x.toNat = b) := by
  refine ⟨fun l h => ?_, by decide, by decide, fun b h => ?_⟩
  · simp only [List.mem_cons, List.not_mem_nil, or_false] at h
    rcases h with h | h <;> subst h <;> exact ⟨by decide, rfl, fun _ => ⟨rfl, rfl, rfl⟩, fun _ => rfl, by decide, by decide, rfl⟩
  · simp only [List.mem_cons, List.not_mem_nil, or_false] at h
    rcases h with h | h <;> subst h <;> exact ⟨rfl, _, rfl, rfl⟩

/-- A read of core 128's slice by core 0 in row 1 of the mesh, across the seam, where the link between the dies is down. -/
theorem witness_LinksScrubsAndDebugging_cut :
    let f := { tFlight (.tldr (tD 9 0 12 0 0)) 0 with src := tEnt 1 12 0 1 0x2000000000200 }
    let s : State := { tDue .l (fun c => { c with cu := { c.cu with flights := [f] } }) with down := [.dieToDie 1] }
    MayLand s f ∧ s.cutRow (corePlace s.here) (s.flightPlaces s.here f) = some 1 ∧ State.irrevocable tNode = false ∧ tNode.noRequeue = false ∧
    tNode.rollbacks + 1 ≤ s.rollCfg.toNat ∧ s.me.recorded = none ∧ s.nodeOn s.here = some (7, tNode) := by
  unfold MayLand
  decide

/-- A lockstep node, the partner's record equal and unequal; this package as secondary, and as solo primary. -/
def tPair (cfg : BitVec 3) (kind : Nat) : State :=
  let r : PairRecord := { seq := 7, rank := 0, sequencer := 1, ordinal := 2, cycles := 10, signature := 0, digest := 0 }
  { tS with
    nodes := [(7, some { tNode with rcd := tRecord.set 8 0x10 })], pair := { cfg := cfg, waiting := [r] }
    host := { head := 8, journal := [(7, some { kind := kind, origin := 7 })] } }

theorem witness_LockstepPairs :
    (let s := tPair 1 1
     ∀ sig ∈ [0, 1], let r : PairRecord := { seq := 7, rank := 0, sequencer := 1, ordinal := 2, cycles := 10, signature := BitVec.ofNat 32 sig, digest := 0 }
      (∃ mine, s.pair.waiting.find? (fun y => State.sameRecord y r) = some mine ∧ (mine = r ↔ sig = 0)) ∧
      (∃ v, s.pairNode 7 = some (7, v) ∧ s.nodeAt 7 = some v ∧ v.st = .running ∧ (State.nodeCores v)[0]? = some 0 ∧ (s.coreAt 0).node = some 7 ∧
        s.transition 0 = false ∧ (s.coreAt 0).recorded = none ∧ State.irrevocable v = false ∧ v.noRequeue = false ∧ v.rollbacks + 1 ≤ s.rollCfg.toNat)) ∧
    (let s : State := { tPair 2 7 with island := { boot := 5 } }
     s.island.boot = 5 ∧ s.lifecycle ≠ 4 ∧ fieldOf s.pair.cfg 1 0 = 2 ∧ s.pair.up = true ∧ (tRecord.flatMap (fun d => leBytes 8 d.toNat)).length = 128 ∧
     recordOk (s.pairRecordOf 9 (recordOf (tRecord.flatMap (fun d => leBytes 8 d.toNat)))) = true ∧ s.journalFull = false ∧
     (∃ v, s.pairNode 7 = some (7, v) ∧ s.nodeAt 7 = some v ∧ v.st = .running ∧ s.foreignPair 7 v = true)) ∧
    (∀ solo : Bool, let s := tPair (if solo then 5 else 1) 1
     ((fieldOf s.pair.cfg 1 0 = 1 ∧ s.pair.cfg.getLsbD 2 = true) ↔ solo = true) ∧
     (∃ v, (7, some v) ∈ s.nodes ∧ s.nodeAt 7 = some v ∧ State.lockstep v = true ∧ v.alone = false ∧ v.st = .running)) := by
  refine ⟨fun sig h => ?_, ⟨by decide, by decide, by decide, by decide, by decide +kernel, by decide +kernel, by decide, _, rfl, rfl, by decide⟩, fun solo => ?_⟩
  · simp only [List.mem_cons, List.not_mem_nil, or_false] at h
    rcases h with h | h <;> subst h <;> exact ⟨⟨_, rfl, by decide⟩, _, rfl, rfl, by decide⟩
  · cases solo <;> exact ⟨by decide, _, List.mem_singleton.mpr rfl, rfl, by decide⟩

/-- A device after boot, PROVISIONED or not; SEC data at the ends of their ranges. -/
def tIsland (boot : Nat) (burned : Bool) (n : Nat) (code : Nat) (data : List Byte) : State :=
  { island := { boot := boot, burned0 := burned, cmds := List.replicate n { seq := 0, ticket := 1, code := code, data := data } } }

/-- The zeros that a command of a code brings, with a slot of 5 to 7 for SEC_EXTEND. -/
def tData (code first : Nat) : List Byte :=
  BitVec.ofNat 8 first :: List.replicate ((State.secBytes code [] + 7) / 8 * 8 - 1) 0

theorem witness_SecurityCommandsAreHeld :
    (∀ n ∈ [7, 8], ∀ c ∈ [(4, 5), (4, 7), (5, 0), (5, 15), (6, 0), (6, 15)], let s := tIsland 5 true n 0 []
      let d := tData c.1 c.2
      d.length = (State.secBytes c.1 d + 7) / 8 * 8 ∧ d.length ≤ 8192 ∧ State.secFieldsOk c.1 d = true ∧ s.secBarred c.1 d = false ∧
      (s.island.cmds.length < 8 ↔ n = 7) ∧ s.journalFull = false) ∧
    (∀ c ∈ [(1, 1), (3, 0)], let s := tIsland 1 false 0 0 []
      let d := tData c.1 c.2
      d.length = (State.secBytes c.1 d + 7) / 8 * 8 ∧ d.length ≤ 8192 ∧ State.secFieldsOk c.1 d = true ∧ s.secBarred c.1 d = false) ∧
    (∀ c ∈ [8, 10], let s := tIsland 5 true 0 0 []
      let d := tData c 0
      d.length = (State.secBytes c d + 7) / 8 * 8 ∧ d.length ≤ 8192 ∧ State.secFieldsOk c d = true ∧ s.secBarred c d = false) ∧
    (∀ c ∈ [2, 7, 9], State.secBytes c [] = 0 ∧ State.secFieldsOk c [] = true ∧ (tIsland 5 false 0 0 []).secBarred c [] = false) := by
  refine ⟨?_, ?_, ?_, ?_⟩
  all_goals decide +kernel

/-- Each command as the oldest, with its lifecycle. A wrong magic makes an image and a token bad. -/
theorem witness_SecurityCommandsFinish :
    (∀ c ∈ [(1, 5), (1, 1), (3, 5), (4, 5), (6, 5), (7, 5)], let s := tIsland c.2 true 1 c.1 []
      s.island.boot ≠ 0 ∧ s.lifecycle ≠ 4 ∧ s.host.up = true ∧ ∃ d, s.island.cmds = [d] ∧ d.code = c.1) ∧
    State.imageOk [] 1 Config.minVersionIsland.toNat = false ∧ (∀ s, State.tokenOk s [] = false) ∧
    (tIsland 5 false 1 9 []).lifecycle = 1 ∧ (tIsland 5 true 1 9 []).lifecycle = 2 ∧ (tIsland 5 true 1 5 []).partOccupied 0 = false ∧
    (∃ x, (tIsland 5 true 1 5 []).seed = some x) ∧ 65 ≤ (tData 3 0).length := by
  refine ⟨fun c h => ?_, ?_, fun s => ?_, by decide, by decide, by decide, ⟨_, rfl⟩, by decide⟩
  · simp only [List.mem_cons, List.not_mem_nil, or_false] at h
    rcases h with h | h | h | h | h | h <;> subst h <;> exact ⟨by decide, by decide, rfl, _, rfl, rfl⟩
  · simp [State.imageOk, leNat]
  · simp [State.tokenOk, leNat]

/-- A stopped node with a word in flight, and a device without one. -/
theorem witness_SecurityCommandsFinish_stops :
    (let s := tLand (.tld (tD 12 0 13 0 0)) 0
     (s.abortParts (fun _ => true)).stopsLanding (fun _ => true) = true) ∧
    ((tIsland 5 true 1 8 []).abortParts (fun _ => true)).stopsLanding (fun _ => true) = false := by decide +kernel

theorem leBytes_length (n v : Nat) : (leBytes n v).length = n := by
  induction n generalizing v with
  | zero => rfl
  | succ n ih => simp [leBytes, ih]

theorem leNat_leBytes (n v : Nat) (h : v < 256 ^ n) : leNat (leBytes n v) = v := by
  induction n generalizing v with
  | zero => simp at h; simp [leBytes, leNat, h]
  | succ n ih =>
    have : v / 256 < 256 ^ n := by rw [Nat.pow_succ] at h; omega
    simp only [leBytes, leNat, ih _ this, BitVec.toNat_ofNat]
    omega

/-- An image of the highest version is good where its signature is one that the opaque functions of log 13 accept. -/
theorem witness_SecurityCommandsFinish_image (tail : List Byte) :
    let head := leBytes 4 0x52594657 ++ leBytes 4 1 ++ leBytes 4 0xFFFFFFFF ++ leBytes 4 0 ++ leBytes 48 0
    State.signedBy Config.vendorKeyHash head tail = true → State.imageOk (head ++ tail) 1 Config.minVersionIsland.toNat = true := by
  intro head h
  have hl : head.length = 64 := by simp [head, leBytes_length]
  have at0 : (head ++ tail).take 4 = leBytes 4 0x52594657 := by simp [head, List.append_assoc, List.take_append, leBytes_length]
  have at4 : ((head ++ tail).drop 4).take 4 = leBytes 4 1 := by
    simp [head, List.append_assoc, List.take_append, List.drop_append, List.drop_eq_nil_of_le, leBytes_length]
  have at8 : ((head ++ tail).drop 8).take 4 = leBytes 4 0xFFFFFFFF := by
    simp [head, List.append_assoc, List.take_append, List.drop_append, List.drop_eq_nil_of_le, leBytes_length]
  have at12 : ((head ++ tail).drop 12).take 4 = leBytes 4 0 := by
    simp [head, List.append_assoc, List.take_append, List.drop_append, List.drop_eq_nil_of_le, leBytes_length]
  have at16 : ((head ++ tail).drop 16).take 48 = leBytes 48 0 := by
    simp [head, List.append_assoc, List.take_append, List.drop_append, List.drop_eq_nil_of_le, leBytes_length]
  have body : State.imageBody (head ++ tail) = head := by
    rw [State.imageBody, at12, leNat_leBytes 4 0 (by decide), Nat.add_zero, ← hl]
    simp
  have e : (head ++ tail).drop head.length = tail := by simp
  have v : Config.minVersionIsland.toNat ≤ 0xFFFFFFFF := by have := Config.minVersionIsland.isLt; omega
  simp only [State.imageOk, at0, at4, at8, at16, body, e, h, leNat_leBytes 4 0xFFFFFFFF (by decide), v]
  decide

/-- So is a token for the device and its challenge. -/
theorem witness_SecurityCommandsFinish_token (s : State) (c : BitVec 256) (scope : BitVec 32) (tail : List Byte) :
    let head := leBytes 4 0x52594454 ++ s.deviceId ++ leBytes 4 s.lifecycle ++ bytesOf 32 c ++ leBytes 4 scope.toNat ++ leBytes 68 0
    s.island.challenge = some c → State.signedBy Config.debugAuthHash head tail = true →
    s.deviceId.length = 16 → State.tokenOk s (head ++ tail) = true ∧ State.tokenScope (head ++ tail) = scope := by
  intro head b h l
  have life : s.lifecycle < 256 ^ 4 := by unfold State.lifecycle; split <;> (try split) <;> (try split) <;> decide
  have hl : head.length = 128 := by simp [head, leBytes_length, bytesOf, l]
  have at0 : (head ++ tail).take 4 = leBytes 4 0x52594454 := by simp [head, List.append_assoc, List.take_append, leBytes_length]
  have at4 : ((head ++ tail).drop 4).take 16 = s.deviceId := by
    simp [head, List.append_assoc, List.take_append, List.drop_append, List.drop_eq_nil_of_le, leBytes_length, l]
  have at20 : ((head ++ tail).drop 20).take 4 = leBytes 4 s.lifecycle := by
    simp [head, List.append_assoc, List.take_append, List.drop_append, List.drop_eq_nil_of_le, leBytes_length, l]
  have at24 : ((head ++ tail).drop 24).take 32 = bytesOf 32 c := by
    simp [head, List.append_assoc, List.take_append, List.drop_append, List.drop_eq_nil_of_le, leBytes_length, bytesOf, l]
  have at56 : ((head ++ tail).drop 56).take 4 = leBytes 4 scope.toNat := by
    simp [head, List.append_assoc, List.take_append, List.drop_append, List.drop_eq_nil_of_le, leBytes_length, bytesOf, l]
  have at60 : ((head ++ tail).drop 60).take 68 = leBytes 68 0 := by
    simp [head, List.append_assoc, List.take_append, List.drop_append, List.drop_eq_nil_of_le, leBytes_length, bytesOf, l]
  have a : (head ++ tail).take 128 = head := by rw [← hl]; simp
  have e : (head ++ tail).drop 128 = tail := by rw [← hl]; simp
  refine ⟨?_, ?_⟩
  · simp only [State.tokenOk, at0, at4, at20, at24, at60, a, e, b, h, leNat_leBytes _ _ life]
    decide
  · simp only [State.tokenScope, at56]
    rw [leNat_leBytes 4 _ (by have := scope.isLt; omega)]
    simp

/-! ## Terms that `wellFormed` refuses -/

def ill (l : List Instr) : Bool := l.all (fun i => !i.wellFormed)

/-- Predicate, curve and even registers, tiers, scopes, queue codes, shift amounts, LOOP's register. -/
theorem smoke_s : ill [.ceq 8 1 2, .cne 8 1 2, .clt 8 1 2, .cle 8 1 2, .cltn 8 1 2, .clen 8 1 2, .qand 8 1 2, .qand 1 8 2, .qor 1 2 8, .qnot 8 1,
    .qnot 1 8, .kset 16 1 2, .kpack 16 1, .kunpk 1 16, .kadd 16 1 2, .kadd 1 16 2, .ksub 1 2 16, .kcmp 8 1 2, .kcmp 1 16 2, .ksplit 1 16 2 0,
    .kpfx 1 2 16, .ldsK 1 16 2 0, .stsK 1 16 2 0, .aaddK 1 16 2 0, .aminK 1 16 2 0, .amaxK 1 16 2 0, .axchK 1 16 2 0, .acas 3 1 2 0, .acasK 3 1 2 0,
    .acasK 2 16 2 0, .gbar 5, .fnc 6, .seg 0 1 2, .seg 4 1 2, .seg 1 25 2, .qdep 1 0, .qdep 1 5, .qdep 1 7, .qdep 1 20, .qflsh 1 0, .qflsh 1 5,
    .pwrq 0, .pwrq 8, .shli 1 2 64, .shri 1 2 64, .sari 1 2 64, .ceqi 8 1 0, .clti 8 1 0, .cltni 8 1 0, .loop 1 0 0 0] = true := by decide

/-- A counter without an amount, an extension where there is none, an operand that the word does not use. -/
theorem smoke_d : ill ([Instr.tld, .tst, .tldr, .tstr, .tgr, .tbc, .bcpy, .fill, .bstat, .ingt, .xrd, .egr, .xwr, .bcan, .dnop].flatMap (fun f =>
      [f { tD 0 0 0 0 0 with gc := 1 }, f { tD 0 0 0 0 0 with t0c := 1 }, f { tD 0 0 0 0 0 with t1c := 1 }, f { tD 0 0 0 0 0 with t2c := 1 },
       f { tD 0 0 0 0 0 with ext := 1 }]) ++
    [.gth { tD 0 0 0 0 0 with gc := 1 }, .sct { tD 0 0 0 0 0 with t0c := 1 }, .scta { tD 0 0 0 0 0 with t1c := 1 }, .rgth { tD 0 0 0 0 0 with t2c := 1 },
     .fill (tD 1 0 0 0 0), .bstat (tD 1 0 0 0 0), .ingt (tD 1 0 0 0 0), .xrd (tD 1 0 0 0 0), .egr (tD 0 0 1 0 0), .xwr (tD 0 0 1 0 0),
     .bcan (tD 1 0 0 0 0), .bcan (tD 0 0 1 0 0), .bcan (tD 0 0 0 1 0), .dnop (tD 1 0 0 0 0), .dnop (tD 0 1 0 0 0), .dnop (tD 0 0 1 0 0),
     .dnop (tD 0 0 0 1 0), .dnop { tD 0 0 0 0 0 with cls := 1 }]) = true := by decide

/-- Types, unused registers and immediates of VA and VM; the register groups and parameter registers of conversions. -/
theorem smoke_vaVm : ill ([Instr.vadd, .vsub, .vmin, .vmax, .vabs, .vneg, .vclmp, .vmul, .vfma, .vfms, .vfnma, .vmulh, .vscl].flatMap (fun f =>
      [f (tV 15 1 2 0 0 0), f (tV 8 1 2 0 0 0), f (tV 3 1 2 0 0 1)]) ++
    [.vadd (tV 3 1 2 3 4 0), .vsub (tV 3 1 2 3 4 0), .vmin (tV 3 1 2 3 4 0), .vmax (tV 3 1 2 3 4 0), .vabs (tV 3 1 2 3 0 0), .vneg (tV 3 1 2 0 3 0),
     .vand (tV 15 1 2 3 0 0), .vor (tV 3 1 2 3 4 0), .vxor (tV 3 1 2 3 0 1), .vshl (tV 12 1 2 3 0 0), .vshr (tV 3 1 2 3 0 1), .vsar (tV 3 1 2 3 0 0x8001),
     .vshl (tV 3 1 2 0 0 0x8020), .vcmp (tV 3 16 2 3 0 0), .vcmp (tV 3 1 2 3 0 7), .vcmp (tV 3 1 2 3 0 6), .vcmp (tV 12 1 2 3 0 8),
     .vsel (tV 3 1 2 3 16 0), .vcvt (tV 12 1 2 0 0 0x200), .vcvt (tV 12 1 2 0 0 15), .vcvt (tV 12 1 2 3 0 12), .vcvt (tV 12 1 2 8 0 0x2C),
     .vcvt (tV 12 1 2 0 0 0x10C), .vwid (tV 12 1 2 0 0 11), .vwid (tV 12 2 2 0 0 12), .vwid (tV 12 2 2 0 0 9), .vnar (tV 11 1 3 0 0 12),
     .vnar (tV 11 1 2 0 0 0x10C), .vmulw (tV 3 2 1 3 0 0), .vmulw (tV 2 1 2 3 0 0), .vmulw (tV 2 63 2 3 0 0), .vdot (tV 3 1 2 3 4 0),
     .vdot (tV 12 1 2 3 4 0), .vqnt (tV 12 1 2 3 4 12), .vqnt (tV 1 1 2 3 4 3)]) = true := by decide

/-- The same of VX and VL. -/
theorem smoke_vxVl : ill [.vperm (tV 1 1 2 3 4 0), .vperm (tV 3 1 2 3 4 1), .vshuf (tV 3 1 2 3 0 6), .vshuf (tV 3 1 2 3 0 4), .vshuf (tV 3 1 2 3 4 0),
    .vrot (tV 3 1 2 3 0 0), .vrot (tV 3 1 2 0 0 0x400), .vbc (tV 3 1 2 0 0 128), .vred (tV 3 1 2 0 0 6), .vred (tV 8 1 2 0 0 0), .vscan (tV 3 1 2 3 0 0),
    .vsfn (tV 3 1 2 0 0 0), .vsfn (tV 12 1 2 0 0 6), .vrng (tV 12 1 2 0 0 2), .vrng (tV 12 1 0 8 0 2), .vrng (tV 12 1 0 0 0 0), .vrng (tV 12 16 0 0 0 1),
    .vrng (tV 3 1 0 0 0 2), .vrng (tV 3 1 0 0 0 3), .vsiev (tV 12 0 8 9 0 0), .vsiev (tV 12 0 8 9 1 4), .vsiev (tV 12 1 8 9 1 8), .vsiev (tV 12 0 8 0 0 0x80),
    .vsdrn (tV 3 63 0 0 0 0), .vsdrn (tV 3 60 0 0 0 12), .vsdrn (tV 3 1 2 0 0 0), .vsdrn { tV 3 1 0 0 0 0 with mask := 1 }, .vcnt (tV 12 1 2 0 0 0),
    .vcnt (tV 3 1 2 0 0 3), .vcmpr (tV 3 1 2 0 16 0), .vexpd { tV 3 1 2 0 1 0 with mask := 1 }, .vidx (tV 12 1 0 0 0 0), .vidx (tV 3 1 2 0 0 0),
    .vksrt (tV 3 1 2 3 0 0), .vksrt (tV 7 63 2 3 0 0), .vksrt (tV 7 1 3 2 0 1), .vksrt (tV 7 62 2 4 0 1), .vksrt (tV 7 1 2 3 0 2),
    .vld (tV 12 1 32 1 0 0), .vst (tV 12 1 2 8 0 0), .vldb (tV 12 1 2 1 0 1), .vld (tV 12 1 2 1 3 0), .vldg (tV 1 1 2 1 3 0), .vstg (tV 1 1 2 1 3 0),
    .oqp (tV 3 1 0 0 0 0), .oqp (tV 0 1 0 0 0 4), .oqp { tV 0 1 0 0 0 0 with mask := 1 }, .oqg (tV 0 1 2 0 0 0), .vlendLend (tV 0 0 0 0 0 4),
    .vlendRet (tV 0 0 0 0 0 3), .vlendLend (tV 0 1 0 0 0 0), .vlendRet (tV 0 0 0 0 0 8)] = true := by decide

/-- Operand fields of MC and CT, host messages whose register is another's, events outside the device. -/
theorem smoke_rest : ill ([Instr.mlease, .mrel, .mswp, .mshape, .mldw, .mmul, .mdrn, .mzacc, .mocr, .mchk, .mbst, .cnop, .ctok].flatMap (fun f =>
      [f { tM 0x201 with gc := 1 }, f { tM 0x201 with t0c := 1 }, f { tM 0x201 with t1c := 1 }, f { tM 0x201 with t2c := 1 }]) ++
    [.mlease (tM 0), .mlease (tM 0x41), .mrel (tM 1), .mswp (tM 1), .mshape (tM 0x1001), .mshape (tM 0x10), .mldw (tM 1), .mmul (tM 0x40400), .mdrn (tM 0x48000),
     .mzacc (tM 1), .mocr (tM 0x400), .mchk (tM 0x2000), .mbst (tM 0), .mbst (tM 0x10001), .cnop (tM 1), .ctok (tM 0), .ctok { tM 1 with gc := 2, ga := 1 },
     .queueCtlDrain (tMsg 0x200 []), .queueCtlAbort (tMsg 0x100 []), .regRead (tMsg 0xB0018 []), .eccStatRead (tMsg 0x10 []), .regWrite (tWrite 0x10000 0),
     .sourceCfgWrite (tWrite 0x10008 0), .regionBind (tWrite 0x20000 0), .regionUnbind (tWrite 0x20000 0x4000), .xcfgEnable (tWrite 0x30000 0),
     .xcfgDisable (tWrite 0x30000 0x80000000), .partInv (tWrite 0x80010 0), .errInjWrite (tWrite 0xD0008 0), .secLoad (tMsg 2 []), .secRetire (tMsg 1 []),
     .hbmScrub 0 160 0, .hbmScrub 0 0 1638400, .peerCopyWrite 0 0 0x1FFFFF [1, 2] ⟨none, none, false⟩, .thermalCut 0 0, .thermalCut 5 0, .flitReplay (.mesh 10),
     .linkRetrain (.dieToDie 10), .linkRetrainFail (.fabric 24)]) = true := by decide +kernel

/-! ## Words written out from the encodings of 07 R185 to R194 -/

def isS (w : BitVec 32) (i : Instr) : Bool := match decodeS w with | .ok j => j = i && encode i = .s w | .error _ => false
def isD (w : BitVec 64) (i : Instr) : Bool := match decodeD w with | .ok j => j = i && encode i = .d w | .error _ => false
def isC (w : BitVec 64) (i : Instr) : Bool := match decodeC w with | .ok j => j = i && encode i = .c w | .error _ => false

/-- SR: [31:25] op, [24:20] d, [19:15] a, [14:10] b, [9:5] fn, [4:2] q, [1:0] zero. -/
def wSR (op : BitVec 7) (fn d a b : BitVec 5) (q : BitVec 3) : BitVec 32 := op ++ d ++ a ++ b ++ fn ++ q ++ 0#2

/-- op 0x04: [4:1] alias class, [0] coordinate form. -/
def wSM (fn d a b : BitVec 5) (cls : BitVec 4) (form : BitVec 1) : BitVec 32 := 0x04#7 ++ d ++ a ++ b ++ fn ++ cls ++ form

/-- SI, SL, SP and SX, SB. -/
def wSI (op : BitVec 7) (d a : BitVec 5) (imm : BitVec 15) : BitVec 32 := op ++ d ++ a ++ imm
def wSL (op : BitVec 7) (d : BitVec 5) (imm : BitVec 20) : BitVec 32 := op ++ d ++ imm
def wSP (bt : BitVec 3) (mode : BitVec 2) (disp : BitVec 20) : BitVec 32 := 0x20#7 ++ bt ++ mode ++ disp
def wSX (bt : BitVec 3) (mode : BitVec 2) (a : BitVec 5) : BitVec 32 := 0x21#7 ++ bt ++ mode ++ a ++ 0#15
def wSB (op : BitVec 7) (bt q : BitVec 3) (inv : BitVec 1) (a : BitVec 5) : BitVec 32 := op ++ bt ++ q ++ inv ++ a ++ 0#13

theorem decode_integer : ([
    (wSR 1 0 9 21 6 0, .add 9 21 6), (wSR 1 1 9 21 6 0, .sub 9 21 6), (wSR 1 2 9 21 6 0, .mul 9 21 6), (wSR 1 3 9 21 6 0, .mulh 9 21 6),
    (wSR 1 4 9 21 6 0, .mulhn 9 21 6), (wSR 1 5 9 21 6 0, .div 9 21 6), (wSR 1 6 9 21 6 0, .divn 9 21 6), (wSR 1 7 9 21 6 0, .rem 9 21 6),
    (wSR 1 8 9 21 6 0, .remn 9 21 6), (wSR 1 9 9 21 6 0, .and 9 21 6), (wSR 1 10 9 21 6 0, .or 9 21 6), (wSR 1 11 9 21 6 0, .xor 9 21 6),
    (wSR 1 12 9 21 6 0, .andn 9 21 6), (wSR 1 13 9 21 6 0, .shl 9 21 6), (wSR 1 14 9 21 6 0, .shr 9 21 6), (wSR 1 15 9 21 6 0, .sar 9 21 6),
    (wSR 1 16 9 21 6 0, .min 9 21 6), (wSR 1 17 9 21 6 0, .max 9 21 6), (wSR 1 18 9 21 0 0, .clz 9 21), (wSR 1 19 9 21 0 0, .popc 9 21),
    (wSR 1 20 9 21 6 5, .sel 9 21 6 5), (wSR 2 0 5 21 6 0, .ceq 5 21 6), (wSR 2 1 5 21 6 0, .cne 5 21 6), (wSR 2 2 5 21 6 0, .clt 5 21 6),
    (wSR 2 3 5 21 6 0, .cle 5 21 6), (wSR 2 4 5 21 6 0, .cltn 5 21 6), (wSR 2 5 5 21 6 0, .clen 5 21 6), (wSR 2 6 5 3 6 0, .qand 5 3 6),
    (wSR 2 7 5 3 6 0, .qor 5 3 6), (wSR 2 8 5 3 0 0, .qnot 5 3)] : List (BitVec 32 × Instr)).all (fun p => isS p.1 p.2) = true := by decide +kernel

theorem decode_curve : ([
    (wSR 3 0 9 21 6 0, .kset 9 21 6), (wSR 3 1 9 21 0 0, .kpack 9 21), (wSR 3 2 21 9 0 0, .kunpk 21 9), (wSR 3 3 9 11 6 0, .kadd 9 11 6),
    (wSR 3 4 9 11 6 0, .ksub 9 11 6), (wSR 3 5 5 11 6 0, .kcmp 5 11 6), (wSR 3 6 21 11 6 5, .ksplit 21 11 6 5), (wSR 3 7 21 11 6 0, .kpfx 21 11 6)]
    : List (BitVec 32 × Instr)).all (fun p => isS p.1 p.2) = true := by decide +kernel

theorem decode_scalarMemory : ([
    (wSM 0 9 21 6 11 0, .lds 9 21 6 11), (wSM 0 9 13 6 11 1, .ldsK 9 13 6 11), (wSM 1 9 21 6 11 0, .sts 9 21 6 11), (wSM 1 9 13 6 11 1, .stsK 9 13 6 11),
    (wSM 2 9 21 0 11 0, .ltset 9 21 11), (wSM 3 9 21 6 11 0, .aadd 9 21 6 11), (wSM 3 9 13 6 11 1, .aaddK 9 13 6 11),
    (wSM 4 9 21 6 11 0, .amin 9 21 6 11), (wSM 4 9 13 6 11 1, .aminK 9 13 6 11), (wSM 5 9 21 6 11 0, .amax 9 21 6 11),
    (wSM 5 9 13 6 11 1, .amaxK 9 13 6 11), (wSM 6 9 21 6 11 0, .axch 9 21 6 11), (wSM 6 9 13 6 11 1, .axchK 9 13 6 11),
    (wSM 7 10 21 6 11 0, .acas 10 21 6 11), (wSM 7 10 13 6 11 1, .acasK 10 13 6 11)] : List (BitVec 32 × Instr)).all (fun p => isS p.1 p.2) = true := by
  decide +kernel

theorem decode_control : ([
    (wSR 5 0 9 21 6 0, .tadd 9 21 6), (wSR 5 1 9 21 6 0, .ttake 9 21 6), (wSR 5 2 9 21 6 0, .twait 9 21 6), (wSR 5 3 9 21 0 0, .tread 9 21),
    (wSR 5 4 0 0 4 0, .gbar 4), (wSR 5 5 0 0 5 0, .fnc 5), (wSR 6 0 2 21 6 0, .seg 2 21 6), (wSR 6 1 0 21 0 0, .fmtq 21), (wSR 6 2 9 0 19 0, .qdep 9 19),
    (wSR 6 3 9 0 4 0, .qflsh 9 4), (wSR 7 0 9 0 0 0, .time 9), (wSR 7 1 0 21 0 0, .waitt 21), (wSR 7 2 5 0 0 0, .pwrq 5), (wSR 7 3 9 21 0 6, .lnch 9 21 6),
    (wSR 7 4 0 0 0 0, .ncmt), (wSR 7 4 0 0 1 0, .ncmtEnd), (wSR 8 0 0 0 21 0, .trap 21), (wSR 8 1 9 0 21 0, .csrr 9 21), (wSR 8 2 0 9 21 0, .csrw 21 9),
    (wSR 8 3 0 0 0 0, .eret), (wSR 8 4 0 0 21 0, .brk 21), (wSR 8 5 0 0 0 0, .nop)] : List (BitVec 32 × Instr)).all (fun p => isS p.1 p.2) = true := by
  decide +kernel

theorem decode_immediate : ([
    (wSI 0x10 9 21 0x4001, .addi 9 21 0x4001), (wSI 0x11 9 21 0x4001, .andi 9 21 0x4001), (wSI 0x12 9 21 0x4001, .ori 9 21 0x4001),
    (wSI 0x13 9 21 0x4001, .xori 9 21 0x4001), (wSI 0x14 9 21 63, .shli 9 21 63), (wSI 0x15 9 21 63, .shri 9 21 63), (wSI 0x16 9 21 63, .sari 9 21 63),
    (wSI 0x17 5 21 0x4001, .ceqi 5 21 0x4001), (wSI 0x18 5 21 0x4001, .clti 5 21 0x4001), (wSI 0x19 5 21 0x4001, .cltni 5 21 0x4001),
    (wSL 0x1C 9 0x80001, .liz 9 0x80001), (wSL 0x1D 9 0x80001, .lis 9 0x80001), (wSL 0x1E 9 0x80001, .lic 9 0x80001),
    (wSP 5 0 0x80001, .pbr 5 0x80001), (wSP 5 1 0x80001, .pbrLo 5 0x80001), (wSX 5 0 21, .pbrr 5 21), (wSX 5 1 21, .pbrrLo 5 21),
    (wSB 0x22 5 3 1 0, .br 5 3 1), (wSB 0x23 5 3 1 0, .brl 5 3 1), (wSB 0x24 5 3 1 21, .loop 5 3 1 21)] : List (BitVec 32 × Instr)).all
    (fun p => isS p.1 p.2) = true := by decide +kernel

/-- R186's fields from [63:56] down. -/
def wD (op : BitVec 8) (x : DArgs) : BitVec 64 :=
  op ++ x.delay ++ x.gc ++ x.ga ++ x.t0c ++ x.t0a ++ x.t1c ++ x.t1a ++ x.t2c ++ x.t2a ++ x.se ++ x.sp ++ x.de ++ x.dp ++ x.cls ++ x.ext

/-- Distinct values in every field. -/
def xD (se : BitVec 5) (sp : BitVec 3) (de : BitVec 5) (dp : BitVec 3) (cls : BitVec 4) (ext : BitVec 3) : DArgs :=
  { delay := 9, gc := 21, ga := 5, t0c := 11, t0a := 1, t1c := 13, t1a := 2, t2c := 19, t2a := 3, se := se, sp := sp, de := de, dp := dp, cls := cls, ext := ext }

theorem decode_data : (([(1, .tld), (2, .tst), (3, .tldr), (4, .tstr), (5, .tgr), (6, .tbc), (0x10, .bcpy)] : List (BitVec 8 × (DArgs → Instr))).all
      (fun p => isD (wD p.1 (xD 18 5 9 6 11 0)) (p.2 (xD 18 5 9 6 11 0))) &&
    ([(7, .gth), (8, .sct), (9, .scta), (0xA, .rgth)] : List (BitVec 8 × (DArgs → Instr))).all
      (fun p => isD (wD p.1 (xD 18 5 9 6 11 3)) (p.2 (xD 18 5 9 6 11 3))) &&
    ([(0xB, .fill), (0x12, .bstat), (0x18, .ingt), (0x1B, .xrd)] : List (BitVec 8 × (DArgs → Instr))).all
      (fun p => isD (wD p.1 (xD 0 5 9 6 11 0)) (p.2 (xD 0 5 9 6 11 0))) &&
    ([(0x19, .egr), (0x1A, .xwr)] : List (BitVec 8 × (DArgs → Instr))).all (fun p => isD (wD p.1 (xD 18 5 0 6 11 0)) (p.2 (xD 18 5 0 6 11 0))) &&
    isD (wD 0x11 (xD 0 5 0 0 11 0)) (.bcan (xD 0 5 0 0 11 0)) && isD (wD 0x3F (xD 0 0 0 0 0 0)) (.dnop (xD 0 0 0 0 0 0))) = true := by decide +kernel

/-- R187's fields from [63:60] down. -/
def wV (col : BitVec 4) (op : BitVec 8) (x : VArgs) : BitVec 64 :=
  col ++ x.delay ++ op ++ x.ty ++ x.vd ++ x.va ++ x.vb ++ x.vc ++ x.mask ++ x.imm

def xV (ty : BitVec 4) (vd va vb vc : BitVec 6) (mask : BitVec 4) (imm : BitVec 16) : VArgs :=
  { delay := 9, ty := ty, vd := vd, va := va, vb := vb, vc := vc, mask := mask, imm := imm }

/-- Whether every one of these ops of a column is read with these fields. -/
def areV (col : BitVec 4) (x : VArgs) (l : List (BitVec 8 × (VArgs → Instr))) : Bool := l.all (fun p => isC (wV col p.1 x) (p.2 x))

theorem decode_va : (areV 0 (xV 3 41 22 13 0 11 0) [(1, .vadd), (2, .vsub), (3, .vmin), (4, .vmax), (7, .vand), (8, .vor), (9, .vxor), (0xA, .vshl), (0xB, .vshr),
      (0xC, .vsar)] && areV 0 (xV 3 41 22 0 0 11 0) [(5, .vabs), (6, .vneg)] && areV 0 (xV 3 41 22 0 0 11 0x801F) [(0xA, .vshl), (0xB, .vshr), (0xC, .vsar)] &&
    areV 0 (xV 12 13 22 41 0 11 6) [(0xD, .vcmp)] && areV 0 (xV 8 41 22 13 10 11 0) [(0xE, .vsel)] && areV 0 (xV 10 41 22 13 37 11 0) [(0xF, .vclmp)] &&
    areV 0 (xV 12 41 22 5 0 11 0xAA) [(0x10, .vcvt)] && areV 0 (xV 12 44 22 0 0 11 0x49) [(0x11, .vwid)] && areV 0 (xV 1 41 20 0 0 11 0x103) [(0x12, .vnar)])
    = true := by decide +kernel

theorem decode_vm : (areV 1 (xV 3 41 22 13 0 11 0) [(1, .vmul), (7, .vmulh)] && areV 1 (xV 12 41 22 13 37 11 0) [(2, .vfma), (3, .vfms), (4, .vfnma)] &&
    areV 1 (xV 10 42 22 13 0 11 0) [(5, .vmulw)] && areV 1 (xV 9 41 22 13 37 11 0) [(6, .vdot)] && areV 1 (xV 12 41 22 13 0 11 0) [(8, .vscl)] &&
    areV 1 (xV 13 41 22 0 37 11 0x4C) [(9, .vqnt)]) = true := by decide +kernel

theorem decode_vx : (areV 2 (xV 12 41 22 13 37 11 0) [(1, .vperm)] && areV 2 (xV 9 41 22 13 0 11 3) [(2, .vshuf)] && areV 2 (xV 9 41 22 0 0 11 0x3FF) [(3, .vrot)] &&
    areV 2 (xV 9 41 22 0 0 11 511) [(4, .vbc)] && areV 2 (xV 3 41 22 0 0 11 5) [(5, .vred), (6, .vscan)] && areV 2 (xV 12 41 22 0 0 11 5) [(7, .vsfn)] &&
    areV 2 (xV 12 41 0 6 0 11 2) [(8, .vrng)] && areV 2 (xV 12 41 22 13 37 11 0x7D) [(9, .vsiev)] && areV 2 (xV 3 41 0 0 0 0 0xFF) [(0xA, .vsdrn)] &&
    areV 2 (xV 3 41 22 0 0 11 2) [(0xB, .vcnt)] && areV 2 (xV 9 41 22 0 13 0 0) [(0xC, .vcmpr), (0xD, .vexpd)] && areV 2 (xV 3 41 0 0 0 11 0xA55A) [(0xE, .vidx)] &&
    areV 2 (xV 7 41 22 13 0 11 1) [(0xF, .vksrt)]) = true := by decide +kernel

theorem decode_vl : (areV 3 (xV 12 41 22 5 0 11 0xB000) [(1, .vld), (2, .vst), (5, .vldb)] && areV 3 (xV 12 41 22 5 37 11 0xB000) [(3, .vldg), (4, .vstg)] &&
    areV 3 (xV 0 41 0 0 0 0 3) [(6, .oqp)] && areV 3 (xV 0 41 0 0 0 11 3) [(7, .oqg)] && areV 3 (xV 0 0 0 0 0 0 2) [(8, .vlendLend)] &&
    areV 3 (xV 0 0 0 0 0 0 6) [(8, .vlendRet)]) = true := by decide +kernel

/-- R188's fields from [63:60] down. -/
def wM (col : BitVec 4) (op : BitVec 8) (x : MArgs) : BitVec 64 :=
  col ++ x.delay ++ op ++ x.gc ++ x.ga ++ x.t0c ++ x.t0a ++ x.t1c ++ x.t1a ++ x.t2c ++ x.t2a ++ x.opnd

def xM (opnd : BitVec 19) : MArgs :=
  { delay := 9, gc := 21, ga := 5, t0c := 11, t0a := 1, t1c := 13, t1a := 2, t2c := 19, t2a := 3, opnd := opnd }

def areM (col : BitVec 4) (x : MArgs) (l : List (BitVec 8 × (MArgs → Instr))) : Bool := l.all (fun p => isC (wM col p.1 x) (p.2 x))

theorem decode_mc : (areM 4 (xM 0x35) [(1, .mlease)] && areM 4 (xM 0) [(2, .mrel), (5, .mswp)] && areM 4 (xM 0xA59) [(3, .mshape)] &&
    areM 4 (xM 0x2D580) [(4, .mldw), (6, .mmul), (8, .mdrn)] && areM 4 (xM 0x280) [(7, .mzacc), (9, .mocr)] && areM 4 (xM 0x1580) [(0xA, .mchk)] &&
    areM 4 (xM 0xA55A) [(0xB, .mbst)] && areM 5 (xM 0) [(1, .ctok)] && isC (5#4 ++ 9#4 ++ 0#56) (.cnop { tM 0 with delay := 9 })) = true := by decide +kernel

/-- Words of R195 and 00 R7 that decode to nothing: an op, a function, a mode or a column not assigned; a zero field that is not zero. -/
theorem decode_refuses : [decodeS (wSR 1 21 9 21 6 0), decodeS (wSR 2 9 1 2 3 0), decodeS (wSR 9 0 0 0 0 0), decodeS (wSP 5 2 0), decodeS (wSP 5 3 0),
      decodeS (wSX 5 2 1), decodeS (wSR 7 5 0 0 0 0), decodeS (wSR 8 6 0 0 0 0), decodeS 0xFFFFFFFF].all (fun x => x matches .error .unassigned) = true ∧
    [decodeS (wSR 1 0 9 21 6 1), decodeS (wSR 1 18 9 21 1 0), decodeS (wSM 2 9 21 1 0 0), decodeS (wSM 2 9 21 0 0 1), decodeS (wSR 8 3 1 0 0 0),
      decodeS (wSB 0x22 5 3 1 1)].all (fun x => x matches .error .zeroField) = true ∧
    [decodeD (wD 0 (tD 0 0 0 0 0)), decodeD (wD 0xC (tD 0 0 0 0 0)), decodeD (wD 0x3E (tD 0 0 0 0 0)), decodeC (wV 0 0 (xV 3 1 2 3 0 0 0)),
      decodeC (wV 0 0x13 (xV 3 1 2 3 0 0 0)), decodeC (wV 1 0xA (xV 3 1 2 3 0 0 0)), decodeC (wV 2 0x10 (xV 3 1 2 3 0 0 0)), decodeC (wV 3 9 (xV 3 1 2 3 0 0 0)),
      decodeC (wM 4 0xC (xM 0)), decodeC (wM 5 2 (xM 0)), decodeC (wV 6 1 (xV 3 1 2 3 0 0 0)), decodeC (wV 15 1 (xV 3 1 2 3 0 0 0))].all
      (fun x => x matches .error .unassigned) = true := by decide +kernel

/-- The fragments of 07, as the manual prints their words. -/
theorem decode_fragments : (isS 0x3870000A (.liz 7 10) && isS 0x40400001 (.pbr 1 1) && isS 0x20840003 (.addi 8 8 3) && isS 0x4840E000 (.loop 1 0 0 7) &&
    isS 0x0E000480 .ncmtEnd && isS 0x3C4E3779 (.lic 4 0xE3779) &&
    isD 0x0131900000000888 (.tld { tD 0 0 2 1 0 with delay := 3, gc := 3, ga := 1, cls := 1 }) &&
    isD 0x020002A6800C1910 (.tst { tD 3 0 6 2 0 with t0c := 5, t0a := 1, t1c := 6, t1a := 2, cls := 2 }) &&
    isC 0x1202A10108430000 (.vfma { tV 10 4 1 2 4 0 with delay := 2, mask := 3 }) && isC 0x3001C04204003000 (.vld (tV 12 1 2 1 0 0x3000)) &&
    isC 0x5900000000000000 (.cnop { tM 0 with delay := 9 }) && isC 0x5001110000000000 (.ctok { tM 0 with gc := 2, ga := 1 })) = true := by decide +kernel

/-- A host message: two bytes of type, two of length in bytes, the tag, the argument, the payload (01 R31, R32). -/
def wMsg (type : Nat) (m : HostMsg) : List Byte := leBytes 2 type ++ leBytes 2 m.payload.length ++ leBytes 4 m.tag.toNat ++ leBytes 8 m.arg.toNat ++ m.payload

def isMsg (bs : List Byte) (i : Instr) : Bool := match decodeMessage bs with | .ok j => j = i && encode i = .msg bs | .error _ => false

theorem decode_messages :
    (let m := tMsg 0x105 []
     let p : HostMsg := { tag := 0x11223344, arg := 0x8877665544332211, payload := leBytes 8 0x0102030405060708 }
     isMsg ([1, 0, 8, 0, 0x44, 0x33, 0x22, 0x11, 0x11, 0x22, 0x33, 0x44, 0x55, 0x66, 0x77, 0x88, 8, 7, 6, 5, 4, 3, 2, 1] : List Byte) (.launch p) &&
     isMsg (wMsg 2 m) (.queueCtlDrain m) && isMsg (wMsg 2 (tMsg 0x205 [])) (.queueCtlAbort (tMsg 0x205 [])) && isMsg (wMsg 3 m) (.nodeResume m) &&
     isMsg (wMsg 4 m) (.nodeAbort m) && isMsg (wMsg 5 p) (.tokenAdd p) &&
     ([(1, .secLoad), (2, .secGetid), (3, .secQuote), (4, .secExtend), (5, .secKeyset), (6, .secKeydel), (7, .secChal), (8, .secUnlock), (9, .secSecure),
       (10, .secRetire)] : List (Nat × (HostMsg → Instr))).all
       (fun c => isMsg (wMsg 0x10 (tMsg (BitVec.ofNat 64 c.1) [])) (c.2 (tMsg (BitVec.ofNat 64 c.1) [])))) = true := by decide +kernel

/-- The register of each offset (01 R39) and the value that tells two steps of one register apart. -/
theorem decode_registers :
    (isMsg (wMsg 0x20 (tMsg 0x60208 [])) (.regRead (tMsg 0x60208 [])) && isMsg (wMsg 0x20 (tMsg 0xB00F8 [])) (.eccStatRead (tMsg 0xB00F8 [])) &&
     ([(0x60200, 5, .regWrite), (0x103E0, 5, .sourceCfgWrite), (0x103E8, 5, .sourcePeriodWrite), (0x207C0, 0x4000, .regionBind), (0x207C0, 0x8000, .regionUnbind),
       (0x207D0, 5, .regionQuadsWrite), (0x207D8, 5, .ingestCfgWrite), (0x207F0, 5, .regionPolWrite), (0x30FC0, 0x80000000, .xcfgEnable),
       (0x30FC0, 0x40000000, .xcfgDisable), (0x30FC8, 5, .xperiodWrite), (0x13FFF8, 5, .xperiodWrite), (0x50000, 5, .timeCfgWrite), (0x60300, 5, .thermReasonWrite),
       (0x701F8, 5, .queueCfgWrite), (0x70278, 5, .partTokensWrite), (0x70408, 5, .pairCfgWrite), (0x801E0, 5, .partPtbrWrite), (0x801E8, 5, .partIlvWrite),
       (0x801F0, 1, .partInv), (0x90038, 5, .portEgrWrite), (0xB00F0, 5, .chanRetiredWrite), (0xC0000, 5, .jrnlCfgWrite), (0xC0018, 5, .jrnlSelWrite),
       (0xD03F0, 5, .errInjWrite)] : List (Nat × Nat × (HostMsg → Instr))).all
       (fun c => isMsg (wMsg 0x21 (tWrite c.1 c.2.1)) (c.2.2 (tWrite c.1 c.2.1)))) = true := by decide +kernel

theorem decode_messages_refused :
    ([[], List.replicate 15 0, wMsg 1 (tMsg 0 []) ++ [0], (wMsg 1 (tMsg 0 [1, 2])).dropLast].all (fun b => decodeMessage b matches .error .truncated) &&
     ([0, 6, 0x11, 0x22, 0x8000] : List Nat).all (fun t => decodeMessage (wMsg t (tMsg 0 [])) matches .error .unknownType)) = true := by decide +kernel

/-! ## Hypotheses that can be met: the machine as a whole -/

/-- S at a word of its section; a unit of each column with a word due; an event and a message on the agenda. -/
theorem witness_StepRunsTheInstruction :
    (let s : State := { tS with agenda := [.slot 0 .s], code := [(0, { s := leBytes 4 0 ++ leBytes 4 0x20840003 })] }
     let c := s.coreAt 0
     c.frozen = false ∧ s.mayIssue 0 = true ∧ c.ended = false ∧ s.pairPoint 0 0 = none ∧ c.su.stall = 0 ∧ c.bad = [] ∧
     ((s.code.get {} 0).s.drop c.su.pc).take 4 = [0x03, 0x00, 0x84, 0x20] ∧ isS 0x20840003 (.addi 8 8 3) = true) ∧
    (∀ u ∈ [Slot.l, .va, .mc, .w], let s : State := { tDue u id with agenda := [.slot 0 u] }
     u ≠ .s ∧ (s.coreAt 0).frozen = false ∧ s.mayIssue 0 = true ∧ (s.dueTodo 0 u).isSome = true) ∧
    isD 0x3F00000000000000 (.dnop (tD 0 0 0 0 0)) = true ∧ isC 0x5000000000000000 (.cnop (tM 0)) = true ∧
    (isMsg (wMsg 4 (tMsg 7 [])) (.nodeAbort (tMsg 7 [])) = true ∧ tS.powered = true ∧ tS.host.up = true) := by
  refine ⟨by decide +kernel, fun u h => ?_, by decide +kernel⟩
  simp only [List.mem_cons, List.not_mem_nil, or_false] at h
  rcases h with h | h | h | h <;> subst h <;> decide +kernel

/-- Partition 0 of stacks 0 and 1, rows 0 to 3, and partition 1 of stack 1, rows 3 and 4; all channels there, or one retired. -/
def tIlv (retired : BitVec 160) : State :=
  { parts := [(0, { ilv := 0x0300000000000004#64 }), (1, { ilv := 0x0200000300000002#64 })], hbm := [(1, { retired := retired })] }

theorem witness_HomesAreDistinct :
    (∀ retired ∈ [0, 1], let s := tIlv (BitVec.ofNat 160 retired)
     (∀ p ∈ [0, 1], ilvBase (s.partAt p).ilv + ilvCount (s.partAt p).ilv ≤ chanRows) ∧ (s.homeOf 0 256).isSome = true ∧
     ((∀ i ∈ ilvStacks (s.partAt 0).ilv, (s.stackAt i).retired = 0) ↔ retired = 0)) ∧
    (let s := tIlv 0
     ∃ k, s.homeOf 0 (256 * 961) = some k ∧ s.homeOf 1 0 = some k) := by
  refine ⟨by decide +kernel, _, rfl, rfl⟩

theorem witness_DecodeUndoesEncode : (Instr.add 9 21 6).wellFormed = true ∧ encode (.add 9 21 6) ≠ .event := by decide

theorem witness_MemoryKeepsItsForm : tS.mem.wf = true ∧ ({ cells := [(0, 1), (5, 255)] } : Memory).wf = true ∧ ∃ t, step tS = .next t := ⟨by decide, by decide, _, rfl⟩

/-! ## One step of some instructions -/

/-- What a step that runs one 32-bit word of S, or one 64-bit word, leaves. -/
def after (s : State) (nbits w : Nat) (p : State → Bool) : Bool :=
  match step (s.withFetchWord nbits w) with | .next t => p t | .fault _ => false | .refused _ => false

/-- Core 0 of `tS` with two registers, and what x9 holds after a word of op 1 with d = 9, a = 1, b = 2. -/
def x9 (fn : BitVec 5) (a b v : Dword) : Bool :=
  after (tWith (fun c => (c.setX 1 a).setX 2 b)) 32 (wSR 1 fn 9 1 2 0).toNat (fun t => (t.coreAt 0).x 9 = v && (t.coreAt 0).su.pc = 8)

/-- R200, by hand from its table. -/
theorem test_integer : (x9 0 0xFFFFFFFFFFFFFFFF 2 1 && x9 1 1 2 0xFFFFFFFFFFFFFFFF && x9 9 12 10 8 && x9 10 12 10 14 && x9 11 12 10 6 && x9 12 12 10 4 &&
    x9 13 1 65 2 && x9 14 0x8000000000000000 63 1 && x9 15 0x8000000000000000 63 0xFFFFFFFFFFFFFFFF && x9 16 0xFFFFFFFFFFFFFFFF 1 0xFFFFFFFFFFFFFFFF &&
    x9 17 0xFFFFFFFFFFFFFFFF 1 1) = true := by decide +kernel

/-- The high halves and the divisions of R200, DIV and REM of -2^63 by -1 and by 0 among them. -/
theorem test_divisions : aluMulh (-1) 1 = -1 ∧ aluMulhn (-1) (-1) = 0xFFFFFFFFFFFFFFFE ∧ aluDiv (-7) 2 = -3 ∧ aluDiv 7 0 = -1 ∧ aluDivn (-7) 2 = 0x7FFFFFFFFFFFFFFC ∧
    aluRem (-7) 2 = -1 ∧ aluRem (-7) 0 = -7 ∧ aluRemn 7 0 = 7 ∧ aluDiv 0x8000000000000000 (-1) = 0x8000000000000000 ∧ aluRem 0x8000000000000000 (-1) = 0 := by
  decide +kernel

/-- A write to x0 is discarded, and x0 reads zero (R179). -/
theorem test_x0 : after tS 32 (wSL 0x1C 0 5).toNat (fun t => (t.coreAt 0).x 0 = 0 && (t.coreAt 0).su.pc = 8) = true := by decide +kernel

/-- LIS extends the sign; LIC shifts in 20 bits (R202). -/
theorem test_constants : (after tS 32 0x3A2FFFFF (fun t => (t.coreAt 0).x 2 = 0xFFFFFFFFFFFFFFFF) && after tS 32 (wSL 0x1E 1 7).toNat (fun t => (t.coreAt 0).x 1 = 0x500007))
    = true := by decide +kernel

/-- LOOP at 1 falls through with x1 at 0, and at 2 goes to b1 (R189). -/
theorem test_loop : (after (tWith (fun c => c.setX 1 1)) 32 (wSB 0x24 1 0 0 1).toNat (fun t => (t.coreAt 0).x 1 = 0 && (t.coreAt 0).su.pc = 8) &&
    after { tWith (fun c => { c.setX 1 2 with su := { (c.setX 1 2).su with b := [(1, 4)] } }) with code := [] } 32 (wSB 0x24 1 0 0 1).toNat
      (fun t => (t.coreAt 0).x 1 = 1 && (t.coreAt 0).su.pc = 4)) = true := by decide +kernel

/-- SEL by a false predicate; CLTN unsigned; QNOT (R200, R203). -/
theorem test_predicates : (after tS 32 (wSR 1 20 9 1 2 3).toNat (fun t => (t.coreAt 0).x 9 = 3) &&
    after (tWith (fun c => c.setX 1 0xFFFFFFFFFFFFFFFF)) 32 (wSR 2 4 3 1 2 0).toNat (fun t => !(t.coreAt 0).q 3) &&
    after (tWith (fun c => c.setX 1 0xFFFFFFFFFFFFFFFF)) 32 (wSR 2 2 3 1 2 0).toNat (fun t => (t.coreAt 0).q 3)) = true := by decide +kernel

/-- STS writes the four bytes of element 5 of lt1, lowest first, from 0x100 + 20 (R109, R111, 00 R4). -/
theorem test_store : after (tWith (fun c => (c.setX 4 5).setX 9 0x11223344)) 32 (wSM 1 9 4 1 0 0).toNat
    (fun t => t.mem.byte (0x100 + 20) = 0x44 && t.mem.byte (0x100 + 23) = 0x11 && t.mem.byte (0x100 + 24) = 0) = true := by decide +kernel

/-- BRK without a handler halts the core at the word while the debug port is open; with one, S stands at it and TRAPPC holds the next word's offset (16 R334, R343). -/
theorem test_brk : (after (tWith (fun c => { c with csr := { c.csr with trapVec := 0x21 } })) 32 (wSR 8 4 0 0 3 0).toNat
      (fun t => (t.coreAt 0).su.pc = 0x20 && (t.coreAt 0).csr.trapPc = 8 && (t.coreAt 0).csr.trap0.getLsbD 52) &&
    after tS 32 (wSR 8 4 0 0 3 0).toNat (fun t => (t.coreAt 0).halted)) = true := by decide +kernel

/-- A unit's CT word gives once its segment goes on; a CNOP changes nothing but the segment (R92, R188). -/
theorem test_ctok : after tS 64 0x5001110000000000 
    (fun t => (t.coreAt 0).adds.map (fun y => (y.counter, y.amount)) = [(2, 1)] && (t.coreAt 0).tk 2 = 0) = true := by decide +kernel

/-- VADD.f32 of 1 and 2, and of zeros (10 R256). -/
theorem test_vadd : after (tWith (fun c => (c.setV 1 0x3F800000).setV 2 0x40000000)) 64 0x0001C0C108000000
    (fun t => ((t.coreAt 0).v 3).extractLsb' 0 32 = 0x40400000 && ((t.coreAt 0).v 3).extractLsb' 32 32 = 0) = true := by decide +kernel

/-! ## The error codes (18 R365 to R367) -/

/-- The check words of two data words, divided out apart from the model from the roots of the generators; the syndrome of
one flipped data bit, and of the mask. -/
theorem test_codes : sramCheck 0x0123456789ABCDEF = 0xCBBB ∧ granuleCheck ((List.range 32).map (BitVec.ofNat 8)) = 0x0AB32E97 ∧
    sramSyndrome 4 (sramCheck 5) = sramBit 16 ∧ sramSyndrome 5 (sramCheck 5 ^^^ sramMask) = 0xB4C5 ∧
    sramClass 5 (sramCheck 5) = .good := by decide +kernel

end Sys2Proof.Tests
end

/-! ## Every outcome is a next state (01 R31) -/

namespace Sys2Proof.Machine

/-- The outcome is a next state: neither a fault nor a refusal. -/
def IsNext (o : Out1) : Prop := ∃ t, o = .next t

theorem isNext_next (t : State) : IsNext (.next t) := ⟨t, rfl⟩

theorem isNext_ite {c : Prop} [Decidable c] {a b : Out1} (ha : IsNext a) (hb : IsNext b) : IsNext (if c then a else b) := by
  split
  · exact ha
  · exact hb

namespace State

variable (s : State)

/-- A word of S stalls, consumes a bad register or has its effect. -/
theorem scalar_isNext (reads writes : List SReg) (e : State) : IsNext (s.scalar reads writes e) := by
  unfold scalar
  refine isNext_ite (isNext_next _) ?_
  split <;> exact isNext_next _

theorem scalarWait_isNext (regs : List SReg) (e : State) : IsNext (s.scalarWait regs e) :=
  isNext_ite (isNext_next _) (s.scalar_isNext regs [] e)

/-- A word of a segment faults, meets a late result or has its effect. -/
theorem tryWord_isNext (ts : Takes) (c : Except (Nat × Nat) Bool) (e : State) : IsNext (s.tryWord ts c e) := by
  cases c <;> exact isNext_next _

theorem dWord_isNext (i : Instr) (w : DArgs) (runs : List Nat) (c : Except (Nat × Nat) Bool) (e : State) :
    IsNext (s.dWord i w runs c e) :=
  isNext_ite (isNext_next _) (s.tryWord_isNext _ _ _)

theorem vWord_isNext (reads writes ms : List Nat) (c : Except (Nat × Nat) Bool) (e : State) (also : List BadReg) :
    IsNext (s.vWord reads writes ms c e also) := s.tryWord_isNext _ _ _

end State

section

variable (s : State)

theorem execWaitt_isNext (a : BitVec 5) : IsNext (execWaitt a s) := by
  unfold execWaitt
  split
  · exact isNext_next _
  · exact s.scalar_isNext _ _ _

theorem execCsrr_isNext (d n : BitVec 5) : IsNext (execCsrr d n s) :=
  isNext_ite (isNext_next _) (s.scalar_isNext _ _ _)

/-- TGR is one D word, whatever its checks find. -/
theorem execTgr_isNext (w : DArgs) : IsNext (execTgr w s) := by
  dsimp only [execTgr]
  split <;> exact State.dWord_isNext _ _ _ _ _ _

/-- Each form of VRNG is one vector word. -/
theorem execVrng_isNext (w : VArgs) : IsNext (execVrng w s) := by
  dsimp only [execVrng]
  split <;> exact s.vWord_isNext _ _ _ _ _ _

/-- The meaning of every instruction, message and event is a next state: a word is one shared operation of its unit, and a message
or event ends each of its branches in one. -/
theorem exec_isNext (i : Instr) : IsNext (exec i s) := by
  cases i with
  -- words of S
  | add | sub | mul | mulh | mulhn | div | divn | rem | remn | and | or | xor | andn | shl | shr | sar | min | max | clz | popc
  | sel | ceq | cne | clt | cle | cltn | clen | qand | qor | qnot | addi | andi | ori | xori | shli | shri | sari | ceqi | clti
  | cltni | liz | lis | lic | pbr | pbrLo | pbrr | pbrrLo | br | brl | loop | kset | kpack | kunpk | kadd | ksub | kcmp | ksplit
  | kpfx | lds | ldsK | sts | stsK | ltset | aadd | aaddK | amin | aminK | amax | amaxK | axch | axchK | acas | acasK | tadd
  | tread | qdep | qflsh | time | pwrq | lnch | csrw => exact s.scalar_isNext _ _ _
  | ttake | twait | seg | fmtq => exact s.scalarWait_isNext _ _
  | waitt => exact execWaitt_isNext s _
  | csrr => exact execCsrr_isNext s _ _
  -- words of L, W and C
  | tld | tst | tldr | tstr | tbc | gth | sct | scta | rgth | fill | bcpy | bcan | bstat | ingt | egr | xwr | xrd | dnop =>
    exact s.dWord_isNext _ _ _ _ _
  | tgr => exact execTgr_isNext s _
  | vadd | vsub | vmin | vmax | vabs | vneg | vand | vor | vxor | vshl | vshr | vsar | vcmp | vsel | vclmp | vcvt | vwid | vnar
  | vmul | vfma | vfms | vfnma | vmulw | vdot | vmulh | vscl | vqnt | vperm | vshuf | vrot | vbc | vred | vscan | vsfn | vsiev
  | vsdrn | vcnt | vcmpr | vexpd | vidx | vksrt | vld | vst | vldg | vstg | vldb | oqp | oqg | vlendLend | vlendRet | mshape
  | mldw | mswp | mmul | mzacc | mdrn | mocr | mchk | mbst => exact s.tryWord_isNext _ _ _
  | vrng => exact execVrng_isNext s _
  -- words, messages and events that are one next state by definition
  | gbar | fnc | trap | brk | ncmt | ncmtEnd | eret | nop | mlease | mrel | cnop | ctok | queueCtlDrain | queueCtlAbort | secLoad
  | secGetid | secQuote | secExtend | secKeyset | secKeydel | secChal | secUnlock | secSecure | secRetire | regRead | regWrite
  | sourceCfgWrite | sourcePeriodWrite | regionBind | regionUnbind | regionQuadsWrite | ingestCfgWrite | regionPolWrite
  | xcfgEnable | xcfgDisable | xperiodWrite | queueCfgWrite | partTokensWrite | partPtbrWrite | partIlvWrite | partInv
  | chanRetiredWrite | jrnlCfgWrite | jrnlSelWrite | errInjWrite | thermReasonWrite | eccStatRead | timeCfgWrite | portEgrWrite
  | pairCfgWrite | powerSample | hardLimitRecovery | ptpMessageReceive | ptpMessageTransmit | flitReplay | debugPortAccess
  | pairCopyReceive | partTokenRefill | dispatchDecision | completionRecordWrite | bandIdleGate | powerPredicateClear
  | trackingRelock | sourceMissing | ingestHalfComplete | walkComplete | packagePowerOn | packagePowerLoss | hostLinkRetrain
  | hostLinkDown => exact isNext_next _
  -- messages and events under guards
  | launch | nodeResume | nodeAbort | tokenAdd | hardLimitExceeded | thermalCut | sourceTick | realignResume | streamPacketReceive
  | hbmScrub | linkRetrain | linkRetrainFail | peerCopyWrite | partInvComplete | freezeWatchdog | freezeDutyStep | clockStep
  | frozenEntry | flimitExpiry | streamPortLinkLoss | streamPortLinkUp | pairLinkLoss =>
    repeat' apply isNext_ite
    all_goals exact isNext_next _
  -- events that look up what stands at their place
  | boostDecision | pairRecordCompare | pairPreemptionReceive | tokenAddApply | launchCycle | sectionLoadFailure | deadlineExpiry
  | stopCycle | checkpointSaveEnd | resumeCycle | teardownComplete | segmentStart | segmentRetire | dWordLand | matrixCommandDone
  | latchedDelivery | leaseGrant | leaseRunEnd | boostExpiry | bandWakeComplete | clockGlideEnd | frameBoundary | sourcePresent
  | egrDepart | xwrApply | xrdCompute | oqEntryArrive | oqCreditReturn | copyStart | copyComplete | copyFailure | bcanAck
  | translationFault | waittResume | secCommandFinish =>
    dsimp only [exec, execBoostDecision, execPairRecordCompare, execPairPreemptionReceive, execTokenAddApply, execLaunchCycle,
      execSectionLoadFailure, execDeadlineExpiry, execStopCycle, execCheckpointSaveEnd, execResumeCycle, execTeardownComplete,
      execSegmentStart, execSegmentRetire, execDWordLand, execMatrixCommandDone, execLatchedDelivery, execLeaseGrant,
      execLeaseRunEnd, execBoostExpiry, execBandWakeComplete, execClockGlideEnd, execFrameBoundary, execSourcePresent,
      execEgrDepart, execXwrApply, execXrdCompute, execOqEntryArrive, execOqCreditReturn, execCopyStart, execCopyComplete,
      execCopyFailure, execBcanAck, execTranslationFault, execWaittResume, execSecCommandFinish]
    repeat' split
    all_goals exact isNext_next _

/-- Only bytes of a wrong length are no message (01 R31, log 56). -/
theorem takeMessage_eq_none {bs : List Byte} (h : s.takeMessage bs = none) :
    bs.length < 16 ∨ bs.length ≠ 16 + leNat ((bs.drop 2).take 2) := by
  by_contra hlen
  simp only [State.takeMessage, parseMessage, hlen, if_false] at h
  repeat' split at h
  all_goals cases h

/-- A step answers a next state, or its agenda's head is bytes that are no message. -/
theorem step_isNext_or : IsNext (step s) ∨ ∃ bs rest, s.agenda = .host bs :: rest ∧ step s = .fault .notAMessage ∧
    (bs.length < 16 ∨ bs.length ≠ 16 + leNat ((bs.drop 2).take 2)) := by
  rcases ha : s.agenda with _ | ⟨m, rest⟩
  · exact .inl ⟨_, by rw [step, ha]⟩
  · cases m with
    | event place i => exact .inl (by simpa only [step, ha] using exec_isNext _ i)
    | host bs =>
      cases ht : State.takeMessage { s with agenda := rest } bs with
      | none => exact .inr ⟨bs, rest, rfl, by simp only [step, ha, ht], takeMessage_eq_none _ ht⟩
      | some x =>
        left
        cases x with
        | inl t => exact ⟨t, by simp only [step, ha, ht]⟩
        | inr i => simpa only [step, ha, ht] using exec_isNext _ i
    | slot core u =>
      left
      simp only [step, ha]
      refine isNext_ite (isNext_next _) (isNext_ite (isNext_next _) ?_)
      split
      · exact isNext_next _
      · exact isNext_next _
      · exact exec_isNext _ _
    | time | cycle | thaw | late | land | part | flaw | partner | endCycle | close => exact .inl ⟨_, by rw [step, ha]⟩

end

/-- Settles O57: `exec` by the case of each instruction, `step` by the head of the agenda. -/
theorem everyInstructionAnswers : Obligations.EveryInstructionAnswers :=
  ⟨fun i s => exec_isNext s i, step_isNext_or⟩

end Sys2Proof.Machine

/-! ## The device register space by block (01 R38, R39) -/

namespace Sys2Proof.Machine

namespace State

variable (s : State)

/-! An offset inside a block of the table reads what the block's own register gives. -/

theorem readReg_source {i k : Nat} (hi : i < 32) (hk : k < 32) : s.readReg (0x10000 + 32 * i + k) = s.readSource (32 * i + k) := by
  have h : 0x10000 + 32 * i + k - 0x10000 = 32 * i + k := by omega
  simp (disch := omega) only [readReg, Bool.and_eq_true, decide_eq_true_eq, if_neg, if_pos, h]

theorem readReg_region {r k : Nat} (hr : r < 32) (hk : k < 64) : s.readReg (0x20000 + 64 * r + k) = s.readRegion (64 * r + k) := by
  have h : 0x20000 + 64 * r + k - 0x20000 = 64 * r + k := by omega
  simp (disch := omega) only [readReg, Bool.and_eq_true, decide_eq_true_eq, if_neg, if_pos, h]

theorem readReg_crossing {c k : Nat} (hc : c < 64) (hk : k < 64) :
    s.readReg (0x30000 + 64 * c + k) = s.readCrossing (64 * c + k) := by
  have h : 0x30000 + 64 * c + k - 0x30000 = 64 * c + k := by omega
  simp (disch := omega) only [readReg, Bool.and_eq_true, decide_eq_true_eq, if_neg, if_pos, h]

theorem readReg_idle {q : Nat} (hq : q < 64) : s.readReg (0x60000 + 8 * q) = (s.quadAt q).idle.setWidth 64 := by
  have h : (0x60000 + 8 * q - 0x60000) / 8 = q := by omega
  simp (disch := omega) only [readReg, Bool.and_eq_true, decide_eq_true_eq, if_neg, if_pos, h]

theorem readReg_queue {q : Nat} (hq : q < 64) : s.readReg (0x70000 + 8 * q) = s.readQueue q := by
  have h : (0x70000 + 8 * q - 0x70000) / 8 = q := by omega
  simp (disch := omega) only [readReg, Bool.and_eq_true, decide_eq_true_eq, if_neg, if_pos, h]

theorem readReg_tokens {p : Nat} (hp : p < 16) : s.readReg (0x70200 + 8 * p) = s.readTokens p := by
  have h : (0x70200 + 8 * p - 0x70200) / 8 = p := by omega
  simp (disch := omega) only [readReg, Bool.and_eq_true, decide_eq_true_eq, if_neg, if_pos, h]

theorem readReg_part {p k : Nat} (hp : p < 16) (hk : k < 32) : s.readReg (0x80000 + 32 * p + k) = s.readPart (32 * p + k) := by
  have h : 0x80000 + 32 * p + k - 0x80000 = 32 * p + k := by omega
  simp (disch := omega) only [readReg, Bool.and_eq_true, decide_eq_true_eq, if_neg, if_pos, h]

theorem readReg_watch {p i : Nat} (hp : p < 16) (hi : i < 32) :
    s.readReg (0x80400 + 256 * p + 8 * i) = (s.partAt p).watch.get 0 i := by
  have hp' : (0x80400 + 256 * p + 8 * i - 0x80400) / 256 = p := by omega
  have hi' : (0x80400 + 256 * p + 8 * i - 0x80400) % 256 / 8 = i := by omega
  simp (disch := omega) only [readReg, Bool.and_eq_true, decide_eq_true_eq, if_neg, if_pos, hp', hi']

theorem readReg_egress0 {p : Nat} (hp : p < 4) : s.readReg (0x90000 + 16 * p) = (s.portAt p).egr0 := by
  have h : (0x90000 + 16 * p - 0x90000) / 16 = p := by omega
  simp (disch := omega) only [readReg, Bool.and_eq_true, decide_eq_true_eq, if_neg, if_pos, h]

theorem readReg_egress1 {p : Nat} (hp : p < 4) : s.readReg (0x90000 + 16 * p + 8) = (s.portAt p).egr1 := by
  have h : (0x90000 + 16 * p + 8 - 0x90000) / 16 = p := by omega
  simp (disch := omega) only [readReg, Bool.and_eq_true, decide_eq_true_eq, if_neg, if_pos, h]

theorem readReg_stack {t k : Nat} (ht : t < 8) (hk : k < 32) : s.readReg (0xB0000 + 32 * t + k) = s.readStack (32 * t + k) := by
  have h : 0xB0000 + 32 * t + k - 0xB0000 = 32 * t + k := by omega
  simp (disch := omega) only [readReg, Bool.and_eq_true, decide_eq_true_eq, if_neg, if_pos, h]

theorem readReg_journalData {i : Nat} (hi : i < 16) : s.readReg (0xC0100 + 8 * i) = s.host.data.getD i 0 := by
  have h : (0xC0100 + 8 * i - 0xC0100) / 8 = i := by omega
  simp (disch := omega) only [readReg, Bool.and_eq_true, decide_eq_true_eq, if_neg, if_pos, h]

theorem readReg_errInj {q : Nat} (hq : q < 64) : s.readReg (0xD0000 + 16 * q) = s.readErrInj q := by
  have h : (0xD0000 + 16 * q - 0xD0000) / 16 = q := by omega
  simp (disch := omega) only [readReg, Bool.and_eq_true, decide_eq_true_eq, if_neg, if_pos, h]

theorem readReg_weight {c k : Nat} (hc : c < 64) (hk : k < 4096) :
    s.readReg (0x100000 + 4096 * c + k) = s.readWeight (4096 * c + k) := by
  have h : 0x100000 + 4096 * c + k - 0x100000 = 4096 * c + k := by omega
  simp (disch := omega) only [readReg, Bool.and_eq_true, decide_eq_true_eq, if_neg, if_pos, h]

/-! ### At power-on: every entry of a table reads as its default -/

theorem readReg_source_reset {i k : Nat} (hi : i < 32) (hk : k < 32) : reset.readReg (0x10000 + 32 * i + k) = 0 := by
  rw [readReg_source _ hi hk, readSource, show reset.sourceAt _ = {} from rfl]
  split <;> rfl

theorem readReg_region_reset {r k : Nat} (hr : r < 32) (hk : k < 64) : reset.readReg (0x20000 + 64 * r + k) = 0 := by
  rw [readReg_region _ hr hk, readRegion, show reset.regionAt _ = {} from rfl]
  split <;> decide

theorem readReg_crossing_reset {c k : Nat} (hc : c < 64) (hk : k < 64) : reset.readReg (0x30000 + 64 * c + k) = 0 := by
  rw [readReg_crossing _ hc hk, readCrossing, show reset.crossingAt _ = {} from rfl]
  split <;> rfl

theorem readReg_part_reset {p k : Nat} (hp : p < 16) (hk : k < 32) : reset.readReg (0x80000 + 32 * p + k) = 0 := by
  rw [readReg_part _ hp hk, readPart, show reset.partAt _ = {} from rfl]
  split <;> rfl

theorem readReg_stack_reset {t k : Nat} (ht : t < 8) (hk : k < 32) : reset.readReg (0xB0000 + 32 * t + k) = 0 := by
  rw [readReg_stack _ ht hk, readStack, show reset.stackAt _ = {} from rfl]
  split <;> decide

theorem readReg_errInj_reset {q : Nat} (hq : q < 64) : reset.readReg (0xD0000 + 16 * q) = 0 := by
  rw [readReg_errInj _ hq, readErrInj, show reset.quadAt _ = {} from rfl]
  decide

theorem readReg_weight_reset {c k : Nat} (hc : c < 64) (hk : k < 4096) : reset.readReg (0x100000 + 4096 * c + k) = 0 := by
  rw [readReg_weight _ hc hk, readWeight, show reset.crossingAt _ = {} from rfl]
  exact show 0#32 ++ 0#32 = 0#64 by decide

theorem readReg_tokens_reset {p : Nat} (hp : p < 16) : reset.readReg (0x70200 + 8 * p) = 0 := by
  rw [readReg_tokens _ hp, readTokens, show reset.partAt _ = {} from rfl]
  decide

theorem readReg_queue_reset {q : Nat} (hq : q < 64) : reset.readReg (0x70000 + 8 * q) = 0 := by
  rw [readReg_queue _ hq, readQueue, show reset.queueAt _ = {} from rfl]
  decide

end State

/-- Settles O54: each block of the table reads its default at power-on. -/
theorem resetState : Obligations.ResetState :=
  ⟨fun _ hi => ⟨State.readReg_source_reset hi (k := 0) (by decide), State.readReg_source_reset hi (by decide)⟩,
    fun _ hr => ⟨State.readReg_region_reset hr (k := 0) (by decide), State.readReg_region_reset hr (by decide),
      State.readReg_region_reset hr (by decide), State.readReg_region_reset hr (by decide), State.readReg_region_reset hr (by decide),
      State.readReg_region_reset hr (by decide), rfl⟩,
    fun _ hc => ⟨State.readReg_crossing_reset hc (k := 0) (by decide), State.readReg_crossing_reset hc (by decide),
      fun _ _ => State.readReg_weight_reset hc (by omega)⟩,
    rfl, fun _ hq => ⟨State.readReg_idle _ hq, State.readReg_errInj_reset hq⟩, rfl, rfl, rfl, fun _ hq => State.readReg_queue_reset hq,
    fun _ hp => ⟨State.readReg_tokens_reset hp, State.readReg_part_reset hp (k := 0) (by decide), State.readReg_part_reset hp (by decide),
      fun _ hi => State.readReg_watch _ hp hi⟩,
    fun _ hp => ⟨State.readReg_egress0 _ hp, State.readReg_egress1 _ hp⟩,
    fun _ hk => ⟨State.readReg_stack_reset hk (k := 0) (by decide), State.readReg_stack_reset hk (by decide),
      State.readReg_stack_reset hk (by decide)⟩,
    rfl, rfl, rfl, rfl⟩

end Sys2Proof.Machine

/-! ## REG_READ and REG_WRITE (01 R33, R38) -/

namespace Sys2Proof.Machine

theorem RegWrite.arg_eq {m : HostMsg} {off : Nat} {v : Dword} (h : RegWrite m off v) : m.arg.toNat = off := h.1

namespace State

variable {s : State} {m : HostMsg} {off : Nat} {v : Dword}

/-- A read inside the register space is accepted: the dword is the reply's payload. -/
theorem regGet_accepted (harg : m.arg.toNat = off) (h8 : off % 8 = 0) (hend : off < 0x140000) (hpay : m.payload = [])
    (f : State → State) : s.regGet m f = f { s with host := s.replied m (leBytes 8 (s.readReg off).toNat) } := by
  simp only [regGet, harg, h8, hpay, regEnd, Nat.not_le.mpr hend, ne_eq, not_true, decide_false, Bool.or_self, Bool.false_eq_true,
    if_false]
  rfl

theorem regGet_beyond (hend : 0x140000 ≤ m.arg.toNat) (h8 : m.arg.toNat % 8 = 0) (hpay : m.payload = []) (f : State → State) :
    s.regGet m f = s.refuse m 0x24 := by
  simp [regGet, regEnd, hend, h8, hpay]

theorem regRead_answers (harg : m.arg.toNat = off) (hpay : m.payload = []) {d : Dword} (h8 : off % 8 = 0) (hend : off < 0x140000)
    (hd : s.readReg off = d) :
    Answers (exec (.regRead m) s) (fun t => t = { s with host := s.replied m (leBytes 8 d.toNat) }) :=
  ⟨_, rfl, by rw [regGet_accepted harg h8 hend hpay, hd]; rfl⟩

/-- A write inside the register space is accepted before its effect. -/
theorem regSet_accepted (h : RegWrite m off v) (f : State → State) : s.regSet m f = f { s with host := s.replied m [] } := by
  obtain ⟨harg, h8, hend, hlen, -⟩ := h
  simp only [regSet, harg, h8, hlen, regEnd, Nat.not_le.mpr hend, ne_eq, not_true, decide_false, Bool.or_self, Bool.false_eq_true,
    if_false]
  rfl

theorem regValue_eq (h : RegWrite m off v) : regValue m = v := by
  obtain ⟨-, -, -, -, hval⟩ := h
  exact hval

/-- A REG_WRITE leaves what its effect leaves once the message is accepted. -/
theorem regSet_answers (h : RegWrite m off v) {f : State → State} {t : State} (hf : f { s with host := s.replied m [] } = t) :
    Answers (.next (s.regSet m f)) (fun u => u = t) :=
  ⟨_, rfl, (regSet_accepted h f).trans hf⟩

end State
end Sys2Proof.Machine

/-! ## Registers without a behaviour of their own (01 R38) -/

namespace Sys2Proof.Machine

namespace State

variable (s : State) (v : Dword)

theorem writePlain_regionCtl {r : Nat} (hr : r < 32) :
    s.writePlain (0x20000 + 64 * r + 8) v = s.setRegion r { s.regionAt r with ctl := v &&& 0xFFFF0000FFFFFFFF#64 } := by
  have h : (0x20000 + 64 * r + 8 - 0x20000) / 64 = r := by omega
  simp (disch := omega) only [writePlain, Bool.and_eq_true, decide_eq_true_eq, if_neg, if_pos, h]
  rfl

theorem writePlain_regionPwr {r : Nat} (hr : r < 32) :
    s.writePlain (0x20000 + 64 * r + 32) v = s.setRegion r { s.regionAt r with pwr := v.setWidth 32 } := by
  have h : (0x20000 + 64 * r + 32 - 0x20000) / 64 = r := by omega
  simp (disch := omega) only [writePlain, Bool.and_eq_true, decide_eq_true_eq, if_neg, if_pos, h]
  rfl

theorem writePlain_idle {q : Nat} (hq : q < 64) :
    s.writePlain (0x60000 + 8 * q) v = s.setQuad q { s.quadAt q with idle := v.setWidth 20 } := by
  have h : (0x60000 + 8 * q - 0x60000) / 8 = q := by omega
  simp (disch := omega) only [writePlain, Bool.and_eq_true, decide_eq_true_eq, if_neg, if_pos, h]
  rfl

theorem writePlain_watch {p i : Nat} (hp : p < 16) (hi : i < 32) :
    s.writePlain (0x80400 + 256 * p + 8 * i) v = s.modPart p (fun w => { w with
      watch := w.watch.put 0 i (if i % 2 = 0 then v else v &&& 0xF0F8000000000000#64) }) := by
  have hp' : (0x80400 + 256 * p + 8 * i - 0x80400) / 256 = p := by omega
  have hi' : (0x80400 + 256 * p + 8 * i - 0x80400) % 256 / 8 = i := by omega
  have h2 : (0x80400 + 256 * p + 8 * i) % 16 = 0 ↔ i % 2 = 0 := by omega
  simp (disch := omega) only [writePlain, Bool.and_eq_true, decide_eq_true_eq, if_neg, if_pos, hp', hi', h2]

theorem readReg_regionBind {r : Nat} (hr : r < 32) : s.readReg (0x20000 + 64 * r) = (s.regionAt r).bind := by
  rw [← Nat.add_zero (0x20000 + 64 * r), readReg_region s hr (by decide)]
  simp [readRegion, Nat.mod_eq_of_lt hr]

theorem readReg_regionQuads {r : Nat} (hr : r < 32) : s.readReg (0x20000 + 64 * r + 16) = (s.regionAt r).quads := by
  rw [readReg_region s hr (by decide)]
  simp [readRegion, Nat.mul_add_div, Nat.mod_eq_of_lt hr]

theorem readReg_regionPol {r : Nat} (hr : r < 32) : s.readReg (0x20000 + 64 * r + 48) = (s.regionAt r).pol := by
  rw [readReg_region s hr (by decide)]
  simp [readRegion, Nat.mul_add_div, Nat.mod_eq_of_lt hr]

/-- ECC_STAT (18 R373). -/
theorem readReg_eccStat {k : Nat} (hk : k < 8) : s.readReg (0xB0000 + 32 * k + 24) =
    (s.stackAt k).corrected ++ (s.stackAt k).uncorrectable ++ (s.stackAt k).poisoned := by
  rw [readReg_stack s hk (by decide)]
  simp [readStack, Nat.mul_add_div, Nat.mod_eq_of_lt hk]

end State

section

variable {s : State} {m : HostMsg} {off : Nat} {v : Dword}

/-- A write of a register without a behaviour of its own leaves what `writePlain` leaves. -/
theorem regWrite_answers (h : RegWrite m off v) {t : State}
    (hw : ({ s with host := s.replied m [] } : State).writePlain off v = t) : Answers (exec (.regWrite m) s) (fun u => u = t) :=
  State.regSet_answers h (by rw [h.arg_eq, State.regValue_eq h]; exact hw)

/-- A read of ECC_STAT returns the counts of the stack and clears them (18 R373). -/
theorem eccStatRead_answers {k : Nat} (hk : k < 8) (harg : m.arg.toNat = 0xB0000 + 32 * k + 24) (hpay : m.payload = []) :
    Answers (exec (.eccStatRead m) s) (fun t => t = { s with
      host := s.replied m (leBytes 8 ((s.stackAt k).corrected ++ (s.stackAt k).uncorrectable ++ (s.stackAt k).poisoned).toNat)
      hbm := s.hbm.ins k { s.stackAt k with corrected := 0, uncorrectable := 0, poisoned := 0 } }) := by
  have hidx : (0xB0000 + 32 * k + 24 - 0xB0000) / 32 % 8 = k := by omega
  refine ⟨_, rfl, ?_⟩
  rw [State.regGet_accepted harg (by omega) (by omega) hpay, State.readReg_eccStat s hk, harg, hidx]
  rfl

end

/-- Settles O49: each register by its place in `writePlain` and `readReg`. -/
theorem plainRegistersReadAndWrite : Obligations.PlainRegistersReadAndWrite := by
  intro s m v sets reads
  have read {off : Nat} {d : Dword} (h8 : off % 8 = 0) (hend : off < 0x140000) (hd : s.readReg off = d) : reads off d :=
    fun harg hpay => State.regRead_answers harg hpay h8 hend hd
  refine ⟨fun r hr => ⟨fun h => ?_, fun h => ?_, ?_, ?_, ?_⟩, fun q hq => ⟨fun h => ?_, ?_⟩, fun h => ?_, fun h => ?_, fun h => ?_,
    fun h => ?_, ?_, ?_, ?_, ?_, fun i hi => ?_, fun p hp i hi h => ?_, fun p hp => ?_, fun k hk harg hpay => ?_,
    fun hend h8 hpay => ?_⟩
  -- regions and quads
  · exact regWrite_answers h (State.writePlain_regionCtl _ _ hr)
  · exact regWrite_answers h (State.writePlain_regionPwr _ _ hr)
  · exact read (by omega) (by omega) (State.readReg_regionBind s hr)
  · exact read (by omega) (by omega) (State.readReg_regionQuads s hr)
  · exact read (by omega) (by omega) (State.readReg_regionPol s hr)
  · exact regWrite_answers h (State.writePlain_idle _ _ hq)
  · exact read (by omega) (by omega) (State.readReg_idle s hq)
  -- power and rollback
  · exact regWrite_answers h rfl
  · exact regWrite_answers h rfl
  · exact regWrite_answers h rfl
  · exact regWrite_answers h rfl
  · exact read (by decide) (by decide) rfl
  · exact read (by decide) (by decide) rfl
  -- the journal and QMASK
  · exact read (by decide) (by decide) rfl
  · exact read (by decide) (by decide) rfl
  · exact read (by omega) (by omega) (State.readReg_journalData s hi)
  -- watchpoints and tokens of partitions
  · refine ⟨_, regWrite_answers h (State.writePlain_watch _ _ hp hi), fun j => ?_⟩
    rw [Tab.get_put]
    simp only [eq_comm (a := i)]
    rfl
  · exact read (by omega) (by omega) (State.readReg_tokens s hp)
  · exact eccStatRead_answers hk harg hpay
  · exact ⟨_, rfl, State.regGet_beyond hend h8 hpay id⟩

end Sys2Proof.Machine

/-! ## Fields of a register's value -/

namespace Sys2Proof.Machine

theorem fieldOf_eq_extractLsb' {n : Nat} (v : BitVec n) (hi lo : Nat) : fieldOf v hi lo = (v.extractLsb' lo (hi + 1 - lo)).toNat := by
  simp [fieldOf, bitsOf, Nat.shiftRight_eq_div_pow]

/-- A mask keeps a field that it covers. -/
theorem fieldOf_and {n : Nat} (v mask : BitVec n) {hi lo : Nat} (h : mask.extractLsb' lo (hi + 1 - lo) = BitVec.allOnes _) :
    fieldOf (v &&& mask) hi lo = fieldOf v hi lo := by
  rw [fieldOf_eq_extractLsb', fieldOf_eq_extractLsb', BitVec.extractLsb'_and, h, BitVec.and_allOnes]

/-- A mask clears a field that it leaves out. -/
theorem fieldOf_and_eq_zero {n : Nat} (v mask : BitVec n) {hi lo : Nat} (h : mask.extractLsb' lo (hi + 1 - lo) = 0#_) :
    fieldOf (v &&& mask) hi lo = 0 := by
  rw [fieldOf_eq_extractLsb', BitVec.extractLsb'_and, h, BitVec.and_zero]
  rfl

/-- A mask keeps a bit that it covers. -/
theorem getLsbD_and_mask {n : Nat} (v mask : BitVec n) {i : Nat} (h : mask.getLsbD i = true) :
    (v &&& mask).getLsbD i = v.getLsbD i := by
  rw [BitVec.getLsbD_and, h, Bool.and_true]

/-- A field put into the top four bits of a dword, and what lies below them. -/
theorem setField_kind_toNat (v : Dword) (f : Nat) : (setField v 63 60 f).toNat = v.toNat % 2 ^ 60 + f % 16 * 2 ^ 60 := by
  have hv := v.isLt
  simp only [setField, fieldOf, bitsOf, BitVec.toNat_ofNat]
  omega

/-! ## Sources (02 R41, R42) -/

/-- The fields that SOURCE_CFG keeps of a value whose kind is replaced. -/
theorem sourceCfg_fields (v : Dword) {k : Nat} (hk : k < 16) :
    let cfg := setField (v &&& 0xFFFFFFFFFF000000#64) 63 60 k
    fieldOf cfg 63 60 = k ∧ fieldOf cfg 59 24 = fieldOf v 59 24 ∧ fieldOf cfg 23 0 = 0 := by
  have hmid := fieldOf_and v 0xFFFFFFFFFF000000#64 (hi := 59) (lo := 24) (by decide)
  have hlow := fieldOf_and_eq_zero v 0xFFFFFFFFFF000000#64 (hi := 23) (lo := 0) (by decide)
  simp only [fieldOf, bitsOf, setField_kind_toNat] at hmid hlow ⊢
  omega

namespace State

variable (s : State)

/-- The kind that a write of SOURCE_CFG gives a slot, by the value's own field. -/
theorem keptKind_eq (i : Nat) (v : Dword) : s.keptKind i v =
    if 5 < fieldOf v 63 60 ∨ (fieldOf v 63 60 = 1 ∧ i ≠ 0) ∨ (fieldOf v 63 60 ≠ 1 ∧ i = 0) ∨
        (fieldOf v 63 60 = 2 ∨ fieldOf v 63 60 = 3) ∧
          (List.range 32).any (fun j => j ≠ i && srcKind (s.sourceAt j).cfg = fieldOf v 63 60) = true
      then 0 else fieldOf v 63 60 := by
  by_cases hk : 5 < fieldOf v 63 60
  · have h0 : srcKind v = 0 := if_pos hk
    simp [keptKind, h0, hk]
  · have h0 : srcKind v = fieldOf v 63 60 := if_neg hk
    rw [keptKind, h0]
    generalize fieldOf v 63 60 = k at hk ⊢
    generalize (List.range 32).any _ = taken
    grind

theorem keptKind_lt (i : Nat) (v : Dword) : s.keptKind i v < 16 := by
  have hv : fieldOf v 63 60 < 16 := Nat.mod_lt _ (by decide)
  rw [keptKind_eq]
  split
  · decide
  · exact hv

/-! ## Regions (02 R43 to R48) -/

/-- What an enabled INGEST_CFG keeps: its fields as they were written. -/
theorem ingestOf_and (v : Dword) : ingestOf (v &&& 0xFFFFFFFFFFFF0001#64) = ingestOf v := by
  simp only [ingestOf]
  rw [fieldOf_and _ _ (by decide), fieldOf_and _ _ (by decide), fieldOf_and _ _ (by decide), fieldOf_and _ _ (by decide),
    getLsbD_and_mask _ _ (by decide)]

theorem ingestKept_zero (r : Nat) : s.ingestKept r 0 = 0 := by
  unfold ingestKept
  dsimp only
  split <;> decide

/-- A configuration that is not enabled keeps its fields, whatever they are. -/
theorem ingestKept_off (r : Nat) {v : Dword} (h : v.getLsbD 0 = false) : s.ingestKept r v = v &&& 0xFFFFFFFFFFFF0000#64 := by
  have hbit : v &&& 0xFFFFFFFFFFFF0001#64 = v &&& 0xFFFFFFFFFFFF0000#64 := by
    rw [show 0xFFFFFFFFFFFF0001#64 = 0xFFFFFFFFFFFF0000#64 ||| 1#64 by decide, BitVec.and_or_distrib_left,
      BitVec.and_one_eq_setWidth_ofBool_getLsbD, h]
    simp
  unfold ingestKept
  dsimp only
  split
  · exact hbit
  · rw [BitVec.and_assoc]
    rfl

/-- A configuration of an integer source that meets every condition of R48 is kept enabled (log 35). -/
theorem ingestKept_on {r : Nat} {v : Dword} (hbound : s.bound r = true)
    (hkind : srcKind (s.sourceAt (fieldOf (s.regionAt r).bind 19 15)).cfg = 4)
    (hcount : (ingestOf v).count = fieldOf (s.regionAt r).bind 31 20 + 1)
    (hquad : (s.regionAt r).quads.getLsbD ((ingestOf v).core / 4) = true) (hslot : 4 ≤ (ingestOf v).slot)
    (halign : (ingestOf v).slot % 4 = 0) (hsize : (ingestOf v).base + 2 * (ingestOf v).hsize ≤ 2 ^ 21) :
    s.ingestKept r v = v &&& 0xFFFFFFFFFFFF0001#64 := by
  have hpos : 1 ≤ (ingestOf v).count := by omega
  simp only [ingestKept, ingestOf_and, regionSource, bindSource, bindD, quadOf, sliceBytes, hbound, hkind, hcount, hquad, hslot,
    halign, hsize]
  simp

/-- A bind whose every condition of R45 holds is not refused. -/
theorem bindRefused_eq_false {r : Nat} {v : Dword} (hst : (s.regionAt r).st = .unbound)
    (hperiod : (s.sourceAt (fieldOf v 19 15)).period ≠ 0)
    (hlow : 200000000 * (fieldOf v 31 20 + 1) * (s.sourceAt (fieldOf v 19 15)).period.toNat ≤ fieldOf v 63 32 * 65536 * 1000000000)
    (hhigh : fieldOf v 63 32 * 65536 * 1000000000 ≤ 2000000000 * (fieldOf v 31 20 + 1) * (s.sourceAt (fieldOf v 19 15)).period.toNat)
    (hkind : srcKind (s.sourceAt (fieldOf v 19 15)).cfg ≠ 0) (hquads : (s.regionAt r).quads ≠ 0)
    (hmin : fieldOf (s.regionAt r).ctl 31 0 ≤ fieldOf v 63 32)
    (hothers : ∀ k < 32, k ≠ r → s.bound k = true → (s.regionAt k).quads &&& (s.regionAt r).quads = 0) :
    s.bindRefused r v = false := by
  have hfits : clockFits (bindN v) (bindD v) (s.sourceAt (bindSource v)).period.toNat = true := by
    have hne : (s.sourceAt (fieldOf v 19 15)).period.toNat ≠ 0 := fun h => hperiod (BitVec.eq_of_toNat_eq h)
    exact Bool.and_eq_true_iff.mpr ⟨Bool.and_eq_true_iff.mpr ⟨decide_eq_true hne, decide_eq_true hlow⟩, decide_eq_true hhigh⟩
  have hany : (List.range 32).any (fun k => k ≠ r && s.bound k && (s.regionAt k).quads &&& (s.regionAt r).quads ≠ 0) = false := by
    simp only [List.any_eq_false, List.mem_range, Bool.and_eq_true, decide_eq_true_eq]
    exact fun k hk ⟨⟨hkr, hb⟩, hq⟩ => hq (hothers k hk hkr hb)
  have hmin' : ¬ bindN v < fieldOf (s.regionAt r).ctl 31 0 := Nat.not_lt.mpr hmin
  have hbound : s.bound r = false := by simp [bound, hst]
  have hsrc : srcKind (s.sourceAt (bindSource v)).cfg ≠ 0 := hkind
  simp only [bindRefused, hfits, hany, hquads, hsrc, hmin', hbound]
  rfl

end State
end Sys2Proof.Machine

/-! ## Binds, unbinds and crossings (02 R45, R53) -/

namespace Sys2Proof.Machine

namespace State

variable (s : State)

theorem bindRefused_eq_true {r : Nat} {v : Dword}
    (h : (s.regionAt r).quads = 0 ∨ srcKind (s.sourceAt (fieldOf v 19 15)).cfg = 0 ∨ fieldOf v 63 32 < fieldOf (s.regionAt r).ctl 31 0) :
    s.bindRefused r v = true := by
  rcases h with h | h | h <;> simp [bindRefused, bindSource, bindN, h]

/-- An accepted bind: the region waits gated, with its counts cleared (log 51). -/
theorem writeBind_accepted {r : Nat} {v : Dword} (h : s.bindRefused r v = false) (hcfg : (s.regionAt r).ingestCfg = 0) :
    let g := s.regionAt r
    s.writeBind r v = s.setRegion r { bind := v &&& 0xFFFFFFFFFFFFC000#64, ctl := g.ctl, quads := g.quads, pwr := g.pwr, pol := g.pol
                                      polNow := g.pol, st := .relocking, gated := true } := by
  simp only [writeBind, h, hcfg, bindRegion, ingestKept_zero, Bool.false_eq_true, if_false, modRegion, regionAt_setRegion_self]
  simp only [setRegion, Tab.ins_ins]

theorem writeBind_refused {r : Nat} {v : Dword} (h : s.bindRefused r v = true) :
    s.writeBind r v = s.setRegion r { s.regionAt r with bind := (s.regionAt r).bind ||| 0x2000#64 } := by
  rw [writeBind, if_pos h]
  rfl

/-- An unbind of a region on which no node is placed (log 34). -/
theorem writeUnbind_free {r : Nat} (hst : (s.regionAt r).st ≠ .unbound)
    (hfree : ∀ n w, (n, some w) ∈ s.nodes → holdsQuads w = true → recRegion w.rcd ≠ r) :
    let g := s.regionAt r
    s.writeUnbind r = s.setRegion r { g with
      bind := g.bind &&& 0xFFFFFFFFFFFFBFFF#64, st := .unbound, gated := false, atEnd := false, realign := false } := by
  have hbound : s.bound r = true := by simp [bound, hst]
  unfold writeUnbind
  dsimp only
  rw [if_neg]
  · rfl
  · rw [hbound, Bool.not_true, Bool.or_false, List.any_eq_true]
    rintro ⟨⟨n, _ | w⟩, hmem, hp⟩
    · cases hp
    · obtain ⟨hq, hr⟩ := Bool.and_eq_true_iff.mp hp
      exact hfree n w hmem hq (of_decide_eq_true hr)

/-! ## Crossings (02 R53) -/

/-- XCFG with assigned codes and a period keeps its fields; turning enable on starts the crossing anew (log 36). -/
theorem writeXcfg_kept {c : Nat} {v : Dword} (hpolicy : fieldOf v 30 29 ≠ 3) (hphases : fieldOf v 28 26 ≠ 7)
    (hperiod : (s.crossingAt c).period ≠ 0) : s.writeXcfg c v = s.modCrossing c (fun x =>
      if v.getLsbD 31 && !x.cfg.getLsbD 31 then
        { x with cfg := v &&& 0xFFFFFFFFFFFFFF80#64, ring := [], last := [], enabled := x.enabled + 1 }
      else { x with cfg := v &&& 0xFFFFFFFFFFFFFF80#64 }) := by
  have hpol := fieldOf_and v 0xFFFFFFFFFFFFFF80#64 (hi := 30) (lo := 29) (by decide)
  have hpha := fieldOf_and v 0xFFFFFFFFFFFFFF80#64 (hi := 28) (lo := 26) (by decide)
  have hon := getLsbD_and_mask v 0xFFFFFFFFFFFFFF80#64 (i := 31) (by decide)
  simp only [writeXcfg, modCrossing, hpol, hpha, hpolicy, hphases, hperiod, decide_false, Bool.or_self, Bool.false_eq_true, if_false, hon]

theorem writeXcfg_enables {c : Nat} {v : Dword} (hpolicy : fieldOf v 30 29 ≠ 3) (hphases : fieldOf v 28 26 ≠ 7)
    (hperiod : (s.crossingAt c).period ≠ 0) (hon : v.getLsbD 31 = true) (hoff : (s.crossingAt c).cfg.getLsbD 31 = false) :
    s.writeXcfg c v = s.modCrossing c (fun x =>
      { x with cfg := v &&& 0xFFFFFFFFFFFFFF80#64, ring := [], last := [], enabled := x.enabled + 1 }) := by
  rw [writeXcfg_kept s hpolicy hphases hperiod, modCrossing, hon, hoff]
  rfl

theorem writeXcfg_disables {c : Nat} {v : Dword} (hpolicy : fieldOf v 30 29 ≠ 3) (hphases : fieldOf v 28 26 ≠ 7)
    (hperiod : (s.crossingAt c).period ≠ 0) (hon : v.getLsbD 31 = false) :
    s.writeXcfg c v = s.modCrossing c (fun x => { x with cfg := v &&& 0xFFFFFFFFFFFFFF80#64 }) := by
  rw [writeXcfg_kept s hpolicy hphases hperiod, modCrossing, hon]
  rfl

theorem writeXperiod_period {c : Nat} {v : Dword} (hc : c < 64) (hoff : (s.crossingAt c).cfg.getLsbD 31 = false) :
    s.writeXperiod (0x30000 + 64 * c + 8) v = s.modCrossing c (fun x => { x with period := v }) := by
  have hidx : (0x30000 + 64 * c + 8) / 64 % 64 = c := by omega
  simp (disch := omega) only [writeXperiod, if_neg, hidx, hoff, Bool.false_eq_true, if_false]

theorem writeXperiod_weights {c i : Nat} {v : Dword} (hc : c < 64) (hi : i < 512) (hoff : (s.crossingAt c).cfg.getLsbD 31 = false) :
    s.writeXperiod (0x100000 + 4096 * c + 8 * i) v = s.modCrossing c (fun x => { x with
      weights := (x.weights.put 0 (2 * i) (v.setWidth 32)).put 0 (2 * i + 1) (v.extractLsb' 32 32) }) := by
  have hidx : (0x100000 + 4096 * c + 8 * i - 0x100000) / 4096 % 64 = c := by omega
  have hent : (0x100000 + 4096 * c + 8 * i) % 4096 / 4 = 2 * i := by omega
  simp (disch := omega) only [writeXperiod, if_pos, hidx, hent, hoff, Bool.false_eq_true, if_false]

end State

/-! ## What a write of each register leaves -/

section

variable {s : State} {m : HostMsg} {v : Dword}

theorem sourceCfgWrite_answers {i : Nat} (hi : i < 32) (h : RegWrite m (0x10000 + 32 * i) v) (hfree : s.boundTo i = []) :
    Answers (exec (.sourceCfgWrite m) s) (fun t => t = { s with
      host := s.replied m []
      sources := s.sources.ins i { cfg := setField (v &&& 0xFFFFFFFFFF000000#64) 63 60 (s.keptKind i v)
                                   period := (s.sourceAt i).period, last := some s.clock.now } }) := by
  have hidx : (0x10000 + 32 * i) / 32 % 32 = i := by omega
  refine State.regSet_answers h ?_
  rw [h.arg_eq, State.regValue_eq h, hidx]
  exact if_neg (not_not.mpr hfree)

theorem sourcePeriodWrite_answers {i : Nat} (hi : i < 32) (h : RegWrite m (0x10000 + 32 * i + 8) v) (hfree : s.boundTo i = []) :
    Answers (exec (.sourcePeriodWrite m) s) (fun t => t = { s with
      host := s.replied m [], sources := s.sources.ins i { s.sourceAt i with period := v } }) := by
  have hidx : (0x10000 + 32 * i + 8) / 32 % 32 = i := by omega
  refine State.regSet_answers h ?_
  rw [h.arg_eq, State.regValue_eq h, hidx]
  exact if_neg (not_not.mpr hfree)

theorem regionBind_answers {r : Nat} (hr : r < 32) (h : RegWrite m (0x20000 + 64 * r) v) {t : State}
    (ht : ({ s with host := s.replied m [] } : State).writeBind r v = t) : Answers (exec (.regionBind m) s) (fun u => u = t) := by
  have hidx : (0x20000 + 64 * r) / 64 % 32 = r := by omega
  exact State.regSet_answers h (by rw [h.arg_eq, State.regValue_eq h, hidx, ht])

theorem regionUnbind_answers {r : Nat} (hr : r < 32) (h : RegWrite m (0x20000 + 64 * r) v) {t : State}
    (ht : ({ s with host := s.replied m [] } : State).writeUnbind r = t) : Answers (exec (.regionUnbind m) s) (fun u => u = t) := by
  have hidx : (0x20000 + 64 * r) / 64 % 32 = r := by omega
  exact State.regSet_answers h (by rw [h.arg_eq, hidx, ht])

theorem regionQuadsWrite_answers {r : Nat} (hr : r < 32) (h : RegWrite m (0x20000 + 64 * r + 16) v)
    (hst : (s.regionAt r).st = .unbound) : Answers (exec (.regionQuadsWrite m) s) (fun t => t = { s with
      host := s.replied m [], regions := s.regions.ins r { s.regionAt r with quads := v } }) := by
  have hidx : (0x20000 + 64 * r + 16) / 64 % 32 = r := by omega
  have hbound : ¬ s.bound r = true := by simp [State.bound, hst]
  refine State.regSet_answers h ?_
  rw [h.arg_eq, State.regValue_eq h, hidx]
  exact if_neg hbound

theorem ingestCfgWrite_answers {r : Nat} (hr : r < 32) (h : RegWrite m (0x20000 + 64 * r + 24) v) {t : State}
    (ht : ({ s with host := s.replied m [] } : State).writeIngest r v = t) : Answers (exec (.ingestCfgWrite m) s) (fun u => u = t) := by
  have hidx : (0x20000 + 64 * r + 24) / 64 % 32 = r := by omega
  exact State.regSet_answers h (by rw [h.arg_eq, State.regValue_eq h, hidx, ht])

theorem regionPolWrite_answers {r : Nat} (hr : r < 32) (h : RegWrite m (0x20000 + 64 * r + 48) v) :
    Answers (exec (.regionPolWrite m) s) (fun t => t = { s with
      host := s.replied m [], regions := s.regions.ins r { s.regionAt r with pol := v &&& 0xFFFFFFFF00000003#64 } }) := by
  have hidx : (0x20000 + 64 * r + 48) / 64 % 32 = r := by omega
  refine State.regSet_answers h ?_
  rw [h.arg_eq, State.regValue_eq h, hidx]
  rfl

/-- Both XCFG writes leave what `writeXcfg` leaves: the value says which of them the message is. -/
theorem xcfg_answers {c : Nat} (hc : c < 64) (h : RegWrite m (0x30000 + 64 * c) v) {t : State}
    (ht : ({ s with host := s.replied m [] } : State).writeXcfg c v = t) :
    Answers (exec (.xcfgEnable m) s) (fun u => u = t) ∧ Answers (exec (.xcfgDisable m) s) (fun u => u = t) := by
  have hidx : (0x30000 + 64 * c) / 64 % 64 = c := by omega
  have hset := State.regSet_answers (s := s) h (f := fun s => s.writeXcfg (m.arg.toNat / 64 % 64) (State.regValue m))
    (by rw [h.arg_eq, State.regValue_eq h, hidx, ht])
  exact ⟨hset, hset⟩

theorem xperiodWrite_answers {off : Nat} (h : RegWrite m off v) {t : State}
    (ht : ({ s with host := s.replied m [] } : State).writeXperiod off v = t) : Answers (exec (.xperiodWrite m) s) (fun u => u = t) :=
  State.regSet_answers h (by rw [h.arg_eq, State.regValue_eq h, ht])

end

/-- The half that a write of INGEST_CFG starts for the frame under way, and the other one (log 35). -/
theorem ingestHalves (frame : BitVec 64) {k : Nat} (hk : k < 2) (h o : Half) :
    (k = frame.toNat % 2 → (if k = 0 then (if frame.toNat % 2 = 0 then h else o) else (if frame.toNat % 2 = 0 then o else h)) = h) ∧
    (k ≠ frame.toNat % 2 → (if k = 0 then (if frame.toNat % 2 = 0 then h else o) else (if frame.toNat % 2 = 0 then o else h)) = o) := by
  have hp : frame.toNat % 2 < 2 := Nat.mod_lt _ (by decide)
  generalize frame.toNat % 2 = p at hp ⊢
  have hcases : (k = 0 ∨ k = 1) ∧ (p = 0 ∨ p = 1) := by omega
  obtain ⟨rfl | rfl, rfl | rfl⟩ := hcases <;> simp

/-- Two neighbouring entries of a weight table, read back. -/
theorem weights_put_pair (w : Tab (BitVec 32)) (k : Nat) (a b : BitVec 32) (j : Nat) :
    ((w.put 0 k a).put 0 (k + 1) b).get 0 j = if j = k then a else if j = k + 1 then b else w.get 0 j := by
  rw [Tab.get_put, Tab.get_put]
  by_cases hk : j = k
  · simp [hk]
  · simp [hk, Ne.symm hk, eq_comm]

/-- Settles O47: each write by the law of its register, the fields that a mask keeps among them. -/
theorem clockRegisterWrites : Obligations.ClockRegisterWrites := by
  intro s m v sets
  refine ⟨fun i hi hfree => ⟨fun h => ?_, fun h => sourcePeriodWrite_answers hi h hfree⟩,
    fun r hr => ⟨fun h _ hst => ⟨fun hp hlow hhigh hkind hquads hmin hcfg hothers => ?_, fun hbad => ?_⟩, fun h hst hnodes => ?_,
      fun h hst => regionQuadsWrite_answers hr h hst, fun h => ?_, fun h => regionPolWrite_answers hr h⟩,
    fun c hc => ⟨fun h hpol hpha hper => ⟨fun hon hoff => ?_, fun hon => ?_⟩, fun h hoff => ?_, fun i hi h hoff => ?_⟩⟩
  -- SOURCE_CFG
  · obtain ⟨hkind, hmid, hlow⟩ := sourceCfg_fields v (s.keptKind_lt i v)
    exact ⟨_, sourceCfgWrite_answers hi h hfree, hkind.trans (s.keptKind_eq i v), hmid, hlow⟩
  -- REGION_BIND: accepted, refused, and an unbind
  · exact regionBind_answers hr h
      (State.writeBind_accepted _ (State.bindRefused_eq_false _ hst hp hlow hhigh hkind hquads hmin hothers) hcfg)
  · exact regionBind_answers hr h (State.writeBind_refused _ (State.bindRefused_eq_true _ hbad))
  · exact regionUnbind_answers hr h (State.writeUnbind_free _ hst hnodes)
  -- INGEST_CFG
  · exact ⟨_, _, _, ingestCfgWrite_answers hr h rfl, s.ingestKept_off r,
      fun _ hbound hkind hcount hquad hslot halign hsize => s.ingestKept_on hbound hkind hcount hquad hslot halign hsize,
      fun k hk => ingestHalves _ hk _ _⟩
  -- XCFG, enabled and disabled
  · exact (xcfg_answers hc h (State.writeXcfg_enables _ hpol hpha hper hon hoff)).1
  · exact (xcfg_answers hc h (State.writeXcfg_disables _ hpol hpha hper hon)).2
  -- XPERIOD and the weights
  · exact xperiodWrite_answers h (State.writeXperiod_period _ hc hoff)
  · exact ⟨_, xperiodWrite_answers h (State.writeXperiod_weights _ hc hi hoff), weights_put_pair _ (2 * i) _ _⟩

end Sys2Proof.Machine

/-! ## Time, ports, queues, partitions, stacks, the pair, the journal and error injection as the host writes them (01 R38) -/

namespace Sys2Proof.Machine

/-- A field put into a value, bit by bit. -/
theorem getLsbD_setField {n : Nat} (v : BitVec n) {hi lo : Nat} (f : Nat) (hlo : lo ≤ hi) (hhi : hi < n) {c : Nat} (hc : c < n) :
    (setField v hi lo f).getLsbD c = if lo ≤ c ∧ c ≤ hi then f.testBit (c - lo) else v.getLsbD c := by
  obtain ⟨k, rfl⟩ : ∃ k, hi = lo + k := ⟨hi - lo, by omega⟩
  have hk : lo + k + 1 - lo = k + 1 := by omega
  have hvlow : v.toNat % 2 ^ lo < 2 ^ lo := Nat.mod_lt _ (Nat.two_pow_pos lo)
  have hvmid : v.toNat / 2 ^ lo % 2 ^ (k + 1) < 2 ^ (k + 1) := Nat.mod_lt _ (Nat.two_pow_pos _)
  have hfmid : f % 2 ^ (k + 1) < 2 ^ (k + 1) := Nat.mod_lt _ (Nat.two_pow_pos _)
  -- the value is its high part, its field and its low part
  have hv : v.toNat = 2 ^ lo * (2 ^ (k + 1) * (v.toNat / 2 ^ lo / 2 ^ (k + 1)) + v.toNat / 2 ^ lo % 2 ^ (k + 1)) + v.toNat % 2 ^ lo := by
    rw [Nat.div_add_mod, Nat.div_add_mod]
  have hset : v.toNat - fieldOf v (lo + k) lo * 2 ^ lo + f % 2 ^ (lo + k + 1 - lo) * 2 ^ lo =
      2 ^ lo * (2 ^ (k + 1) * (v.toNat / 2 ^ lo / 2 ^ (k + 1)) + f % 2 ^ (k + 1)) + v.toNat % 2 ^ lo := by
    rw [fieldOf, bitsOf, hk]
    generalize v.toNat / 2 ^ lo / 2 ^ (k + 1) = a at *
    generalize v.toNat / 2 ^ lo % 2 ^ (k + 1) = b at *
    rw [Nat.mul_add] at hv
    rw [Nat.mul_add, Nat.mul_comm b, Nat.mul_comm (f % _)]
    omega
  rw [← BitVec.testBit_toNat v, hv, setField, BitVec.getLsbD_ofNat, hset, Nat.testBit_two_pow_mul_add _ hvlow,
    Nat.testBit_two_pow_mul_add _ hvlow, Nat.testBit_two_pow_mul_add _ hfmid, Nat.testBit_two_pow_mul_add _ hvmid]
  by_cases h1 : c < lo
  · simp [h1, hc, Nat.not_le.mpr h1]
  · by_cases h2 : c - lo < k + 1
    · have h3 : lo ≤ c ∧ c ≤ lo + k := by omega
      simp [h1, h2, hc, h3, Nat.testBit_mod_two_pow]
    · have h3 : ¬ (lo ≤ c ∧ c ≤ lo + k) := by omega
      simp [h1, h2, hc, h3]

namespace State

variable (s : State)

/-! ## Queues, partitions and stacks (03 R75, R77, 04 R122, 18 R378) -/

/-- QUEUE_CFG of a queue that is closed and empty. -/
theorem writeQueueCfg_empty {q : Nat} (v : Dword) (hclosed : (s.queueAt q).isOpen = false) (hdown : (s.queueAt q).teardown = none)
    (hempty : s.openNodes (fun n => n.queue.toNat = q) = []) :
    s.writeQueueCfg q v = s.modQueue q (fun w => { w with
      slack := v.extractLsb' 32 32, part := v.extractLsb' 28 4, isOpen := v.getLsbD 0
      capacity := if ((List.range 64).map (fun k => if k = q then 0 else (s.queueAt k).capacity.toNat)).sum + fieldOf v 13 1 ≤ 4096
        then v.extractLsb' 1 13 else w.capacity }) := by
  simp only [writeQueueCfg, hclosed, hdown, hempty]
  rfl

/-- PART_ILV of a partition without a running node, with a value that R122 and R378 allow. -/
theorem writeIlv_kept {p : Nat} {v : Dword} (hfree : s.partRuns p = false) (hcount : fieldOf v 20 0 ≠ 0)
    (hend : fieldOf v 52 32 + fieldOf v 20 0 ≤ 1638400) (hstacks : fieldOf v 63 56 ≠ 0)
    (husable : ∀ k < 8, v.getLsbD (56 + k) = true → (s.stackAt k).retired ≠ BitVec.allOnes 160) :
    s.writeIlv p v = s.modPart p (fun w => { w with ilv := v &&& 0xFF1FFFFF001FFFFF#64 }) := by
  have hbase : ilvBase (v &&& 0xFF1FFFFF001FFFFF#64) = fieldOf v 52 32 := fieldOf_and _ _ (by decide)
  have hcnt : ilvCount (v &&& 0xFF1FFFFF001FFFFF#64) = fieldOf v 20 0 := fieldOf_and _ _ (by decide)
  have hbit : ∀ k < 8, (v &&& 0xFF1FFFFF001FFFFF#64).getLsbD (56 + k) = v.getLsbD (56 + k) := fun k hk =>
    getLsbD_and_mask _ _ (by interval_cases k <;> decide)
  have hsome : ilvStacks (v &&& 0xFF1FFFFF001FFFFF#64) ≠ [] := by
    intro hnil
    refine hstacks ?_
    rw [fieldOf_eq_extractLsb']
    refine congrArg BitVec.toNat (BitVec.eq_of_getLsbD_eq (y := 0#8) fun k hk => ?_)
    have hnone := List.filter_eq_nil_iff.mp hnil k (List.mem_range.mpr hk)
    rw [hbit k hk] at hnone
    simpa [hk] using hnone
  have hdead : (ilvStacks (v &&& 0xFF1FFFFF001FFFFF#64)).any (fun k => (s.stackAt k).retired = BitVec.allOnes 160) = false := by
    rw [List.any_eq_false]
    intro k hk
    obtain ⟨hk8, hon⟩ := List.mem_filter.mp hk
    rw [hbit k (List.mem_range.mp hk8)] at hon
    simpa using husable k (List.mem_range.mp hk8) hon
  simp only [writeIlv, hfree, hdead, hbase, hcnt, hcount, hsome, Nat.not_lt.mpr hend]
  rfl

/-- CHAN_RETIRED of a stack that no partition with a running or held node uses: dword `i` of the bits. -/
theorem writeRetired_idle {t i : Nat} (hi : i < 3) (v : Dword)
    (hidle : ∀ p < 16, (s.partAt p).ilv.getLsbD (56 + t) = true → s.partBusy p = false) :
    ∃ r, s.writeRetired t i v = s.modStack t (fun w => { w with retired := r }) ∧
      ∀ c < 160, r.getLsbD c = if c / 64 = i then v.getLsbD (c % 64) else (s.stackAt t).retired.getLsbD c := by
  have hany : (List.range 16).any (fun p => (ilvStacks (s.partAt p).ilv).contains t && s.partBusy p) = false := by
    rw [List.any_eq_false]
    intro p hp hbusy
    obtain ⟨hstack, hb⟩ := Bool.and_eq_true_iff.mp hbusy
    obtain ⟨-, hbit⟩ := List.mem_filter.mp (List.contains_iff_mem.mp hstack)
    rw [hidle p (List.mem_range.mp hp) hbit] at hb
    cases hb
  rw [writeRetired, hany]
  have hdword {lo hi' : Nat} (hlo : lo = 64 * i) (hhi : hi' = min (lo + 63) 159) (c : Nat) (hc : c < 160) :
      (setField (s.stackAt t).retired hi' lo v.toNat).getLsbD c =
        if c / 64 = i then v.getLsbD (c % 64) else (s.stackAt t).retired.getLsbD c := by
    have hin : (lo ≤ c ∧ c ≤ hi') ↔ c / 64 = i := by omega
    rw [getLsbD_setField _ _ (by omega) (by omega) hc]
    by_cases h : c / 64 = i
    · have hmod : c - lo = c % 64 := by omega
      simp only [hin, h, if_true, hmod, BitVec.testBit_toNat]
    · simp only [hin, h, if_false]
  obtain rfl | rfl | rfl : i = 0 ∨ i = 1 ∨ i = 2 := by omega
  · exact ⟨_, rfl, hdword rfl rfl⟩
  · exact ⟨_, rfl, hdword rfl rfl⟩
  · exact ⟨_, rfl, hdword rfl rfl⟩

end State

/-! ## What a write of each register leaves -/

section

variable {s : State} {m : HostMsg} {v : Dword}

theorem timeCfgWrite_answers (h : RegWrite m 0x50000 v) (hoff : timePorts s.clock.cfg = 0) :
    Answers (exec (.timeCfgWrite m) s) (fun t => t = { s with
      host := s.replied m [], clock := { s.clock with cfg := v &&& 0x00000FFFFFFF1EFF#64, masters := 0 } }) := by
  refine State.regSet_answers h ?_
  rw [State.regValue_eq h]
  exact if_neg (not_not.mpr hoff)

theorem thermReasonWrite_answers (h : RegWrite m 0x60300 v) : Answers (exec (.thermReasonWrite m) s) (fun t => t = { s with
    host := s.replied m [], power := { s.power with reason := 0, sensor := 0 } }) :=
  State.regSet_answers h rfl

/-- PORT_EGR of a port on which no EGR is pending. -/
theorem portEgrWrite_answers {p k : Nat} (hp : p < 4) (hk : k < 16) (hempty : (s.portAt p).queue = [])
    (h : RegWrite m (0x90000 + 16 * p + k) v) : Answers (exec (.portEgrWrite m) s) (fun t => t = { s with
      host := s.replied m []
      ports := s.ports.ins p (if k = 0 then { s.portAt p with egr0 := v &&& 0x0000FFFFFFFFFFFF#64 } else { s.portAt p with egr1 := v }) }) := by
  have hidx : (0x90000 + 16 * p + k) / 16 % 4 = p := by omega
  have hlow : (0x90000 + 16 * p + k) % 16 = k := by omega
  refine State.regSet_answers h ?_
  rw [h.arg_eq, State.regValue_eq h, hidx, hlow]
  exact if_neg (not_not.mpr hempty)

theorem queueCfgWrite_answers {q : Nat} (hq : q < 64) (h : RegWrite m (0x70000 + 8 * q) v) {t : State}
    (ht : ({ s with host := s.replied m [] } : State).writeQueueCfg q v = t) : Answers (exec (.queueCfgWrite m) s) (fun u => u = t) := by
  have hidx : (0x70000 + 8 * q - 0x70000) / 8 % 64 = q := by omega
  exact State.regSet_answers h (by rw [h.arg_eq, State.regValue_eq h, hidx, ht])

theorem partTokensWrite_answers {p : Nat} (hp : p < 16) (h : RegWrite m (0x70200 + 8 * p) v) :
    Answers (exec (.partTokensWrite m) s) (fun t => t = { s with
      host := s.replied m []
      parts := s.parts.ins p { s.partAt p with
        refill := v.extractLsb' 32 32, max := v.extractLsb' 16 16, refilled := s.clock.now
        current := BitVec.ofNat 16 (min (fieldOf v 15 0) (fieldOf v 31 16)) } }) := by
  have hidx : (0x70200 + 8 * p - 0x70200) / 8 % 16 = p := by omega
  refine State.regSet_answers h ?_
  rw [h.arg_eq, State.regValue_eq h, hidx]
  rfl

theorem partPtbrWrite_answers {p : Nat} (hp : p < 16) (h : RegWrite m (0x80000 + 32 * p) v) (hfree : s.partRuns p = false) :
    Answers (exec (.partPtbrWrite m) s) (fun t => t = { s with
      host := s.replied m [], parts := s.parts.ins p { s.partAt p with ptbr := v &&& 0x0000FFFFFFFFF001#64 } }) := by
  have hidx : (0x80000 + 32 * p) / 32 % 16 = p := by omega
  refine State.regSet_answers h ?_
  rw [h.arg_eq, State.regValue_eq h, hidx]
  exact if_neg (Bool.eq_false_iff.mp hfree)

theorem partIlvWrite_answers {p : Nat} (hp : p < 16) (h : RegWrite m (0x80000 + 32 * p + 8) v) {t : State}
    (ht : ({ s with host := s.replied m [] } : State).writeIlv p v = t) : Answers (exec (.partIlvWrite m) s) (fun u => u = t) := by
  have hidx : (0x80000 + 32 * p + 8) / 32 % 16 = p := by omega
  exact State.regSet_answers h (by rw [h.arg_eq, State.regValue_eq h, hidx, ht])

theorem partInv_answers {p : Nat} (hp : p < 16) (h : RegWrite m (0x80000 + 32 * p + 16) v) :
    Answers (exec (.partInv m) s) (fun t => t = { s with
      host := s.replied m [], parts := s.parts.ins p { s.partAt p with busy := true } }) := by
  have hidx : (0x80000 + 32 * p + 16) / 32 % 16 = p := by omega
  refine State.regSet_answers h ?_
  rw [h.arg_eq, hidx]
  rfl

theorem chanRetiredWrite_answers {k i : Nat} (hk : k < 8) (hi : i < 3) (h : RegWrite m (0xB0000 + 32 * k + 8 * i) v) {t : State}
    (ht : ({ s with host := s.replied m [] } : State).writeRetired k i v = t) :
    Answers (exec (.chanRetiredWrite m) s) (fun u => u = t) := by
  have hidx : (0xB0000 + 32 * k + 8 * i - 0xB0000) / 32 % 8 = k := by omega
  have hdword : (0xB0000 + 32 * k + 8 * i) % 32 / 8 = i := by omega
  exact State.regSet_answers h (by rw [h.arg_eq, State.regValue_eq h, hidx, hdword, ht])

theorem pairCfgWrite_answers (h : RegWrite m 0x70408 v) (hnone : s.openNodes State.lockstep = []) :
    Answers (exec (.pairCfgWrite m) s) (fun t => t = { s with
      host := s.replied m [], pair := { s.pair with cfg := v.setWidth 3 } }) := by
  refine State.regSet_answers h ?_
  rw [State.regValue_eq h]
  exact if_neg (not_not.mpr hnone)

/-- JRNL_CFG before the first accepted command: a power of two from 4,096 to 2^24 (19 R403). -/
theorem jrnlCfgWrite_answers (h : RegWrite m 0xC0000 v) (hfirst : s.host.head = 1) {k : Nat} (hlow : 12 ≤ k) (hhigh : k ≤ 24)
    (hv : v.toNat % 2 ^ 32 = 2 ^ k) : Answers (exec (.jrnlCfgWrite m) s) (fun t => t = { s with
      host := { s.replied m [] with jrnlCfg := v.setWidth 32 } }) := by
  have hfield : fieldOf v 31 0 = 2 ^ k := by rw [← hv]; simp [fieldOf, bitsOf]
  have hmin : 4096 ≤ 2 ^ k := Nat.pow_le_pow_right (n := 2) (by decide) hlow
  have hmax : 2 ^ k ≤ 16777216 := Nat.pow_le_pow_right (n := 2) (by decide) hhigh
  have hpow : isPow2 (2 ^ k) = true := by simp [isPow2]
  have hkept : BitVec.ofNat 32 (2 ^ k) = v.setWidth 32 := BitVec.eq_of_toNat_eq (by simp [hv.symm])
  refine State.regSet_answers h ?_
  rw [State.regValue_eq h, hfield]
  simp only [State.replied, hfirst, hmin, hmax, hpow, hkept, decide_true, Bool.and_self, if_true]

theorem jrnlSelWrite_answers (h : RegWrite m 0xC0018 v) :
    Answers (exec (.jrnlSelWrite m) s) (fun t => t = ({ s with host := s.replied m [] } : State).writeSel v) :=
  State.regSet_answers h (by rw [State.regValue_eq h])

theorem errInjWrite_answers {q : Nat} (hq : q < 64) (h : RegWrite m (0xD0000 + 16 * q) v) (hlive : s.lifecycle ≠ 4) :
    Answers (exec (.errInjWrite m) s) (fun t => t = { s with
      host := s.replied m []
      quads := s.quads.ins q { s.quadAt q with errInj :=
        { arm := v.getLsbD 63 && fieldOf v 62 61 ≠ 3, target := v.extractLsb' 61 2, fired := (s.quadAt q).errInj.fired,
          row := v.extractLsb' 28 9, column := v.extractLsb' 20 8, bit := v.extractLsb' 0 5 } } }) := by
  have hidx : (0xD0000 + 16 * q - 0xD0000) / 16 % 64 = q := by omega
  refine State.regSet_answers h ?_
  rw [h.arg_eq, State.regValue_eq h, hidx]
  exact if_neg hlive

end

/-- Settles O48: each write by the law of its register. -/
theorem deviceRegisterWrites : Obligations.DeviceRegisterWrites := by
  intro s m v sets
  refine ⟨timeCfgWrite_answers, thermReasonWrite_answers,
    fun p hp hempty => ⟨portEgrWrite_answers (k := 0) hp (by decide) hempty, portEgrWrite_answers (k := 8) hp (by decide) hempty⟩,
    fun q hq h hclosed hdown hempty => queueCfgWrite_answers hq h (State.writeQueueCfg_empty _ v hclosed hdown hempty),
    fun p hp => ⟨partTokensWrite_answers hp, partPtbrWrite_answers hp, fun h hfree hcount hend hstacks husable =>
      partIlvWrite_answers hp h (State.writeIlv_kept _ hfree hcount hend hstacks husable), partInv_answers hp⟩,
    fun k hk i hi h hidle => ?_, pairCfgWrite_answers, fun h hfirst ⟨k, hlow, hhigh, hv⟩ => jrnlCfgWrite_answers h hfirst hlow hhigh hv,
    jrnlSelWrite_answers, fun q hq => errInjWrite_answers hq⟩
  obtain ⟨r, hr, hbits⟩ := State.writeRetired_idle { s with host := s.replied m [] } hi v hidle
  exact ⟨r, chanRetiredWrite_answers hk hi h hr, hbits⟩

end Sys2Proof.Machine

/-! ## Frames, refuted: the entry into FROZEN of a region that is gated already (17 R348, R351) -/

namespace Sys2Proof.Machine

theorem State.gate_of_gated {s : State} {r : Nat} (h : (s.regionAt r).gated = true) : s.gate r = s := if_pos h

/-- The entry into FROZEN of a region whose clock is gated already, under a policy that does nothing to its nodes: its schedule
counters stay as the earlier gate left them. -/
theorem frozenEntry_of_gated {s : State} (hst : (s.regionAt s.cur.n).st = .holdover) (hend : (s.regionAt s.cur.n).atEnd = true)
    (hheld : fieldOf (s.regionAt s.cur.n).ctl 63 48 ≤ (s.regionAt s.cur.n).holdFrames) (hgated : (s.regionAt s.cur.n).gated = true)
    (hpol1 : fieldOf (s.regionAt s.cur.n).pol 1 0 ≠ 1) (hpol2 : fieldOf (s.regionAt s.cur.n).pol 1 0 ≠ 2) :
    exec .frozenEntry s =
      .next ((s.enter s.cur.n .frozen).modRegion s.cur.n (fun g => { g with frozenAt := s.clock.now })) := by
  have henter : s.enter s.cur.n .frozen =
      s.modRegion s.cur.n (fun g => { g with st := .frozen, polNow := g.pol, ticksIn := 0 }) := rfl
  have hg : ((s.enter s.cur.n .frozen).regionAt s.cur.n).gated = true := by rw [henter, State.regionAt_modRegion_self]; exact hgated
  simp only [exec, execFrozenEntry, hst, hend, hheld, decide_true, Bool.and_self, if_true, State.gate_of_gated hg]
  rw [henter, State.frozenAction, State.regionAt_modRegion_self, State.regionAt_modRegion_self]
  simp [hpol1, hpol2]

/-- A region that was gated at CEILING as its source went missing, with H = 0: it is in HOLDOVER, still gated at the end of its
frame, and waits for FROZEN. Core 0 runs, and the gate has moved its schedule counter back. -/
def gatedInHoldover : State := { State.reset with
  regions := [(0, { st := .holdover, gated := true, atEnd := true, quads := 1, ahead := [0] })]
  cores := [(0, { run := true })] }

/-- Refutes O41: the statement moves SCHED_CY of every running core back by one as a region in HOLDOVER enters FROZEN, also where
the region's clock is gated already. It is where CEILING had gated the region before its source went missing and H is 0 (17 R348,
R351): the counter then has the last cycle's value from that gate on, and the entry into FROZEN leaves it alone (21 R416). -/
theorem not_regionsChangeFrames : ¬ Obligations.RegionsChangeFrames := by
  intro h
  obtain ⟨-, ⟨hfrozen, -⟩, -⟩ := h gatedInHoldover
  obtain ⟨t, ht, ⟨-, -, -, -, -, -, hcores⟩, -⟩ := (hfrozen rfl rfl (Nat.zero_le _)).1 (by decide) (by decide)
  rw [frozenEntry_of_gated rfl rfl (Nat.zero_le _) rfl (by decide) (by decide)] at ht
  cases ht
  have hran := (hcores 0).1 ⟨by decide, by decide, rfl, rfl, rfl, rfl⟩
  exact absurd (congrArg (fun c : Core => c.csr.schedCy) hran) (by decide)

end Sys2Proof.Machine

/-! ## Ports, refuted: the packets of a saved node at the loss of a link (09 R242, 19 R386) -/

namespace Sys2Proof.Machine

/-- The link of a port whose packets all belong to words that are no longer in flight in their cores: none is discarded. -/
theorem streamPortLinkLoss_saved {s : State} (hup : (s.portAt s.cur.n).up = true) (hsrc : s.sources = [])
    (hsaved : ∀ k ∈ (s.portAt s.cur.n).queue, (s.coreAt k.core.toNat).cu.flights = []) :
    exec .streamPortLinkLoss s =
      .next ((s.modPort s.cur.n (fun q => { q with up := false })).signal 5 (leBytes 8 (3 + s.cur.n * 2 ^ 8))) := by
  have hthere : (s.portAt s.cur.n).queue.filter (fun k => (s.coreAt k.core.toNat).cu.flights.any (fun f => f.id = k.flight)) = [] := by
    rw [List.filter_eq_nil_iff]
    intro k hk
    simp [hsaved k hk]
  have hleft : (s.portAt s.cur.n).queue.filter (fun k => !(s.coreAt k.core.toNat).cu.flights.any (fun f => f.id = k.flight)) =
      (s.portAt s.cur.n).queue := by
    rw [List.filter_eq_self]
    intro k hk
    simp [hsaved k hk]
  have hdrop : s.modPort s.cur.n (fun q => { q with
      up := false
      queue := q.queue.filter (fun k => !(s.coreAt k.core.toNat).cu.flights.any (fun f => f.id = k.flight))
      discards := q.discards + 0 }) = s.modPort s.cur.n (fun q => { q with up := false }) := by
    rw [State.modPort, State.modPort, hleft]
    rfl
  simp only [exec, execStreamPortLinkLoss, hup, hthere, List.length_nil, List.foldl_nil, Bool.not_true, Bool.false_eq_true, if_false,
    hdrop]
  rw [List.foldl_fixed']
  intro i
  rw [if_neg]
  simp [State.sourceAt, State.modPort, hsrc, srcKind, fieldOf, bitsOf]

/-- A packet of core 0's flight 0, and that flight. -/
def savedPacket : EgrPacket :=
  { core := 0, flight := 0, region := 0, stream := 0, due := 0, issued := 0, frame := 0, count := 0, size := 0 }
def savedFlight : Flight :=
  { id := 0, unit := .l, ordinal := 0, offset := 0, word := .nop, src := 0, dst := 0, sc := 0, dc := 0, par := 0, frame := 0, issued := 0 }

/-- A checkpoint has saved the flight with node 1; its packet waits at port 0. -/
def packetOfSavedNode : State := { State.reset with
  ports := [(0, { queue := [savedPacket] })]
  nodes := [(1, some { rcd := [], queue := 0, part := 0, st := .checkpointed, cores := [{ cu := { flights := [savedFlight] } }] })] }

/-- Refutes O44: the statement has a port lose every packet of its queue with its link. The packet of a node that a checkpoint
has saved stays: its EGR is not in flight in the core, but in the node's saved context, and is restored with it (19 R386, R387). -/
theorem not_portsIngestAndTime : ¬ Obligations.PortsIngestAndTime := by
  intro h
  obtain ⟨-, -, hport, -⟩ := h.1 packetOfSavedNode
  obtain ⟨t, ht, hq, -⟩ := hport rfl rfl
  rw [streamPortLinkLoss_saved rfl rfl (fun _ _ => rfl)] at ht
  cases ht
  exact absurd (congrArg Port.queue hq) (by decide)

end Sys2Proof.Machine

/-! ## Egress, refuted: a table of cores that is not in order -/

namespace Sys2Proof.Machine

/-- An EGR of a single element outside its entry's extents, and its packet. -/
def outsideArgs : DArgs :=
  { delay := 0, gc := 0, ga := 0, t0c := 0, t0a := 0, t1c := 0, t1a := 0, t2c := 0, t2a := 0, se := 0, sp := 0, de := 0, dp := 0
    cls := 0, ext := 0 }
def outsideEgr : Flight :=
  { id := 0, unit := .l, ordinal := 0, offset := 0, word := .egr outsideArgs, src := 0, dst := 0, sc := 0, dc := 0, par := 0, frame := 0
    issued := 0 }
def outsidePacket : EgrPacket :=
  { core := 0, flight := 0, region := 0, stream := 0, due := 0, issued := 0, frame := 0, count := 0, size := 0 }

/-- Core 1 is listed before core 0, on which the EGR is in flight. -/
def coresOutOfOrder : State := { State.reset with
  cores := [(1, {}), (0, { cu := { flights := [outsideEgr] } })]
  ports := [(0, { queue := [outsidePacket] })] }

/-- An EGR that ends no load's reads leaves the table of cores as it is listed. -/
theorem dWordLand_coresOutOfOrder : ∃ t, exec .dWordLand coresOutOfOrder = .next t ∧ t.cores = coresOutOfOrder.cores :=
  ⟨_, rfl, by decide⟩

theorem mayLand_coresOutOfOrder : MayLand coresOutOfOrder outsideEgr := by
  unfold MayLand
  decide

theorem quiet_coresOutOfOrder : Quiet coresOutOfOrder := by
  refine ⟨rfl, rfl, rfl, rfl, rfl, fun c => ?_, fun n v h => ?_⟩
  · simp only [coresOutOfOrder, State.coreAt, Tab.get]
    split
    · rfl
    · split <;> rfl
  · cases h

/-- Refutes O33: in the clause of an EGR that reads its tile the statement writes the core back into the table of cores, while
the model leaves the table alone where no load of the core's sequencer may still read. The two are the same only if the
table lists the core where `Tab.ins` puts it; the statement is about every state, and in this one core 1 stands before core 0. -/
theorem not_crossingsAndEgress : ¬ Obligations.CrossingsAndEgress := by
  rintro ⟨-, hland, -⟩
  obtain ⟨-, hegr⟩ := hland coresOutOfOrder outsideEgr outsideArgs _ mayLand_coresOutOfOrder quiet_coresOutOfOrder rfl (.inl (by decide))
  obtain ⟨t, ht, m, again, n, -, heq⟩ := hegr rfl (by decide) ⟨outsidePacket, by decide, by decide, rfl⟩
  obtain ⟨u, hu, hcores⟩ := dWordLand_coresOutOfOrder
  rw [hu] at ht
  cases ht
  have hlisted : ∀ c, (coresOutOfOrder.cores.ins coresOutOfOrder.here c).length = 3 := fun _ => rfl
  have htable := hcores.symm.trans (congrArg State.cores heq)
  exact absurd ((congrArg List.length htable).trans (hlisted _)) (by decide)

end Sys2Proof.Machine


/-! ## Frames of the operations on cores and quads -/

namespace Sys2Proof.Machine.State

variable (s : State)

/-- A fold of steps that each change cores alone changes cores alone. -/
theorem foldl_onlyCores {α : Type} (step : State → α → State) (h : ∀ u a, ∃ cs, step u a = { u with cores := cs }) (l : List α) :
    ∃ cs, l.foldl step s = { s with cores := cs } := by
  refine List.foldlRecOn l step (motive := fun t : State => ∃ cs, t = { s with cores := cs }) ⟨s.cores, rfl⟩ ?_
  rintro _ ⟨cs, rfl⟩ a -
  exact h _ a

theorem refreshHolds_frame (r : Nat) : ∃ cs, s.refreshHolds r = { s with cores := cs } := by
  unfold refreshHolds
  exact foldl_onlyCores _ _ (fun _ _ => ⟨_, rfl⟩) _

/-- What the end of a transition delivers comes by the agenda: cores apart, nothing else changes (17 R360). -/
theorem endTransition_frame (r : Nat) : ∃ cs a, s.endTransition r = { s with cores := cs, agenda := a } := by
  obtain ⟨cs, hstops⟩ := foldl_onlyCores s (fun s c => s.modCore c (fun k => { k with stopHeld := false })) (fun _ _ => ⟨_, rfl⟩)
    (s.regionCores r)
  obtain ⟨ds, hholds⟩ := refreshHolds_frame { s with cores := cs } r
  unfold endTransition
  dsimp only
  rw [hstops, hholds]
  exact ⟨_, _, rfl⟩

/-- A command boundary moves the leased bands of its quad to their class: of quads, only bands change (02 R64, R65). -/
theorem boundary_frame (q : Nat) :
    ∃ qs, s.boundary q = { s with quads := qs } ∧ ∀ k, ((s.boundary q).quadAt k).boost = (s.quadAt k).boost := by
  unfold boundary
  dsimp only
  split
  · exact ⟨_, rfl, fun _ => rfl⟩
  · split
    · exact ⟨_, rfl, fun _ => rfl⟩
    · refine ⟨_, rfl, fun k => ?_⟩
      rw [quadAt_modQuad]
      split
      · next h => rw [h]
      · rfl

end Sys2Proof.Machine.State

/-! ## The governor's rules for one region (02 R62, R66 to R68) -/

namespace Sys2Proof.Machine

theorem usFine_ten : usFine 10 = 10 * 1000 * 2 ^ 16 := rfl
theorem usFine_hundred : usFine 100 = 100 * 1000 * 2 ^ 16 := rfl

namespace State

variable (s : State)

/-- The limits of R66 that a sample may exceed. -/
def limitExceeded (r : Nat) (currents : Tab Nat) (est rails : Nat) : Prop :=
  s.overCurrent r currents = true ∨ (s.regionAt r).pwr ≠ 0 ∧ (s.regionAt r).pwr.toNat < est ∨
    s.power.soft.toNat < s.packageEstimate r est rails

/-- A glide: the region's cycles lie between those of the step it leaves and of the step it goes to (R68, log 55). -/
theorem startGlide_eq (r target : Nat) : s.startGlide r target = s.setRegion r { s.regionAt r with
    power := { (s.regionAt r).power with glide := some target, changed := s.clock.now }
    pace := { since := s.clock.now, cycle := (s.regionAt r).cycles
              quick := s.stepCycle r (min (s.regionAt r).power.step target), slow := s.stepCycle r (max (s.regionAt r).power.step target) } } := by
  simp only [startGlide, modPower, setPace, modRegion, regionAt_setRegion_self, setRegion_clock]
  simp only [setRegion, Tab.ins_ins]

end State

variable {s : State}

theorem powerSample_answers (region : BitVec 5) (currents : Tab Nat) (est rails : Nat) :
    let r := region.toNat
    let g := s.regionAt r
    let pkg := s.packageEstimate r est rails
    Answers (exec (.powerSample region currents est rails) s) (fun t => ∃ p : RegionPower, t = { s with
        power := { s.power with estimate := BitVec.ofNat 32 pkg, below := if pkg < s.power.soft.toNat then s.power.below else s.clock.now }
        regions := s.regions.ins r { g with power := p } } ∧
      (s.limitExceeded r currents est rails → p = { g.power with
        estimate := BitVec.ofNat 32 est, predicate := true, lastSet := s.clock.now
        since := if g.power.predicate then g.power.since else s.clock.now }) ∧
      (¬ s.limitExceeded r currents est rails → p = { g.power with estimate := BitVec.ofNat 32 est })) := by
  have hzero : (s.regionAt region.toNat).pwr = 0 ↔ (s.regionAt region.toNat).pwr.toNat = 0 := BitVec.toNat_inj.symm
  refine ⟨_, rfl, _, rfl, fun h => if_pos ?_, fun h => if_neg ?_⟩
  · simpa only [State.limitExceeded, ne_eq, hzero, Bool.or_eq_true, Bool.and_eq_true, decide_eq_true_eq, or_assoc] using h
  · simpa only [State.limitExceeded, ne_eq, hzero, Bool.or_eq_true, Bool.and_eq_true, decide_eq_true_eq, or_assoc] using h

theorem powerPredicateClear_answers (hpred : (s.regionAt s.cur.n).power.predicate = true)
    (hquiet : (s.regionAt s.cur.n).power.lastSet + 10 * 1000 * 2 ^ 16 ≤ s.clock.now) :
    Answers (exec .powerPredicateClear s) (fun t => t = s.modPower s.cur.n (fun w => { w with predicate := false, since := s.clock.now })) := by
  refine ⟨_, rfl, ?_⟩
  simp only [hpred, usFine_ten, hquiet, decide_true, Bool.and_self, if_true]

section

/-! Steps of the duty and of the clock, ten microseconds after the last change. -/

variable (hbound : s.bound s.cur.n = true) (hdue : stepDue (s.regionAt s.cur.n).power s.clock.now = true)
include hbound hdue

theorem freezeDutyStep_rises (hstream : s.onReference s.cur.n = false) (hpred : (s.regionAt s.cur.n).power.predicate = true)
    (hduty : (s.regionAt s.cur.n).power.duty < 4) : Answers (exec .freezeDutyStep s) (fun t =>
      t = s.modPower s.cur.n (fun w => { w with duty := w.duty + 1, changed := s.clock.now })) := by
  refine ⟨_, ?_, rfl⟩
  simp [exec, execFreezeDutyStep, hbound, hdue, hstream, hpred, hduty]

theorem freezeDutyStep_falls (hstream : s.onReference s.cur.n = false) (hpred : (s.regionAt s.cur.n).power.predicate = false)
    (hduty : (s.regionAt s.cur.n).power.duty ≠ 0) (hhard : s.power.exceeded = false) : Answers (exec .freezeDutyStep s) (fun t =>
      t = s.modPower s.cur.n (fun w => { w with duty := w.duty - 1, changed := s.clock.now })) := by
  refine ⟨_, ?_, rfl⟩
  simp [exec, execFreezeDutyStep, hbound, hdue, hstream, hpred, hduty, hhard]

variable (href : s.onReference s.cur.n = true) (hsteady : (s.regionAt s.cur.n).power.glide = none)
include href hsteady

theorem clockStep_slows (hpred : (s.regionAt s.cur.n).power.predicate = true) (hstep : (s.regionAt s.cur.n).power.step < 8) :
    Answers (exec .clockStep s) (fun t => t = s.startGlide s.cur.n ((s.regionAt s.cur.n).power.step + 1)) := by
  refine ⟨_, ?_, rfl⟩
  simp [exec, execClockStep, hbound, hdue, href, hsteady, hpred, hstep]

theorem clockStep_quickens (hpred : (s.regionAt s.cur.n).power.predicate = false) (hstep : (s.regionAt s.cur.n).power.step ≠ 0)
    (hhard : s.power.exceeded = false) :
    Answers (exec .clockStep s) (fun t => t = s.startGlide s.cur.n ((s.regionAt s.cur.n).power.step - 1)) := by
  refine ⟨_, ?_, rfl⟩
  simp [exec, execClockStep, hbound, hdue, href, hsteady, hpred, hstep, hhard]

end

/-- The leased bands of a region's quads take a class: of the state, only quads change. -/
theorem foldl_classes_frame (s : State) (r cls : Nat) (l : List Nat) : ∃ qs, l.foldl (fun (s : State) q =>
    if (s.regionAt r).quads.getLsbD q && (s.quadAt q).lease.isSome then
      (s.modQuad q (fun v => { v with lease := v.lease.map (fun l => { l with cls := cls }) })).boundary q
    else s) s = { s with quads := qs } := by
  refine List.foldlRecOn l _ (motive := fun t : State => ∃ qs, t = { s with quads := qs }) ⟨s.quads, rfl⟩ ?_
  rintro _ ⟨qs, rfl⟩ q -
  split
  · obtain ⟨rs, hrs, -⟩ := State.boundary_frame (State.modQuad { s with quads := qs } q
      (fun v => { v with lease := v.lease.map (fun l => { l with cls := cls }) })) q
    exact ⟨rs, hrs⟩
  · exact ⟨qs, rfl⟩

/-- A region's clock arrives at a step; from step 0 its next frame boundary realigns (17 R353). -/
def State.glideEnded (s : State) (r k : Nat) : State :=
  s.setRegion r { s.regionAt r with
    power := { (s.regionAt r).power with step := k, glide := none }
    pace := { since := s.clock.now, cycle := (s.regionAt r).cycles, quick := s.stepCycle r k, slow := s.stepCycle r k }
    realign := if k = 0 then true else (s.regionAt r).realign }

theorem State.glideEnded_eq (s : State) (r k : Nat) : s.glideEnded r k =
    if k = 0 then ((s.modPower r (fun w => { w with step := k, glide := none })).setPace r (s.stepCycle r k) (s.stepCycle r k)).modRegion r
      (fun g => { g with realign := true })
    else (s.modPower r (fun w => { w with step := k, glide := none })).setPace r (s.stepCycle r k) (s.stepCycle r k) := by
  by_cases hk : k = 0
  · simp only [glideEnded, hk, if_true, modPower, setPace, modRegion, regionAt_setRegion_self, setRegion_clock]
    simp only [setRegion, Tab.ins_ins]
  · simp only [glideEnded, hk, if_false, modPower, setPace, modRegion, regionAt_setRegion_self, setRegion_clock]
    simp only [setRegion, Tab.ins_ins]

/-- The end of a glide moves leased bands and delivers what was latched; beside that the region's clock has arrived. -/
theorem clockGlideEnd_answers {k : Nat} (hglide : (s.regionAt s.cur.n).power.glide = some k) :
    Answers (exec .clockGlideEnd s) (fun t => ∃ cs qs a, t = { s.glideEnded s.cur.n k with cores := cs, quads := qs, agenda := a }) := by
  obtain ⟨qs, hqs⟩ := foldl_classes_frame (s.glideEnded s.cur.n k) s.cur.n ((s.glideEnded s.cur.n k).clockClass s.cur.n) (List.range 64)
  obtain ⟨cs, a, hend⟩ := State.endTransition_frame { s.glideEnded s.cur.n k with quads := qs } s.cur.n
  refine ⟨_, ?_, cs, qs, a, hend⟩
  rw [← hqs, State.glideEnded_eq]
  simp only [exec, execClockGlideEnd, hglide]

end Sys2Proof.Machine

/-! ## Folds over regions -/

namespace Sys2Proof.Machine.State

/-- `t` has the time and the sources of `s`, and its regions but for region `r`. -/
def OnlyRegion (r : Nat) (s t : State) : Prop :=
  t.clock = s.clock ∧ t.sources = s.sources ∧ ∀ j, j ≠ r → t.regionAt j = s.regionAt j

theorem OnlyRegion.refl (r : Nat) (s : State) : OnlyRegion r s s := ⟨rfl, rfl, fun _ _ => rfl⟩

theorem OnlyRegion.trans {r : Nat} {s t u : State} : OnlyRegion r s t → OnlyRegion r t u → OnlyRegion r s u :=
  fun ⟨hc, hs, hr⟩ ⟨hc', hs', hr'⟩ => ⟨hc'.trans hc, hs'.trans hs, fun j hj => (hr' j hj).trans (hr j hj)⟩

theorem modRegion_onlyRegion (s : State) (r : Nat) (f : Region → Region) : OnlyRegion r s (s.modRegion r f) :=
  ⟨rfl, rfl, fun j hj => by rw [regionAt_modRegion, if_neg (Ne.symm hj)]⟩

/-- A fold of steps that each change one region: a region of the list is as its own step leaves it, taken from a state in which it,
the sources and the time are still as they were; the others stand. -/
theorem foldl_onlyRegion {step : State → Nat → State} (hstep : ∀ u a, OnlyRegion a u (step u a)) {l : List Nat} (hl : l.Nodup) (s : State) :
    (l.foldl step s).clock = s.clock ∧ (l.foldl step s).sources = s.sources ∧
    (∀ j, j ∉ l → (l.foldl step s).regionAt j = s.regionAt j) ∧
    ∀ r ∈ l, ∃ u, u.clock = s.clock ∧ u.sources = s.sources ∧ u.regionAt r = s.regionAt r ∧
      (l.foldl step s).regionAt r = (step u r).regionAt r := by
  induction l generalizing s with
  | nil => exact ⟨rfl, rfl, fun _ _ => rfl, fun _ h => nomatch h⟩
  | cons a l ih =>
    obtain ⟨hal, hl⟩ := List.nodup_cons.mp hl
    obtain ⟨hc, hs, hr⟩ := hstep s a
    obtain ⟨ihc, ihs, ihout, ihin⟩ := ih hl (step s a)
    refine ⟨ihc.trans hc, ihs.trans hs, fun j hj => ?_, fun r hrl => ?_⟩
    · obtain ⟨hja, hjl⟩ := not_or.mp (fun h => hj (List.mem_cons.mpr h))
      exact (ihout j hjl).trans (hr j hja)
    · rcases List.mem_cons.mp hrl with rfl | hrl
      · exact ⟨s, rfl, rfl, rfl, ihout r hal⟩
      · obtain ⟨u, huc, hus, hur, hfin⟩ := ihin r hrl
        have hne : r ≠ a := fun h => hal (h ▸ hrl)
        exact ⟨u, huc.trans hc, hus.trans hs, hur.trans (hr r hne), hfin⟩

end Sys2Proof.Machine.State

/-! ## The package's hard limit, and its power (17 R361, R362, 12 R310) -/

namespace Sys2Proof.Machine

/-- What the hard limit does to one region (17 R361). -/
def State.slowRegion (s : State) (r : Nat) : State :=
  if !s.bound r then s
  else if s.onReference r then
    (let w := (s.regionAt r).power
     if w.step = 8 && w.glide.isNone then s.modPower r (fun w => { w with changed := s.clock.now }) else s.startGlide r 8)
  else s.modPower r (fun w => { w with duty := 4, changed := s.clock.now })

namespace State

variable (s : State)

theorem slowRegion_frame (r : Nat) : ∃ rs, s.slowRegion r = { s with regions := rs } := by
  unfold slowRegion
  dsimp only
  split
  · exact ⟨_, rfl⟩
  · split
    · split
      · exact ⟨_, rfl⟩
      · exact ⟨_, s.startGlide_eq r 8⟩
    · exact ⟨_, rfl⟩

theorem slowRegion_onlyRegion (r : Nat) : OnlyRegion r s (s.slowRegion r) := by
  unfold slowRegion
  dsimp only
  split
  · exact .refl r s
  · split
    · split
      · exact modRegion_onlyRegion s r _
      · rw [startGlide_eq]
        exact modRegion_onlyRegion s r (fun _ => _)
    · exact modRegion_onlyRegion s r _

theorem foldl_slowRegion_frame (l : List Nat) : ∃ rs, l.foldl slowRegion s = { s with regions := rs } := by
  refine List.foldlRecOn l slowRegion (motive := fun t : State => ∃ rs, t = { s with regions := rs }) ⟨_, rfl⟩ ?_
  rintro _ ⟨rs, rfl⟩ r -
  exact slowRegion_frame _ r

theorem slowRegion_stream {r : Nat} (hbound : s.bound r = true) (hstream : s.onReference r = false) :
    ((s.slowRegion r).regionAt r).power.duty = 4 := by
  simp [slowRegion, hbound, hstream, modPower]

theorem slowRegion_reference {r : Nat} (hbound : s.bound r = true) (href : s.onReference r = true) :
    ((s.slowRegion r).regionAt r).power.glide = some 8 ∨
      ((s.slowRegion r).regionAt r).power.step = 8 ∧ ((s.slowRegion r).regionAt r).power.glide = none := by
  by_cases h : (s.regionAt r).power.step = 8 ∧ (s.regionAt r).power.glide = none
  · right
    simp [slowRegion, hbound, href, modPower, h]
  · left
    simp [slowRegion, hbound, href, startGlide_eq, h]

/-- Boosts end quad by quad. -/
theorem foldl_endBoosts (l : List Nat) :
    let t := l.foldl (fun (s : State) q =>
      if (s.quadAt q).boost.isSome then (s.modQuad q (fun v => { v with boost := none })).boundary q else s) s
    (∃ qs, t = { s with quads := qs }) ∧ ∀ q, q ∈ l ∨ (s.quadAt q).boost = none → (t.quadAt q).boost = none := by
  induction l generalizing s with
  | nil => exact ⟨⟨_, rfl⟩, fun q h => h.resolve_left (List.not_mem_nil)⟩
  | cons a l ih =>
    -- the head's own step
    have hstep : ∃ qs, (if (s.quadAt a).boost.isSome then (s.modQuad a (fun v => { v with boost := none })).boundary a else s) =
        { s with quads := qs } ∧ ∀ q, q = a ∨ (s.quadAt q).boost = none → (({ s with quads := qs } : State).quadAt q).boost = none := by
      split
      · obtain ⟨qs, hqs, hboost⟩ := boundary_frame (s.modQuad a (fun v => { v with boost := none })) a
        refine ⟨qs, hqs, fun q hq => ?_⟩
        have := hboost q
        rw [hqs, quadAt_modQuad] at this
        refine this.trans ?_
        split
        · rfl
        · next hne => exact hq.resolve_left (Ne.symm hne)
      · next hnone =>
        refine ⟨s.quads, rfl, fun q hq => ?_⟩
        rcases hq with rfl | hq
        · simpa using hnone
        · exact hq
    obtain ⟨qs, hqs, hdone⟩ := hstep
    obtain ⟨⟨rs, hrs⟩, hrest⟩ := ih { s with quads := qs }
    dsimp only at hrs hrest ⊢
    rw [List.foldl_cons, hqs]
    refine ⟨⟨rs, hrs⟩, fun q hq => hrest q ?_⟩
    rw [List.mem_cons] at hq
    rcases hq with (hq | hq) | hq
    · exact .inr (hdone q (.inl hq))
    · exact .inl hq
    · exact .inr (hdone q (.inr hq))

end State

/-- Every bound region after the hard limit: a stream-locked one at duty 4, a reference-locked one at step 8 or on its way (17 R361). -/
theorem State.foldl_slowRegion_bound (s : State) {r : Nat} (hr : r < 32) (hbound : s.bound r = true) :
    let g := ((List.range 32).foldl State.slowRegion s).regionAt r
    (s.onReference r = false → g.power.duty = 4) ∧
    (s.onReference r = true → g.power.glide = some 8 ∨ g.power.step = 8 ∧ g.power.glide = none) := by
  obtain ⟨-, -, -, hin⟩ := State.foldl_onlyRegion State.slowRegion_onlyRegion List.nodup_range (l := List.range 32) s
  obtain ⟨u, -, hsources, hregion, hfin⟩ := hin r (List.mem_range.mpr hr)
  have hb : u.bound r = true := by rw [State.bound, hregion]; exact hbound
  have href : u.onReference r = s.onReference r := by
    rw [State.onReference, State.regionSource, hregion, State.sourceAt, hsources]
    rfl
  dsimp only
  rw [hfin, ← href]
  exact ⟨u.slowRegion_stream hb, u.slowRegion_reference hb⟩

/-- The governor's answer to the hard limit: boosts end, every region slows, and the host is told. -/
theorem hardLimitExceeded_eq {s : State} {estimate : Nat} (hover : s.power.hard.toNat < estimate) (hfirst : s.power.exceeded = false) :
    ∃ qs rs, (∀ q < 64, (qs.get {} q).boost = none) ∧
      (∀ r < 32, s.bound r = true → (s.onReference r = false → (rs.get {} r).power.duty = 4) ∧
        (s.onReference r = true → (rs.get {} r).power.glide = some 8 ∨ (rs.get {} r).power.step = 8 ∧ (rs.get {} r).power.glide = none)) ∧
      exec (.hardLimitExceeded estimate) s = .next (State.signal { s with
        power := { s.power with exceeded := true, below := s.clock.now }, quads := qs, regions := rs } 4 (leBytes 8 s.now)) := by
  obtain ⟨⟨qs, hqs⟩, hboost⟩ := State.foldl_endBoosts { s with power := { s.power with exceeded := true, below := s.clock.now } } (List.range 64)
  obtain ⟨rs, hrs⟩ := State.foldl_slowRegion_frame
    { s with power := { s.power with exceeded := true, below := s.clock.now }, quads := qs } (List.range 32)
  refine ⟨qs, rs, fun q hq => ?_, fun r hr hbound => ?_, ?_⟩
  · have hnone := hboost q (.inl (List.mem_range.mpr hq))
    rw [hqs] at hnone
    exact hnone
  · have hslow := State.foldl_slowRegion_bound
      { s with power := { s.power with exceeded := true, below := s.clock.now }, quads := qs } hr hbound
    rw [hrs] at hslow
    exact hslow
  · dsimp only [exec, execHardLimitExceeded]
    rw [hfirst, decide_eq_false (Nat.not_le.mpr hover), hqs]
    exact congrArg (fun t : State => Host.Outcome.next (t.signal 4 (leBytes 8 t.now))) hrs

theorem hardLimitRecovery_answers {s : State} {estimate : Nat} (hover : s.power.exceeded = true) (hlow : estimate < s.power.soft.toNat)
    (hlong : s.power.below + 100 * 1000 * 2 ^ 16 ≤ s.clock.now) :
    Answers (exec (.hardLimitRecovery estimate) s) (fun t => t = { s with power := { s.power with exceeded := false } }) := by
  refine ⟨_, rfl, ?_⟩
  simp only [hover, hlow, usFine_hundred, hlong, decide_true, Bool.and_self, if_true]

/-- The bytes that are left of a list of cells from a key on. -/
theorem getCell_filter_from (base : Nat) (l : List Host.Cell) (k : Nat) :
    getCell (l.filter (fun e => base ≤ e.1)) k = if k < base then 0 else getCell l k := by
  induction l with
  | nil => simp [getCell]
  | cons e l ih =>
    obtain ⟨a, b⟩ := e
    by_cases ha : base ≤ a
    · by_cases hk : k < base
      · have hne : a ≠ k := by omega
        have hlt : k < a := by omega
        simp [ha, hk, getCell, hne, hlt]
      · simp [ha, hk, getCell, ih]
    · by_cases hk : k < base
      · simp [ha, hk, ih]
      · have hne : a ≠ k := by omega
        have hlt : ¬ k < a := by omega
        simp [ha, hk, ih, getCell, hne, hlt]

/-- Without power the device's memory reads zero; host memory stands (log 4, 43). -/
theorem State.unpowered_byte (s : State) (k : Nat) : s.unpowered.mem.byte k = if k < hostBase then 0 else s.mem.byte k :=
  getCell_filter_from hostBase s.mem.cells k

theorem thermalCut_eq {s : State} {reason sensor : BitVec 8} (hon : s.powered = true) : exec (.thermalCut reason sensor) s =
    .next (State.unpowered { s with power := { s.power with
      reason := reason, sensor := sensor, count := satNat 16 (s.power.count.toNat + 1), thermTime := BitVec.ofNat 64 s.now } }) := by
  dsimp only [exec, execThermalCut]
  rw [hon]
  rfl

theorem packagePowerLoss_eq {s : State} (hon : s.powered = true) : exec .packagePowerLoss s = .next s.unpowered :=
  congrArg Host.Outcome.next (if_pos hon)

theorem packagePowerOn_answers {s : State} (hoff : s.powered = false) (hreason : s.power.reason ≠ 4) :
    Answers (exec .packagePowerOn s) (fun t => t = { s with powered := true }) := by
  refine ⟨_, rfl, if_neg ?_⟩
  rw [hoff]
  simpa using hreason

/-- Settles O43: the governor's rules one by one, then the hard limit and the package's power. -/
theorem powerAndClocks : Obligations.PowerAndClocks := by
  refine ⟨fun s => ⟨fun region currents est rails => powerSample_answers region currents est rails, powerPredicateClear_answers,
    fun hbound ⟨hsince, hchanged⟩ => ?_, fun k hglide => ?_⟩, fun s => ⟨fun estimate hover hfirst hup => ?_,
    fun estimate => hardLimitRecovery_answers, fun reason sensor hon => ?_, fun hon => ?_, packagePowerOn_answers⟩⟩
  -- the duty and the clock's step
  · have hdue : stepDue (s.regionAt s.cur.n).power s.clock.now = true :=
      Bool.and_eq_true_iff.mpr ⟨decide_eq_true hsince, decide_eq_true hchanged⟩
    refine ⟨fun hstream => freezeDutyStep_rises hbound hdue (decide_eq_false hstream),
      fun hstream => freezeDutyStep_falls hbound hdue (decide_eq_false hstream), fun href hsteady hpred hstep => ?_,
      fun href hsteady hpred hstep hhard => ?_⟩
    · obtain ⟨t, ht, rfl⟩ := clockStep_slows hbound hdue (decide_eq_true (not_not.mp href)) hsteady hpred hstep
      refine ⟨_, ht, ?_⟩
      rw [State.startGlide_eq, min_eq_left (Nat.le_succ _), max_eq_right (Nat.le_succ _)]
      rfl
    · obtain ⟨t, ht, rfl⟩ := clockStep_quickens hbound hdue (decide_eq_true (not_not.mp href)) hsteady hpred hstep hhard
      refine ⟨_, ht, ?_⟩
      rw [State.startGlide_eq, min_eq_right (Nat.sub_le _ _), max_eq_left (Nat.sub_le _ _)]
      rfl
  -- the end of a glide
  · obtain ⟨t, ht, cs, qs, a, rfl⟩ := clockGlideEnd_answers hglide
    have hregion : State.regionAt { s.glideEnded s.cur.n k with cores := cs, quads := qs, agenda := a } s.cur.n =
      (s.glideEnded s.cur.n k).regionAt s.cur.n := rfl
    refine ⟨_, ht, ?_, ?_, ?_, fun j hj => ?_, rfl, rfl⟩
    · rw [hregion, State.glideEnded, State.regionAt_setRegion_self]
    · rw [hregion, State.glideEnded, State.regionAt_setRegion_self]
      rfl
    · rw [hregion, State.glideEnded, State.regionAt_setRegion_self]
    · exact (State.regionAt_setRegion _ _ _ _).trans (if_neg (Ne.symm hj))
  -- the hard limit
  · obtain ⟨qs, rs, hboost, hslow, hexec⟩ := hardLimitExceeded_eq hover hfirst
    refine ⟨_, hexec, ?_⟩
    rw [State.signal, if_pos hup]
    refine ⟨rfl, hboost, rfl, rfl, rfl, fun r hr hbound => ⟨fun hstream => ?_, fun href => ?_⟩⟩
    · exact (hslow r hr hbound).1 (decide_eq_false hstream)
    · exact (hslow r hr hbound).2 (decide_eq_true href)
  -- power lost
  · refine ⟨_, thermalCut_eq hon, ⟨rfl, State.unpowered_byte _, rfl, rfl, rfl, rfl, rfl, rfl, rfl, rfl, rfl, rfl, rfl⟩, rfl, rfl, rfl, rfl⟩
  · exact ⟨_, packagePowerLoss_eq hon, ⟨rfl, State.unpowered_byte _, rfl, rfl, rfl, rfl, rfl, rfl, rfl, rfl, rfl, rfl, rfl⟩, rfl, rfl⟩

end Sys2Proof.Machine

/-! ## Regions: entering a state, ticks and their phase errors (02 R44, R45, 17 R348) -/

namespace Sys2Proof.Machine

/-- `g'` is `g` after a tick or a change of state: its binding, its frame and its gate stand, and it is bound if it was. -/
def SameFrame (g g' : Region) : Prop :=
  g'.bind = g.bind ∧ g'.pol = g.pol ∧ g'.frameNo = g.frameNo ∧ g'.frameCy = g.frameCy ∧ g'.gated = g.gated ∧
    (g'.st = .unbound ↔ g.st = .unbound)

theorem SameFrame.refl (g : Region) : SameFrame g g := ⟨rfl, rfl, rfl, rfl, rfl, Iff.rfl⟩

theorem SameFrame.trans {a b c : Region} : SameFrame a b → SameFrame b c → SameFrame a c :=
  fun ⟨h1, h2, h3, h4, h5, h6⟩ ⟨k1, k2, k3, k4, k5, k6⟩ =>
    ⟨k1.trans h1, k2.trans h2, k3.trans h3, k4.trans h4, k5.trans h5, k6.trans h6⟩

/-- `g'` is `g` as it enters a state: a pending policy has taken effect, and no tick counts yet (17 R355). -/
def Entered (g g' : Region) (st : RegionSt) : Prop :=
  g'.st = st ∧ g'.polNow = g.pol ∧ g'.ticksIn = 0 ∧ g'.frameNo = g.frameNo ∧ g'.frameCy = g.frameCy

theorem Entered.of_sameFrame {a b c : Region} {st : RegionSt} (hab : SameFrame a b) : Entered b c st → Entered a c st := by
  obtain ⟨-, hpol, hno, hcy, -, -⟩ := hab
  rintro ⟨h1, h2, h3, h4, h5⟩
  exact ⟨h1, h2.trans hpol, h3, h4.trans hno, h5.trans hcy⟩

/-- What a phase error within the guard, or beyond it, makes of a region (17 R348). -/
def Settled (g g' : Region) (within : Prop) [Decidable within] : Prop :=
  (g.st = .locked → within → g'.st = .locked) ∧ (g.st = .locked → ¬ within → Entered g g' .tracking) ∧
    (g.st = .tracking → g'.st = .tracking ∧ g'.ticksIn = if within then g.ticksIn + 1 else 0)

theorem Settled.congr {g g' : Region} {p q : Prop} [Decidable p] [Decidable q] (hpq : p ↔ q) (hset : Settled g g' p) : Settled g g' q := by
  obtain ⟨hin, hout, htrack⟩ := hset
  refine ⟨fun h hq => hin h (hpq.mpr hq), fun h hq => hout h (fun hp => hq (hpq.mp hp)), fun h => ?_⟩
  rw [← if_congr hpq rfl rfl]
  exact htrack h

theorem Settled.of_sameRun {a b c : Region} {within : Prop} [Decidable within] (hab : SameFrame a b) (hst : b.st = a.st)
    (hticks : b.ticksIn = a.ticksIn) (hset : Settled b c within) : Settled a c within := by
  obtain ⟨hin, hout, htrack⟩ := hset
  rw [hst] at hin hout htrack
  rw [hticks] at htrack
  exact ⟨hin, fun h hw => (hout h hw).of_sameFrame hab, htrack⟩

/-- The device time that a region has recorded for a tick (09 R244). -/
def tickIn (g : Region) (f k : Nat) : Option Nat := (g.ticks.find? (fun t => t.1 = f && t.2.1 = k)).map (fun t => t.2.2)

theorem tickIn_of_noted {g g' : Region} {t f k : Nat} (h : g'.ticks = (State.noteTick g t f k).ticks) : tickIn g' f k = some t := by
  have hnone : (g.ticks.filter (fun t => f ≤ t.1 + 2 && !(t.1 = f && t.2.1 = k))).find? (fun t => t.1 = f && t.2.1 = k) = none := by
    rw [List.find?_eq_none]
    intro x hx
    obtain ⟨-, hx⟩ := List.mem_filter.mp hx
    simp only [Bool.and_eq_true, Bool.not_eq_true', decide_eq_true_eq] at hx ⊢
    simpa using hx.2
  rw [tickIn, h, State.noteTick, List.find?_append, hnone]
  simp

namespace State

/-- `t` is `s` but for region `r`, which has become `g`. -/
def Becomes (s t : State) (r : Nat) (g : Region) : Prop :=
  (∃ rs, t = { s with regions := rs }) ∧ (∀ j ≠ r, t.regionAt j = s.regionAt j) ∧ t.regionAt r = g

theorem Becomes.refl (s : State) (r : Nat) : Becomes s s r (s.regionAt r) := ⟨⟨_, rfl⟩, fun _ _ => rfl, rfl⟩

theorem Becomes.trans {s t u : State} {r : Nat} {g g' : Region} : Becomes s t r g → Becomes t u r g' → Becomes s u r g' := by
  rintro ⟨⟨rs, rfl⟩, hother, -⟩ ⟨⟨qs, rfl⟩, hother', hself⟩
  exact ⟨⟨qs, rfl⟩, fun j hj => (hother' j hj).trans (hother j hj), hself⟩

theorem Becomes.onlyRegion {s t : State} {r : Nat} {g : Region} : Becomes s t r g → OnlyRegion r s t := by
  rintro ⟨⟨rs, rfl⟩, hother, -⟩
  exact ⟨rfl, rfl, hother⟩

theorem setRegion_becomes (s : State) (r : Nat) (g : Region) : Becomes s (s.setRegion r g) r g :=
  ⟨⟨_, rfl⟩, fun _ hj => (regionAt_setRegion _ _ _ _).trans (if_neg (Ne.symm hj)), regionAt_setRegion_self _ _ _⟩

theorem modRegion_becomes (s : State) (r : Nat) (f : Region → Region) : Becomes s (s.modRegion r f) r (f (s.regionAt r)) :=
  setRegion_becomes s r _

theorem Becomes.thenModRegion {s t : State} {r : Nat} {g : Region} (h : Becomes s t r g) (f : Region → Region) :
    Becomes s (t.modRegion r f) r (f g) := by
  obtain ⟨-, -, hself⟩ := id h
  exact hself ▸ h.trans (t.modRegion_becomes r f)

variable (s : State)

theorem tickTime_eq (r f k : Nat) : s.tickTime r f k = tickIn (s.regionAt r) f k := rfl

/-- A region enters a state; its clock runs on at the pace of that state. -/
theorem enter_becomes (r : Nat) (st : RegionSt) : ∃ p, Becomes s (s.enter r st) r
    { s.regionAt r with st := st, polNow := (s.regionAt r).pol, ticksIn := 0, pace := p } := by
  unfold enter
  dsimp only
  split
  · next c _ =>
    exact ⟨{ since := s.clock.now, cycle := (s.regionAt r).cycles, quick := c, slow := c },
      (s.modRegion_becomes r _).thenModRegion (fun g => { g with st := st, polNow := g.pol, ticksIn := 0 })⟩
  · exact ⟨(s.regionAt r).pace, s.modRegion_becomes r _⟩

/-- A tick's phase error changes its region alone, and there neither its frame, nor its ticks. -/
theorem settleTick_becomes (r : Nat) (within : Bool) : ∃ g', Becomes s (s.settleTick r within) r g' ∧
    SameFrame (s.regionAt r) g' ∧ g'.ticks = (s.regionAt r).ticks ∧ g'.awaited = (s.regionAt r).awaited ∧
    Settled (s.regionAt r) g' (within = true) ∧ ((s.regionAt r).st ≠ .locked → g'.st = (s.regionAt r).st) := by
  set g := s.regionAt r with hg
  set u := s.modRegion r (fun g => { g with inGuard := if within then some s.clock.now else none }) with hu
  have hfirst : Becomes s u r { g with inGuard := if within then some s.clock.now else none } := s.modRegion_becomes r _
  obtain ⟨-, -, hself⟩ := id hfirst
  have heq : s.settleTick r within = match (u.regionAt r).st with
    | .locked => if within then u else u.enter r .tracking
    | .tracking => u.modRegion r (fun g => { g with ticksIn := if within then g.ticksIn + 1 else 0 })
    | _ => u := rfl
  rw [heq, hself]
  dsimp only
  split
  · next hst =>
    have hnot : g.st = .tracking → False := fun h => by rw [hst] at h; cases h
    cases within with
    | true => exact ⟨_, hfirst, .refl _, rfl, rfl, ⟨fun _ _ => hst, fun _ h => absurd rfl h, fun h => (hnot h).elim⟩, fun h => absurd hst h⟩
    | false =>
      obtain ⟨p, hp⟩ := u.enter_becomes r .tracking
      rw [hself] at hp
      refine ⟨_, hfirst.trans hp, ⟨rfl, rfl, rfl, rfl, rfl, ?_⟩, rfl, rfl,
        ⟨fun _ h => Bool.noConfusion h, fun _ _ => ⟨rfl, rfl, rfl, rfl, rfl⟩, fun h => (hnot h).elim⟩, fun h => absurd hst h⟩
      rw [hst]
      exact iff_of_false (fun h => nomatch h) (fun h => nomatch h)
  · next hst =>
    have hnot : g.st = .locked → False := fun h => by rw [hst] at h; cases h
    exact ⟨_, hfirst.thenModRegion (fun g => { g with ticksIn := if within then g.ticksIn + 1 else 0 }), .refl _, rfl, rfl,
      ⟨fun h => (hnot h).elim, fun h => (hnot h).elim, fun _ => ⟨hst, rfl⟩⟩, fun _ => rfl⟩
  · next hl ht =>
    exact ⟨_, hfirst, .refl _, rfl, rfl, ⟨fun h => absurd h hl, fun h => absurd h hl, fun h => absurd h ht⟩, fun _ => rfl⟩

/-- The clock that a loop asks for decides between TRACKING and CEILING alone (17 R348). -/
theorem askClock_becomes (r ask : Nat) : ∃ g', Becomes s (s.askClock r ask) r g' ∧
    SameFrame (s.regionAt r) g' ∧ g'.ticks = (s.regionAt r).ticks ∧
    ((s.regionAt r).st = .tracking → 200000 < ask → Entered (s.regionAt r) g' .ceiling) ∧
    ((s.regionAt r).st = .ceiling → ask * 1000 ≤ 200000 * 999 → Entered (s.regionAt r) g' .tracking) ∧
    ((s.regionAt r).st ≠ .ceiling → ask ≤ 200000 → g' = s.regionAt r) ∧
    ((s.regionAt r).st ≠ .tracking → 200000 * 999 < ask * 1000 → g' = s.regionAt r) := by
  set g := s.regionAt r with hg
  have hsame : Becomes s s r g := .refl s r
  have hentered (st : RegionSt) (hst : g.st ≠ .unbound) (hst' : st ≠ .unbound) : ∃ g', Becomes s (s.enter r st) r g' ∧ SameFrame g g' ∧
      g'.ticks = g.ticks ∧ Entered g g' st := by
    obtain ⟨p, hp⟩ := s.enter_becomes r st
    exact ⟨_, hp, ⟨rfl, rfl, rfl, rfl, rfl, iff_of_false hst' hst⟩, rfl, rfl, rfl, rfl, rfl, rfl⟩
  unfold askClock
  split
  · next hst =>
    have hst : g.st = .tracking := hst
    have hnot : g.st = .ceiling → False := fun h => by rw [hst] at h; cases h
    have hbound : g.st ≠ .unbound := fun h => by rw [hst] at h; cases h
    split
    · next hask =>
      obtain ⟨g', hg', hframe, hticks, hent⟩ := hentered .ceiling hbound (fun h => nomatch h)
      exact ⟨g', hg', hframe, hticks, fun _ _ => hent, fun h => (hnot h).elim, fun _ h => absurd hask (Nat.not_lt.mpr h),
        fun h => absurd hst h⟩
    · next hask => exact ⟨g, hsame, .refl g, rfl, fun _ h => absurd h hask, fun h => (hnot h).elim, fun _ _ => rfl, fun _ _ => rfl⟩
  · next hst =>
    have hst : g.st = .ceiling := hst
    have hnot : g.st = .tracking → False := fun h => by rw [hst] at h; cases h
    have hbound : g.st ≠ .unbound := fun h => by rw [hst] at h; cases h
    split
    · next hask =>
      obtain ⟨g', hg', hframe, hticks, hent⟩ := hentered .tracking hbound (fun h => nomatch h)
      exact ⟨g', hg', hframe, hticks, fun h => (hnot h).elim, fun _ _ => hent, fun h => absurd hst h,
        fun _ h => absurd hask (Nat.not_le.mpr h)⟩
    · next hask => exact ⟨g, hsame, .refl g, rfl, fun h => (hnot h).elim, fun _ h => absurd h hask, fun _ _ => rfl, fun _ _ => rfl⟩
  · next ht hc => exact ⟨g, hsame, .refl g, rfl, fun h => absurd h ht, fun h => absurd h hc, fun _ _ => rfl, fun _ _ => rfl⟩

end State
end Sys2Proof.Machine

/-! ## Stamps of crossing words (21 R414) -/

namespace Sys2Proof.Machine

/-- `b` is the core `a` but for the stamps of its words in flight. -/
def StampsMove (a b : Core) : Prop :=
  b = { a with cu := { a.cu with flights := b.cu.flights } } ∧
    b.cu.flights.map (fun f => { f with stamp := 0 }) = a.cu.flights.map (fun f => { f with stamp := 0 })

theorem StampsMove.refl (a : Core) : StampsMove a a := ⟨rfl, rfl⟩

theorem StampsMove.trans {a b c : Core} : StampsMove a b → StampsMove b c → StampsMove a c := by
  rintro ⟨hab, hstamps⟩ ⟨hbc, hstamps'⟩
  refine ⟨?_, hstamps'.trans hstamps⟩
  rw [hbc, hab]

/-- New stamps for the words that a test picks. -/
theorem StampsMove.of_map (a : Core) (p : Flight → Bool) (t : Nat) :
    StampsMove a { a with cu := { a.cu with flights := a.cu.flights.map (fun w => if p w then { w with stamp := t } else w) } } := by
  refine ⟨rfl, ?_⟩
  rw [List.map_map]
  refine List.map_congr_left (fun w _ => ?_)
  dsimp only [Function.comp]
  split <;> rfl

namespace State

/-- `t` is `s` but for regions, the samples of crossings, the free counter, and in the cores the stamps of words in flight. -/
def OnlyStamps (s t : State) : Prop :=
  (∃ rs cs xs n, t = { s with regions := rs, cores := cs, crossings := xs, freeCtr := n }) ∧ ∀ c, StampsMove (s.coreAt c) (t.coreAt c)

theorem OnlyStamps.refl (s : State) : OnlyStamps s s := ⟨⟨_, _, _, _, rfl⟩, fun _ => .refl _⟩

theorem OnlyStamps.trans {s t u : State} : OnlyStamps s t → OnlyStamps t u → OnlyStamps s u := by
  rintro ⟨⟨_, _, _, _, rfl⟩, hcores⟩ ⟨⟨rs, cs, xs, n, rfl⟩, hcores'⟩
  exact ⟨⟨rs, cs, xs, n, rfl⟩, fun c => (hcores c).trans (hcores' c)⟩

theorem Becomes.onlyStamps {s t : State} {r : Nat} {g : Region} : Becomes s t r g → OnlyStamps s t := by
  rintro ⟨⟨rs, rfl⟩, -⟩
  exact ⟨⟨rs, _, _, _, rfl⟩, fun _ => .refl _⟩

theorem foldl_onlyStamps {α : Type} {step : State → α → State} (hstep : ∀ u a, OnlyStamps u (step u a)) (l : List α) (s : State) :
    OnlyStamps s (l.foldl step s) :=
  List.foldlRecOn l step (motive := OnlyStamps s) (.refl s) (fun u hu a _ => hu.trans (hstep u a))

variable (s : State)

/-- New stamps for the words in flight of one core. -/
theorem modCore_onlyStamps (c : Nat) (p : Flight → Bool) (t : Nat) : OnlyStamps s (s.modCore c (fun q => { q with cu := { q.cu with
    flights := q.cu.flights.map (fun w => if p w then { w with stamp := t } else w) } })) := by
  refine ⟨⟨_, _, _, _, rfl⟩, fun j => ?_⟩
  rw [coreAt_modCore]
  split
  · next h => exact h ▸ .of_map _ p t
  · exact .refl _

/-- New stamps, core by core. -/
theorem foldl_modCore_stamps (p : State → Nat → Flight → Bool) (t : Nat) (l : List Nat) :
    let u := l.foldl (fun s c => s.modCore c (fun q => { q with cu := { q.cu with
      flights := q.cu.flights.map (fun w => if p s c w then { w with stamp := t } else w) } })) s
    OnlyStamps s u ∧ u.clock = s.clock ∧ u.sources = s.sources ∧ u.regions = s.regions :=
  List.foldlRecOn l _ (motive := fun u : State => OnlyStamps s u ∧ u.clock = s.clock ∧ u.sources = s.sources ∧ u.regions = s.regions)
    ⟨.refl s, rfl, rfl, rfl⟩ (fun u ⟨hu, hkept⟩ c _ => ⟨hu.trans (u.modCore_onlyStamps c (p u c) t), hkept⟩)

/-- A tick takes its device time, and with it the words that named it: of regions and cores, those only. -/
theorem retime_frame (r f k t : Nat) : OnlyStamps s (s.retime r f k t) ∧ OnlyRegion r s (s.retime r f k t) ∧
    (s.retime r f k t).regionAt r = noteTick (s.regionAt r) t f k := by
  have hnote := s.modRegion_becomes r (fun g => noteTick g t f k)
  obtain ⟨-, -, hself⟩ := id hnote
  unfold retime
  split
  · exact ⟨hnote.onlyStamps, hnote.onlyRegion, hself⟩
  · next old _ =>
    dsimp only
    generalize hfold : List.foldl _ _ _ = u
    obtain ⟨hstamps, hclock, hsources, hregions⟩ := hfold ▸ foldl_modCore_stamps (s.modRegion r (fun g => noteTick g t f k)) _ t _
    obtain ⟨-, -, hother⟩ := hnote.onlyRegion
    have hregion (j : Nat) : u.regionAt j = (s.modRegion r (fun g => noteTick g t f k)).regionAt j := by rw [regionAt, hregions, regionAt]
    refine ⟨hnote.onlyStamps.trans (hstamps.trans ⟨⟨_, _, _, _, rfl⟩, fun _ => .refl _⟩),
      ⟨hclock, hsources, fun j hj => (hregion j).trans (hother j hj)⟩, (hregion r).trans hself⟩

end State
end Sys2Proof.Machine

/-! ## A tick of a source is judged by one region (02 R45, 17 R348, 21 R414) -/

namespace Sys2Proof.Machine

/-- The cycle that a region has begun while it awaited a tick, with its start. -/
def awaitedAt (g : Region) (f k : Nat) : Option (Nat × Nat × Nat) := g.awaited.find? (fun a => a.1 = f && a.2.1 = k)

/-- What a tick, at device time `t`, makes of a region before its loop asks for a clock. -/
def Met (g g' : Region) (f k t guard : Nat) : Prop :=
  SameFrame g g' ∧ (g.st ≠ .locked → g'.st = g.st) ∧
    (awaitedAt g f k = none → g'.st = g.st ∧ g'.ticksIn = g.ticksIn ∧
      (tickIn g f k = none → ¬ (State.maySkip g = true ∧ g.frameNo.toNat < f) → tickIn g' f k = some t)) ∧
    ∀ a, awaitedAt g f k = some a → Settled g g' (t - a.2.2 ≤ guard) ∧ (t - a.2.2 ≤ guard → tickIn g' f k = some t)

/-- What a tick, at device time `t`, makes of a region whose clock follows it and whose loop asks for a clock. -/
def Judged (g g' : Region) (f k t ask guard : Nat) : Prop :=
  (awaitedAt g f k = none → tickIn g f k = none → ¬ (State.maySkip g = true ∧ g.frameNo.toNat < f) → tickIn g' f k = some t) ∧
    (g.st = .tracking → 200000 < ask → Entered g g' .ceiling) ∧ (g.st = .ceiling → ask * 1000 ≤ 200000 * 999 → Entered g g' .tracking) ∧
    (g.st = .ceiling → 200000 * 999 < ask * 1000 → g'.st = .ceiling) ∧
    (awaitedAt g f k = none → ask ≤ 200000 → (g.st = .locked ∨ g.st = .tracking) → g'.st = g.st ∧ g'.ticksIn = g.ticksIn) ∧
    ∀ a, awaitedAt g f k = some a → ask ≤ 200000 → Settled g g' (t - a.2.2 ≤ guard) ∧ (t - a.2.2 ≤ guard → tickIn g' f k = some t)

namespace State

variable (s : State)

/-- A tick answers the cycle that awaited it; within the guard the cycle's tick has its time. -/
def answer (r f k t : Nat) (within : Bool) : State :=
  let s := s.modRegion r (fun g => { g with awaited := g.awaited.filter (fun a => !(a.1 = f && a.2.1 = k)) })
  if within then s.retime r f k t else s

/-- The phase error of a tick whose cycle has begun, or the tick's time where it has not. -/
def meet (g : Region) (r f k t : Nat) (hit : Option (Nat × Nat × Nat)) (within : Bool) : State :=
  if hit.isSome then s.settleTick r within
  else if (s.tickTime r f k).isSome || (maySkip g && g.frameNo.toNat < f) then s
  else s.modRegion r (fun g => noteTick g t f k)

theorem judge_eq (r k t err ask : Nat) :
    let g := s.regionAt r
    let f := k / bindD g.bind
    let n := k % bindD g.bind
    let within := (awaitedAt g f n).any (fun a => t - a.2.2 ≤ s.guardFine r)
    let u := s.answer r f n t within
    s.judge r k t err ask =
      if g.gated then u.modRegion r (fun g => { g with
        inGuard := if err ≤ srcGuard (u.sourceAt (u.regionSource r)).cfg then some u.clock.now else none })
      else if ownClock g then u
      else (u.meet g r f n t (awaitedAt g f n) within).askClock r ask := by
  dsimp only
  rw [judge]
  dsimp only
  cases h : awaitedAt (s.regionAt r) (k / bindD (s.regionAt r).bind) (k % bindD (s.regionAt r).bind) <;>
  · rw [awaitedAt] at h
    rw [h]
    rfl

theorem answer_frame (r f k t : Nat) (within : Bool) : OnlyStamps s (s.answer r f k t within) ∧ OnlyRegion r s (s.answer r f k t within) ∧
    SameFrame (s.regionAt r) ((s.answer r f k t within).regionAt r) ∧
    ((s.answer r f k t within).regionAt r).st = (s.regionAt r).st ∧
    ((s.answer r f k t within).regionAt r).ticksIn = (s.regionAt r).ticksIn ∧
    (within = true → tickIn ((s.answer r f k t within).regionAt r) f k = some t) ∧
    (within = false → ((s.answer r f k t within).regionAt r).ticks = (s.regionAt r).ticks) := by
  have hfirst := s.modRegion_becomes r (fun g => { g with awaited := g.awaited.filter (fun a => !(a.1 = f && a.2.1 = k)) })
  obtain ⟨-, -, hself⟩ := id hfirst
  cases within with
  | false =>
    refine ⟨hfirst.onlyStamps, hfirst.onlyRegion, ?_, ?_, ?_, fun h => Bool.noConfusion h, fun _ => ?_⟩
    all_goals simp only [answer, Bool.false_eq_true, if_false, hself]
    exact .refl (s.regionAt r)
  | true =>
    obtain ⟨hstamps, honly, hregion⟩ := retime_frame
      (s.modRegion r (fun g => { g with awaited := g.awaited.filter (fun a => !(a.1 = f && a.2.1 = k)) })) r f k t
    refine ⟨hfirst.onlyStamps.trans hstamps, hfirst.onlyRegion.trans honly, ?_, ?_, ?_, fun _ => ?_, fun h => Bool.noConfusion h⟩
    all_goals simp only [answer, if_true, hregion, hself]
    · exact .refl (s.regionAt r)
    · rfl
    · rfl
    · exact tickIn_of_noted rfl

theorem meet_becomes {g : Region} {r f k t guard : Nat} {u : State} {within : Bool}
    (hwithin : within = (awaitedAt g f k).any (fun a => t - a.2.2 ≤ guard))
    (hframe : SameFrame g (u.regionAt r)) (hst : (u.regionAt r).st = g.st) (hticksIn : (u.regionAt r).ticksIn = g.ticksIn)
    (hnoted : within = true → tickIn (u.regionAt r) f k = some t) (hticks : within = false → (u.regionAt r).ticks = g.ticks) :
    ∃ g', Becomes u (u.meet g r f k t (awaitedAt g f k) within) r g' ∧ Met g g' f k t guard := by
  cases hhit : awaitedAt g f k with
  | some a =>
    rw [hhit, Option.any_some] at hwithin
    obtain ⟨g', hg', hframe', hticks', -, hset, hkept⟩ := u.settleTick_becomes r within
    refine ⟨g', hg', hframe.trans hframe', fun h => (hkept (hst ▸ h)).trans hst, fun h => ?_, fun b hb => ?_⟩
    · exact absurd (hhit.symm.trans h) (Option.some_ne_none a)
    cases hhit.symm.trans hb
    have hiff : within = true ↔ t - a.2.2 ≤ guard := by rw [hwithin, decide_eq_true_iff]
    refine ⟨(hset.of_sameRun hframe hst hticksIn).congr hiff, fun h => ?_⟩
    rw [tickIn, hticks']
    exact hnoted (hiff.mpr h)
  | none =>
    rw [hhit, Option.any_none] at hwithin
    have hsome (a) (h : awaitedAt g f k = some a) : False := Option.some_ne_none a (h.symm.trans hhit)
    have hcome : u.tickTime r f k = tickIn g f k := by rw [tickTime_eq, tickIn, tickIn, hticks hwithin]
    have hmeet : u.meet g r f k t none within =
        if (tickIn g f k).isSome || (maySkip g && g.frameNo.toNat < f) then u else u.modRegion r (fun g => noteTick g t f k) := by
      rw [← hcome]
      rfl
    rw [hmeet]
    split
    · next hno =>
      refine ⟨_, .refl u r, hframe, fun _ => hst, fun _ => ⟨hst, hticksIn, fun hnone hskip => ?_⟩, fun a h => (hsome a h).elim⟩
      simp only [hnone, Option.isSome_none, Bool.false_or, Bool.and_eq_true, decide_eq_true_eq] at hno
      exact absurd hno hskip
    · refine ⟨_, u.modRegion_becomes r _, hframe, fun _ => hst, fun _ => ⟨hst, hticksIn, fun _ _ => tickIn_of_noted rfl⟩,
        fun a h => (hsome a h).elim⟩

/-- The clock that the loop asks for, after a tick. -/
theorem askClock_judged {g : Region} {r f k t guard : Nat} {u : State} (hmet : Met g (u.regionAt r) f k t guard) (ask : Nat) :
    ∃ g', Becomes u (u.askClock r ask) r g' ∧ SameFrame g g' ∧ Judged g g' f k t ask guard := by
  obtain ⟨hframe, hkept, hmiss, hhit⟩ := hmet
  obtain ⟨g', hg', hframe', hticks, hceil, htrack, hlow, hhigh⟩ := u.askClock_becomes r ask
  have hsame (h : (u.regionAt r).st = .locked ∨ (u.regionAt r).st = .tracking) (hask : ask ≤ 200000) : g' = u.regionAt r :=
    hlow (by rcases h with h | h <;> · rw [h]; exact RegionSt.noConfusion) hask
  have htick : tickIn g' f k = tickIn (u.regionAt r) f k := by rw [tickIn, hticks, tickIn]
  refine ⟨g', hg', hframe.trans hframe', fun hnone => ?_, fun h hask => ?_, fun h hask => ?_, fun h hask => ?_, fun hnone hask h => ?_,
    fun a ha hask => ?_⟩
  · obtain ⟨-, -, hnoted⟩ := hmiss hnone
    exact htick ▸ hnoted
  · exact (hceil ((hkept (h ▸ RegionSt.noConfusion)).trans h) hask).of_sameFrame hframe
  · exact (htrack ((hkept (h ▸ RegionSt.noConfusion)).trans h) hask).of_sameFrame hframe
  · have hst : (u.regionAt r).st = .ceiling := (hkept (h ▸ RegionSt.noConfusion)).trans h
    rw [hhigh (hst ▸ RegionSt.noConfusion) hask, hst]
  · obtain ⟨hst, hin, -⟩ := hmiss hnone
    rw [hsame (hst ▸ h) hask]
    exact ⟨hst, hin⟩
  · obtain ⟨⟨hin, hout, htr⟩, hnoted⟩ := hhit a ha
    refine ⟨⟨fun h hin' => ?_, fun h hout' => ?_, fun h => ?_⟩, htick ▸ hnoted⟩
    · rw [hsame (.inl (hin h hin')) hask]
      exact hin h hin'
    · obtain ⟨hst, -⟩ := id (hout h hout')
      rw [hsame (.inr hst) hask]
      exact hout h hout'
    · obtain ⟨hst, hcount⟩ := htr h
      rw [hsame (.inr hst) hask]
      exact ⟨hst, hcount⟩

end State

/-- What tick `k` of its source, at device time `t`, makes of a bound region `g`: gated, on a clock of its own, or on its source's. -/
def Heard (g g' : Region) (k t err ask guard now : Nat) : Prop :=
  SameFrame g g' ∧
    (g.gated = true → g'.st = g.st ∧ g'.ticksIn = g.ticksIn ∧ g'.inGuard = if err ≤ guard then some now else none) ∧
    (g.gated = false → State.ownClock g = true → g'.st = g.st ∧ g'.ticksIn = g.ticksIn) ∧
    (g.gated = false → State.ownClock g = false → Judged g g' (k / bindD g.bind) (k % bindD g.bind) t ask (guard * 65536))

namespace State

variable (s : State)

/-- A region's judgement of a tick changes that region alone, and of the cores the stamps that the tick corrects. -/
theorem judge_frame (r k t err ask : Nat) : OnlyStamps s (s.judge r k t err ask) ∧ OnlyRegion r s (s.judge r k t err ask) ∧
    Heard (s.regionAt r) ((s.judge r k t err ask).regionAt r) k t err ask (srcGuard (s.sourceAt (s.regionSource r)).cfg) s.clock.now := by
  rw [judge_eq]
  set g := s.regionAt r with hg
  generalize hwithin : (awaitedAt g (k / bindD g.bind) (k % bindD g.bind)).any _ = within
  obtain ⟨hstamps, honly, hframe, hst, hin, hnoted, hticks⟩ := s.answer_frame r (k / bindD g.bind) (k % bindD g.bind) t within
  set u := s.answer r (k / bindD g.bind) (k % bindD g.bind) t within with hu
  obtain ⟨hclock, hsources, -⟩ := id honly
  obtain ⟨hbind, -⟩ := id hframe
  have hsource : u.sourceAt (u.regionSource r) = s.sourceAt (s.regionSource r) := by
    rw [sourceAt, hsources, regionSource, hbind]
    rfl
  split
  · next hgated =>
    have hlast := u.modRegion_becomes r (fun g => { g with
      inGuard := if err ≤ srcGuard (u.sourceAt (u.regionSource r)).cfg then some u.clock.now else none })
    obtain ⟨-, -, hself⟩ := id hlast
    refine ⟨hstamps.trans hlast.onlyStamps, honly.trans hlast.onlyRegion, ?_⟩
    rw [hself, hsource, hclock]
    exact ⟨hframe, fun _ => ⟨hst, hin, rfl⟩, fun _ _ => ⟨hst, hin⟩, fun h => absurd (hgated.symm.trans h) (by decide)⟩
  · next hopen =>
    split
    · next hown =>
      exact ⟨hstamps, honly, hframe, fun h => absurd h hopen, fun _ _ => ⟨hst, hin⟩, fun _ h => absurd (hown.symm.trans h) (by decide)⟩
    · next hfollow =>
      obtain ⟨g2, hmeet, hmet⟩ := meet_becomes (u := u) hwithin.symm hframe hst hin hnoted hticks
      obtain ⟨-, -, hmid⟩ := id hmeet
      obtain ⟨g3, hask, hframe3, hjudged⟩ := askClock_judged (r := r) (hmid ▸ hmet) ask
      obtain ⟨-, -, hself⟩ := id hask
      refine ⟨hstamps.trans (hmeet.onlyStamps.trans hask.onlyStamps), honly.trans (hmeet.onlyRegion.trans hask.onlyRegion), ?_⟩
      rw [hself]
      exact ⟨hframe3, fun h => absurd h hopen, fun _ h => absurd h hfollow, fun _ _ => hjudged⟩

end State
end Sys2Proof.Machine

/-! ## Ticks of a source (02 R41, R45) -/

namespace Sys2Proof.Machine

/-- A source whose setting, period and presence are those of another. -/
def SameSetting (v w : Source) : Prop := w.cfg = v.cfg ∧ w.period = v.period ∧ w.missing = v.missing

theorem SameSetting.refl (v : Source) : SameSetting v v := ⟨rfl, rfl, rfl⟩

theorem SameSetting.arriving {v w : Source} (h : SameSetting v w) (c : Bool) (now : Nat) : SameSetting v (if c then arrives w now else w) := by
  cases c <;> exact h

theorem SameSetting.counted {v w : Source} (h : SameSetting v w) (k : Nat) (t : Option Nat) :
    SameSetting v { w with index := k, tickAt := t } := h

/-- Beside its index and its arrivals a source stands as it was when a tick has been counted. -/
theorem countTick_self (s : State) (i : Nat) : SameSetting (s.sourceAt i) ((s.countTick i).sourceAt i) ∧
    ((s.sourceAt i).tickAt = some s.clock.now → (s.countTick i).sourceAt i = s.sourceAt i) ∧
    ((s.sourceAt i).tickAt ≠ some s.clock.now →
      ((s.countTick i).sourceAt i).index = tickIndex (s.sourceAt i) s.clock.now ∧ ((s.countTick i).sourceAt i).tickAt = some s.clock.now) := by
  rw [State.countTick, State.sourceAt_modSource_self]
  split
  · next h => exact ⟨.refl _, fun _ => rfl, fun hne => absurd h hne⟩
  · next h =>
    refine ⟨(SameSetting.arriving ?_ _ _).counted _ _, fun he => absurd he h, fun _ => ⟨rfl, rfl⟩⟩
    split
    · split
      · exact ⟨rfl, rfl, rfl⟩
      · exact .refl _
    · exact .refl _

theorem countTick_other (s : State) {i j : Nat} (hj : j ≠ i) : (s.countTick i).sourceAt j = s.sourceAt j :=
  (State.sourceAt_modSource _ _ _ _).trans (if_neg (Ne.symm hj))

theorem countTick_frame (s : State) (i : Nat) : s.countTick i = { s with sources := (s.countTick i).sources } := rfl

/-- A missing source only counts its ticks. -/
theorem sourceTick_missing {s : State} {region : BitVec 5} {err ask : Nat} (hbound : s.bound region.toNat = true)
    (hmissing : (s.sourceAt (s.regionSource region.toNat)).missing = true) :
    exec (.sourceTick region err ask) s = .next (s.countTick (s.regionSource region.toNat)) := by
  obtain ⟨⟨-, -, hm⟩, -⟩ := countTick_self s (s.regionSource region.toNat)
  dsimp only [exec, execSourceTick]
  rw [if_pos hbound, hm, hmissing]
  rfl

/-- Its tick as one of a source's regions hears it: the measure of the region named is the event's, that of another is free, and its loop
asks for its own multiple of the tick rate (log 14). -/
def State.hear (r index t err ask : Nat) (bind : BitVec 64) (s : State) (k : Nat) : State :=
  if k = r then s.judge r index t err ask
  else
    let h := (s.regionAt k).bind
    (s.judge k index t (Config.freeBits s.freeCtr 32).toNat (ask * bindN h * bindD bind / (bindD h * bindN bind))).fresh

/-- The regions that wait for the frame boundary that tick `index` begins, and their resumes. -/
def State.resumes (s : State) (l : List Nat) (index : Nat) : List Move :=
  (l.filter (fun k => (s.regionAt k).gated && index % bindD (s.regionAt k).bind = 0)).map (fun k =>
    Move.event {} (.realignResume (BitVec.ofNat 5 k) (BitVec.ofNat 64 (index / bindD (s.regionAt k).bind))))

/-- The tick of source `i`, its index `k` and time `t`, counted and heard. -/
def State.heardTick (s : State) (r i k t err ask : Nat) : State :=
  (s.boundTo i).foldl (State.hear r k t err ask (s.regionAt r).bind) (s.countTick i)

theorem sourceTick_seen {s : State} {region : BitVec 5} {err ask : Nat} (hbound : s.bound region.toNat = true)
    (hthere : (s.sourceAt (s.regionSource region.toNat)).missing = false)
    (hseen : (s.sourceAt (s.regionSource region.toNat)).tickAt = some s.clock.now) :
    let u := s.countTick (s.regionSource region.toNat)
    let v := u.sourceAt (s.regionSource region.toNat)
    exec (.sourceTick region err ask) s = .next (u.judge region.toNat v.index ((State.exactTick v v.index).getD s.clock.now) err ask) := by
  obtain ⟨⟨-, -, hm⟩, -⟩ := countTick_self s (s.regionSource region.toNat)
  have hb : (s.countTick (s.regionSource region.toNat)).bound region.toNat = true := hbound
  dsimp only [exec, execSourceTick]
  simp only [hbound, if_true, hm, hthere, hseen, hb, Bool.not_true, Bool.or_false, Bool.false_eq_true, if_false]
  rfl

theorem sourceTick_new {s : State} {region : BitVec 5} {err ask : Nat} (hbound : s.bound region.toNat = true)
    (hthere : (s.sourceAt (s.regionSource region.toNat)).missing = false)
    (hnew : (s.sourceAt (s.regionSource region.toNat)).tickAt ≠ some s.clock.now) :
    let i := s.regionSource region.toNat
    let u := s.countTick i
    let v := u.sourceAt i
    let w := s.heardTick region.toNat i v.index ((State.exactTick v v.index).getD s.clock.now) err ask
    exec (.sourceTick region err ask) s = .next { w with agenda := w.resumes (w.boundTo i) v.index ++ w.agenda } := by
  obtain ⟨⟨-, -, hm⟩, -⟩ := countTick_self s (s.regionSource region.toNat)
  have hb : (s.countTick (s.regionSource region.toNat)).bound region.toNat = true := hbound
  dsimp only [exec, execSourceTick]
  simp only [hbound, if_true, hm, hthere, hnew, hb, Bool.not_true, Bool.or_false, Bool.false_eq_true, if_false]
  rfl

/-- The clock that the loop of a region asks for at a tick of which another region of the same source is named (log 14). -/
def askOf (named ask : Nat) (bind : BitVec 64) (k : Nat) (h : BitVec 64) : Nat :=
  if k = named then ask else ask * bindN h * bindD bind / (bindD h * bindN bind)

namespace State

variable (s : State)

theorem hear_frame (r index t err ask : Nat) (bind : BitVec 64) (k : Nat) :
    OnlyStamps s (hear r index t err ask bind s k) ∧ OnlyRegion k s (hear r index t err ask bind s k) ∧
    ∃ e, (k = r → e = err) ∧ Heard (s.regionAt k) ((hear r index t err ask bind s k).regionAt k) index t e
      (askOf r ask bind k (s.regionAt k).bind) (srcGuard (s.sourceAt (s.regionSource k)).cfg) s.clock.now := by
  rw [hear, askOf]
  split
  · obtain ⟨hstamps, honly, hheard⟩ := s.judge_frame k index t err ask
    subst k
    exact ⟨hstamps, honly, err, fun _ => rfl, hheard⟩
  · next hne =>
    obtain ⟨hstamps, honly, hheard⟩ := s.judge_frame k index t (Config.freeBits s.freeCtr 32).toNat
      (ask * bindN (s.regionAt k).bind * bindD bind / (bindD (s.regionAt k).bind * bindN bind))
    exact ⟨hstamps.trans ⟨⟨_, _, _, _, rfl⟩, fun _ => .refl _⟩, honly, _, fun h => absurd h hne, hheard⟩

theorem boundTo_nodup (i : Nat) : (s.boundTo i).Nodup := List.nodup_range.filter _

theorem mem_boundTo {i r : Nat} : r ∈ s.boundTo i ↔ r < 32 ∧ s.bound r = true ∧ bindSource (s.regionAt r).bind = i := by
  rw [boundTo, List.mem_filter, List.mem_range, Bool.and_eq_true, decide_eq_true_eq]
  rfl

/-- Regions that keep their frames wait for the same frame boundaries, and are bound to the same sources. -/
theorem resumes_boundTo_congr {s t : State} (h : ∀ j, SameFrame (s.regionAt j) (t.regionAt j)) (i k : Nat) :
    t.resumes (t.boundTo i) k = s.resumes (s.boundTo i) k := by
  have hbind (j : Nat) : (t.regionAt j).bind = (s.regionAt j).bind := (h j).1
  have hgated (j : Nat) : (t.regionAt j).gated = (s.regionAt j).gated := by
    obtain ⟨-, -, -, -, hg, -⟩ := h j
    exact hg
  have hbound (j : Nat) : t.bound j = s.bound j := by
    obtain ⟨-, -, -, -, -, hu⟩ := h j
    rw [bound, bound, Bool.eq_iff_iff, decide_eq_true_iff, decide_eq_true_iff, ne_eq, ne_eq, hu]
  simp only [resumes, boundTo, regionSource, hbind, hgated, hbound]
  rfl

/-- A tick of a source as its regions hear it. -/
theorem heardTick_frame (r i index t err ask : Nat) :
    let w := s.heardTick r i index t err ask
    OnlyStamps (s.countTick i) w ∧ w.sources = (s.countTick i).sources ∧ (∀ j, j ∉ s.boundTo i → w.regionAt j = s.regionAt j) ∧
    ∀ j ∈ s.boundTo i, ∃ e, (j = r → e = err) ∧ Heard (s.regionAt j) (w.regionAt j) index t e
      (askOf r ask (s.regionAt r).bind j (s.regionAt j).bind) (srcGuard (s.sourceAt i).cfg) s.clock.now := by
  set bind := (s.regionAt r).bind
  set u := s.countTick i
  have honly (v : State) (k : Nat) : OnlyRegion k v (hear r index t err ask bind v k) := (v.hear_frame r index t err ask bind k).2.1
  obtain ⟨-, hsources, hout, hin⟩ := foldl_onlyRegion honly (s.boundTo_nodup i) u
  refine ⟨foldl_onlyStamps (fun v k => (v.hear_frame r index t err ask bind k).1) _ u, hsources, hout, fun j hj => ?_⟩
  obtain ⟨x, hxclock, hxsources, hxregion, hfin⟩ := hin j hj
  obtain ⟨-, -, e, he, hheard⟩ := x.hear_frame r index t err ask bind j
  obtain ⟨-, -, hsource⟩ := s.mem_boundTo.mp hj
  have hxsource : (x.sourceAt (x.regionSource j)).cfg = (s.sourceAt i).cfg := by
    rw [sourceAt, hxsources, regionSource, hxregion]
    obtain ⟨⟨hcfg, -⟩, -⟩ := countTick_self s i
    have hi : bindSource (u.regionAt j).bind = i := hsource
    rw [hi]
    exact hcfg
  rw [hxregion, hxsource, hxclock] at hheard
  rw [heardTick, hfin]
  exact ⟨e, he, hheard⟩

theorem heardTick_sameFrame (r i index t err ask : Nat) (j : Nat) :
    SameFrame (s.regionAt j) ((s.heardTick r i index t err ask).regionAt j) := by
  obtain ⟨-, -, hout, hin⟩ := s.heardTick_frame r i index t err ask
  by_cases hj : j ∈ s.boundTo i
  · obtain ⟨e, -, hsame, -⟩ := hin j hj
    exact hsame
  · rw [hout j hj]
    exact .refl _

end State

/-- The device time of tick `k` of a source that occurs at `now`: exact for kinds 1 and 5 (02 R41). -/
def tickAtOf (v : Source) (k now : Nat) : Nat := if srcKind v.cfg = 1 ∨ srcKind v.cfg = 5 then k * v.period.toNat else now

theorem exactTick_getD (v : Source) (k now : Nat) : (State.exactTick v k).getD now = tickAtOf v k now := by
  unfold State.exactTick tickAtOf
  simp only [Bool.or_eq_true, decide_eq_true_eq]
  split <;> rfl

theorem tickAtOf_congr {v w : Source} (h : SameSetting v w) (k now : Nat) : tickAtOf w k now = tickAtOf v k now := by
  obtain ⟨hcfg, hperiod, -⟩ := h
  rw [tickAtOf, hcfg, hperiod, tickAtOf]

/-- A new tick of a source that is there: counted, and heard by the source's regions. -/
theorem sourceTick_new_answers {s : State} {region : BitVec 5} {err ask : Nat} (hbound : s.bound region.toNat = true)
    (hthere : (s.sourceAt (s.regionSource region.toNat)).missing = false)
    (hnew : (s.sourceAt (s.regionSource region.toNat)).tickAt ≠ some s.clock.now) :
    let r := region.toNat
    let i := s.regionSource r
    let k := tickIndex (s.sourceAt i) s.clock.now
    Answers (exec (.sourceTick region err ask) s) (fun t => ∃ w, t = { w with agenda := s.resumes (s.boundTo i) k ++ s.agenda } ∧
      State.OnlyStamps (s.countTick i) w ∧ w.sources = (s.countTick i).sources ∧ (∀ j, j ∉ s.boundTo i → w.regionAt j = s.regionAt j) ∧
      ∀ j ∈ s.boundTo i, ∃ e, (j = r → e = err) ∧ Heard (s.regionAt j) (w.regionAt j) k (tickAtOf (s.sourceAt i) k s.clock.now) e
        (askOf r ask (s.regionAt r).bind j (s.regionAt j).bind) (srcGuard (s.sourceAt i).cfg) s.clock.now) := by
  obtain ⟨hset, -, hnext⟩ := countTick_self s (s.regionSource region.toNat)
  obtain ⟨hindex, -⟩ := hnext hnew
  have hexec := sourceTick_new (err := err) (ask := ask) hbound hthere hnew
  dsimp only at hexec
  rw [exactTick_getD, tickAtOf_congr hset, hindex] at hexec
  obtain ⟨hstamps, hsources, hout, hin⟩ := s.heardTick_frame region.toNat (s.regionSource region.toNat)
    (tickIndex (s.sourceAt (s.regionSource region.toNat)) s.clock.now)
    (tickAtOf (s.sourceAt (s.regionSource region.toNat)) (tickIndex (s.sourceAt (s.regionSource region.toNat)) s.clock.now) s.clock.now) err ask
  refine ⟨_, hexec, _, ?_, hstamps, hsources, hout, hin⟩
  obtain ⟨⟨rs, cs, xs, n, hw⟩, -⟩ := hstamps
  rw [State.resumes_boundTo_congr (s.heardTick_sameFrame _ _ _ _ _ _), hw]
  rfl

/-- A second event at the same device time is no second tick: the region named judges it again. -/
theorem sourceTick_seen_answers {s : State} {region : BitVec 5} {err ask : Nat} (hbound : s.bound region.toNat = true)
    (hthere : (s.sourceAt (s.regionSource region.toNat)).missing = false)
    (hseen : (s.sourceAt (s.regionSource region.toNat)).tickAt = some s.clock.now) :
    Answers (exec (.sourceTick region err ask) s) (fun t => State.OnlyStamps (s.countTick (s.regionSource region.toNat)) t ∧
      (∀ j, t.sourceAt j = s.sourceAt j) ∧ ∀ j, j ≠ region.toNat → t.regionAt j = s.regionAt j) := by
  obtain ⟨-, hkept, -⟩ := countTick_self s (s.regionSource region.toNat)
  obtain ⟨hstamps, ⟨-, hsources, hother⟩, -⟩ := State.judge_frame (s.countTick (s.regionSource region.toNat)) region.toNat
    ((s.countTick (s.regionSource region.toNat)).sourceAt (s.regionSource region.toNat)).index
    ((State.exactTick ((s.countTick (s.regionSource region.toNat)).sourceAt (s.regionSource region.toNat))
      ((s.countTick (s.regionSource region.toNat)).sourceAt (s.regionSource region.toNat)).index).getD s.clock.now) err ask
  refine ⟨_, sourceTick_seen hbound hthere hseen, hstamps, fun j => ?_, hother⟩
  rw [State.sourceAt, hsources]
  by_cases hj : j = s.regionSource region.toNat
  · subst j
    exact hkept hseen
  · exact countTick_other s hj

end Sys2Proof.Machine

/-! ## Ticks at the start of a cycle (02 R45, 21 R414, 17 R354) -/

namespace Sys2Proof.Machine

theorem ceilDiv_le_iff {a b k : Nat} (hb : b ≠ 0) : ceilDiv a b ≤ k ↔ a ≤ k * b := by
  have hpos : 0 < b := Nat.pos_of_ne_zero hb
  rw [ceilDiv, ← Nat.lt_succ_iff, Nat.div_lt_iff_lt_mul hpos, Nat.succ_mul]
  omega

/-- The ticks aligned with a cycle are those whose cycle it is (02 R45). -/
theorem mem_ticksAtCycle {n : Nat} (hn : n ≠ 0) (d c k : Nat) : k ∈ State.ticksAtCycle n d c ↔ k < d ∧ k * n / d = c := by
  have hfirst : ceilDiv (c * d) n ≤ k ↔ c * d ≤ k * n := ceilDiv_le_iff hn
  have hlast : k < ceilDiv ((c + 1) * d) n ↔ k * n < (c + 1) * d := by
    rw [← Nat.not_le, ceilDiv_le_iff hn, Nat.not_le]
  have hmem : k ∈ State.ticksAtCycle n d c ↔ ceilDiv (c * d) n ≤ k ∧ k < ceilDiv ((c + 1) * d) n ∧ k < d := by
    simp only [State.ticksAtCycle, List.mem_map, List.mem_range]
    constructor
    · rintro ⟨i, hi, rfl⟩
      omega
    · intro h
      exact ⟨k - ceilDiv (c * d) n, by omega, by omega⟩
  rw [hmem, hfirst, hlast]
  constructor
  · rintro ⟨h1, h2, h3⟩
    exact ⟨h3, Nat.div_eq_of_lt_le h1 h2⟩
  · rintro ⟨h1, h2⟩
    have hd : 0 < d := by omega
    exact ⟨(Nat.le_div_iff_mul_le hd).mp h2.ge, (Nat.div_lt_iff_lt_mul hd).mp (by omega), h1⟩

namespace State

variable (s : State)

theorem exactTick_some {v : Source} (h : srcKind v.cfg = 1 ∨ srcKind v.cfg = 5) (n : Nat) : exactTick v n = some (n * v.period.toNat) :=
  if_pos (by simpa only [Bool.or_eq_true, decide_eq_true_iff] using h)

theorem exactTick_none {v : Source} (h : ¬ (srcKind v.cfg = 1 ∨ srcKind v.cfg = 5)) (n : Nat) : exactTick v n = none :=
  if_neg (by simpa only [Bool.or_eq_true, decide_eq_true_iff] using h)

/-- A tick that awaits no cycle beyond the guard is late. -/
theorem lateTick_becomes {r : Nat} (hlate : (s.regionAt r).awaited.any (fun a => decide (a.2.2 + s.guardFine r < s.clock.now)) = true) :
    ∃ g', Becomes s (s.lateTick r) r g' ∧ Settled (s.regionAt r) g' False ∧
      g'.awaited = (s.regionAt r).awaited.filter (fun a => !decide (a.2.2 + s.guardFine r < s.clock.now)) := by
  have hfirst := s.modRegion_becomes r (fun g => { g with awaited := g.awaited.filter (fun a => !decide (a.2.2 + s.guardFine r < s.clock.now)) })
  obtain ⟨-, -, hself⟩ := id hfirst
  obtain ⟨g', hg', -, -, hawaited, hset, -⟩ := settleTick_becomes (s.modRegion r (fun g =>
    { g with awaited := g.awaited.filter (fun a => !decide (a.2.2 + s.guardFine r < s.clock.now)) })) r false
  rw [hself] at hset hawaited
  refine ⟨g', ?_, (hset.congr (by simp)).of_sameRun (.refl (s.regionAt r)) rfl rfl, hawaited⟩
  rw [lateTick]
  dsimp only
  rw [if_pos hlate]
  exact hfirst.trans hg'

/-- On its own clock a region makes the tick at its cycle's start. -/
theorem makeTick_own {r : Nat} (k : Nat) (hown : ownClock (s.regionAt r) = true) :
    Becomes s (s.makeTick r k) r (noteTick (s.regionAt r) s.clock.now (s.regionAt r).frameNo.toNat k) := by
  rw [makeTick]
  dsimp only
  rw [if_pos hown]
  exact s.modRegion_becomes r _

/-- A tick that a region has with its time is judged against the start of its cycle. -/
theorem settleTick_known {u : State} {r f k t : Nat} {g : Region} (hu : Becomes s u r g) (hframe : SameFrame (s.regionAt r) g)
    (hst : g.st = (s.regionAt r).st) (hin : g.ticksIn = (s.regionAt r).ticksIn) (htick : tickIn g f k = some t) :
    ∃ g', Becomes s (u.settleTick r (t ≤ u.clock.now + u.guardFine r && u.clock.now ≤ t + u.guardFine r)) r g' ∧ tickIn g' f k = some t ∧
      Settled (s.regionAt r) g' (t ≤ s.clock.now + s.guardFine r ∧ s.clock.now ≤ t + s.guardFine r) := by
  obtain ⟨hclock, hsources, -⟩ := hu.onlyRegion
  obtain ⟨-, -, hself⟩ := id hu
  obtain ⟨hbind, -⟩ := id hframe
  have hguard : u.guardFine r = s.guardFine r := by
    rw [guardFine, sourceAt, hsources, regionSource, hself, hbind]
    rfl
  rw [hclock, hguard]
  obtain ⟨g', hg', -, hticks, -, hset, -⟩ := u.settleTick_becomes r (t ≤ s.clock.now + s.guardFine r && s.clock.now ≤ t + s.guardFine r)
  rw [hself] at hset hticks
  refine ⟨g', hu.trans hg', ?_, (hset.congr ?_).of_sameRun hframe hst hin⟩
  · rw [tickIn, hticks]
    exact htick
  · rw [Bool.and_eq_true, decide_eq_true_iff, decide_eq_true_iff]

/-- A tick whose time is known is judged against the start of its cycle. -/
theorem makeTick_known {r k t : Nat} (hown : ownClock (s.regionAt r) = false)
    (ht : let v := s.sourceAt (s.regionSource r)
      let n := (s.regionAt r).frameNo.toNat * bindD (s.regionAt r).bind + k
      exactTick v n = some t ∨ exactTick v n = none ∧ s.tickTime r (s.regionAt r).frameNo.toNat k = some t) :
    ∃ g', Becomes s (s.makeTick r k) r g' ∧ tickIn g' (s.regionAt r).frameNo.toNat k = some t ∧
      Settled (s.regionAt r) g' (t ≤ s.clock.now + s.guardFine r ∧ s.clock.now ≤ t + s.guardFine r) := by
  rw [makeTick]
  dsimp only
  rw [if_neg (by rw [hown]; decide)]
  rcases ht with ht | ⟨hnone, ht⟩
  · rw [ht]
    exact settleTick_known s (s.modRegion_becomes r (fun g => noteTick g t (s.regionAt r).frameNo.toNat k)) (.refl (s.regionAt r)) rfl rfl
      (tickIn_of_noted rfl)
  · rw [hnone, ht]
    exact settleTick_known s (.refl s r) (.refl _) rfl rfl ht

/-- A tick that is still to come has the start of its cycle for its time, and its cycle awaits it (17 R354, 21 R414). -/
theorem makeTick_awaits {r k : Nat} (hown : ownClock (s.regionAt r) = false)
    (hkind : [2, 3, 4].contains (srcKind (s.sourceAt (s.regionSource r)).cfg) = true)
    (hcome : s.tickTime r (s.regionAt r).frameNo.toNat k = none) :
    Becomes s (s.makeTick r k) r { noteTick (s.regionAt r) s.clock.now (s.regionAt r).frameNo.toNat k with
      awaited := (s.regionAt r).awaited ++ [((s.regionAt r).frameNo.toNat, k, s.clock.now)] } := by
  have hexact (n : Nat) : exactTick (s.sourceAt (s.regionSource r)) n = none := by
    refine exactTick_none (fun h => ?_) n
    rcases h with h | h <;> · rw [h] at hkind; exact absurd hkind (by decide)
  rw [makeTick]
  dsimp only
  rw [if_neg (by rw [hown]; decide), hexact, hcome, hkind]
  exact s.modRegion_becomes r _

/-- A tick as its cycle begins changes its region alone. -/
theorem makeTick_becomes (r k : Nat) : ∃ g', Becomes s (s.makeTick r k) r g' := by
  rw [makeTick]
  dsimp only
  split
  · exact ⟨_, s.modRegion_becomes r _⟩
  · split
    · next t _ =>
      obtain ⟨g', hg', -⟩ := settleTick_becomes (s.modRegion r (fun g => noteTick g t (s.regionAt r).frameNo.toNat k)) r _
      exact ⟨g', (s.modRegion_becomes r _).trans hg'⟩
    · obtain ⟨g', hg', -⟩ := s.settleTick_becomes r _
      exact ⟨g', hg'⟩
    · exact ⟨_, s.modRegion_becomes r _⟩

/-- 16 ticks within the guard return a region to LOCKED. -/
theorem trackingRelock_answers (hst : (s.regionAt s.cur.n).st = .tracking) (hin : 16 ≤ (s.regionAt s.cur.n).ticksIn) :
    exec .trackingRelock s = .next (s.enter s.cur.n .locked) := by
  simp only [exec, execTrackingRelock, hst, hin, decide_true, Bool.and_self, if_true]

end State

end Sys2Proof.Machine

/-! ## What a watchpoint's fault leaves alone: regions, sources and the time (16 R334, R335, 18 R381, 19 R389) -/

namespace Sys2Proof.Machine.State

/-- `t` has the time, the sources and the regions of `s`. -/
def SameClocks (s t : State) : Prop := t.clock = s.clock ∧ t.sources = s.sources ∧ t.regions = s.regions

namespace SameClocks

variable {s u : State}

theorem refl (s : State) : SameClocks s s := ⟨rfl, rfl, rfl⟩

theorem regionAt (h : SameClocks s u) (r : Nat) : u.regionAt r = s.regionAt r := by
  obtain ⟨-, -, hregions⟩ := h
  rw [State.regionAt, hregions, State.regionAt]

theorem onlyRegion (h : SameClocks s u) (r : Nat) : OnlyRegion r s u := by
  obtain ⟨hclock, hsources, -⟩ := id h
  exact ⟨hclock, hsources, fun j _ => h.regionAt j⟩

theorem ite {v : State} (h : SameClocks s u) (c : Prop) [Decidable c] (h' : SameClocks s v) : SameClocks s (if c then u else v) := by
  split
  · exact h
  · exact h'

theorem foldl {α : Type} {step : State → α → State} (hstep : ∀ {u a}, SameClocks s u → SameClocks s (step u a)) (l : List α)
    (h : SameClocks s u) : SameClocks s (l.foldl step u) :=
  List.foldlRecOn l step (motive := SameClocks s) h (fun _ hu _ _ => hstep hu)

/-! Writes of cores, nodes, journal entries and signals. -/

theorem modCore (h : SameClocks s u) (c : Nat) (f : Core → Core) : SameClocks s (u.modCore c f) := h

theorem setNode (h : SameClocks s u) (n : Nat) (v : Node) : SameClocks s (u.setNode n v) := h

theorem modNode (h : SameClocks s u) (n : Nat) (f : Node → Node) : SameClocks s (u.modNode n f) := by
  unfold State.modNode
  split
  · exact h
  · exact h

theorem modEntry (h : SameClocks s u) (n : Nat) (f : JEntry → JEntry) : SameClocks s (u.modEntry n f) := by
  unfold State.modEntry
  split
  · exact h
  · exact h

theorem signal (h : SameClocks s u) (code : Nat) (payload : List Byte) : SameClocks s (u.signal code payload) := by
  unfold State.signal
  split
  · exact h
  · exact h

theorem trapRecord (h : SameClocks s u) (core : Nat) (f : FaultRec) (handler : Bool) : SameClocks s (u.trapRecord core f handler) := by
  unfold State.trapRecord
  split
  · exact h
  · exact h

/-! A node's end, its return to the ready set, and its rollback. -/

theorem loseAdds (h : SameClocks s u) (n : Nat) : SameClocks s (u.loseAdds n) := by
  unfold State.loseAdds
  split
  · exact h
  · exact foldl (fun hu => hu.signal _ _) _ h

theorem haltNode (h : SameClocks s u) (n : Nat) (v : Node) : SameClocks s (u.haltNode n v) := by
  unfold State.haltNode
  exact (foldl (fun hu => hu.modCore _ _) _ h).loseAdds n

theorem dropRecords (h : SameClocks s u) (n : Nat) (v : Node) : SameClocks s (u.dropRecords n v) := by
  unfold State.dropRecords
  split
  · exact h
  · exact h

theorem dropStaged (h : SameClocks s u) (n : Nat) : SameClocks s (u.dropStaged n) := by
  unfold State.dropStaged
  split
  · exact h
  · exact h

theorem cancelCopies (h : SameClocks s u) (c : Nat) : SameClocks s (u.cancelCopies c) := h

theorem dropLease (h : SameClocks s u) (c : Nat) : SameClocks s (u.dropLease c) := h

/-- A node's cores stop, and their copies, leases, records and staged stores are gone. -/
theorem stopNode (h : SameClocks s u) (n : Nat) (v : Node) (cs : List Nat) :
    SameClocks s (((cs.foldl (fun s c => (s.cancelCopies c).dropLease c) (u.haltNode n v)).dropRecords n v).dropStaged n) :=
  ((foldl (fun hu => (hu.cancelCopies _).dropLease _) cs (h.haltNode n v)).dropRecords n v).dropStaged n

theorem endNode (h : SameClocks s u) (n : Nat) (v : Node) (fate : Fate) (cls : BitVec 8) : SameClocks s (u.endNode n v fate cls) :=
  (h.stopNode n v _).modNode n _

theorem withdrawChildren (h : SameClocks s u) (n : Nat) : SameClocks s (u.withdrawChildren n) := by
  refine h.foldl (fun {u e} hu => ?_) u.nodes
  dsimp only
  split
  · split
    · split
      · exact ((hu.setNode e.1 _).modEntry e.1 _).modNode n _
      · exact (hu.setNode e.1 _).modEntry e.1 _
    · exact hu
  · exact hu

theorem requeue (h : SameClocks s u) (n : Nat) (v : Node) : SameClocks s (u.requeue n v) := by
  unfold State.requeue
  split
  · exact (h.withdrawChildren n).endNode n v .aborted 0
  · exact (((h.stopNode n v _).withdrawChildren n).modNode n _).modEntry n _

theorem journalFault (h : SameClocks s u) (n core : Nat) (cls : BitVec 8) : SameClocks s (u.journalFault n core cls) :=
  (h.modEntry n _).modNode n _

theorem failNode (h : SameClocks s u) (n core : Nat) (cls : BitVec 8) : SameClocks s (u.failNode n core cls) := by
  unfold State.failNode
  split
  · exact h
  · split
    · exact h
    · exact h
    · exact (h.journalFault n core cls).endNode n _ .failed cls

theorem noteHistory (h : SameClocks s u) (n : Nat) : SameClocks s (u.noteHistory n) := by
  unfold State.noteHistory
  split
  · exact h.modEntry n _
  · exact h

theorem rollback (h : SameClocks s u) (n core : Nat) (cls : BitVec 8) : SameClocks s (u.rollback n core cls) := by
  unfold State.rollback
  split
  · exact h
  · split
    · exact h
    · exact h
    · exact h
    · split
      · exact h.failNode n core cls
      · exact (((h.journalFault n core cls).requeue n _).modNode n _).noteHistory n

/-! A fault as it is delivered. -/

theorem tieFault (h : SameClocks s u) (core : Nat) (f : FaultRec) : SameClocks s (u.tieFault core f) := by
  unfold State.tieFault
  split
  · exact h
  · split
    · exact h
    · split
      · exact h
      · exact (h.trapRecord core f _).ite _ (((h.trapRecord core f _).modEntry _ _).modNode _ _)

theorem diverge (h : SameClocks s u) (core : Nat) (f : FaultRec) : SameClocks s (u.diverge core f) := by
  unfold State.diverge
  dsimp only
  split
  · exact (h.trapRecord core _ _).rollback _ core _
  · exact h.trapRecord core _ _

theorem deliver (h : SameClocks s u) (core : Nat) (f : FaultRec) : SameClocks s (u.deliver core f) := by
  unfold State.deliver
  dsimp only
  split
  · exact h.tieFault core f
  · split
    · exact h.diverge core f
    · split
      · exact h.trapRecord core f true
      · split
        · exact h.trapRecord core f _
        · split
          · exact h.trapRecord core f _
          · split
            · exact (h.trapRecord core f _).rollback _ core f.cls
            · exact (h.trapRecord core f _).failNode _ core f.cls

theorem holdDomain (h : SameClocks s u) (core : Nat) : SameClocks s (u.holdDomain core) :=
  foldl (fun hu => hu.modCore _ _) _ h

theorem raise (h : SameClocks s u) (core : Nat) (f : FaultRec) : SameClocks s (u.raise core f) := by
  unfold State.raise
  split
  · split
    · exact (h.holdDomain core).modCore core _
    · exact h.modCore core _
  · exact h.deliver core f

theorem watchFault (h : SameClocks s u) (core cls id index : Nat) (glob wr : Bool) (addr : Nat) :
    SameClocks s (u.watchFault core cls id index glob wr addr) :=
  SameClocks.raise (h.modCore core _) core _

/-- A slice's watchpoints count, or stop nodes (18 R379, R381). -/
theorem watchSlice (h : SameClocks s u) (cls id : Nat) (wr : Bool) (keys : List Nat) : SameClocks s (u.watchSlice cls id wr keys) := by
  unfold State.watchSlice
  refine List.foldlRecOn keys _ (motive := fun acc : State × List (Nat × Nat) => SameClocks s acc.1) h (fun acc hacc k _ => ?_)
  refine List.foldlRecOn _ _ (motive := fun acc : State × List (Nat × Nat) => SameClocks s acc.1) hacc (fun acc hacc w _ => ?_)
  dsimp only
  split
  · exact hacc
  · split
    · dsimp only
      split
      · exact hacc.watchFault _ cls id _ false wr _
      · exact hacc
    · exact hacc

end SameClocks

end Sys2Proof.Machine.State

/-! ## Halves that complete and frames that begin: what changes of the regions (17 R348, R354, 02 R49) -/

namespace Sys2Proof.Machine.State

/-- Of regions, the time and the sources, `t` differs from `s` in the halves of region `r` alone. -/
def OnlyHalves (r : Nat) (s t : State) : Prop :=
  OnlyRegion r s t ∧ ∃ a b, t.regionAt r = { s.regionAt r with half0 := a, half1 := b }

namespace OnlyHalves

variable {s t u : State} {r : Nat}

theorem refl (r : Nat) (s : State) : OnlyHalves r s s := ⟨.refl r s, _, _, rfl⟩

theorem trans : OnlyHalves r s t → OnlyHalves r t u → OnlyHalves r s u := by
  rintro ⟨honly, a, b, hself⟩ ⟨honly', a', b', hself'⟩
  refine ⟨honly.trans honly', a', b', ?_⟩
  rw [hself', hself]

theorem thenSameClocks (h : OnlyHalves r s t) (hu : SameClocks t u) : OnlyHalves r s u := by
  obtain ⟨honly, a, b, hself⟩ := h
  exact ⟨honly.trans (hu.onlyRegion r), a, b, (hu.regionAt r).trans hself⟩

theorem ite {v : State} (h : OnlyHalves r s u) (c : Prop) [Decidable c] (h' : OnlyHalves r s v) : OnlyHalves r s (if c then u else v) := by
  split
  · exact h
  · exact h'

end OnlyHalves

variable (s : State)

theorem setRegion_setHalf (r h : Nat) (v : Half) : OnlyHalves r s (s.setRegion r (setHalf (s.regionAt r) h v)) := by
  obtain ⟨-, -, hself⟩ := s.setRegion_becomes r (setHalf (s.regionAt r) h v)
  refine ⟨(s.setRegion_becomes r _).onlyRegion, ?_⟩
  rw [hself, setHalf]
  split
  · exact ⟨_, _, rfl⟩
  · exact ⟨_, _, rfl⟩

theorem completeHalf_onlyHalves (r h : Nat) : OnlyHalves r s (s.completeHalf r h) := by
  unfold completeHalf
  refine OnlyHalves.ite (.refl r s) _ (OnlyHalves.ite (s.setRegion_setHalf r h _) _ ?_)
  exact (s.setRegion_setHalf r h _).thenSameClocks (SameClocks.watchSlice ⟨rfl, rfl, rfl⟩ 6 _ true _)

theorem completeOld_onlyHalves (r h f : Nat) : OnlyHalves r s (s.completeOld r h f) :=
  (s.completeHalf_onlyHalves r h).ite _ (.refl r s)

theorem completeBoth_onlyHalves (r : Nat) : OnlyHalves r s (s.completeBoth r) :=
  (s.completeOld_onlyHalves r _ _).trans (completeOld_onlyHalves _ r _ _)

theorem openHalf_onlyHalves (r f : Nat) : OnlyHalves r s (s.openHalf r f) := by
  rw [openHalf, modRegion]
  split
  · exact ⟨(s.setRegion_becomes r _).onlyRegion, _, _, regionAt_setRegion_self _ _ _⟩
  · exact s.setRegion_setHalf r _ _

/-- A half that is complete stays as it is. -/
theorem completeHalf_complete {r h : Nat} (hcomplete : (halfOf (s.regionAt r) h).complete = true) : s.completeHalf r h = s :=
  if_pos hcomplete

theorem completeBoth_complete {r : Nat} (h0 : (s.regionAt r).half0.complete = true) (h1 : (s.regionAt r).half1.complete = true) :
    s.completeBoth r = s := by
  have hhalf (h : Nat) : s.completeHalf r h = s := by
    refine s.completeHalf_complete ?_
    rw [halfOf]
    split
    · exact h0
    · exact h1
  have hold (h f : Nat) : s.completeOld r h f = s := by rw [completeOld, hhalf, ite_self]
  rw [completeBoth, hold, hold]

theorem moveSched_sameClocks (cs : List Nat) (d : BitVec 64) : SameClocks s (s.moveSched cs d) :=
  SameClocks.foldl (fun h => h.modCore _ _) cs (.refl s)

/-- A frame begins: of the regions one changes, and what it keeps. -/
theorem beginFrame_region (r : Nat) (frame : BitVec 64) : OnlyRegion r s (s.beginFrame r frame) ∧ ∃ p a b,
    (s.beginFrame r frame).regionAt r = { s.regionAt r with
      frameNo := frame, frameCy := 0, atEnd := false, gated := false, ahead := [], pace := p, half0 := a, half1 := b } := by
  have hsched := s.moveSched_sameClocks ((s.regionAt r).ahead.filter (fun c => !(s.coreAt c).held)) 1
  set u := s.moveSched ((s.regionAt r).ahead.filter (fun c => !(s.coreAt c).held)) 1 with hu
  have hmod := u.modRegion_becomes r (fun g => { g with
    frameNo := frame, frameCy := 0, atEnd := false, gated := false, ahead := []
    pace := if g.gated then { g.pace with since := u.clock.now, cycle := g.cycles } else g.pace })
  set v := u.modRegion r (fun g => { g with
    frameNo := frame, frameCy := 0, atEnd := false, gated := false, ahead := []
    pace := if g.gated then { g.pace with since := u.clock.now, cycle := g.cycles } else g.pace }) with hv
  obtain ⟨honly, a, b, hself⟩ := (v.completeOld_onlyHalves r (frame.toNat % 2) frame.toNat).trans (openHalf_onlyHalves _ r frame.toNat)
  obtain ⟨-, -, hmid⟩ := id hmod
  refine ⟨(hsched.onlyRegion r).trans (hmod.onlyRegion.trans honly), (v.regionAt r).pace, a, b, hself.trans ?_⟩
  rw [hmid, hsched.regionAt r]

end Sys2Proof.Machine.State

/-! ## A source that goes missing, or is there again (17 R348, R349) -/

namespace Sys2Proof.Machine

/-- What the loss of its source makes of a region (17 R348, R351). -/
def Lost (g g' : Region) : Prop :=
  g'.st = .holdover ∧ g'.polNow = g.pol ∧
    (g.gated = false → Entered g g' .holdover ∧ g'.holdFrames = 0 ∧ g'.gated = false) ∧
    (g.gated = true → fieldOf g.ctl 63 48 ≠ 0 →
      g'.holdFrames = 1 ∧ g'.gated = false ∧ g'.frameNo = g.frameNo + 1 ∧ g'.frameCy = 0)

/-- The regions that a lost source leaves to themselves: those in LOCKED, TRACKING or CEILING follow it (17 R348). -/
def Follows (g : Region) : Prop := g.st = .locked ∨ g.st = .tracking ∨ g.st = .ceiling

namespace State

variable (s : State)

/-- A region enters HOLDOVER; what has arrived for its frames is all that will. -/
def enterHoldover (r : Nat) : State :=
  ((s.enter r .holdover).modRegion r (fun g => { g with holdFrames := 0 })).completeBoth r

/-- The loss of its source, as one region meets it. -/
def loseRegion (r : Nat) : State :=
  match (s.regionAt r).st with
  | .locked | .tracking | .ceiling =>
    if (s.regionAt r).gated then
      if (((s.enterHoldover r).holdBoundary r).regionAt r).gated then (s.enterHoldover r).holdBoundary r
      else ((s.enterHoldover r).holdBoundary r).endTransition r
    else s.enterHoldover r
  | _ => s

/-- The source is missing, and its loop holds its period (17 R349). -/
def dropSource (i : Nat) : State :=
  (s.modSource i (fun v => { v with missing := true, present := none, held := heldPeriod v (Config.freeBits s.freeCtr 64).toNat })).fresh

theorem sourceAt_fresh (i : Nat) : s.fresh.sourceAt i = s.sourceAt i := rfl

theorem dropSource_missing (i : Nat) : ((s.dropSource i).sourceAt i).missing = true := by
  rw [dropSource, sourceAt_fresh, sourceAt_modSource_self]

theorem loseSource_eq (i : Nat) : s.loseSource i = (s.boundTo i).foldl loseRegion (s.dropSource i) := rfl

theorem enterHoldover_region (r : Nat) : OnlyRegion r s (s.enterHoldover r) ∧ ∃ p a b, (s.enterHoldover r).regionAt r = { s.regionAt r with
    st := .holdover, polNow := (s.regionAt r).pol, ticksIn := 0, pace := p, holdFrames := 0, half0 := a, half1 := b } := by
  obtain ⟨p, hp⟩ := s.enter_becomes r .holdover
  have hmod := hp.thenModRegion (fun g => { g with holdFrames := 0 })
  obtain ⟨honly, a, b, hself⟩ := completeBoth_onlyHalves ((s.enter r .holdover).modRegion r (fun g => { g with holdFrames := 0 })) r
  obtain ⟨-, -, hmid⟩ := id hmod
  refine ⟨hmod.onlyRegion.trans honly, p, a, b, ?_⟩
  rw [enterHoldover, hself, hmid]

theorem holdBoundary_region (r : Nat) : OnlyRegion r s (s.holdBoundary r) ∧
    ((s.holdBoundary r).regionAt r).st = (s.regionAt r).st ∧ ((s.holdBoundary r).regionAt r).polNow = (s.regionAt r).polNow ∧
    ((s.regionAt r).holdFrames < fieldOf (s.regionAt r).ctl 63 48 → let g' := (s.holdBoundary r).regionAt r
      g'.holdFrames = (s.regionAt r).holdFrames + 1 ∧ g'.gated = false ∧ g'.frameNo = (s.regionAt r).frameNo + 1 ∧ g'.frameCy = 0) := by
  obtain ⟨honly, a, b, hself⟩ := s.completeBoth_onlyHalves r
  set u := s.completeBoth r with hu
  have heq : s.holdBoundary r = if fieldOf (u.regionAt r).ctl 63 48 ≤ (u.regionAt r).holdFrames then
      { u with agenda := .event { n := r } .frozenEntry :: u.agenda }
    else (u.modRegion r (fun g => { g with holdFrames := g.holdFrames + 1, heldCount := satNat 16 (g.heldCount.toNat + 1) })).beginFrame r
      ((u.regionAt r).frameNo + 1) := rfl
  rw [heq]
  split
  · next h =>
    have hregion : State.regionAt { u with agenda := .event { n := r } .frozenEntry :: u.agenda } r = u.regionAt r := rfl
    rw [hregion, hself]
    rw [hself] at h
    exact ⟨honly, rfl, rfl, fun h' => absurd h (Nat.not_le.mpr h')⟩
  · have hmod := u.modRegion_becomes r (fun g => { g with holdFrames := g.holdFrames + 1, heldCount := satNat 16 (g.heldCount.toNat + 1) })
    obtain ⟨hbegin, p, c, d, hlast⟩ := beginFrame_region
      (u.modRegion r (fun g => { g with holdFrames := g.holdFrames + 1, heldCount := satNat 16 (g.heldCount.toNat + 1) })) r
      ((u.regionAt r).frameNo + 1)
    obtain ⟨-, -, hmid⟩ := id hmod
    rw [hmid, hself] at hlast
    rw [hself, hlast]
    exact ⟨honly.trans (hmod.onlyRegion.trans (hself ▸ hbegin)), rfl, rfl, fun _ => ⟨rfl, rfl, rfl, rfl⟩⟩

theorem endTransition_sameClocks (r : Nat) : SameClocks s (s.endTransition r) := by
  obtain ⟨cs, a, h⟩ := s.endTransition_frame r
  rw [h]
  exact ⟨rfl, rfl, rfl⟩

end State

/-- An open region that awaits nothing for its frames. -/
def Emptied (g : Region) : Prop := g.gated = false ∧ g.half0.complete = true ∧ g.half1.complete = true

/-- The regions that a source's return brings to RELOCKING (17 R348). -/
def Lasted (g : Region) : Prop := g.st = .holdover ∨ g.st = .frozen

theorem not_follows_of {g : Region} (h : g.st = .holdover ∨ g.st = .frozen ∨ g.st = .relocking) : ¬ Follows g := by
  rintro (hst | hst | hst) <;> rw [hst] at h <;> exact absurd h (by decide)

theorem not_lasted_of {g : Region} (h : g.st = .locked ∨ g.st = .tracking ∨ g.st = .ceiling ∨ g.st = .relocking) : ¬ Lasted g := by
  rintro (hst | hst) <;> rw [hst] at h <;> exact absurd h (by decide)

namespace State

variable {s : State}

theorem loseRegion_of_follows {r : Nat} (h : Follows (s.regionAt r)) : s.loseRegion r = if (s.regionAt r).gated then
      if (((s.enterHoldover r).holdBoundary r).regionAt r).gated then (s.enterHoldover r).holdBoundary r
      else ((s.enterHoldover r).holdBoundary r).endTransition r
    else s.enterHoldover r := by
  rw [loseRegion]
  rcases h with h | h | h <;> rw [h]

theorem loseRegion_of_not_follows {r : Nat} (h : ¬ Follows (s.regionAt r)) : s.loseRegion r = s := by
  unfold loseRegion
  split
  · next hst => exact absurd (.inl hst) h
  · next hst => exact absurd (.inr (.inl hst)) h
  · next hst => exact absurd (.inr (.inr hst)) h
  · rfl

/-- A region that follows its source is in HOLDOVER after the loss; gated, it begins its frame, if its hold frames allow one (17 R351). -/
theorem loseRegion_lost {r : Nat} (h : Follows (s.regionAt r)) :
    OnlyRegion r s (s.loseRegion r) ∧ Lost (s.regionAt r) ((s.loseRegion r).regionAt r) := by
  obtain ⟨honly, p, a, b, hself⟩ := s.enterHoldover_region r
  rw [loseRegion_of_follows h]
  split
  · next hgated =>
    obtain ⟨hbound, hst, hpol, hbegins⟩ := (s.enterHoldover r).holdBoundary_region r
    have hend := ((s.enterHoldover r).holdBoundary r).endTransition_sameClocks r
    rw [hself] at hst hpol hbegins
    have hlost : Lost (s.regionAt r) (((s.enterHoldover r).holdBoundary r).regionAt r) :=
      ⟨hst, hpol, fun hopen => absurd (hgated.symm.trans hopen) (by decide), fun _ hH => hbegins (Nat.pos_of_ne_zero hH)⟩
    split
    · exact ⟨honly.trans hbound, hlost⟩
    · rw [hend.regionAt r]
      exact ⟨honly.trans (hbound.trans (hend.onlyRegion r)), hlost⟩
  · next hopen =>
    rw [hself]
    exact ⟨honly, rfl, rfl, fun hg => ⟨⟨rfl, rfl, rfl, rfl, rfl⟩, rfl, hg⟩, fun hg => absurd hg hopen⟩

theorem loseRegion_onlyRegion (s : State) (r : Nat) : OnlyRegion r s (s.loseRegion r) := by
  by_cases h : Follows (s.regionAt r)
  · exact (loseRegion_lost h).1
  · rw [loseRegion_of_not_follows h]
    exact .refl r s

/-- With nothing to complete the loss changes regions alone. -/
theorem loseRegion_emptied {r : Nat} (hempty : Emptied (s.regionAt r)) : ∃ g', Becomes s (s.loseRegion r) r g' ∧ Emptied g' := by
  by_cases h : Follows (s.regionAt r)
  · obtain ⟨hopen, h0, h1⟩ := hempty
    obtain ⟨p, hp⟩ := s.enter_becomes r .holdover
    have hmod := hp.thenModRegion (fun g => { g with holdFrames := 0 })
    obtain ⟨-, -, hself⟩ := id hmod
    rw [loseRegion_of_follows h, if_neg (fun hg => Bool.false_ne_true (hopen.symm.trans hg)), enterHoldover,
      completeBoth_complete _ (hself ▸ h0) (hself ▸ h1)]
    exact ⟨_, hmod, hopen, h0, h1⟩
  · exact ⟨s.regionAt r, by rw [loseRegion_of_not_follows h]; exact .refl s r, hempty⟩

theorem foldl_loseRegion_emptied (l : List Nat) (hempty : ∀ r, Emptied (s.regionAt r)) :
    ∃ rs, l.foldl loseRegion s = { s with regions := rs } := by
  have h := List.foldlRecOn l loseRegion (motive := fun t : State => (∃ rs, t = { s with regions := rs }) ∧ ∀ r, Emptied (t.regionAt r))
    ⟨⟨_, rfl⟩, hempty⟩ ?_
  · exact h.1
  · rintro t ⟨⟨rs, rfl⟩, hq⟩ r -
    obtain ⟨g', ⟨⟨qs, hqs⟩, hother, hself⟩, hq'⟩ := loseRegion_emptied (hq r)
    refine ⟨⟨qs, hqs⟩, fun j => ?_⟩
    by_cases hj : j = r
    · rw [hj, hself]
      exact hq'
    · rw [hother j hj]
      exact hq j

/-- A source is lost: what becomes of it, and of each region. -/
theorem loseSource_regions (s : State) (i : Nat) : ((s.loseSource i).sourceAt i).missing = true ∧
    (∀ r ∈ s.boundTo i, Follows (s.regionAt r) → Lost (s.regionAt r) ((s.loseSource i).regionAt r)) ∧
    ∀ r, ¬ (r ∈ s.boundTo i ∧ Follows (s.regionAt r)) → (s.loseSource i).regionAt r = s.regionAt r := by
  have heq : s.loseSource i = (s.boundTo i).foldl loseRegion (s.dropSource i) := s.loseSource_eq i
  obtain ⟨-, hsources, hout, hin⟩ := foldl_onlyRegion loseRegion_onlyRegion (s.boundTo_nodup i) (s.dropSource i)
  refine ⟨?_, fun r hr hf => ?_, fun r hr => ?_⟩
  · rw [heq, sourceAt, hsources]
    exact s.dropSource_missing i
  · obtain ⟨x, -, -, hregion, hfin⟩ := hin r hr
    have hsame : x.regionAt r = s.regionAt r := hregion
    obtain ⟨-, hlost⟩ := loseRegion_lost (s := x) (r := r) (hsame ▸ hf)
    rw [heq, hfin]
    exact hsame ▸ hlost
  · rw [heq]
    by_cases hmem : r ∈ s.boundTo i
    · obtain ⟨x, -, -, hregion, hfin⟩ := hin r hmem
      have hsame : x.regionAt r = s.regionAt r := hregion
      rw [hfin, loseRegion_of_not_follows (hsame ▸ fun hf => hr ⟨hmem, hf⟩), hsame]
    · exact hout r hmem

/-- The return of its source, as one region meets it. -/
def regainRegion (s : State) (r : Nat) : State :=
  match (s.regionAt r).st with
  | .holdover | .frozen => s.enter r .relocking
  | _ => s

theorem regainRegion_of_lasted {r : Nat} (h : Lasted (s.regionAt r)) : s.regainRegion r = s.enter r .relocking := by
  rw [regainRegion]
  rcases h with h | h <;> rw [h]

theorem regainRegion_of_not_lasted {r : Nat} (h : ¬ Lasted (s.regionAt r)) : s.regainRegion r = s := by
  unfold regainRegion
  split
  · next hst => exact absurd (.inl hst) h
  · next hst => exact absurd (.inr hst) h
  · rfl

theorem regainRegion_becomes (s : State) (r : Nat) : ∃ g', Becomes s (s.regainRegion r) r g' ∧
    (Lasted (s.regionAt r) → Entered (s.regionAt r) g' .relocking) ∧ (¬ Lasted (s.regionAt r) → g' = s.regionAt r) := by
  by_cases h : Lasted (s.regionAt r)
  · obtain ⟨p, hp⟩ := s.enter_becomes r .relocking
    rw [regainRegion_of_lasted h]
    exact ⟨_, hp, fun _ => ⟨rfl, rfl, rfl, rfl, rfl⟩, fun hn => absurd h hn⟩
  · rw [regainRegion_of_not_lasted h]
    exact ⟨_, .refl s r, fun hl => absurd hl h, fun _ => rfl⟩

/-- The source is there again. -/
def regainSource (s : State) (i : Nat) : State := s.modSource i (fun v => { v with missing := false, present := none })

theorem regainSource_missing (s : State) (i : Nat) : ((s.regainSource i).sourceAt i).missing = false := by
  rw [regainSource, sourceAt_modSource_self]

theorem sourcePresent_eq {s : State} {t : Nat} (hmissing : (s.sourceAt s.cur.n).missing = true) (hthere : s.isMissing s.cur.n = false)
    (hpresent : (s.sourceAt s.cur.n).present = some t) (hlong : t + 16 * (s.sourceAt s.cur.n).period.toNat ≤ s.clock.now) :
    exec .sourcePresent s = .next ((s.boundTo s.cur.n).foldl regainRegion (s.regainSource s.cur.n)) := by
  dsimp only [exec, execSourcePresent]
  simp only [hmissing, hthere, hpresent, hlong, Bool.not_false, Bool.and_self, decide_true, if_true]
  rfl

theorem regainRegion_onlyRegion (s : State) (r : Nat) : OnlyRegion r s (s.regainRegion r) := by
  obtain ⟨g', hg', -⟩ := s.regainRegion_becomes r
  exact hg'.onlyRegion

theorem foldl_regainRegion_frame (s : State) (l : List Nat) : ∃ rs, l.foldl regainRegion s = { s with regions := rs } := by
  refine List.foldlRecOn l regainRegion (motive := fun t : State => ∃ rs, t = { s with regions := rs }) ⟨_, rfl⟩ ?_
  rintro _ ⟨rs, rfl⟩ k -
  obtain ⟨g', ⟨hrs, -⟩, -⟩ := regainRegion_becomes { s with regions := rs } k
  exact hrs

/-- A source is there again: what becomes of each region. -/
theorem foldl_regainRegion_regions (s : State) (i r : Nat) :
    let t := (s.boundTo i).foldl regainRegion (s.regainSource i)
    (r ∈ s.boundTo i → Lasted (s.regionAt r) → Entered (s.regionAt r) (t.regionAt r) .relocking) ∧
      (¬ (r ∈ s.boundTo i ∧ Lasted (s.regionAt r)) → t.regionAt r = s.regionAt r) := by
  obtain ⟨-, -, hout, hin⟩ := foldl_onlyRegion regainRegion_onlyRegion (s.boundTo_nodup i) (s.regainSource i)
  by_cases hmem : r ∈ s.boundTo i
  · obtain ⟨x, -, -, hx, hfin⟩ := hin r hmem
    have hsame : x.regionAt r = s.regionAt r := hx
    obtain ⟨g', ⟨-, -, hself⟩, hlasted, hnot⟩ := x.regainRegion_becomes r
    rw [hsame] at hlasted hnot
    dsimp only
    rw [hfin, hself]
    exact ⟨fun _ => hlasted, fun h => hnot (fun hl => h ⟨hmem, hl⟩)⟩
  · exact ⟨fun h => absurd h hmem, fun _ => hout r hmem⟩

end State

/-- Settles O40: each event's lemma on the regions it moves, clause by clause. -/
theorem sourcesMoveTheirRegions : Obligations.SourcesMoveTheirRegions := by
  intro s enters onlyClocks onlyStamps after guard
  refine ⟨fun region err ask => ⟨fun hbound hmissing hnew => ?_, fun hbound hthere hseen => ?_, fun hbound hthere hnew => ?_⟩,
    fun n d c k hn => mem_ticksAtCycle hn d c k, fun r k => ?_, fun r => ?_, fun hst hin => ?_, ?_, ?_⟩
  -- a tick of a missing source, a second event of one tick, and a new tick
  · obtain ⟨-, -, hcount⟩ := countTick_self s (s.regionSource region.toNat)
    obtain ⟨hindex, hat⟩ := hcount hnew
    exact ⟨_, sourceTick_missing hbound hmissing, ⟨hindex, hat, fun j hj => countTick_other s hj⟩, rfl⟩
  · obtain ⟨t, ht, ⟨⟨rs, cs, xs, n, rfl⟩, hcores⟩, hsources, hother⟩ :=
      sourceTick_seen_answers (err := err) (ask := ask) hbound hthere hseen
    exact ⟨_, ht, ⟨rfl, hcores⟩, hsources, rfl, hother⟩
  · obtain ⟨-, -, hcount⟩ := countTick_self s (s.regionSource region.toNat)
    obtain ⟨hindex, hat⟩ := hcount hnew
    obtain ⟨-, ht, w, rfl, ⟨⟨rs, cs, xs, n, hw⟩, hcores⟩, hsources, hout, hin⟩ :=
      sourceTick_new_answers (err := err) (ask := ask) hbound hthere hnew
    have hsource (j : Nat) : w.sourceAt j = (s.countTick (s.regionSource region.toNat)).sourceAt j := by
      rw [State.sourceAt, hsources, State.sourceAt]
    refine ⟨_, ht, ⟨by rw [hw]; rfl, hcores⟩, ⟨?_, ?_, fun j hj => (hsource j).trans (countTick_other s hj)⟩, hout, rfl, fun j hj => ?_⟩
    · exact (congrArg Source.index (hsource _)).trans hindex
    · exact (congrArg Source.tickAt (hsource _)).trans hat
    · obtain ⟨e, he, hframe, hgated, hown, hfollow⟩ := hin j hj
      obtain ⟨-, -, hsrc⟩ := s.mem_boundTo.mp hj
      refine ⟨fun h => ?_, hown, fun h hf => ?_⟩
      · obtain ⟨hst, htk, hguard⟩ := hgated h
        exact ⟨hst, htk, fun hjr => he hjr ▸ hguard⟩
      · obtain ⟨hnoted, hceil, htrack, hstay, hmiss, hhit⟩ := hfollow h hf
        refine ⟨hnoted, hceil, htrack, hstay, hmiss, ?_⟩
        have hguard : guard j = srcGuard (s.sourceAt (s.regionSource region.toNat)).cfg * 65536 :=
          congrArg (fun i => srcGuard (s.sourceAt i).cfg * 65536) hsrc
        rw [hguard]
        exact hhit
  -- a tick as the cycle aligned with it begins
  · intro g v f now come exact_ t
    obtain ⟨g', ⟨rs, hrs⟩, hother, -⟩ := s.makeTick_becomes r k
    refine ⟨?_, ?_, hother, fun hown => ?_, fun hown => ⟨fun at_ hat => ?_, fun hkind hcome => ?_⟩⟩
    · simp only [onlyClocks, t, hrs]
    · simp only [t, hrs]
    · obtain ⟨-, -, hself⟩ := s.makeTick_own k hown
      refine ⟨?_, (congrArg Region.st hself : _)⟩
      rw [State.tickTime_eq, hself]
      exact tickIn_of_noted rfl
    · obtain ⟨g', ⟨-, -, hself⟩, htick, hset⟩ := s.makeTick_known (t := at_) (k := k) hown (by
        rcases hat with ⟨hexact, rfl⟩ | ⟨hexact, hcome⟩
        · exact .inl (State.exactTick_some hexact _)
        · exact .inr ⟨State.exactTick_none hexact _, hcome⟩)
      subst hself
      exact ⟨htick, hset⟩
    · obtain ⟨-, -, hself⟩ := s.makeTick_awaits (k := k) hown (by
        rcases hkind with h | h | h <;> · rw [State.regionSource, h]; rfl) hcome
      refine ⟨?_, congrArg Region.awaited hself, (congrArg Region.st hself : _)⟩
      rw [State.tickTime_eq, hself]
      exact tickIn_of_noted rfl
  -- a tick that is late, and the return to LOCKED
  · intro g late hlate
    obtain ⟨g', ⟨-, -, hself⟩, hset, hawaited⟩ := s.lateTick_becomes hlate
    subst hself
    exact ⟨hset, hawaited⟩
  · obtain ⟨p, ⟨rs, hrs⟩, hother, hself⟩ := s.enter_becomes s.cur.n .locked
    refine ⟨_, State.trackingRelock_answers s hst hin, ?_, ?_, ?_, ?_, hother⟩
    · rw [hrs]
    · rw [hrs]
    · rw [hrs]
    · simp only [enters, hself, and_self]
  -- a source goes missing, and is there again
  · intro hthere hlost
    have hexec : exec .sourceMissing s = .next (s.loseSource s.cur.n) := by
      simp only [exec, execSourceMissing, hthere, hlost, Bool.not_false, Bool.and_self, if_true]
    obtain ⟨hmissing, hfollow, hkept⟩ := s.loseSource_regions s.cur.n
    refine ⟨_, hexec, hmissing, fun hempty => ?_, fun r => ⟨fun hmine hst => ?_, fun hnot => ?_⟩⟩
    · obtain ⟨rs, hrs⟩ := State.foldl_loseRegion_emptied (s.boundTo s.cur.n) (s := s.dropSource s.cur.n) hempty
      rw [State.loseSource_eq, hrs]
      rfl
    · exact hfollow r (s.mem_boundTo.mpr hmine) hst
    · refine hkept r (fun ⟨hmem, hst⟩ => ?_)
      rcases hnot with hn | hn
      · exact hn (s.mem_boundTo.mp hmem)
      · exact not_follows_of hn hst
  · intro at_ hmissing hthere hpresent hlong
    obtain ⟨rs, hrs⟩ := State.foldl_regainRegion_frame (s.regainSource s.cur.n) (s.boundTo s.cur.n)
    refine ⟨_, State.sourcePresent_eq hmissing hthere hpresent hlong, ?_, ?_, fun r => ⟨fun hmine hst => ?_, fun hnot => ?_⟩⟩
    · simp only [onlyClocks, hrs]
      rfl
    · rw [hrs]
      exact s.regainSource_missing s.cur.n
    · exact (State.foldl_regainRegion_regions s s.cur.n r).1 (s.mem_boundTo.mpr hmine) hst
    · refine (State.foldl_regainRegion_regions s s.cur.n r).2 (fun ⟨hmem, hst⟩ => ?_)
      rcases hnot with hn | hn
      · exact hn (s.mem_boundTo.mp hmem)
      · exact not_lasted_of hn hst

end Sys2Proof.Machine
